-- ==== Sys2Proof/Word.lean ====
section
/-! DEFINITION. The word types of the ZV-4810 and the plain index types of its fixed tables. -/

namespace Sys2Proof

/-- One byte of a port frame or a head bus frame (R173). -/
abbrev Byte := BitVec 8

/-- A bay number, 0 to 47 (R1). -/
abbrev BayNo := Fin 48

/-- A pool number, 0 to 7 (R43). -/
abbrev PoolNo := Fin 8

/-- A value of the device-seconds count, reckoned modulo 2^32 (R178). -/
abbrev Seconds := BitVec 32

/-- An absolute slot number, reckoned modulo 2^32 (R71). -/
abbrev SlotNo := BitVec 32

/-- The 48 bay numbers in ascending order (R1). -/
def allBays : List BayNo := List.finRange 48

/-- The 8 pool numbers in ascending order (R43). -/
def allPools : List PoolNo := List.finRange 8

end Sys2Proof
end

