-- ==== Sys2Proof/Syntax.lean ====
section
/-! DEFINITION. The commands of the ZV-4810: one constructor for each row of spec/opcode_table.json.

A command is one indivisible step of the part: a master's request taken on a port, a byte or an expiry at
a port, a tick of the time base, a timer running out, a change of the feed-level lines, or an event of the
head bus. A request row carries the port and the request's payload bytes as R175 lays them out. -/

namespace Sys2Proof

/-- The three master ports, whose role is fixed by their pins (R143); also a ticket's or booking's
origin (R26, R68). -/
inductive Port where
  | s
  | k
  | n
deriving DecidableEq, Repr

/-- The fields of a REPORT as they stand on the head bus (R176), before the check that each holds a
defined encoding (R126). -/
structure Report where
  /-- 1 EMPTY, 2 PRESENT. -/
  presence : Byte
  /-- 1 UNPLUGGED, 2 PLUGGED. -/
  plug : Byte
  /-- The reported demand in amperes, 0 to 255. -/
  demand : Byte
  /-- The energy increment in watt-hours. -/
  energy : BitVec 16
  /-- 0 OK, 1 FAULT. -/
  status : Byte
  /-- 1 to 255 with FAULT; not read with OK. -/
  faultCode : Byte
  /-- The setpoint echo, 0 to 15. -/
  echo : Byte
  /-- The tag echo. -/
  tagEcho : Byte
  /-- The presented code, 0 when none was read. -/
  code : BitVec 16
deriving DecidableEq, Repr

/-- The commands, in the order of spec/opcode_table.json. -/
inductive Instr where
  /-- POWER_RESET (R166): the reset ends with this code on the feed-level lines (R108). -/
  | powerReset (feed : BitVec 2)
  /-- DEVICE_SECONDS (R178): one second of the time base passes. -/
  | deviceSeconds
  /-- RECEIVE_BYTE (R144): a byte arrives on the port's receive line, with a framing error or without. -/
  | receiveByte (port : Port) (byte : Byte) (framingError : Bool)
  /-- INTER_BYTE_TIMER (R145): the port's inter-byte timer runs out. -/
  | interByteTimer (port : Port)
  /-- FRAME_ERROR (R146): a frame with this COMMAND byte, payload and CRC bytes completes on the port. -/
  | frameError (port : Port) (command : Byte) (payload : List Byte) (crcHigh crcLow : Byte)
  /-- UNKNOWN_COMMAND (R148): a frame with a good CRC and this COMMAND value completes on the port. -/
  | unknownCommand (port : Port) (command : Byte) (payload : List Byte)
  /-- RESPONSE_DEPARTURE (R147): the last byte of the port's response leaves. -/
  | responseDeparture (port : Port)
  | queryBay (port : Port) (payload : List Byte)
  | blockBay (port : Port) (payload : List Byte)
  | unblockBay (port : Port) (payload : List Byte)
  | clearFault (port : Port) (payload : List Byte)
  | requestBay (port : Port) (payload : List Byte)
  | adoptBay (port : Port) (payload : List Byte)
  | assignBay (port : Port) (payload : List Byte)
  | cancelTicket (port : Port) (payload : List Byte)
  | queryTicket (port : Port) (payload : List Byte)
  | acceptOffer (port : Port) (payload : List Byte)
  | declineOffer (port : Port) (payload : List Byte)
  | maskPool (port : Port) (payload : List Byte)
  | unmaskPool (port : Port) (payload : List Byte)
  | queryPool (port : Port) (payload : List Byte)
  | book (port : Port) (payload : List Byte)
  | cancelBooking (port : Port) (payload : List Byte)
  | queryBookings (port : Port) (payload : List Byte)
  | queryBooking (port : Port) (payload : List Byte)
  | setSlotClock (port : Port) (payload : List Byte)
  | setBands (port : Port) (payload : List Byte)
  | forceClose (port : Port) (payload : List Byte)
  | setCap (port : Port) (payload : List Byte)
  | queryPower (port : Port) (payload : List Byte)
  | readNotices (port : Port) (payload : List Byte)
  | openWindow (port : Port) (payload : List Byte)
  | readWindow (port : Port) (payload : List Byte)
  | setLevel (port : Port) (payload : List Byte)
  | setBay (port : Port) (payload : List Byte)
  | setPool (port : Port) (payload : List Byte)
  | setTimers (port : Port) (payload : List Byte)
  | queryConfig (port : Port) (payload : List Byte)
  | start (port : Port) (payload : List Byte)
  | reconfigure (port : Port) (payload : List Byte)
  | restart (port : Port) (payload : List Byte)
  /-- FEED_CODE_CHANGE (R108): the code on the two feed-level lines becomes this one. -/
  | feedCodeChange (code : BitVec 2)
  /-- DEBOUNCE_EXPIRY (R108). -/
  | debounceExpiry
  /-- HOLD_EXPIRY (R38): the hold timer of this ticket runs out. -/
  | holdExpiry (ticket : Nat)
  /-- LAPSE (R58): the offer timer of this ticket runs out. -/
  | lapse (ticket : Nat)
  /-- RECONNECT_EXPIRY (R98): the reconnect timer of this bay runs out. -/
  | reconnectExpiry (bay : BayNo)
  /-- SLOT_EXPIRY (R81). -/
  | slotExpiry
  /-- SWEEP_PERIOD_EXPIRY (R135). -/
  | sweepPeriodExpiry
  /-- KEEP_ALIVE_EXPIRY (R136). -/
  | keepAliveExpiry
  /-- PULL (R137): a head sends the bus SYNC byte. -/
  | pull
  /-- OPEN_SENT (R125). -/
  | openSent
  /-- REPORT (R19): a reply of kind REPORT arrives in the slot exchange in progress. -/
  | report (reply : Report)
  /-- BUSY (R132). -/
  | busy
  /-- SILENCE (R131). -/
  | silence
  /-- CORRUPT (R126): these bytes arrive in the reply window and are no valid reply. -/
  | corrupt (reply : List Byte)
  /-- CLOSE_SENT (R134). -/
  | closeSent
deriving DecidableEq, Repr

end Sys2Proof
end

