-- ==== Sys2Proof/Machine/Frames.lean ====
section
/-! DEFINITION. Frames: the CRC, the byte order of fields, the port frames and the replies of the head bus
(R173 to R176). -/

namespace Sys2Proof.Machine

/-- One bit of the check: polynomial 0x1021, most significant bit first (R174). -/
def crcBit (r : BitVec 16) : BitVec 16 :=
  if r.msb then (r <<< 1) ^^^ 0x1021#16 else r <<< 1

/-- One byte enters the check register (R174). -/
def crcByte (r : BitVec 16) (b : Byte) : BitVec 16 :=
  crcBit (crcBit (crcBit (crcBit (crcBit (crcBit (crcBit (crcBit
    (r ^^^ (b.setWidth 16 <<< 8)))))))))

/-- The 16-bit check of a run of bytes; its register starts at 0xFFFF (R174). -/
def crc (bytes : List Byte) : BitVec 16 := bytes.foldl crcByte 0xFFFF#16

/-- The two CRC bytes in the order in which they close a frame, high byte first (R174). -/
def crcBytes (r : BitVec 16) : List Byte := [r.extractLsb' 8 8, r.extractLsb' 0 8]

/-- A 1-byte field (R175). -/
def u8 (n : Nat) : Byte := BitVec.ofNat 8 n

/-- A 2-byte field, most significant byte first (R173). -/
def u16 (n : Nat) : List Byte := [u8 (n / 256), u8 n]

/-- A 4-byte field, most significant byte first (R173). -/
def u32 (n : Nat) : List Byte := [u8 (n / 16777216), u8 (n / 65536), u8 (n / 256), u8 n]

/-- The value of two bytes, most significant first (R173). -/
def of16 (hi lo : Byte) : Nat := hi.toNat * 256 + lo.toNat

/-- The value of four bytes, most significant first (R173). -/
def of32 (a b c d : Byte) : Nat := ((a.toNat * 256 + b.toNat) * 256 + c.toNat) * 256 + d.toNat

/-- The SYNC value of the ports (R175). -/
def portSync : Byte := 0xC3#8

/-- The SYNC value of the head bus (R176). -/
def busSync : Byte := 0x5A#8

/-- SYNC, the checked bytes and their CRC: the shape of every frame (R174 to R176). -/
def checkedFrame (sync : Byte) (body : List Byte) : List Byte :=
  sync :: (body ++ crcBytes (crc body))

/-- The bytes a request frame's CRC covers: LENGTH, COMMAND and payload. LENGTH counts COMMAND and the
payload (section 8.2, R175). -/
def requestBody (command : Byte) (payload : List Byte) : List Byte :=
  u8 (payload.length + 1) :: command :: payload

/-- A whole request frame with a good CRC (R175). -/
def requestFrame (command : Byte) (payload : List Byte) : List Byte :=
  checkedFrame portSync (requestBody command payload)

/-- A whole request frame with the given CRC bytes, good or bad (R146). -/
def requestFrameWith (command : Byte) (payload : List Byte) (crcHigh crcLow : Byte) : List Byte :=
  portSync :: (requestBody command payload ++ [crcHigh, crcLow])

/-- Whether every field of a REPORT holds a defined encoding (R126, R176). -/
def reportDefined (r : Report) : Bool :=
  (r.presence == 1#8 || r.presence == 2#8) && (r.plug == 1#8 || r.plug == 2#8) &&
  (r.status == 0#8 || (r.status == 1#8 && r.faultCode != 0#8)) && decide (r.echo.toNat ≤ 15)

/-- The outcomes of a reply window in which a reply has begun (R126). -/
inductive HeadReply where
  | report (r : Report)
  | busy
  | corrupt
deriving DecidableEq, Repr

/-- The bytes a REPORT's CRC covers (R176). -/
def reportBody (r : Report) : List Byte :=
  [0x03#8, r.presence, r.plug, r.demand, r.energy.extractLsb' 8 8, r.energy.extractLsb' 0 8, r.status,
    r.faultCode, r.echo, r.tagEcho, r.code.extractLsb' 8 8, r.code.extractLsb' 0 8]

/-- A REPORT as a head sends it (R176). -/
def reportFrame (r : Report) : List Byte := checkedFrame busSync (reportBody r)

/-- A BUSY reply as a head sends it (R176). -/
def busyFrame : List Byte := checkedFrame busSync [0x04#8]

/-- The reading of a reply's bytes. A reply that is incomplete, fails its check, has a length that does not
match its kind, is of another kind, or holds an undefined encoding is corrupt (R126, R176). -/
def parseReply : List Byte → HeadReply
  | [sync, kind, presence, plug, demand, e1, e0, status, fault, echo, tag, c1, c0, h, l] =>
    let r : Report := ⟨presence, plug, demand, e1 ++ e0, status, fault, echo, tag, c1 ++ c0⟩
    if sync = busSync ∧ kind = 0x03#8 ∧ [h, l] = crcBytes (crc (reportBody r)) ∧ reportDefined r then
      .report r
    else .corrupt
  | [sync, kind, h, l] =>
    if sync = busSync ∧ kind = 0x04#8 ∧ [h, l] = crcBytes (crc [0x04#8]) then .busy else .corrupt
  | _ => .corrupt

/-- The 34 COMMAND codes of the catalogue run from 0x10 to 0x31 (R175). -/
def commandKnown (command : Byte) : Bool := decide (0x10 ≤ command.toNat ∧ command.toNat ≤ 0x31)

end Sys2Proof.Machine
end

