-- ==== Sys2Proof/Config.lean ====
section
/-! DEFINITION. What the manual leaves to the part: values it names but does not state. -/

namespace Sys2Proof.Config

/-- FREE VALUE. The two bytes by which QUERY CONFIG reports the validity "none failing". R169 names the
outcome and R175 gives a coding for the failing checks only, so the bytes are left without a value:
nothing can be proved of them (assumption 12). -/
opaque noneFailingCode : Byte × Byte

/-- FREE VALUE. The byte by which QUERY CONFIG reports the operating state, for RUN (true) and for CONFIG
(false). R169 names the field and R175 gives no codes for it (assumption 12). -/
opaque opStateCode : Bool → Byte

end Sys2Proof.Config
end

