-- ==== Sys2Proof/Machine/State.lean ====
section
/-! DEFINITION. The state of the ZV-4810: plain data, block by block, as the manual's chapters give it, with
its values after power reset. The queue of waiting commands is the model's own. -/

namespace Sys2Proof.Machine

/-- The nine bay states (section 1.2), in the order of their codes (R175). -/
inductive BayState where
  | offline | free | offered | held | occupied | active | suspended | blocked | faulted
deriving DecidableEq, Repr

/-- Vehicle presence last taken from a REPORT (R2). -/
inductive Presence where
  | unknown | empty | present
deriving DecidableEq, Repr

/-- Plug condition last taken from a REPORT (R2). -/
inductive Plug where
  | unknown | unplugged | plugged
deriving DecidableEq, Repr

/-- Why a bay was taken out of service (R2): HEAD_FAULT with its code of 1 to 255, or HEAD_STALL. -/
inductive FaultCode where
  | headFault (code : Byte)
  | headStall
deriving DecidableEq, Repr

/-- The lamp a head shows (R8), in the order of the codes (R175). -/
inductive Lamp where
  | off | green | amber | white | blue | blueFlash | red
deriving DecidableEq, Repr

/-- Whether a bay's head answers (R129). -/
inductive Link where
  | online | silent | lost
deriving DecidableEq, Repr

/-- A ticket's class (R26). -/
inductive TicketClass where
  | standard | displaced | access
deriving DecidableEq, Repr

/-- The class of a request, of a booking (R68) and of a session (R91). -/
inductive Priority where
  | standard | access
deriving DecidableEq, Repr

/-- How a ticket came to be issued (R26). -/
inductive TicketKind where
  | walkIn | booked | auto
deriving DecidableEq, Repr

/-- The five states of a live ticket (section 2.2). -/
inductive TicketState where
  | waiting | offered | held | arrived | charging
deriving DecidableEq, Repr

/-- Which tickets a pool's bays may serve (R44). -/
inductive PoolKind where
  | general | restricted
deriving DecidableEq, Repr

/-- The feed tiers in the order of their feed codes (R107). -/
inductive Tier where
  | normal | reduced | critical | shed
deriving DecidableEq, Repr

/-- The three bands of the booking horizon (R73). -/
inductive Band where
  | frozen | opened | far
deriving DecidableEq, Repr

/-- Why a session closed (R103). -/
inductive CloseReason where
  | unplugged | forced | fault | linkLost
deriving DecidableEq, Repr

/-- Why an offer was withdrawn (R61). -/
inductive WithdrawReason where
  | booking | link | block
deriving DecidableEq, Repr

/-- Why a booking was dropped (R156). -/
inductive DropReason where
  | tableFull | queueFull | notRunning | unenrolled
deriving DecidableEq, Repr

/-- The status codes of a response (R154), in the order of their codes (R175). -/
inductive Status where
  | ok | queued | notReady | noRight | notOwner | noSuch | badArg | full | conflict | band | past
  | wrongState | lapsed | frameError | unknownCommand | badConfig
deriving DecidableEq, Repr

/-- The 18 kinds of notice with their fields (R156). -/
inductive Notice where
  | offer (ticket : Nat) (bay : BayNo) (seconds : Nat)
  | offerLapsed (ticket : Nat) (bay : BayNo)
  | offerWithdrawn (ticket : Nat) (bay : BayNo) (reason : WithdrawReason)
  | holdExpired (ticket : Nat) (bay : BayNo)
  | arrived (ticket : Nat) (bay : BayNo)
  | departed (ticket : Nat) (bay : BayNo)
  | sessionOpened (ticket : Nat) (bay : BayNo) (tag : Nat)
  | sessionClosed (ticket : Nat) (bay : BayNo) (reason : CloseReason) (energy : Nat) (duration : Seconds)
  | throttle (ticket : Nat) (bay : BayNo) (on : Bool)
  | requeued (ticket : Nat) (pool : PoolNo) (position : Nat)
  | bookingActive (booking ticket : Nat) (bay : BayNo)
  | bookingDisplaced (booking ticket : Nat) (pool : PoolNo)
  | bookingDropped (booking : Nat) (reason : DropReason)
  | bayState (bay : BayNo) (state : BayState) (link : Link) (fault : Option FaultCode)
  | feed (tier : Tier) (budget : Nat)
  | wrongBay (bay : BayNo) (code : Nat)
  | codeUnknown (bay : BayNo) (code : Nat)
  | noTicket (bay : BayNo)
deriving DecidableEq, Repr

/-- The session part of a bay record (R91). The bay's reconnect timer runs exactly while the reconnect
deadline is present (R91, R97, R100, R102). -/
structure Session where
  tag : Nat
  ticket : Nat
  cls : Priority
  opened : Seconds
  energy : Nat
  demand : Nat
  reconnect : Option Seconds
deriving DecidableEq, Repr

/-- A bay record (R2), less its list of bookings, which the booking unit keeps (R69). -/
structure Bay where
  enrolled : Bool
  pool : PoolNo
  rating : Nat
  state : BayState
  presence : Presence
  plug : Plug
  ticket : Option Nat
  blockPending : Bool
  fault : Option FaultCode
  tagCounter : Nat
  session : Option Session
deriving DecidableEq, Repr

/-- A ticket entry (R26). Its hold timer runs exactly while it holds a hold deadline (R35, R37), its offer
timer exactly while it holds an offer deadline (R55, R61). -/
structure Ticket where
  number : Nat
  origin : Port
  kind : TicketKind
  cls : TicketClass
  pool : PoolNo
  stay : Nat
  state : TicketState
  bay : Option BayNo
  offerDeadline : Option Seconds
  holdDeadline : Option Seconds
  lastDeclined : Option BayNo
  booking : Option Nat
deriving DecidableEq, Repr

/-- A pool record (R43); the wait queue is a list of ticket numbers, its head first (R46). -/
structure Pool where
  configured : Bool
  kind : PoolKind
  masked : Bool
  pointer : Option BayNo
  queue : List Nat
deriving DecidableEq, Repr

/-- A booking record (R68), less its bay, which is the list it stands in (R69). -/
structure Booking where
  number : Nat
  origin : Port
  start : SlotNo
  length : Nat
  cls : Priority
deriving DecidableEq, Repr

/-- The band partition F_b, O_b and T_b (R73). -/
structure Bands where
  frozen : Nat
  opened : Nat
  far : Nat
deriving DecidableEq, Repr

/-- The booking unit: the book as its 48 per-bay lists (R69), the booking number counter (R70), the slot
clock (R71) and the band partition (R73). slotDue is the model's own: the seconds into slot have reached
900 and the slot expiry has not been taken (assumption 3). -/
structure BookingUnit where
  book : Vector (List Booking) 48
  counter : Nat
  slotNow : SlotNo
  secondsIntoSlot : Nat
  slotDue : Bool
  bands : Bands
deriving DecidableEq, Repr

/-- A setpoint record (R116). -/
structure Setpoint where
  target : Nat
  issued : Nat
  seq : Nat
  acked : Nat
  throttled : Bool
deriving DecidableEq, Repr

/-- The power unit: the feed-level lines and the debounce (R107, R108), the level settings (R109) and the
setpoint records (R116). rating is C, base is B, fallback is F and cap is K. debounce is the deadline of the
debounce timer, which runs exactly while it is present (R108, R178, assumption 17). -/
structure PowerUnit where
  lines : BitVec 2
  tier : Tier
  candidate : BitVec 2
  debounce : Option Seconds
  rating : Nat
  base : Nat
  fallback : Nat
  cap : Nat
  setpoints : Vector Setpoint 48
deriving DecidableEq, Repr

/-- A link record (R129). -/
structure LinkRecord where
  link : Link
  silence : Nat
  busy : Nat
  lastLamp : Lamp
deriving DecidableEq, Repr

/-- The kind of a CLOSE (R134). -/
inductive CloseKind where
  | short | long
deriving DecidableEq, Repr

/-- The four sweep states (R125); CLOSING with the kind of the CLOSE that is being sent (R134). -/
inductive SweepState where
  | idle
  | opening
  | slot (bay : BayNo)
  | closing (kind : CloseKind)
deriving DecidableEq, Repr

/-- The two bus modes (section 7.4). -/
inductive BusMode where
  | timed | listen
deriving DecidableEq, Repr

/-- The fields of a slot command (R127). -/
structure SlotCommand where
  bay : BayNo
  tag : Nat
  setpoint : Nat
  seq : Nat
  fallback : Nat
  lamp : Lamp
deriving DecidableEq, Repr

/-- The frames the controller sends (R176). restOfOpening is what it sends to complete a pull: the pulling head
has sent the SYNC byte of the OPEN. -/
inductive BusFrame where
  | opening
  | restOfOpening
  | slot (command : SlotCommand)
  | close (kind : CloseKind)
deriving DecidableEq, Repr

/-- The head bus controller: the sweep state and mode (R125, section 7.4), the deadlines of the sweep period
timer and of the keep-alive timer, each of which runs exactly while its deadline is present (R135, R136, R178,
assumption 17), the link records (R129), and the frame last sent, which is what the heads hear. -/
structure HeadBus where
  sweep : SweepState
  mode : BusMode
  sweepTimer : Option Seconds
  keepAlive : Option Seconds
  links : Vector LinkRecord 48
  sent : Option BusFrame
deriving DecidableEq, Repr

/-- The receive states of a port unit (R143). -/
inductive RecvState where
  | idle | receiving | taking | responding | flushing
deriving DecidableEq, Repr

/-- The four flags of a response (R153). -/
structure RespFlags where
  overrun : Bool
  dropped : Bool
  attention : Bool
  clamped : Bool
deriving DecidableEq, Repr

/-- A response as it was built: it is on its way until its last byte leaves (R152). -/
structure Response where
  status : Status
  flags : RespFlags
  payload : List Byte
deriving DecidableEq, Repr

/-- The order of a status window (R163). -/
inductive WindowOrder where
  | aisleFirst | positionFirst
deriving DecidableEq, Repr

/-- An open status window (R163). -/
structure Window where
  aisleFirst : Fin 6
  aisleLast : Fin 6
  posFirst : Fin 8
  posLast : Fin 8
  order : WindowOrder
  revAisle : Bool
  revPos : Bool
  pointer : BayNo
  fresh : Bool
deriving DecidableEq, Repr

/-- A port unit (R143). discarded says whether a byte was discarded while the port was in TAKING or
RESPONDING for the present request (R147); response is the response being sent. -/
structure PortUnit where
  recv : RecvState
  frame : List Byte
  timer : Bool
  dropped : Bool
  discarded : Bool
  response : Option Response
  window : Option Window
deriving DecidableEq, Repr

/-- A notice queue, oldest first, with its OVERRUN flag (R157, R160). The attention line is asserted exactly
while the queue is not empty (R161). -/
structure NoticeQueue where
  notices : List Notice
  overrun : Bool
deriving DecidableEq, Repr

/-- One value for each of the three ports. -/
structure PerPort (α : Type) where
  s : α
  k : α
  n : α
deriving DecidableEq, Repr

/-- The operating state (R166). -/
inductive OpState where
  | config | run
deriving DecidableEq, Repr

/-- The three timer settings, in seconds (R167). -/
structure Timers where
  grace : Nat
  offer : Nat
  reconnect : Nat
deriving DecidableEq, Repr

/-- The whole part, and the queue of the commands that wait to be taken, first in, first out. What the manual
derives from this state is not stored twice (assumption 17). -/
structure State where
  /-- The operating state (R166). -/
  opState : OpState
  /-- The device seconds (R178). -/
  deviceSeconds : Seconds
  /-- The timer settings (R167). -/
  timers : Timers
  /-- The 48 bay records (R1, R2). -/
  bays : Vector Bay 48
  /-- The admission list (R94). -/
  admission : List BayNo
  /-- The ticket entries, in the order of their issue (R26). -/
  tickets : List Ticket
  /-- The ticket number counter (R28). -/
  ticketCounter : Nat
  /-- The 8 pool records (R43). -/
  pools : Vector Pool 8
  /-- The booking unit (R68 to R74). -/
  booking : BookingUnit
  /-- The power unit (R107 to R116). -/
  power : PowerUnit
  /-- The head bus controller (R125 to R136). -/
  bus : HeadBus
  /-- The port units (R143). -/
  ports : PerPort PortUnit
  /-- The notice queues (R157). -/
  queues : PerPort NoticeQueue
  /-- The commands that wait, first in, first out (the model's own). -/
  pending : List Instr
deriving DecidableEq, Repr

/-- Why the part stops with a fault. It has no constructor: the manual gives every command an effect in every
state, so no meaning stops with one (safe: nothing is cut short). -/
inductive Fault where
deriving DecidableEq, Repr

/-- Why a command has no meaning. -/
inductive Refusal where
  /-- Raised by exec for a row without a meaning; no arm of this model raises it (safe). -/
  | notModelled (mnemonic : String)
deriving DecidableEq, Repr

/-! ### Values after power reset -/

/-- A bay record after power reset (R4). -/
def Bay.powerOn : Bay :=
  { enrolled := false, pool := 0, rating := 32, state := .offline, presence := .unknown, plug := .unknown,
    ticket := none, blockPending := false, fault := none, tagCounter := 255, session := none }

/-- A pool record after power reset (R45). -/
def Pool.powerOn : Pool :=
  { configured := false, kind := .general, masked := false, pointer := none, queue := [] }

/-- A setpoint record's reset values (R124). -/
def Setpoint.cleared : Setpoint :=
  { target := 0, issued := 0, seq := 0, acked := 0, throttled := false }

/-- A link record's reset values (R129). -/
def LinkRecord.cleared : LinkRecord :=
  { link := .lost, silence := 3, busy := 0, lastLamp := .off }

/-- The booking unit after power reset (R90). -/
def BookingUnit.powerOn : BookingUnit :=
  { book := Vector.replicate 48 [], counter := 1, slotNow := 0#32, secondsIntoSlot := 0, slotDue := false,
    bands := { frozen := 2, opened := 70, far := 24 } }

/-- The power unit after power reset, with the code that stands on the lines as its candidate and the
debounce timer started at device second 0, to run out 2 s later (R108, R124, R178). -/
def PowerUnit.powerOn (feed : BitVec 2) : PowerUnit :=
  { lines := feed, tier := .normal, candidate := feed, debounce := some 2#32, rating := 0, base := 0,
    fallback := 6, cap := 2000, setpoints := Vector.replicate 48 Setpoint.cleared }

/-- The head bus after power reset (R125, R142). -/
def HeadBus.powerOn : HeadBus :=
  { sweep := .idle, mode := .timed, sweepTimer := none, keepAlive := none,
    links := Vector.replicate 48 LinkRecord.cleared, sent := none }

/-- A port unit after power reset (R143, R163). -/
def PortUnit.powerOn : PortUnit :=
  { recv := .idle, frame := [], timer := false, dropped := false, discarded := false, response := none,
    window := none }

/-- A notice queue after power reset (R157, R160). -/
def NoticeQueue.empty : NoticeQueue := { notices := [], overrun := false }

/-- The part when a power reset ends with this code on the feed-level lines (R166). -/
def State.powerOn (feed : BitVec 2) : State :=
  { opState := .config, deviceSeconds := 0#32,
    timers := { grace := 600, offer := 60, reconnect := 120 },
    bays := Vector.replicate 48 Bay.powerOn, admission := [], tickets := [], ticketCounter := 1,
    pools := Vector.replicate 8 Pool.powerOn, booking := BookingUnit.powerOn,
    power := PowerUnit.powerOn feed, bus := HeadBus.powerOn,
    ports := ⟨PortUnit.powerOn, PortUnit.powerOn, PortUnit.powerOn⟩,
    queues := ⟨NoticeQueue.empty, NoticeQueue.empty, NoticeQueue.empty⟩, pending := [] }

/-- The machine right after reset: a power reset that ends with both feed-level lines deasserted, feed code 0
(assumption 1), and no command waiting. -/
def State.reset : State := State.powerOn 0#2

end Sys2Proof.Machine
end

