-- ==== Sys2Proof/Machine/Ops.lean ====
section
/-! DEFINITION. The named operations every block uses: reading and writing one record of a table, finding and
changing a ticket, the time base, the notice unit (Chapter 9) and the change of a bay record with its
BAY_STATE (R7). -/

namespace Sys2Proof.Machine

/-! ### One value per port -/

def PerPort.get {α : Type} (x : PerPort α) : Port → α
  | .s => x.s
  | .k => x.k
  | .n => x.n

def PerPort.set {α : Type} (x : PerPort α) (p : Port) (v : α) : PerPort α :=
  match p with
  | .s => { x with s := v }
  | .k => { x with k := v }
  | .n => { x with n := v }

/-- The same change at each of the three ports. -/
def PerPort.mapAll {α : Type} (x : PerPort α) (f : α → α) : PerPort α := ⟨f x.s, f x.k, f x.n⟩

/-! ### Reading and writing one record -/

/-- The bay record of a bay (R2). -/
def State.bay (s : State) (b : BayNo) : Bay := s.bays[b]

/-- Write a bay record without any other effect. -/
def State.setBay (s : State) (b : BayNo) (x : Bay) : State := { s with bays := s.bays.set b x }

/-- The pool record of a pool (R43). -/
def State.pool (s : State) (p : PoolNo) : Pool := s.pools[p]

def State.setPool (s : State) (p : PoolNo) (x : Pool) : State := { s with pools := s.pools.set p x }

/-- The list of a bay's bookings, in ascending order of start (R69). -/
def State.bookings (s : State) (b : BayNo) : List Booking := s.booking.book[b]

def State.setBookings (s : State) (b : BayNo) (l : List Booking) : State :=
  { s with booking := { s.booking with book := s.booking.book.set b l } }

/-- The setpoint record of a bay (R116). -/
def State.setpoint (s : State) (b : BayNo) : Setpoint := s.power.setpoints[b]

def State.setSetpoint (s : State) (b : BayNo) (x : Setpoint) : State :=
  { s with power := { s.power with setpoints := s.power.setpoints.set b x } }

/-- The link record of a bay (R129). -/
def State.link (s : State) (b : BayNo) : LinkRecord := s.bus.links[b]

def State.setLink (s : State) (b : BayNo) (x : LinkRecord) : State :=
  { s with bus := { s.bus with links := s.bus.links.set b x } }

/-- The port unit of a port (R143). -/
def State.port (s : State) (p : Port) : PortUnit := s.ports.get p

def State.setPort (s : State) (p : Port) (x : PortUnit) : State := { s with ports := s.ports.set p x }

/-- The notice queue of a port (R157). -/
def State.queue (s : State) (p : Port) : NoticeQueue := s.queues.get p

def State.setQueue (s : State) (p : Port) (x : NoticeQueue) : State :=
  { s with queues := s.queues.set p x }

/-! ### The ticket table's entries -/

/-- The live ticket of a number (R26, R29). -/
def State.ticket? (s : State) (n : Nat) : Option Ticket := s.tickets.find? (fun t => t.number == n)

/-- Change the entry of a ticket, where it is live. -/
def State.modTicket (s : State) (n : Nat) (f : Ticket → Ticket) : State :=
  { s with tickets := s.tickets.map (fun t => if t.number = n then f t else t) }

/-! ### The time base (R178) -/

/-- A deadline: the count as it stands plus the timer's length, modulo 2^32 (R178). -/
def State.deadline (s : State) (seconds : Nat) : Seconds := s.deviceSeconds + BitVec.ofNat 32 seconds

/-- The count has reached a deadline (R178), read on the half of the wrap that lies behind the count. -/
def State.reached (s : State) (deadline : Seconds) : Bool :=
  decide ((s.deviceSeconds - deadline).toNat < 2147483648)

/-- A timer has run out: its deadline is present and the device seconds have reached it (R178, assumption 4). -/
def State.isDue (s : State) (deadline : Option Seconds) : Bool :=
  match deadline with
  | some d => s.reached d
  | none => false

/-- The offset of a start slot: its distance from the current slot, modulo 2^32, read as a signed number
(R71). -/
def offsetFrom (now start : SlotNo) : Int := (start - now).toInt

/-- A booking's offset against the current slot (R71). -/
def State.offset (s : State) (k : Booking) : Int := offsetFrom s.booking.slotNow k.start

/-! ### The notice unit (R157 to R161) -/

/-- A raised notice updates this unread entry in place: a BAY_STATE of the same bay, or a FEED (R159). -/
def Notice.coalesces (new old : Notice) : Bool :=
  match new, old with
  | .bayState b _ _ _, .bayState b' _ _ _ => b == b'
  | .feed _ _, .feed _ _ => true
  | _, _ => false

/-- A notice taken at a queue (R158): appended at the tail, or discarded with OVERRUN set when the queue
holds 24. -/
def NoticeQueue.append (q : NoticeQueue) (n : Notice) : NoticeQueue :=
  if q.notices.length < 24 then { q with notices := q.notices ++ [n] } else { q with overrun := true }

/-- A notice taken at the S queue: coalesced where an unread entry of its kind stands (R159), else taken as
at any queue. -/
def NoticeQueue.coalesce (q : NoticeQueue) (n : Notice) : NoticeQueue :=
  if q.notices.any (fun m => n.coalesces m) then
    { q with notices := q.notices.map (fun m => if n.coalesces m then n else m) }
  else q.append n

/-- Raise a notice to a port (R158, R159). -/
def State.raise (s : State) (p : Port) (n : Notice) : State :=
  s.setQueue p (if p = .s then (s.queue p).coalesce n else (s.queue p).append n)

/-- Raise a notice to an origin and to S; where the origin is S, one copy (R156). -/
def State.raiseBoth (s : State) (origin : Port) (n : Notice) : State :=
  if origin = .s then s.raise .s n else (s.raise origin n).raise .s n

/-- Raise a notice to the origin of a ticket, where the ticket is live (R27). -/
def State.raiseTo (s : State) (ticket : Nat) (n : Notice) : State :=
  match s.ticket? ticket with
  | some t => s.raise t.origin n
  | none => s

/-! ### Changing a bay record (R7) -/

/-- The BAY_STATE of a bay: its state, its link and, unless it is not FAULTED, its fault code (R7). -/
def State.bayNotice (s : State) (b : BayNo) : Notice :=
  .bayState b (s.bay b).state (s.link b).link
    (if (s.bay b).state = .faulted then (s.bay b).fault else none)

/-- The bay's state changes, or its fault code changes while it is FAULTED (R7). -/
def Bay.shows (old new : Bay) : Bool :=
  decide (new.state ≠ old.state) || (decide (new.state = .faulted) && decide (new.fault ≠ old.fault))

/-- Change a bay record; where its state or its fault code changes, raise BAY_STATE to S (R7). An unread
BAY_STATE of the bay is updated in place (R159), so that a bay that passes through several states while one
event is taken leaves one notice with the state it is left in (assumption 6). -/
def State.changeBay (s : State) (b : BayNo) (f : Bay → Bay) : State :=
  let s' := s.setBay b (f (s.bay b))
  if (s.bay b).shows (f (s.bay b)) then s'.raise .s (s'.bayNotice b) else s'

end Sys2Proof.Machine
end

