-- ==== Sys2Proof/Machine/PowerBudget.lean ====
section
/-! DEFINITION. The power unit (Chapter 6): the budget, the targets, the throttled flags and the staged
issue. -/

namespace Sys2Proof.Machine

/-- The tier that a feed code names (R107). -/
def tierOf (code : BitVec 2) : Tier :=
  match code.toNat with
  | 0 => .normal
  | 1 => .reduced
  | 2 => .critical
  | _ => .shed

/-- The percentage of the level rating that a tier allows (R107). -/
def Tier.pct : Tier → Nat
  | .normal => 100
  | .reduced => 75
  | .critical => 40
  | .shed => 0

/-- The available budget A = max(0, min(K, floor(C × pct / 100)) − B) (R111). -/
def PowerUnit.budget (p : PowerUnit) : Nat := min p.cap (p.rating * p.tier.pct / 100) - p.base

/-- n_s, the number of SUSPENDED bays (R111). -/
def State.suspendedCount (s : State) : Nat :=
  allBays.countP (fun b => decide ((s.bay b).state = .suspended))

/-- A′ = max(0, A − F × n_s), the budget left for active sessions (R111). -/
def State.activeBudget (s : State) : Nat := s.power.budget - s.power.fallback * s.suspendedCount

/-- The capped demand c of a bay: 0 unless the bay is ACTIVE, and 0 below 6 A (R112). -/
def Bay.cappedDemand (x : Bay) : Nat :=
  match x.state, x.session with
  | .active, some k => if min k.demand x.rating < 6 then 0 else min k.demand x.rating
  | _, _ => 0

/-- The bay's session is of class ACCESS (R91). -/
def Bay.accessSession (x : Bay) : Bool :=
  match x.session with
  | some k => decide (k.cls = .access)
  | none => false

/-- The participating bays in allocation order: the ACCESS sessions first, each class in the order of the
admission list (R112). -/
def State.participants (s : State) : List BayNo :=
  let ps := s.admission.filter (fun b => decide (6 ≤ (s.bay b).cappedDemand))
  ps.filter (fun b => (s.bay b).accessSession) ++ ps.filter (fun b => !(s.bay b).accessSession)

/-- The leftover, handed out 1 A at a time in order, once to each share still below its cap (R114). -/
def handOut : Nat → List (Nat × Nat) → List Nat
  | _, [] => []
  | 0, (x, _) :: r => x :: handOut 0 r
  | l + 1, (x, c) :: r => if x < c then (x + 1) :: handOut l r else x :: handOut (l + 1) r

/-- The targets of the admitted bays from their capped demands and the budget left after the minimum pass
(R114). -/
def admittedShares (spare : Nat) (caps : List Nat) : List Nat :=
  let head := caps.map (fun c => c - 6)
  if head.sum ≤ spare then caps
  else
    let floors := head.map (fun h => spare * h / head.sum)
    handOut (spare - floors.sum) ((floors.zip caps).map (fun x => (6 + x.1, x.2)))

/-- The targets of the participating bays, in allocation order, from their capped demands and A′ (R113,
R114): every capped demand where they fit, else 6 A and a share for the first k bays and 0 for the rest. -/
def shares (budget : Nat) (caps : List Nat) : List Nat :=
  if caps.sum ≤ budget then caps
  else
    let k := min caps.length (budget / 6)
    admittedShares (budget - 6 * k) (caps.take k) ++ List.replicate (caps.length - k) 0

/-- The targets of the participating bays (R113, R114). -/
def State.targets (s : State) : List (BayNo × Nat) :=
  s.participants.zip (shares s.activeBudget (s.participants.map (fun b => (s.bay b).cappedDemand)))

/-- The target of an ACTIVE bay in a list of targets; a bay that does not take part has target 0 (R112). -/
def targetOf (targets : List (BayNo × Nat)) (b : BayNo) : Nat := (targets.lookup b).getD 0

/-- The setpoint record with its new issued value; the sequence steps, with 15 followed by 0, where the value
changes (R117). -/
def Setpoint.issue (x : Setpoint) (v : Nat) : Setpoint :=
  if v = x.issued then x else { x with issued := v, seq := (x.seq + 1) % 16 }

/-- The ACTIVE bays take their targets from a list of targets, and their throttled flags with them (R115). -/
def State.retargetTo (s : State) (targets : List (BayNo × Nat)) : State :=
  { s with power := { s.power with setpoints := Vector.ofFn (fun b : BayNo =>
      if (s.bay b).state = .active then
        { s.setpoint b with
          target := targetOf targets b,
          throttled := decide (targetOf targets b < (s.bay b).cappedDemand) }
      else s.setpoint b) } }

/-- The targets and throttled flags of the ACTIVE bays as a recompute sets them (R112 to R115). -/
def State.retarget (s : State) : State := s.retargetTo s.targets

/-- The decrease step: each ACTIVE bay whose target is no more than its acked value is issued its target
(R119). -/
def State.decreaseStep (s : State) : State :=
  { s with power := { s.power with setpoints := Vector.ofFn (fun b : BayNo =>
      if (s.bay b).state = .active ∧ (s.setpoint b).target ≤ (s.setpoint b).acked then
        (s.setpoint b).issue (s.setpoint b).target
      else s.setpoint b) } }

/-- The committed load Q: the sum over all bays of the larger of issued and acked (R116). -/
def committedLoad (v : Vector Setpoint 48) : Nat :=
  (allBays.map (fun b => max v[b].issued v[b].acked)).sum

/-- One bay of the raise step (R120): an in-flight raise that the target no longer needs is lowered;
otherwise the bay is granted what the spare A − Q allows, unless that leaves it below 6 A. -/
def raiseOne (budget : Nat) (v : Vector Setpoint 48) (b : BayNo) : Vector Setpoint 48 :=
  let x := v[b]
  if x.target ≤ x.acked then v
  else if x.target ≤ x.issued then v.set b (x.issue x.target)
  else
    let base := max x.issued x.acked
    let value := base + min (x.target - base) (budget - committedLoad v)
    if value < 6 then v else v.set b (x.issue value)

/-- The raise step, over the participating bays in allocation order (R120). -/
def State.raiseStep (s : State) : State :=
  { s with power := { s.power with
      setpoints := s.participants.foldl (raiseOne s.power.budget) s.power.setpoints } }

/-- The THROTTLE of a bay whose flag a recompute has changed, to the origin of the bay's ticket (R115). -/
def State.throttleNotice (before s : State) (b : BayNo) : State :=
  if (s.bay b).state = .active ∧ (s.setpoint b).throttled ≠ (before.setpoint b).throttled then
    match (s.bay b).ticket with
    | some n => s.raiseTo n (.throttle n b (s.setpoint b).throttled)
    | none => s
  else s

/-- A recompute (R121): the targets and flags, the decrease step, the raise step, and the THROTTLE notices
in admission-list order (R115). -/
def State.recompute (s : State) : State :=
  let s' := s.retarget.decreaseStep.raiseStep
  s.admission.foldl (fun r b => s.throttleNotice r b) s'

/-- The recompute of an event that is taken in CONFIG and in RUN: the targets are recomputed in RUN only
(R108, R109). -/
def State.recomputeInRun (s : State) : State := if s.opState = .run then s.recompute else s

/-- FEED to S where the event has changed the tier in force or A (R111). -/
def State.raiseFeed (before s : State) : State :=
  if s.power.tier ≠ before.power.tier ∨ s.power.budget ≠ before.power.budget then
    s.raise .s (.feed s.power.tier s.power.budget)
  else s

/-- The setpoint record as a session opens (R122). -/
def Setpoint.started (x : Setpoint) : Setpoint :=
  { x.issue 0 with target := 0, acked := 0, throttled := false }

/-- The setpoint record as a session is suspended or resumes, with F (R122). -/
def Setpoint.fallBack (x : Setpoint) (f : Nat) : Setpoint := { x.issue f with target := 0, acked := f }

/-- The setpoint record as a session closes (R122). -/
def Setpoint.ended (x : Setpoint) : Setpoint := { x.issue 0 with target := 0, throttled := false }

/-- When F changes in RUN, every SUSPENDED bay's issued and acked values become the new F (R109). -/
def State.refall (s : State) : State :=
  { s with power := { s.power with setpoints := Vector.ofFn (fun b : BayNo =>
      if (s.bay b).state = .suspended then
        { (s.setpoint b).issue s.power.fallback with acked := s.power.fallback }
      else s.setpoint b) } }

/-- The level settings take new values: F's change reaches the SUSPENDED bays, FEED is raised where A
changes, and in RUN the targets are recomputed (R109, R111, R121). -/
def State.setLevelTo (s : State) (c b f : Nat) : State :=
  let s1 : State := { s with power := { s.power with rating := c, base := b, fallback := f } }
  let s2 := if s.opState = .run ∧ f ≠ s.power.fallback then s1.refall else s1
  (s.raiseFeed s2).recomputeInRun

/-- The supervisor cap takes a value (R110). -/
def State.setCapTo (s : State) (k : Nat) : State :=
  (s.raiseFeed { s with power := { s.power with cap := k } }).recomputeInRun

/-- The candidate code is taken and the debounce timer stops (R108). -/
def State.takeCandidate (s : State) : State :=
  let s1 : State := { s with power := { s.power with debounce := none } }
  if tierOf s.power.candidate = s.power.tier then s1
  else
    (s.raiseFeed { s1 with power := { s1.power with tier := tierOf s.power.candidate } }).recomputeInRun

/-- The setpoint echo of a REPORT: an echo of the issued sequence acknowledges the issued value; where that
changes acked, the targets are recomputed (R118). -/
def State.takeEcho (s : State) (b : BayNo) (echo : Nat) : State :=
  let x := s.setpoint b
  if echo = x.seq then
    if x.issued = x.acked then s
    else (s.setSetpoint b { x with acked := x.issued }).recompute
  else s

end Sys2Proof.Machine
end

