-- ==== Sys2Proof/Machine/TicketTable.lean ====
section
/-! DEFINITION. The ticket table (Chapter 2): numbering, issue, holds and freeing. -/

namespace Sys2Proof.Machine

/-- The number after a ticket or booking number, with 65535 followed by 1 (R28, R70). -/
def nextNumber (n : Nat) : Nat := if 65535 ≤ n then 1 else n + 1

/-- The first number at or after the counter that is not live, tested in at most as many steps as there are
live numbers (R28, R70). -/
def freeNumber (live : List Nat) : Nat → Nat → Nat
  | 0, n => n
  | k + 1, n => if n ∈ live then freeNumber live k (nextNumber n) else n

/-- The live ticket numbers (R26). -/
def State.liveTickets (s : State) : List Nat := s.tickets.map (fun t => t.number)

/-- The number the ticket table would take for the next issue (R28). -/
def State.nextTicket (s : State) : Nat :=
  freeNumber s.liveTickets s.liveTickets.length s.ticketCounter

/-- The ticket table has a free entry (R26). -/
def State.tableRoom (s : State) : Bool := decide (s.tickets.length < 64)

/-- Issue a ticket: the entry joins the table and its number is spent (R28). The caller has tested the
table's room. -/
def State.issue (s : State) (t : Ticket) : State :=
  { s with tickets := s.tickets ++ [t], ticketCounter := nextNumber t.number }

/-- The class of a ticket whose request or booking asks for a priority (R27). -/
def Priority.ticketClass : Priority → TicketClass
  | .standard => .standard
  | .access => .access

/-- The class of the session of a ticket (R91). -/
def TicketClass.priority : TicketClass → Priority
  | .access => .access
  | _ => .standard

/-- A stay or its default: 0 is taken as 8 and a stay above 16 as 16 (R31, R34). -/
def takenStay (stay : Nat) : Nat := if stay = 0 then 8 else min stay 16

/-- Only a stay above 16 marks the response CLAMPED (R31, R34). -/
def stayClamped (stay : Nat) : Bool := decide (16 < stay)

/-- The wait queue of a pool less a ticket: the tickets behind it move up (R48). -/
def State.leaveQueue (s : State) (p : PoolNo) (n : Nat) : State :=
  s.setPool p { s.pool p with queue := (s.pool p).queue.filter (fun m => m != n) }

/-- The bay's ticket field is removed where it names the ticket (R2, R40). -/
def State.unname (s : State) (b : BayNo) (n : Nat) : State :=
  if (s.bay b).ticket = some n then s.setBay b { s.bay b with ticket := none } else s

/-- Free a ticket (R40): it leaves its wait queue, its timers are gone with its deadlines, its bay's ticket
field is removed and its number stops being live. The state of the bay is the caller's. -/
def State.freeTicket (s : State) (n : Nat) : State :=
  match s.ticket? n with
  | none => s
  | some t =>
    let s1 := if t.state = .waiting ∨ t.state = .offered then s.leaveQueue t.pool n else s
    let s2 := match t.bay with
      | some b => s1.unname b n
      | none => s1
    { s2 with tickets := s2.tickets.filter (fun t => t.number != n) }

/-- A ticket becomes HELD at a bay (R35): its deadline is set, its last declined bay is cleared, and the bay
becomes HELD and names it. -/
def State.holdAt (s : State) (n : Nat) (b : BayNo) : State :=
  (s.modTicket n (fun t => { t with
      state := .held, bay := some b, offerDeadline := none,
      holdDeadline := some (s.deadline s.timers.grace), lastDeclined := none })).changeBay b
    (fun x => { x with state := .held, ticket := some n })

/-- Arrival at a HELD bay (R12, R37): the hold ends, ARRIVED goes to the origin and the bay becomes OCCUPIED,
bound. A plug-in that follows is the caller's. -/
def State.arrive (s : State) (n : Nat) (b : BayNo) : State :=
  ((s.modTicket n (fun t => { t with state := .arrived, holdDeadline := none })).raiseTo n
    (.arrived n b)).changeBay b (fun x => { x with state := .occupied })

end Sys2Proof.Machine
end

