-- ==== Sys2Proof/Machine/PoolUnit.lean ====
section
/-! DEFINITION. The pool unit (Chapter 3): wait queues, eligibility and the guard, rotation, matching runs,
offers, withdrawal and requeue. -/

namespace Sys2Proof.Machine

/-! ### Wait queues (R46 to R48) -/

/-- The place of a class in the order of a wait queue (R46). -/
def TicketClass.rank : TicketClass → Nat
  | .access => 0
  | .displaced => 1
  | .standard => 2

/-- The rank of a queued ticket. -/
def State.rankOf (s : State) (n : Nat) : Nat :=
  match s.ticket? n with
  | some t => t.cls.rank
  | none => 2

/-- A ticket of a rank joins a queue as the last of its class: behind every ticket of its own class and of
the classes ahead of it (R47). -/
def joinAt (rank : Nat → Nat) (n r : Nat) : List Nat → List Nat
  | [] => [n]
  | m :: q => if rank m ≤ r then m :: joinAt rank n r q else n :: m :: q

/-- A queue has room for a ticket that would join (R46, R47). -/
def State.queueRoom (s : State) (p : PoolNo) : Bool := decide ((s.pool p).queue.length < 12)

/-- A live ticket joins the queue of a pool as the last of its class (R47). -/
def State.joinQueue (s : State) (p : PoolNo) (n : Nat) : State :=
  s.setPool p { s.pool p with queue := joinAt s.rankOf n (s.rankOf n) (s.pool p).queue }

/-- A ticket moves to the back of its class (R48). -/
def State.toBack (s : State) (p : PoolNo) (n : Nat) : State := (s.leaveQueue p n).joinQueue p n

/-- The position of a ticket in a queue, counted from 1 at the head (R46). -/
def State.position (s : State) (p : PoolNo) (n : Nat) : Nat := (s.pool p).queue.idxOf n + 1

/-! ### Eligibility (R49, R50) -/

/-- The guard: every booking in the bay's list has an offset greater than the ticket's stay (R50). -/
def State.guardHolds (s : State) (b : BayNo) (stay : Nat) : Bool :=
  (s.bookings b).all (fun k => decide ((stay : Int) < s.offset k))

/-- The kind of a pool admits a ticket (R44). -/
def PoolKind.admitsTicket (k : PoolKind) (t : Ticket) : Bool :=
  match k with
  | .general => true
  | .restricted => decide (t.cls = .access) || decide (t.kind = .booked)

/-- A bay is eligible for a ticket (R49). The bays of a pool are the enrolled bays that name it (R43). -/
def State.eligible (s : State) (b : BayNo) (t : Ticket) : Bool :=
  decide ((s.bay b).state = .free) && (s.bay b).enrolled && decide ((s.bay b).pool = t.pool) &&
  !(s.pool t.pool).masked && (s.pool t.pool).kind.admitsTicket t && decide (t.lastDeclined ≠ some b) &&
  s.guardHolds b t.stay

/-! ### Rotation (R51) -/

/-- The bays of a pool: the enrolled bays whose pool field names it, in ascending number (R43). -/
def State.poolBays (s : State) (p : PoolNo) : List BayNo :=
  allBays.filter (fun b => (s.bay b).enrolled && decide ((s.bay b).pool = p))

/-- The rotation order of a pool: the bays above the pointer, then those up to it; ascending throughout where
the pointer is absent (R51). -/
def State.rotation (s : State) (p : PoolNo) : List BayNo :=
  match (s.pool p).pointer with
  | some r => (s.poolBays p).filter (fun b => decide (r < b)) ++
      (s.poolBays p).filter (fun b => decide (b ≤ r))
  | none => s.poolBays p

/-- The rotation pointer of a pool moves to a bay (R51). -/
def State.pointTo (s : State) (p : PoolNo) (b : BayNo) : State :=
  s.setPool p { s.pool p with pointer := some b }

/-! ### Matching (R53 to R55) -/

/-- Offer a bay to a WAITING ticket (R55). -/
def State.offerBay (s : State) (p : PoolNo) (b : BayNo) (t : Ticket) : State :=
  let s1 := s.changeBay b (fun x => { x with state := .offered, ticket := some t.number })
  let s2 := s1.modTicket t.number (fun u => { u with
    state := .offered, bay := some b, offerDeadline := some (s.deadline s.timers.offer) })
  (s2.pointTo p b).raise t.origin (.offer t.number b s.timers.offer)

/-- The first WAITING ticket of a queue for which a bay is eligible (R54). -/
def State.firstEligible (s : State) (b : BayNo) (q : List Nat) : Option Ticket :=
  q.findSome? (fun n =>
    match s.ticket? n with
    | some t => if t.state = .waiting ∧ s.eligible b t = true then some t else none
    | none => none)

/-- One bay of a matching run (R54). -/
def State.matchBay (s : State) (p : PoolNo) (b : BayNo) : State :=
  match s.firstEligible b (s.pool p).queue with
  | some t => s.offerBay p b t
  | none => s

/-- A matching run in a pool: its bays once each, in the rotation order that stands when the run begins
(R54). In a masked pool no bay is eligible and the run changes nothing (R53). -/
def State.matchRun (s : State) (p : PoolNo) : State :=
  (s.rotation p).foldl (fun r b => r.matchBay p b) s

/-- The first bay in rotation order that is eligible for a new ticket (R52). -/
def State.grantBay (s : State) (t : Ticket) : Option BayNo :=
  (s.rotation t.pool).find? (fun b => s.eligible b t)

/-! ### Withdrawal and requeue (R61, R64) -/

/-- The pool of the ticket that a bay names, where the bay names a live one. -/
def State.claimPool (s : State) (b : BayNo) : Option PoolNo :=
  match (s.bay b).ticket with
  | some n => (s.ticket? n).map (fun t => t.pool)
  | none => none

/-- A matching run in the pool of a ticket that was taken from a bay, where there was one (R53). -/
def State.matchIn (s : State) (p : Option PoolNo) : State :=
  match p with
  | some q => s.matchRun q
  | none => s

/-- Withdraw the open offer of a bay (R61): the ticket is WAITING again at its place, OFFER_WITHDRAWN goes
to its origin, and the bay's ticket field is removed. The bay's state and the matching run are the
caller's. -/
def State.withdraw (s : State) (b : BayNo) (why : WithdrawReason) : State :=
  match (s.bay b).ticket with
  | none => s
  | some n =>
    let s1 := s.modTicket n (fun t => { t with state := .waiting, bay := none, offerDeadline := none })
    (s1.setBay b { s1.bay b with ticket := none }).raiseTo n (.offerWithdrawn n b why)

/-- The class of a ticket that is requeued: DISPLACED for a BOOKED ticket of class STANDARD (R27, R64). -/
def Ticket.requeuedClass (t : Ticket) : TicketClass :=
  if t.kind = .booked ∧ t.cls = .standard then .displaced else t.cls

/-- Take a HELD ticket back into the queue of its own pool (R64). The caller has tested the queue's room; the
bay's state and the matching run are the caller's. -/
def State.requeue (s : State) (n : Nat) (b : BayNo) : State :=
  match s.ticket? n with
  | none => s
  | some t =>
    let s1 := s.modTicket n (fun u => { u with
      state := .waiting, cls := t.requeuedClass, bay := none, holdDeadline := none })
    let s2 := (s1.unname b n).joinQueue t.pool n
    s2.raise t.origin (.requeued n t.pool (s2.position t.pool n))

/-- The queue of the pool of the ticket that a HELD bay names has room (R64). -/
def State.requeueRoom (s : State) (b : BayNo) : Bool :=
  match s.claimPool b with
  | some p => s.queueRoom p
  | none => true

end Sys2Proof.Machine
end

