-- ==== Sys2Proof/Machine/BayTable.lean ====
section
/-! DEFINITION. The bay table (Chapter 1) and its sessions (Chapter 5): entry to FREE, placement by last
report, plug-in, opening, suspending, resuming and closing a session, loss of a head and head faults. -/

namespace Sys2Proof.Machine

/-! ### Entry to FREE (R5) -/

/-- The bay's link is LOST. -/
def State.linkLost (s : State) (b : BayNo) : Bool := decide ((s.link b).link = .lost)

/-- A bay enters FREE, or BLOCKED with block pending, or OFFLINE with its link LOST (R5). The matching run is
the caller's. -/
def State.settleFree (s : State) (b : BayNo) : State :=
  if (s.bay b).blockPending then
    s.changeBay b (fun x => { x with state := .blocked, blockPending := false, ticket := none })
  else if s.linkLost b then s.changeBay b (fun x => { x with state := .offline, ticket := none })
  else s.changeBay b (fun x => { x with state := .free, ticket := none })

/-- The matching run that a bay's entry to FREE starts in its pool (R5, R53). -/
def State.matchIfFree (s : State) (b : BayNo) : State :=
  if (s.bay b).state = .free then s.matchRun (s.bay b).pool else s

/-- Entry to FREE with its matching run (R5). -/
def State.enterFree (s : State) (b : BayNo) : State := (s.settleFree b).matchIfFree b

/-! ### Opening a session (R92, R93) -/

/-- The tag counter stepped by one, with 255 followed by 1 (R92). -/
def nextTag (t : Nat) : Nat := if 255 ≤ t then 1 else t + 1

/-- The class of the session of a ticket (R91). -/
def State.sessionClass (s : State) (n : Nat) : Priority :=
  match s.ticket? n with
  | some t => t.cls.priority
  | none => .standard

/-- The bay record as a session opens: the stepped tag, the ticket, its class and the device seconds (R92,
R93). -/
def State.openedBay (s : State) (b : BayNo) (n : Nat) : Bay :=
  { s.bay b with
    tagCounter := nextTag (s.bay b).tagCounter, state := .active, ticket := some n,
    session := some { tag := nextTag (s.bay b).tagCounter, ticket := n, cls := s.sessionClass n,
                      opened := s.deviceSeconds, energy := 0, demand := 0, reconnect := none } }

/-- Open a session at a bay for a ticket (R93): the record, the admission list, the ticket, SESSION_OPENED
and then BAY_STATE, the setpoint record and the recompute. -/
def State.openSession (s : State) (b : BayNo) (n : Nat) : State :=
  let s1 := s.setBay b (s.openedBay b n)
  let s2 : State := { s1 with admission := s1.admission ++ [b] }
  let s3 := s2.modTicket n (fun t => { t with state := .charging, bay := some b })
  let s4 := s3.raiseTo n (.sessionOpened n b (nextTag (s.bay b).tagCounter))
  let s5 := s4.raise .s (s4.bayNotice b)
  (s5.setSetpoint b (s5.setpoint b).started).recompute

/-! ### Plug-in (R14, R33) -/

/-- The AUTO ticket of a plug-in at an unbound OCCUPIED bay (R27, R33). -/
def State.autoTicket (s : State) (b : BayNo) : Ticket :=
  { number := s.nextTicket, origin := .k, kind := .auto, cls := .standard, pool := (s.bay b).pool, stay := 8,
    state := .arrived, bay := some b, offerDeadline := none, holdDeadline := none, lastDeclined := none,
    booking := none }

/-- A plug-in at an OCCUPIED bay (R14): at a bay whose link is LOST it is deferred and the plug field becomes
UNKNOWN; at a bound bay a session opens; at an unbound bay an AUTO ticket is issued and its session opens, or
NO_TICKET goes to S. -/
def State.plugIn (s : State) (b : BayNo) : State :=
  if s.linkLost b then s.setBay b { s.bay b with plug := .unknown }
  else
    match (s.bay b).ticket with
    | some n => s.openSession b n
    | none =>
      if s.tableRoom then
        let t := s.autoTicket b
        ((s.issue t).setBay b { s.bay b with ticket := some t.number }).openSession b t.number
      else s.raise .s (.noTicket b)

/-- The plug-in that follows where a bay has become, or has become bound while, OCCUPIED and PLUGGED
(R14). -/
def State.plugInIfPlugged (s : State) (b : BayNo) : State :=
  if (s.bay b).state = .occupied ∧ (s.bay b).plug = .plugged then s.plugIn b else s

/-! ### Placement by last report (R6) -/

/-- Placement by last report, without the plug-in and the matching run that may follow (R6). -/
def State.placeAt (s : State) (b : BayNo) : State :=
  match (s.bay b).presence with
  | .present => s.changeBay b (fun x => { x with state := .occupied, ticket := none })
  | .empty => s.settleFree b
  | .unknown =>
    if (s.bay b).blockPending then
      s.changeBay b (fun x => { x with state := .blocked, blockPending := false, ticket := none })
    else s.changeBay b (fun x => { x with state := .offline, ticket := none })

/-- Placement by last report with the plug-in of a bay that enters OCCUPIED (R14) and the matching run of a
bay that enters FREE (R5). -/
def State.place (s : State) (b : BayNo) : State := ((s.placeAt b).plugInIfPlugged b).matchIfFree b

/-- Placement by last report after the close of a session: no plug-in is taken (R14, R16). -/
def State.placeClosed (s : State) (b : BayNo) : State := (s.placeAt b).matchIfFree b

/-- Placement by last report at the end of an offer whose rule makes the matching run itself (R57, R58),
behind the notices of the plug-in (assumption 20). -/
def State.placeUnmatched (s : State) (b : BayNo) : State := (s.placeAt b).plugInIfPlugged b

/-- Change the session part of a bay record, where there is one (R91). -/
def Bay.modSession (x : Bay) (f : Session → Session) : Bay := { x with session := x.session.map f }

/-! ### Suspension and resumption (R97, R100) -/

/-- Suspend the session of an ACTIVE bay (R97): the reconnect deadline, BAY_STATE, the setpoint record and
the recompute. -/
def State.suspend (s : State) (b : BayNo) : State :=
  let returnBy := s.deadline s.timers.reconnect
  let s1 := s.changeBay b (fun x =>
    { x.modSession (fun k => { k with reconnect := some returnBy }) with state := .suspended })
  (s1.setSetpoint b ((s1.setpoint b).fallBack s1.power.fallback)).recompute

/-- Resume the session of a SUSPENDED bay (R100). -/
def State.resume (s : State) (b : BayNo) : State :=
  let s1 := s.changeBay b (fun x =>
    { x.modSession (fun k => { k with reconnect := none }) with state := .active })
  (s1.setSetpoint b ((s1.setpoint b).fallBack s1.power.fallback)).recompute

/-! ### Closing a session (R102) -/

/-- The seconds a session has lasted, modulo 2^32 (R102, R178). -/
def State.duration (s : State) (k : Session) : Seconds := s.deviceSeconds - k.opened

/-- SESSION_CLOSED to the origin of the session's ticket and to S (R102, R104). -/
def State.noticeClosed (s : State) (b : BayNo) (k : Session) (why : CloseReason) : State :=
  let n := Notice.sessionClosed k.ticket b why k.energy (s.duration k)
  match s.ticket? k.ticket with
  | some t => s.raiseBoth t.origin n
  | none => s.raise .s n

/-- The steps of a close before the bay is settled (R102, steps 1 to 5): SESSION_CLOSED, the admission list,
the session part and the ticket; and the setpoint record after the close (R122). -/
def State.endSession (s : State) (b : BayNo) (k : Session) (why : CloseReason) : State :=
  let s1 := s.noticeClosed b k why
  let s2 : State := { s1 with admission := s1.admission.filter (fun c => c != b) }
  let s3 := s2.setBay b { s2.bay b with session := none }
  let s4 := s3.freeTicket k.ticket
  let s5 := s4.setBay b { s4.bay b with ticket := none }
  s5.setSetpoint b (s5.setpoint b).ended

/-- Close a session for UNPLUGGED or FORCED (R102, R16). The recompute reads nothing that the placement
writes; it stands after it so that its THROTTLE notices follow every notice of the close (R115, assumption 7). -/
def State.closePlaced (s : State) (b : BayNo) (why : CloseReason) : State :=
  match (s.bay b).session with
  | none => s
  | some k => ((s.endSession b k why).placeClosed b).recompute

/-- Close a session for LINK_LOST (R98): the bay enters OFFLINE and keeps its block pending flag (R16). -/
def State.closeLost (s : State) (b : BayNo) : State :=
  match (s.bay b).session with
  | none => s
  | some k =>
    ((s.endSession b k .linkLost).changeBay b (fun x => { x with state := .offline })).recompute

/-! ### Head faults (R23) -/

/-- A bay enters FAULTED with a fault code; its ticket field is absent and block pending is kept (R23). -/
def State.enterFaulted (s : State) (b : BayNo) (code : FaultCode) : State :=
  s.changeBay b (fun x => { x with state := .faulted, fault := some code, ticket := none })

/-- Free the ticket of a bay with a notice to its origin (R13, R23, R38). -/
def State.freeWith (s : State) (n : Nat) (notice : Notice) : State := (s.raiseTo n notice).freeTicket n

/-- A bay takes a head fault (R23). -/
def State.headFault (s : State) (b : BayNo) (code : FaultCode) : State :=
  match (s.bay b).state with
  | .active | .suspended =>
    match (s.bay b).session with
    | some k => ((s.endSession b k .fault).enterFaulted b code).recompute
    | none => s.enterFaulted b code
  | .occupied =>
    match (s.bay b).ticket with
    | some n => (s.freeWith n (.departed n b)).enterFaulted b code
    | none => s.enterFaulted b code
  | .held =>
    match (s.bay b).ticket with
    | some n =>
      if s.requeueRoom b then ((s.requeue n b).enterFaulted b code).matchIn (s.claimPool b)
      else (s.freeWith n (.holdExpired n b)).enterFaulted b code
    | none => s.enterFaulted b code
  | .offered => ((s.withdraw b .block).enterFaulted b code).matchIn (s.claimPool b)
  | .blocked => (s.setBay b { s.bay b with blockPending := true }).enterFaulted b code
  | .faulted | .offline | .free => s.enterFaulted b code

/-! ### Loss of a head (R20) -/

/-- The bay table acts on a bay whose link has become LOST (R20). -/
def State.loseHead (s : State) (b : BayNo) : State :=
  match (s.bay b).state with
  | .free => s.changeBay b (fun x => { x with state := .offline })
  | .offered =>
    ((s.withdraw b .link).changeBay b (fun x => { x with state := .offline })).matchIn (s.claimPool b)
  | .active => s.suspend b
  | .held | .occupied | .suspended | .offline | .blocked | .faulted => s

end Sys2Proof.Machine
end

