-- ==== Sys2Proof/Machine/BookingUnit.lean ====
section
/-! DEFINITION. The booking unit (Chapter 4): the book, the bands, activation at slot start, early
activation, and the slot expiry. -/

namespace Sys2Proof.Machine

/-! ### The book (R68 to R70) -/

/-- The live booking numbers (R68). -/
def State.liveBookings (s : State) : List Nat :=
  allBays.flatMap (fun b => (s.bookings b).map (fun k => k.number))

/-- How many records the book holds (R68). -/
def State.bookSize (s : State) : Nat := s.liveBookings.length

/-- The number the booking unit would take for the next booking (R70). -/
def State.nextBooking (s : State) : Nat :=
  freeNumber s.liveBookings s.liveBookings.length s.booking.counter

/-- A live booking of a number, with its bay (R77). -/
def State.findBooking (s : State) (n : Nat) : Option (BayNo × Booking) :=
  allBays.findSome? (fun b => ((s.bookings b).find? (fun k => k.number == n)).map (fun k => (b, k)))

/-- A booking leaves the book and its bay's list (R69). -/
def State.dropBooking (s : State) (b : BayNo) (n : Nat) : State :=
  s.setBookings b ((s.bookings b).filter (fun k => k.number != n))

/-- A booking joins its bay's list in ascending order of start (R69). -/
def insertBooking (offset : Booking → Int) (k : Booking) : List Booking → List Booking
  | [] => [k]
  | m :: l => if offset m < offset k then m :: insertBooking offset k l else k :: m :: l

/-- The band of an offset, or none outside 0 to 95 (R73). -/
def Bands.bandOf (p : Bands) (o : Int) : Option Band :=
  if o < 0 ∨ 95 < o then none
  else if o < (p.frozen : Int) then some .frozen
  else if o < (p.frozen + p.opened : Nat) then some .opened
  else some .far

/-- The conditions on a band partition (R73, R74). -/
def Bands.valid (p : Bands) : Bool :=
  decide (p.frozen + p.opened + p.far = 96) && decide (1 ≤ p.frozen ∧ p.frozen ≤ 8) &&
  decide (40 ≤ p.opened) && decide (p.far ≤ 48)

/-- The bands a role may book in (R75). -/
def mayBook (p : Port) (b : Band) : Bool :=
  match p, b with
  | .s, _ => true
  | .k, .frozen => false
  | .k, _ => true
  | .n, .opened => true
  | .n, _ => false

/-- Two runs of slots share a slot: from offset o for l slots and from offset o' for l' slots (R75). -/
def runsOverlap (o : Int) (l : Nat) (o' : Int) (l' : Nat) : Bool :=
  decide (o < o' + (l' : Int)) && decide (o' < o + (l : Int))

/-- The first booking of a bay's list that shares a slot with a run (R75). -/
def State.firstOverlap (s : State) (b : BayNo) (o : Int) (l : Nat) : Option Booking :=
  (s.bookings b).find? (fun k => runsOverlap o l (s.offset k) k.length)

/-! ### Notices of the booking unit (R89) -/

/-- BOOKING_DROPPED to the booking's origin and to S (R89). -/
def State.noticeDropped (s : State) (k : Booking) (why : DropReason) : State :=
  s.raiseBoth k.origin (.bookingDropped k.number why)

/-! ### Activation (R32, R82 to R84, R86) -/

/-- The BOOKED ticket of a booking at its bay, ARRIVED there as an early activation issues it (R27, R32). -/
def State.bookedTicket (s : State) (b : BayNo) (k : Booking) : Ticket :=
  { number := s.nextTicket, origin := k.origin, kind := .booked, cls := k.cls.ticketClass,
    pool := (s.bay b).pool, stay := k.length, state := .arrived, bay := some b, offerDeadline := none,
    holdDeadline := none, lastDeclined := none, booking := some k.number }

/-- The class of a displaced ticket: DISPLACED, or ACCESS for a booking of class ACCESS (R84). -/
def Priority.displacedClass : Priority → TicketClass
  | .standard => .displaced
  | .access => .access

/-- Displacement (R84): the ticket is issued WAITING for the queue of the bay's pool, or freed at once where
that queue is full. The booking has left the book and the table has room. -/
def State.displace (s : State) (b : BayNo) (k : Booking) : State :=
  let t : Ticket :=
    { s.bookedTicket b k with state := .waiting, bay := none, cls := k.cls.displacedClass }
  let s1 := s.issue t
  if s1.queueRoom t.pool then
    (s1.joinQueue t.pool t.number).raiseBoth k.origin (.bookingDisplaced k.number t.number t.pool)
  else (s1.freeTicket t.number).noticeDropped k .queueFull

/-- The bay of an activated booking is held for its ticket (R83). The slot start is the device seconds as
they stand. -/
def State.holdBooked (s : State) (b : BayNo) (k : Booking) : State :=
  let t := s.bookedTicket b k
  ((s.issue t).holdAt t.number b).raise k.origin (.bookingActive k.number t.number b)

/-- Activate a booking at slot start (R82). -/
def State.activate (s : State) (b : BayNo) (k : Booking) : State :=
  let s1 := s.dropBooking b k.number
  if s1.tableRoom then
    match (s1.bay b).state with
    | .free => s1.holdBooked b k
    | .offered => (s1.withdraw b .booking).holdBooked b k
    | .held | .occupied | .active | .suspended | .blocked | .faulted | .offline => s1.displace b k
  else s1.noticeDropped k .tableFull

/-- Early activation on a presented code at a FREE or unbound OCCUPIED bay (R86). -/
def State.activateEarly (s : State) (b : BayNo) (k : Booking) : State :=
  if s.tableRoom then
    let t := s.bookedTicket b k
    let s1 := (s.dropBooking b k.number).issue t
    let s2 := s1.changeBay b (fun x => { x with state := .occupied, ticket := some t.number })
    (s2.raise k.origin (.bookingActive k.number t.number b)).plugInIfPlugged b
  else s.raise .s (.noTicket b)

/-! ### Slot expiry (R81, R85) -/

/-- The booking of a bay that is due: the first of its list, at offset 0 (R81, assumption 18). -/
def State.due (s : State) (b : BayNo) : Option Booking :=
  match s.bookings b with
  | k :: _ => if s.offset k = 0 then some k else none
  | [] => none

/-- The slot clock steps to the next slot (R71). -/
def State.stepSlot (s : State) : State :=
  { s with booking := { s.booking with
      slotNow := s.booking.slotNow + 1#32, secondsIntoSlot := 0, slotDue := false } }

/-- The due booking of one bay is activated (R81, step 2). -/
def State.activateDue (s : State) (b : BayNo) : State :=
  match s.due b with
  | some k => s.activate b k
  | none => s

/-- The due booking of one bay is dropped in CONFIG (R85). -/
def State.dropDue (s : State) (b : BayNo) : State :=
  match s.due b with
  | some k => (s.dropBooking b k.number).noticeDropped k .notRunning
  | none => s

/-- A matching run in one pool, where it is configured (R81, step 3). -/
def State.matchConfigured (s : State) (p : PoolNo) : State :=
  if (s.pool p).configured then s.matchRun p else s

/-- A slot expiry (R81 in RUN, R85 in CONFIG). -/
def State.expireSlot (s : State) : State :=
  let s1 := s.stepSlot
  if s.opState = .run then
    allPools.foldl State.matchConfigured (allBays.foldl State.activateDue s1)
  else allBays.foldl State.dropDue s1

/-- One second of the time base passes (R178, R71). Where the seconds into slot would reach 900 the slot
expiry is due. -/
def State.tick (s : State) : State :=
  let s1 : State := { s with deviceSeconds := s.deviceSeconds + 1#32 }
  if s.booking.secondsIntoSlot < 899 then
    { s1 with booking := { s.booking with secondsIntoSlot := s.booking.secondsIntoSlot + 1 } }
  else { s1 with booking := { s.booking with slotDue := true } }

end Sys2Proof.Machine
end

