-- ==== Sys2Proof/Machine/ReportSteps.lean ====
section
/-! DEFINITION. Taking a REPORT: the seven steps of R19. -/

namespace Sys2Proof.Machine

/-- The presence a REPORT's field gives (R176). -/
def presenceOf (x : Byte) : Presence := if x = 2#8 then .present else .empty

/-- The plug condition a REPORT's field gives (R176). -/
def plugOf (x : Byte) : Plug := if x = 2#8 then .plugged else .unplugged

/-- The presence a REPORT is taken with: PRESENT where the plug is PLUGGED (R9). -/
def takenPresence (r : Report) : Presence :=
  if plugOf r.plug = .plugged then .present else presenceOf r.presence

/-- The head still holds the session of its bay: its tag echo is the session's tag (R95, R99). -/
def Bay.echoes (x : Bay) (tagEcho : Nat) : Bool :=
  match x.session with
  | some k => decide (k.tag = tagEcho)
  | none => false

/-- Step 2, the plug: the field is written and acted on by the bay's state (R15, R99, R14). -/
def State.plugStep (s : State) (b : BayNo) (plug : Plug) (tagEcho : Nat) : State :=
  let s1 := s.setBay b { s.bay b with plug := plug }
  match (s.bay b).state with
  | .active => if plug = .unplugged then s1.closePlaced b .unplugged else s1
  | .suspended =>
    if plug = .plugged ∧ (s.bay b).echoes tagEcho = true then s1.resume b else s1.closePlaced b .unplugged
  | .occupied => if plug = .plugged ∧ (s.bay b).plug ≠ .plugged then s1.plugIn b else s1
  | .offline | .free | .offered | .held | .blocked | .faulted => s1

/-- Departure (R13): a bound ticket is freed with DEPARTED, and the bay enters FREE by R5. -/
def State.depart (s : State) (b : BayNo) : State :=
  match (s.bay b).ticket with
  | some n => (s.freeWith n (.departed n b)).enterFree b
  | none => s.enterFree b

/-- Step 3, the presence: the field is written and acted on by the bay's state (R10 to R13). -/
def State.presenceStep (s : State) (b : BayNo) (presence : Presence) : State :=
  let s1 := s.setBay b { s.bay b with presence := presence }
  match (s.bay b).state with
  | .offline => s1.place b
  | .free =>
    if presence = .present then
      (s1.changeBay b (fun x => { x with state := .occupied, ticket := none })).plugInIfPlugged b
    else s1
  | .held =>
    if presence = .present then
      match (s.bay b).ticket with
      | some n => (s1.arrive n b).plugInIfPlugged b
      | none => s1
    else s1
  | .occupied => if presence = .empty then s1.depart b else s1
  | .offered | .active | .suspended | .blocked | .faulted => s1

/-- The ticket of a number is HELD at another bay (R18). -/
def State.heldElsewhere (s : State) (b : BayNo) (n : Nat) : Bool :=
  match s.ticket? n with
  | some t => decide (t.state = .held ∧ t.bay ≠ some b)
  | none => false

/-- The first booking of the bay's list, where the code is its number, the bay is FREE or OCCUPIED and
unbound, and its offset is below F_b (R18, third test). -/
def State.earlyBooking (s : State) (b : BayNo) (code : Nat) : Option Booking :=
  match s.bookings b with
  | k :: _ =>
    if k.number = code ∧
        ((s.bay b).state = .free ∨ ((s.bay b).state = .occupied ∧ (s.bay b).ticket = none)) ∧
        s.offset k < (s.booking.bands.frozen : Int) then some k
    else none
  | [] => none

/-- The code names the ticket that is held at the bay (R18, first test). -/
def Bay.holds (x : Bay) (code : Nat) : Bool := decide (x.state = .held ∧ x.ticket = some code)

/-- The code names the ticket that is bound to the bay (R18, second test). -/
def Bay.binds (x : Bay) (code : Nat) : Bool :=
  decide ((x.state = .occupied ∨ x.state = .active ∨ x.state = .suspended) ∧ x.ticket = some code)

/-- Step 4, a presented code: the first test that holds decides (R18). -/
def State.presentCode (s : State) (b : BayNo) (code : Nat) : State :=
  if (s.bay b).holds code then (s.arrive code b).plugInIfPlugged b
  else if (s.bay b).binds code then s
  else
    match s.earlyBooking b code with
    | some k => s.activateEarly b k
    | none =>
      if s.heldElsewhere b code then s.raise .s (.wrongBay b code) else s.raise .s (.codeUnknown b code)

/-- Step 4 of a REPORT; a code of 0 means that none was read (R176). -/
def State.codeStep (s : State) (b : BayNo) (code : Nat) : State :=
  if code = 0 then s else s.presentCode b code

/-- Step 5, the demand: at an ACTIVE bay the clamped demand is written, and a change of the capped demand
recomputes the targets (R17, R96, R121). -/
def State.demandStep (s : State) (b : BayNo) (demand : Nat) : State :=
  if (s.bay b).state = .active then
    let s1 := s.setBay b ((s.bay b).modSession (fun k => { k with demand := min demand 63 }))
    if (s1.bay b).cappedDemand ≠ (s.bay b).cappedDemand then s1.recompute else s1
  else s

/-- The top value of a session's energy total (R95). -/
def energyTop : Nat := 4294967295

/-- Step 6, the energy increment: added, saturating, where the bay is ACTIVE and the tag echo is the
session's tag, in the REPORT that opened the session too (R17, R95, assumption 13). -/
def State.energyStep (s : State) (b : BayNo) (increment tagEcho : Nat) : State :=
  if (s.bay b).state = .active ∧ (s.bay b).echoes tagEcho = true then
    s.setBay b
      ((s.bay b).modSession (fun k => { k with energy := min (k.energy + increment) energyTop }))
  else s

/-- The bay table takes a REPORT (R19). -/
def State.takeReport (s : State) (b : BayNo) (r : Report) : State :=
  if r.status = 1#8 then s.headFault b (.headFault r.faultCode)
  else
    let s2 := s.plugStep b (plugOf r.plug) r.tagEcho.toNat
    let s3 := s2.presenceStep b (takenPresence r)
    let s4 := s3.codeStep b r.code.toNat
    let s5 := s4.demandStep b r.demand.toNat
    let s6 := s5.energyStep b r.energy.toNat r.tagEcho.toNat
    s6.takeEcho b r.echo.toNat

end Sys2Proof.Machine
end

