-- ==== Sys2Proof/Machine/HeadBusUnit.lean ====
section
/-! DEFINITION. The head bus controller (Chapter 7): sweeps, slot commands, link records, the kind of a
CLOSE, and the bus modes. -/

namespace Sys2Proof.Machine

/-! ### Lamps (R8) -/

/-- The lamp of a bay state, with the throttled flag (R8). -/
def lampOf (state : BayState) (throttled : Bool) : Lamp :=
  match state with
  | .offline => .off
  | .free => .green
  | .offered | .held => .amber
  | .occupied => .white
  | .active => if throttled then .blueFlash else .blue
  | .suspended => .blueFlash
  | .blocked | .faulted => .red

/-- The lamp of a bay, derived as it stands (R8). -/
def State.lamp (s : State) (b : BayNo) : Lamp := lampOf (s.bay b).state (s.setpoint b).throttled

/-! ### The frames of a sweep (R125, R127, R134) -/

/-- A sweep opens with this frame: the sweep period timer is started, to run out 1 s later, and the keep-alive
timer is stopped (R125, R135, R136). -/
def State.openWith (s : State) (frame : BusFrame) : State :=
  { s with bus := { s.bus with
      sweep := .opening, sweepTimer := some (s.deadline 1), keepAlive := none, sent := some frame } }

/-- The controller sends a whole OPEN (R125). -/
def State.openSweep (s : State) : State := s.openWith .opening

/-- The controller completes the OPEN that a pulling head has begun: it sends the kind byte and the CRC, and the
sweep begins (R137, R176). -/
def State.completePull (s : State) : State := s.openWith .restOfOpening

/-- The tag of a slot command: the session's tag while the bay is ACTIVE or SUSPENDED, else 0 (R127). -/
def Bay.sentTag (x : Bay) : Nat :=
  match x.state, x.session with
  | .active, some k => k.tag
  | .suspended, some k => k.tag
  | _, _ => 0

/-- The slot command of a bay, built from the values that stand (R127). -/
def State.slotCommand (s : State) (b : BayNo) : SlotCommand :=
  { bay := b, tag := (s.bay b).sentTag, setpoint := (s.setpoint b).issued, seq := (s.setpoint b).seq,
    fallback := s.power.fallback, lamp := s.lamp b }

/-- The slot exchange of a bay begins: the slot command is sent and its lamp becomes the last lamp sent
(R126, R127, assumption 16). -/
def State.enterSlot (s : State) (b : BayNo) : State :=
  let s1 := s.setLink b { s.link b with lastLamp := s.lamp b }
  { s1 with bus := { s1.bus with sweep := .slot b, sent := some (.slot (s.slotCommand b)) } }

/-- The CLOSE is long (R134): a session is open, an issued value differs from its acked value, or an
enrolled bay's link is SILENT. -/
def State.closeLong (s : State) : Bool :=
  allBays.any (fun b =>
    decide ((s.bay b).state = .active) || decide ((s.bay b).state = .suspended) ||
    decide ((s.setpoint b).issued ≠ (s.setpoint b).acked) ||
    ((s.bay b).enrolled && decide ((s.link b).link = .silent)))

/-- The kind of a CLOSE from the state as it stands (R134). -/
def State.closeKind (s : State) : CloseKind := if s.closeLong then .long else .short

/-- The controller enters CLOSING and sends the CLOSE (R125, R134). -/
def State.enterClosing (s : State) : State :=
  { s with bus := { s.bus with sweep := .closing s.closeKind, sent := some (.close s.closeKind) } }

/-- The next slot exchange among these bays, or the CLOSE where none is left (R125). -/
def State.enterNext (s : State) (rest : List BayNo) : State :=
  match rest.find? (fun b => (s.bay b).enrolled) with
  | some b => s.enterSlot b
  | none => s.enterClosing

/-- The OPEN has been sent: the lowest-numbered enrolled bay is next (R125). -/
def State.firstSlot (s : State) : State := s.enterNext allBays

/-- The slot exchange of a bay has ended: the next enrolled bay above it is next (R125). -/
def State.afterSlot (s : State) (b : BayNo) : State := s.enterNext (allBays.filter (fun c => decide (b < c)))

/-! ### Link records (R129 to R133) -/

/-- The controller writes a link record; where the link of an enrolled bay changes in RUN, BAY_STATE goes to
S (R133). -/
def State.changeLink (s : State) (b : BayNo) (x : LinkRecord) : State :=
  let s1 := s.setLink b x
  if x.link ≠ (s.link b).link ∧ (s.bay b).enrolled = true ∧ s.opState = .run then
    s1.raise .s (s1.bayNotice b)
  else s1

/-- A slot exchange ends with a REPORT: both counts return to 0 and the link is ONLINE (R130). -/
def State.linkOnline (s : State) (b : BayNo) : State :=
  s.changeLink b { s.link b with link := .online, silence := 0, busy := 0 }

/-- The link that a silence count gives (R129). -/
def linkAt (silence : Nat) : Link :=
  match silence with
  | 0 => .online
  | 1 => .silent
  | 2 => .silent
  | _ => .lost

/-- A slot exchange ends in silence or is corrupt (R131): the bay table is told of a loss when the silence
count reaches 3, once for each loss. -/
def State.takeSilence (s : State) (b : BayNo) : State :=
  let count := min ((s.link b).silence + 1) 3
  let s1 := s.changeLink b { s.link b with link := linkAt count, silence := count, busy := 0 }
  if (s.link b).silence = 2 then s1.loseHead b else s1

/-- A slot exchange ends BUSY (R132): at a busy count of 10 the bay takes a head fault, HEAD_STALL. -/
def State.takeBusy (s : State) (b : BayNo) : State :=
  let count := min ((s.link b).busy + 1) 10
  let s1 := s.setLink b { s.link b with busy := count }
  if count = 10 then s1.headFault b .headStall else s1

/-- A slot exchange ends with a valid REPORT (R130, R19). -/
def State.takeReply (s : State) (b : BayNo) (r : Report) : State := (s.linkOnline b).takeReport b r

/-- The work of a slot exchange's outcome, then the controller's next frame (R126). Where no slot exchange
is in progress, a reply is discarded (R126, R138, R140). -/
def State.inSlot (s : State) (outcome : State → BayNo → State) : State :=
  match s.bus.sweep with
  | .slot b => (outcome s b).afterSlot b
  | .idle => s
  | .opening => s
  | .closing _ => s

/-! ### Bus modes (R134 to R137) -/

/-- A sweep is due in LISTEN mode: an enrolled bay's lamp differs from its last lamp sent, or a bay's issued
value differs from its acked value (R136). -/
def State.listenDue (s : State) : Bool :=
  allBays.any (fun b =>
    ((s.bay b).enrolled && decide (s.lamp b ≠ (s.link b).lastLamp)) ||
    decide ((s.setpoint b).issued ≠ (s.setpoint b).acked))

/-- The controller waits in IDLE in LISTEN mode, in RUN (R136, R138). -/
def State.listening (s : State) : Bool :=
  decide (s.opState = .run) && decide (s.bus.sweep = .idle) && decide (s.bus.mode = .listen)

/-- The test that is made when the controller enters IDLE in LISTEN mode and after every event that can
change a bay or a setpoint while it waits there (R136). -/
def State.settleBus (s : State) : State :=
  if s.listening && s.listenDue then s.openSweep else s

/-- The CLOSE has been sent (R134 to R136): after a long CLOSE the controller waits for the sweep period
timer, or opens the next sweep at once where it has run out; after a short one it starts the keep-alive timer,
to run out 10 s later, and waits in LISTEN mode. -/
def State.closeSent (s : State) (kind : CloseKind) : State :=
  match kind with
  | .long =>
    let s1 : State := { s with bus := { s.bus with sweep := .idle, mode := .timed } }
    if s.bus.sweepTimer.isSome then s1 else s1.openSweep
  | .short =>
    ({ s with bus := { s.bus with
        sweep := .idle, mode := .listen, keepAlive := some (s.deadline 10) } } : State).settleBus

/-- The sweep period timer runs out, where its deadline has come (R135, R178). -/
def State.sweepPeriodOut (s : State) : State :=
  if s.isDue s.bus.sweepTimer then
    let s1 : State := { s with bus := { s.bus with sweepTimer := none } }
    if s.opState = .run ∧ s.bus.sweep = .idle ∧ s.bus.mode = .timed then s1.openSweep else s1
  else s

/-- The keep-alive timer runs out, where its deadline has come (R136, R178). -/
def State.keepAliveOut (s : State) : State :=
  if s.isDue s.bus.keepAlive then
    let s1 : State := { s with bus := { s.bus with keepAlive := none } }
    if s.listening then s1.openSweep else s1
  else s

/-- The link records, the timers and the mode as START, RECONFIGURE, RESTART and power reset leave them
(R129, R139 to R142). -/
def State.clearBus (s : State) : State :=
  { s with bus := { s.bus with
      sweep := .idle, mode := .timed, sweepTimer := none, keepAlive := none,
      links := Vector.ofFn (fun _ => LinkRecord.cleared) } }

/-- The direction line of the bus transceiver (R177): high while the part transmits. A slot command is sent
within the step that begins its exchange. -/
def State.bdir (s : State) : Bool :=
  match s.bus.sweep with
  | .opening => true
  | .closing _ => true
  | .idle => false
  | .slot _ => false

end Sys2Proof.Machine
end

