-- ==== Sys2Proof/Machine/Operands.lean ====
section
/-! DEFINITION. The fields of requests and responses on the wire (R175): reading a request's coded fields, the
codes of every set, absent fields, and the payloads of the notices. -/

namespace Sys2Proof.Machine

/-! ### Reading request fields -/

/-- A bay number of a request, 0 to 47 (R1). -/
def bayNo (x : Byte) : Option BayNo :=
  if h : x.toNat < 48 then some ⟨x.toNat, h⟩ else none

/-- A pool number of a request, 0 to 7 (R43). -/
def poolNo (x : Byte) : Option PoolNo :=
  if h : x.toNat < 8 then some ⟨x.toNat, h⟩ else none

/-- An aisle of a window, 0 to 5 (R163). -/
def aisleNo (x : Byte) : Option (Fin 6) :=
  if h : x.toNat < 6 then some ⟨x.toNat, h⟩ else none

/-- A position of a window, 0 to 7 (R163). -/
def positionNo (x : Byte) : Option (Fin 8) :=
  if h : x.toNat < 8 then some ⟨x.toNat, h⟩ else none

/-- A flag: 0 no or off, 1 yes or on; any other code is undefined (R175). -/
def flagOf (x : Byte) : Option Bool :=
  match x.toNat with
  | 0 => some false
  | 1 => some true
  | _ => none

/-- The class field of REQUEST BAY, ADOPT BAY and BOOK: STANDARD or ACCESS and no other (R31, R34, R75). -/
def priorityOf (x : Byte) : Option Priority :=
  match x.toNat with
  | 0 => some .standard
  | 2 => some .access
  | _ => none

/-- A pool kind (R175). -/
def poolKindOf (x : Byte) : Option PoolKind :=
  match x.toNat with
  | 0 => some .general
  | 1 => some .restricted
  | _ => none

/-- A window order (R175). -/
def windowOrderOf (x : Byte) : Option WindowOrder :=
  match x.toNat with
  | 0 => some .aisleFirst
  | 1 => some .positionFirst
  | _ => none

/-- The bay a request names, where its number is 0 to 47 and the bay is enrolled (R1, R3). -/
def State.enrolledBay (s : State) (x : Byte) : Option BayNo :=
  match bayNo x with
  | some b => if (s.bay b).enrolled then some b else none
  | none => none

/-- The pool a request names, where its number is 0 to 7 and the pool is configured (R43). -/
def State.configuredPool (s : State) (x : Byte) : Option PoolNo :=
  match poolNo x with
  | some p => if (s.pool p).configured then some p else none
  | none => none

/-! ### Codes (R175) -/

def Status.code : Status → Nat
  | .ok => 0 | .queued => 1 | .notReady => 2 | .noRight => 3 | .notOwner => 4 | .noSuch => 5 | .badArg => 6
  | .full => 7 | .conflict => 8 | .band => 9 | .past => 10 | .wrongState => 11 | .lapsed => 12
  | .frameError => 13 | .unknownCommand => 14 | .badConfig => 15

def BayState.code : BayState → Nat
  | .offline => 0 | .free => 1 | .offered => 2 | .held => 3 | .occupied => 4 | .active => 5
  | .suspended => 6 | .blocked => 7 | .faulted => 8

def Lamp.code : Lamp → Nat
  | .off => 0 | .green => 1 | .amber => 2 | .white => 3 | .blue => 4 | .blueFlash => 5 | .red => 6

def Presence.code : Presence → Nat
  | .unknown => 0 | .empty => 1 | .present => 2

def Plug.code : Plug → Nat
  | .unknown => 0 | .unplugged => 1 | .plugged => 2

def Link.code : Link → Nat
  | .online => 0 | .silent => 1 | .lost => 2

def TicketState.code : TicketState → Nat
  | .waiting => 0 | .offered => 1 | .held => 2 | .arrived => 3 | .charging => 4

def TicketKind.code : TicketKind → Nat
  | .walkIn => 0 | .booked => 1 | .auto => 2

def TicketClass.code : TicketClass → Nat
  | .standard => 0 | .displaced => 1 | .access => 2

def Priority.code : Priority → Nat
  | .standard => 0 | .access => 2

def originCode : Port → Nat
  | .s => 0 | .k => 1 | .n => 2

def PoolKind.code : PoolKind → Nat
  | .general => 0 | .restricted => 1

def Tier.code : Tier → Nat
  | .normal => 0 | .reduced => 1 | .critical => 2 | .shed => 3

def Band.code : Band → Nat
  | .frozen => 0 | .opened => 1 | .far => 2

def CloseReason.code : CloseReason → Nat
  | .unplugged => 0 | .forced => 1 | .fault => 2 | .linkLost => 3

def WithdrawReason.code : WithdrawReason → Nat
  | .booking => 0 | .link => 1 | .block => 2

def DropReason.code : DropReason → Nat
  | .tableFull => 0 | .queueFull => 1 | .notRunning => 2 | .unenrolled => 3

def flagCode (b : Bool) : Nat := if b then 1 else 0

/-! ### Writing fields -/

/-- An absent 1-byte field is sent as 0xFF (R175). -/
def opt8 (x : Option Nat) : Byte := u8 (x.getD 255)

/-- An absent ticket or booking number is sent as 0 (R175). -/
def opt16 (x : Option Nat) : List Byte := u16 (x.getD 0)

/-- An optional 4-byte field is preceded by a presence byte, and sent as 0 when absent (R175). -/
def opt32 (x : Option Nat) : List Byte :=
  match x with
  | some v => 1#8 :: u32 v
  | none => 0#8 :: u32 0

/-- A fault code: a kind and then the code, 0 unless the kind is HEAD_FAULT (R175). -/
def faultBytes (f : Option FaultCode) : List Byte :=
  match f with
  | none => [0#8, 0#8]
  | some (.headFault c) => [1#8, c]
  | some .headStall => [2#8, 0#8]

/-- A notice in a READ NOTICES response: its kind code and its fields in the order of R156 (R175). The
energy total of SESSION_CLOSED is always present and carries no presence byte (assumption 10). -/
def Notice.bytes : Notice → List Byte
  | .offer t b sec => u8 1 :: u16 t ++ [u8 b, u8 sec]
  | .offerLapsed t b => u8 2 :: u16 t ++ [u8 b]
  | .offerWithdrawn t b w => u8 3 :: u16 t ++ [u8 b, u8 w.code]
  | .holdExpired t b => u8 4 :: u16 t ++ [u8 b]
  | .arrived t b => u8 5 :: u16 t ++ [u8 b]
  | .departed t b => u8 6 :: u16 t ++ [u8 b]
  | .sessionOpened t b g => u8 7 :: u16 t ++ [u8 b, u8 g]
  | .sessionClosed t b w e d => u8 8 :: u16 t ++ [u8 b, u8 w.code] ++ u32 e ++ u32 d.toNat
  | .throttle t b on => u8 9 :: u16 t ++ [u8 b, u8 (flagCode on)]
  | .requeued t p i => u8 10 :: u16 t ++ [u8 p, u8 i]
  | .bookingActive k t b => u8 11 :: u16 k ++ u16 t ++ [u8 b]
  | .bookingDisplaced k t p => u8 12 :: u16 k ++ u16 t ++ [u8 p]
  | .bookingDropped k w => u8 13 :: u16 k ++ [u8 w.code]
  | .bayState b st l f => u8 14 :: [u8 b, u8 st.code, u8 l.code] ++ faultBytes f
  | .feed t a => u8 15 :: u8 t.code :: u16 a
  | .wrongBay b c => u8 16 :: u8 b :: u16 c
  | .codeUnknown b c => u8 17 :: u8 b :: u16 c
  | .noTicket b => [u8 18, u8 b]

/-! ### Answers of the owning blocks (R151, R152) -/

/-- What an owner answers a port unit: a status, the response fields, whether it clamped a field, and whether
the OVERRUN flag is to be cleared once the response is built (R151, R160). -/
structure Reply where
  status : Status
  payload : List Byte
  clamped : Bool
  clearsOverrun : Bool
deriving DecidableEq, Repr

/-- The command was carried out (R152). -/
def Reply.ok (payload : List Byte) : Reply := ⟨.ok, payload, false, false⟩

/-- The command was carried out on clamped fields, where the flag says so (R153). -/
def Reply.okClamped (payload : List Byte) (clamped : Bool) : Reply := ⟨.ok, payload, clamped, false⟩

/-- A refusal with an empty payload (R152). -/
def Reply.refuse (status : Status) : Reply := ⟨status, [], false, false⟩

/-- A refusal that carries one field (R152). -/
def Reply.refuseWith (status : Status) (payload : List Byte) : Reply := ⟨status, payload, false, false⟩

end Sys2Proof.Machine
end

