-- ==== Sys2Proof/Machine/Flags.lean ====
section
/-! DEFINITION. The flags and lines a port shows: the FLAGS of a response (R153), the attention line (R161)
and the response frame (R152, R175). -/

namespace Sys2Proof.Machine

/-- The attention line of a port is asserted while its notice queue is not empty (R161). -/
def State.attention (s : State) (p : Port) : Bool := !(s.queue p).notices.isEmpty

/-- The command was carried out: OK or QUEUED (R154). -/
def Status.carriedOut : Status → Bool
  | .ok => true
  | .queued => true
  | _ => false

/-- The flags of a response as it is built; a refusal does not carry CLAMPED (R153). -/
def State.responseFlags (s : State) (p : Port) (r : Reply) : RespFlags :=
  { overrun := (s.queue p).overrun, dropped := (s.port p).dropped, attention := s.attention p,
    clamped := r.clamped && r.status.carriedOut }

/-- The FLAGS byte: bit 0 OVERRUN, bit 1 DROPPED, bit 2 ATTENTION, bit 3 CLAMPED (R175). -/
def RespFlags.byte (f : RespFlags) : Byte :=
  u8 (flagCode f.overrun + 2 * flagCode f.dropped + 4 * flagCode f.attention + 8 * flagCode f.clamped)

/-- The response frame on the wire: LENGTH counts STATUS, FLAGS and the payload (R152, R175). -/
def Response.frame (r : Response) : List Byte :=
  checkedFrame portSync
    (u8 (r.payload.length + 2) :: u8 r.status.code :: r.flags.byte :: r.payload)

/-- The bytes of a head bus frame that the controller sends (R176). To complete a pull it sends the OPEN less its
SYNC byte, which the head has sent. -/
def BusFrame.bytes : BusFrame → List Byte
  | .opening => checkedFrame busSync [0x01#8]
  | .restOfOpening => 0x01#8 :: crcBytes (crc [0x01#8])
  | .slot c => checkedFrame busSync
      [0x02#8, u8 c.bay, u8 c.tag, u8 c.setpoint, u8 c.seq, u8 c.fallback, u8 c.lamp.code]
  | .close .short => checkedFrame busSync [0x05#8, 0x00#8]
  | .close .long => checkedFrame busSync [0x05#8, 0x01#8]

end Sys2Proof.Machine
end

