-- ==== Sys2Proof/Machine/BayCommands.lean ====
section
/-! DEFINITION. The requests the bay table owns: QUERY BAY, BLOCK BAY, UNBLOCK BAY, CLEAR FAULT (Chapter 1) and
FORCE CLOSE (Chapter 5). An owner takes the port, the payload and the state, and answers the state it leaves
and its reply. -/

namespace Sys2Proof.Machine

/-- The session fields of a QUERY BAY response: tag, class, demand and energy total (R25). -/
def Session.bytes (k : Session) : List Byte :=
  [u8 k.tag, u8 k.cls.code, u8 k.demand] ++ opt32 (some k.energy)

/-- The fault code a bay shows: absent unless it is FAULTED (R2, R25). -/
def Bay.shownFault (x : Bay) : Option FaultCode := if x.state = .faulted then x.fault else none

/-- The fields of a QUERY BAY response (R25, assumption 10). -/
def State.bayFields (s : State) (b : BayNo) : List Byte :=
  let x := s.bay b
  [u8 b, u8 (flagCode x.enrolled), u8 x.pool, u8 x.rating, u8 x.state.code, u8 (s.lamp b).code,
    u8 (s.link b).link.code, u8 x.presence.code, u8 x.plug.code, u8 (flagCode x.blockPending)] ++
  faultBytes x.shownFault ++ opt16 x.ticket ++ [u8 x.tagCounter] ++
  (s.bookings b).flatMap (fun k => u16 k.number) ++
  (match x.session with
    | some k => k.bytes
    | none => [])

/-- QUERY BAY (R25). -/
def ownQueryBay (_p : Port) (payload : List Byte) (s : State) : State × Reply :=
  match payload with
  | [x] =>
    match bayNo x with
    | some b => (s, .ok (s.bayFields b))
    | none => (s, .refuse .noSuch)
  | _ => (s, .refuse .badArg)

/-- A bay enters BLOCKED; its ticket field is absent (R21). -/
def State.enterBlocked (s : State) (b : BayNo) : State :=
  s.changeBay b (fun x => { x with state := .blocked, ticket := none })

/-- A BLOCK BAY taken while the bay is in use or FAULTED (R21). -/
def State.pendBlock (s : State) (b : BayNo) : State :=
  s.setBay b { s.bay b with blockPending := true }

/-- BLOCK BAY at a bay that is neither BLOCKED nor has a block pending (R21). -/
def State.blockBay (s : State) (b : BayNo) : State × Reply :=
  match (s.bay b).state with
  | .offline | .free => (s.enterBlocked b, .ok [])
  | .offered => (((s.withdraw b .block).enterBlocked b).matchIn (s.claimPool b), .ok [])
  | .held =>
    match (s.bay b).ticket with
    | some n =>
      if s.requeueRoom b then (((s.requeue n b).enterBlocked b).matchIn (s.claimPool b), .ok [])
      else (s, .refuse .full)
    | none => (s.enterBlocked b, .ok [])
  | .occupied | .active | .suspended | .faulted => (s.pendBlock b, .ok [])
  | .blocked => (s, .refuse .wrongState)

/-- BLOCK BAY (R21): after the checks of R1 and R3 it is refused in CONFIG (section 1.6, assumption 9). -/
def ownBlockBay (_p : Port) (payload : List Byte) (s : State) : State × Reply :=
  match payload with
  | [x] =>
    match s.enrolledBay x with
    | some b =>
      if s.opState = .config then (s, .refuse .wrongState)
      else if (s.bay b).state = .blocked ∨ (s.bay b).blockPending = true then (s, .refuse .wrongState)
      else s.blockBay b
    | none => (s, .refuse .noSuch)
  | _ => (s, .refuse .badArg)

/-- UNBLOCK BAY (R22); refused in CONFIG as BLOCK BAY is (assumption 9). -/
def ownUnblockBay (_p : Port) (payload : List Byte) (s : State) : State × Reply :=
  match payload with
  | [x] =>
    match s.enrolledBay x with
    | some b =>
      if s.opState = .config then (s, .refuse .wrongState)
      else if (s.bay b).state = .blocked then (s.place b, .ok [])
      else if (s.bay b).blockPending then
        (s.setBay b { s.bay b with blockPending := false }, .ok [])
      else (s, .refuse .wrongState)
    | none => (s, .refuse .noSuch)
  | _ => (s, .refuse .badArg)

/-- The fault code of a FAULTED bay is removed and the bay is settled by last report (R24). -/
def State.clearFaultAt (s : State) (b : BayNo) : State :=
  (s.setBay b { s.bay b with fault := none }).place b

/-- CLEAR FAULT (R24); refused in CONFIG as BLOCK BAY is (assumption 9). -/
def ownClearFault (_p : Port) (payload : List Byte) (s : State) : State × Reply :=
  match payload with
  | [x] =>
    match s.enrolledBay x with
    | some b =>
      if s.opState = .config then (s, .refuse .wrongState)
      else if (s.bay b).state = .faulted then (s.clearFaultAt b, .ok []) else (s, .refuse .wrongState)
    | none => (s, .refuse .noSuch)
  | _ => (s, .refuse .badArg)

/-- FORCE CLOSE (R105): the response carries the ticket, the energy total and the duration that
SESSION_CLOSED carries. -/
def ownForceClose (_p : Port) (payload : List Byte) (s : State) : State × Reply :=
  match payload with
  | [x] =>
    if s.opState = .config then (s, .refuse .wrongState)
    else
      match s.enrolledBay x with
      | some b =>
        match (s.bay b).state, (s.bay b).session with
        | .active, some k | .suspended, some k =>
          (s.closePlaced b .forced, .ok (u16 k.ticket ++ u32 k.energy ++ u32 (s.duration k).toNat))
        | _, _ => (s, .refuse .wrongState)
      | none => (s, .refuse .noSuch)
  | _ => (s, .refuse .badArg)

end Sys2Proof.Machine
end

