-- ==== Sys2Proof/Machine/OfferEnds.lean ====
section
/-! DEFINITION. How holds and offers end by expiry, decline and cancel (R38, R41, R57, R58, R60), and how they
begin by command (R36, R52, R56). -/

namespace Sys2Proof.Machine

/-- Give up the open offer of a bay (R57, R58): the ticket is WAITING at the back of its class with its last
declined bay set; a lapse raises OFFER_LAPSED; the bay is settled by last report; one matching run is made
in the pool. R58 puts OFFER_LAPSED before the run only; that it also stands before the notices of the settlement
(BAY_STATE, and the SESSION_OPENED or NO_TICKET of a plug-in) is the model's choice (assumption 19). So is that
the THROTTLE notices of a plug-in's recompute stand before the BAY_STATE and OFFER notices of the run: R115 puts them
after the event that triggered the recompute, which may be the opening or the whole decline or lapse (assumption
20). -/
def State.giveUpOffer (s : State) (t : Ticket) (b : BayNo) (lapsed : Bool) : State :=
  let s1 := s.modTicket t.number (fun u => { u with
    state := .waiting, bay := none, offerDeadline := none, lastDeclined := some b })
  let s2 := (s1.toBack t.pool t.number).unname b t.number
  let s3 := if lapsed then s2.raise t.origin (.offerLapsed t.number b) else s2
  (s3.placeUnmatched b).matchRun t.pool

/-- The hold of a ticket expires (R38): the ticket is freed with HOLD_EXPIRED and the bay is settled by last
report. -/
def State.expireHold (s : State) (n : Nat) (b : BayNo) : State :=
  (s.freeWith n (.holdExpired n b)).place b

/-- Cancel a ticket that is not CHARGING (R41, R60): the bay of an OFFERED or HELD ticket is settled by last
report, the bay of an ARRIVED one stays OCCUPIED. -/
def State.cancel (s : State) (t : Ticket) : State :=
  match t.state, t.bay with
  | .offered, some b => (s.freeTicket t.number).place b
  | .held, some b => (s.freeTicket t.number).place b
  | _, _ => s.freeTicket t.number

/-- A queued ticket leaves its queue and becomes HELD at a bay (R36, R56). -/
def State.holdQueued (s : State) (t : Ticket) (b : BayNo) : State :=
  (s.leaveQueue t.pool t.number).holdAt t.number b

end Sys2Proof.Machine
end

