-- ==== Sys2Proof/Machine/TicketCommands.lean ====
section
/-! DEFINITION. The requests the ticket table and the pool unit own (Chapters 2 and 3). -/

namespace Sys2Proof.Machine

/-- The checks on a named ticket (R29): NO_SUCH for a number that is 0 or not live, then NOT_OWNER from K or N
for a ticket of another origin. -/
def State.ownTicket (s : State) (p : Port) (n : Nat) : Except Status Ticket :=
  if n = 0 then .error .noSuch
  else
    match s.ticket? n with
    | none => .error .noSuch
    | some t => if p ≠ .s ∧ t.origin ≠ p then .error .notOwner else .ok t

/-- A newly requested WALK_IN ticket (R27, R31). -/
def State.walkIn (s : State) (p : Port) (q : PoolNo) (stay : Nat) (c : Priority) : Ticket :=
  { number := s.nextTicket, origin := p, kind := .walkIn, cls := c.ticketClass, pool := q,
    stay := takenStay stay, state := .waiting, bay := none, offerDeadline := none, holdDeadline := none,
    lastDeclined := none, booking := none }

/-- The grant decision for a new ticket that has been issued (R52): a direct grant, a place in the queue, or
neither. -/
def State.grant (s : State) (t : Ticket) (clamped : Bool) : State × Reply :=
  match s.grantBay t with
  | some b =>
    ((s.pointTo t.pool b).holdAt t.number b,
      .okClamped (u16 t.number ++ u8 b :: u32 (s.deadline s.timers.grace).toNat) clamped)
  | none =>
    if s.queueRoom t.pool then
      let s1 := s.joinQueue t.pool t.number
      (s1, ⟨.queued, u16 t.number ++ [u8 (s1.position t.pool t.number)], clamped, false⟩)
    else (s.freeTicket t.number, .refuse .full)

/-- REQUEST BAY (R31): the fields are pool, stay and class. -/
def ownRequestBay (p : Port) (payload : List Byte) (s : State) : State × Reply :=
  match payload with
  | [pool, stay, cls] =>
    if s.opState = .config then (s, .refuse .wrongState)
    else
      match priorityOf cls with
      | none => (s, .refuse .badArg)
      | some c =>
        if c = .access ∧ p = .n then (s, .refuse .noRight)
        else
          match s.configuredPool pool with
          | none => (s, .refuse .noSuch)
          | some q =>
            if (s.pool q).kind = .restricted ∧ c = .standard then (s, .refuse .noRight)
            else if s.tableRoom then
              let t := s.walkIn p q stay.toNat c
              (s.issue t).grant t (stayClamped stay.toNat)
            else (s, .refuse .full)
  | _ => (s, .refuse .badArg)

/-- An adopted WALK_IN ticket is issued ARRIVED and bound to its bay; at a plugged bay the binding is a
plug-in (R34, R14). -/
def State.adopt (s : State) (p : Port) (b : BayNo) (stay : Nat) (c : Priority) : State × Nat :=
  let t : Ticket :=
    { s.walkIn p (s.bay b).pool stay c with state := .arrived, bay := some b }
  (((s.issue t).setBay b { s.bay b with ticket := some t.number }).plugInIfPlugged b, t.number)

/-- ADOPT BAY (R34): the fields are bay, stay and class; the response is the ticket number and its state. -/
def ownAdoptBay (p : Port) (payload : List Byte) (s : State) : State × Reply :=
  match payload with
  | [bay, stay, cls] =>
    if s.opState = .config then (s, .refuse .wrongState)
    else
      match priorityOf cls with
      | none => (s, .refuse .badArg)
      | some c =>
        match s.enrolledBay bay with
        | none => (s, .refuse .noSuch)
        | some b =>
          if (s.bay b).state ≠ .occupied ∨ (s.bay b).ticket ≠ none then (s, .refuse .wrongState)
          else if (s.pool (s.bay b).pool).kind = .restricted ∧ c = .standard then (s, .refuse .noRight)
          else if s.tableRoom then
            let r := s.adopt p b stay.toNat c
            let st : TicketState := if (r.1.bay b).state = .active then .charging else .arrived
            (r.1, .okClamped (u16 r.2 ++ [u8 st.code]) (stayClamped stay.toNat))
          else (s, .refuse .full)
  | _ => (s, .refuse .badArg)

/-- ASSIGN BAY (R36): the fields are ticket and bay. -/
def ownAssignBay (p : Port) (payload : List Byte) (s : State) : State × Reply :=
  match payload with
  | [h, l, bay] =>
    if s.opState = .config then (s, .refuse .wrongState)
    else
      match s.ownTicket p (of16 h l) with
      | .error e => (s, .refuse e)
      | .ok t =>
        match s.enrolledBay bay with
        | none => (s, .refuse .noSuch)
        | some b =>
          if t.state ≠ .waiting then (s, .refuse .wrongState)
          else if (s.bay b).state ≠ .free then (s, .refuse .wrongState)
          else (s.holdQueued t b, .ok (u8 b :: u32 (s.deadline s.timers.grace).toNat))
  | _ => (s, .refuse .badArg)

/-- CANCEL TICKET (R41). -/
def ownCancelTicket (p : Port) (payload : List Byte) (s : State) : State × Reply :=
  match payload with
  | [h, l] =>
    match s.ownTicket p (of16 h l) with
    | .error e => (s, .refuse e)
    | .ok t =>
      if t.state = .charging then (s, .refuse .wrongState) else (s.cancel t, .ok [])
  | _ => (s, .refuse .badArg)

/-- The state of a CHARGING ticket's bay, absent for any other ticket (R42). -/
def State.chargingBay (s : State) (t : Ticket) : Option Nat :=
  match t.state, t.bay with
  | .charging, some b => some (s.bay b).state.code
  | _, _ => none

/-- The position of a WAITING or OFFERED ticket, absent for any other (R42). -/
def State.queuePosition (s : State) (t : Ticket) : Option Nat :=
  if t.state = .waiting ∨ t.state = .offered then some (s.position t.pool t.number) else none

/-- The fields of a QUERY TICKET response (R42, assumption 10). -/
def State.ticketFields (s : State) (t : Ticket) : List Byte :=
  u16 t.number ++
  [u8 (originCode t.origin), u8 t.kind.code, u8 t.cls.code, u8 t.pool, u8 t.stay, u8 t.state.code,
    opt8 (t.bay.map Fin.val)] ++
  opt32 (t.offerDeadline.map BitVec.toNat) ++ opt32 (t.holdDeadline.map BitVec.toNat) ++
  [opt8 (t.lastDeclined.map Fin.val)] ++ opt16 t.booking ++ u32 s.deviceSeconds.toNat ++
  [opt8 (s.queuePosition t), opt8 (s.chargingBay t)]

/-- QUERY TICKET (R42). -/
def ownQueryTicket (p : Port) (payload : List Byte) (s : State) : State × Reply :=
  match payload with
  | [h, l] =>
    match s.ownTicket p (of16 h l) with
    | .error e => (s, .refuse e)
    | .ok t => (s, .ok (s.ticketFields t))
  | _ => (s, .refuse .badArg)

/-- The checks of ACCEPT OFFER and DECLINE OFFER (R56, R57): the ticket, the bay, and the open offer of that
ticket at that bay. -/
def State.openOffer (s : State) (p : Port) (n : Nat) (bay : Byte) : Except Status (Ticket × BayNo) :=
  match s.ownTicket p n with
  | .error e => .error e
  | .ok t =>
    match s.enrolledBay bay with
    | none => .error .noSuch
    | some b => if t.state = .offered ∧ t.bay = some b then .ok (t, b) else .error .lapsed

/-- ACCEPT OFFER (R56): the fields are ticket and bay. -/
def ownAcceptOffer (p : Port) (payload : List Byte) (s : State) : State × Reply :=
  match payload with
  | [h, l, bay] =>
    match s.openOffer p (of16 h l) bay with
    | .error e => (s, .refuse e)
    | .ok (t, b) => (s.holdQueued t b, .ok (u8 b :: u32 (s.deadline s.timers.grace).toNat))
  | _ => (s, .refuse .badArg)

/-- DECLINE OFFER (R57): the response is the ticket's new position, taken after the matching run. -/
def ownDeclineOffer (p : Port) (payload : List Byte) (s : State) : State × Reply :=
  match payload with
  | [h, l, bay] =>
    match s.openOffer p (of16 h l) bay with
    | .error e => (s, .refuse e)
    | .ok (t, b) =>
      let s1 := s.giveUpOffer t b false
      (s1, .ok [u8 (s1.position t.pool t.number)])
  | _ => (s, .refuse .badArg)

/-- A pool's mask is set or removed (R65, R66). -/
def State.setMask (s : State) (q : PoolNo) (on : Bool) : State :=
  s.setPool q { s.pool q with masked := on }

/-- MASK POOL (R65). -/
def ownMaskPool (_p : Port) (payload : List Byte) (s : State) : State × Reply :=
  match payload with
  | [x] =>
    if s.opState = .config then (s, .refuse .wrongState)
    else
      match s.configuredPool x with
      | none => (s, .refuse .noSuch)
      | some q =>
        if (s.pool q).masked then (s, .refuse .wrongState) else (s.setMask q true, .ok [])
  | _ => (s, .refuse .badArg)

/-- UNMASK POOL (R66): the mask is removed and one matching run is made in the pool. -/
def ownUnmaskPool (_p : Port) (payload : List Byte) (s : State) : State × Reply :=
  match payload with
  | [x] =>
    if s.opState = .config then (s, .refuse .wrongState)
    else
      match s.configuredPool x with
      | none => (s, .refuse .noSuch)
      | some q =>
        if (s.pool q).masked then ((s.setMask q false).matchRun q, .ok [])
        else (s, .refuse .wrongState)
  | _ => (s, .refuse .badArg)

/-- One queued ticket in a QUERY POOL response: number, class and state (R67). -/
def State.queuedFields (s : State) (n : Nat) : List Byte :=
  match s.ticket? n with
  | some t => u16 n ++ [u8 t.cls.code, u8 t.state.code]
  | none => u16 n ++ [u8 255, u8 255]

/-- The fields of a QUERY POOL response (R67). -/
def State.poolFields (s : State) (q : PoolNo) : List Byte :=
  let x := s.pool q
  [u8 q, u8 (flagCode x.configured), u8 x.kind.code, u8 (flagCode x.masked), opt8 (x.pointer.map Fin.val),
    u8 (s.poolBays q).length,
    u8 ((s.poolBays q).countP (fun b => decide ((s.bay b).state = .free))),
    u8 ((s.poolBays q).countP (fun b => decide ((s.bay b).state = .offered))),
    u8 x.queue.length] ++ x.queue.flatMap s.queuedFields

/-- QUERY POOL (R67). -/
def ownQueryPool (_p : Port) (payload : List Byte) (s : State) : State × Reply :=
  match payload with
  | [x] =>
    match poolNo x with
    | some q => (s, .ok (s.poolFields q))
    | none => (s, .refuse .noSuch)
  | _ => (s, .refuse .badArg)

end Sys2Proof.Machine
end

