-- ==== Sys2Proof/Machine/BookingCommands.lean ====
section
/-! DEFINITION. The requests the booking unit owns (Chapter 4). -/

namespace Sys2Proof.Machine

/-- The record of a new booking (R68, R76). -/
def State.newBooking (s : State) (p : Port) (start : SlotNo) (length : Nat) (c : Priority) : Booking :=
  { number := s.nextBooking, origin := p, start := start, length := length, cls := c }

/-- A booking joins the book and its bay's list, and its number is spent (R69, R70). -/
def State.placeBooking (s : State) (b : BayNo) (k : Booking) : State :=
  let s1 := s.setBookings b (insertBooking s.offset k (s.bookings b))
  { s1 with booking := { s1.booking with counter := nextNumber k.number } }

/-- The checks of BOOK from the offset on (R75, steps 4 to 7); none where every check passes. -/
def State.bookRefusal (s : State) (p : Port) (b : BayNo) (start : SlotNo) (length : Nat) :
    Option Reply :=
  let o := offsetFrom s.booking.slotNow start
  if o ≤ 0 then some (.refuse .past)
  else
    match s.booking.bands.bandOf o with
    | none => some (.refuse .band)
    | some band =>
      if mayBook p band then
        match s.firstOverlap b o length with
        | some k => some (.refuseWith .conflict (u16 k.number))
        | none =>
          if 6 ≤ (s.bookings b).length ∨ 160 ≤ s.bookSize then some (.refuse .full) else none
      else some (.refuse .band)

/-- The code of a booking's band; absent outside the horizon (R175). -/
def bandByte (b : Option Band) : Byte := opt8 (b.map Band.code)

/-- BOOK (R75, R76): the fields are bay, start slot, length and class. -/
def ownBook (p : Port) (payload : List Byte) (s : State) : State × Reply :=
  match payload with
  | [bay, s3, s2, s1, s0, len, cls] =>
    match priorityOf cls with
    | none => (s, .refuse .badArg)
    | some c =>
      if c = .access ∧ p = .n then (s, .refuse .noRight)
      else
        match s.enrolledBay bay with
        | none => (s, .refuse .noSuch)
        | some b =>
          if len.toNat < 1 ∨ 16 < len.toNat then (s, .refuse .badArg)
          else
            let start : SlotNo := BitVec.ofNat 32 (of32 s3 s2 s1 s0)
            match s.bookRefusal p b start len.toNat with
            | some r => (s, r)
            | none =>
              let k := s.newBooking p start len.toNat c
              (s.placeBooking b k,
                .ok (u16 k.number ++ u8 b :: u32 start.toNat ++
                  [u8 (s.offset k).toNat, bandByte (s.booking.bands.bandOf (s.offset k))]))
  | _ => (s, .refuse .badArg)

/-- The checks on a named booking (R77, steps 1 and 2). -/
def State.ownBooking (s : State) (p : Port) (n : Nat) : Except Status (BayNo × Booking) :=
  if n = 0 then .error .noSuch
  else
    match s.findBooking n with
    | none => .error .noSuch
    | some (b, k) => if p ≠ .s ∧ k.origin ≠ p then .error .notOwner else .ok (b, k)

/-- CANCEL BOOKING (R77): in RUN one matching run is made in the pool of the booking's bay. -/
def ownCancelBooking (p : Port) (payload : List Byte) (s : State) : State × Reply :=
  match payload with
  | [h, l] =>
    match s.ownBooking p (of16 h l) with
    | .error e => (s, .refuse e)
    | .ok (b, k) =>
      if p = .n ∧ s.booking.bands.bandOf (s.offset k) ≠ some .opened then (s, .refuse .band)
      else
        let s1 := s.dropBooking b k.number
        (if s.opState = .run then s1.matchRun (s1.bay b).pool else s1, .ok [])
  | _ => (s, .refuse .badArg)

/-- One booking in a QUERY BOOKINGS response: number, offset, length, class and origin (R78). -/
def State.listedFields (s : State) (k : Booking) : List Byte :=
  u16 k.number ++ [u8 (s.offset k).toNat, u8 k.length, u8 k.cls.code, u8 (originCode k.origin)]

/-- QUERY BOOKINGS (R78). -/
def ownQueryBookings (_p : Port) (payload : List Byte) (s : State) : State × Reply :=
  match payload with
  | [x] =>
    match s.enrolledBay x with
    | some b =>
      (s, .ok (u8 b :: u32 s.booking.slotNow.toNat ++ u8 (s.bookings b).length ::
        (s.bookings b).flatMap s.listedFields))
    | none => (s, .refuse .noSuch)
  | _ => (s, .refuse .badArg)

/-- The fields of a QUERY BOOKING response (R79). -/
def State.bookingFields (s : State) (b : BayNo) (k : Booking) : List Byte :=
  u16 k.number ++ [u8 (originCode k.origin), u8 b] ++ u32 k.start.toNat ++
  [u8 k.length, u8 k.cls.code, u8 (s.offset k).toNat, bandByte (s.booking.bands.bandOf (s.offset k))] ++
  u32 s.booking.slotNow.toNat ++ u16 s.booking.secondsIntoSlot

/-- QUERY BOOKING (R79). -/
def ownQueryBooking (p : Port) (payload : List Byte) (s : State) : State × Reply :=
  match payload with
  | [h, l] =>
    match s.ownBooking p (of16 h l) with
    | .error e => (s, .refuse e)
    | .ok (b, k) => (s, .ok (s.bookingFields b k))
  | _ => (s, .refuse .badArg)

/-- The first live booking whose offset against a slot number lies outside 1 to 95, in ascending bay order
and list order (R72). -/
def State.firstOutside (s : State) (now : SlotNo) : Option Booking :=
  allBays.findSome? (fun b => (s.bookings b).find?
    (fun k => decide (offsetFrom now k.start < 1) || decide (95 < offsetFrom now k.start)))

/-- The slot clock takes a slot number and seconds into slot (R72); an expiry that was due is due no more. -/
def State.setClock (s : State) (now : SlotNo) (seconds : Nat) : State :=
  { s with booking := { s.booking with slotNow := now, secondsIntoSlot := seconds, slotDue := false } }

/-- SET SLOT CLOCK (R72): the fields are the slot number and the seconds into slot. -/
def ownSetSlotClock (_p : Port) (payload : List Byte) (s : State) : State × Reply :=
  match payload with
  | [s3, s2, s1, s0, h, l] =>
    if s.opState = .run then (s, .refuse .wrongState)
    else
      let now : SlotNo := BitVec.ofNat 32 (of32 s3 s2 s1 s0)
      match s.firstOutside now with
      | some k => (s, .refuseWith .wrongState (u16 k.number))
      | none => (s.setClock now (min (of16 h l) 899), .okClamped [] (decide (899 < of16 h l)))
  | _ => (s, .refuse .badArg)

/-- SET BANDS (R74): the fields are F_b, O_b and T_b, 1 byte each (assumption 10). -/
def ownSetBands (_p : Port) (payload : List Byte) (s : State) : State × Reply :=
  match payload with
  | [f, o, t] =>
    if s.opState = .run then (s, .refuse .wrongState)
    else
      let bands : Bands := { frozen := f.toNat, opened := o.toNat, far := t.toNat }
      if bands.valid then ({ s with booking := { s.booking with bands := bands } }, .ok [])
      else (s, .refuse .badArg)
  | _ => (s, .refuse .badArg)

end Sys2Proof.Machine
end

