-- ==== Sys2Proof/Machine/PowerCommands.lean ====
section
/-! DEFINITION. The requests the power unit owns: SET CAP and QUERY POWER (Chapter 6), and SET LEVEL
(R167). -/

namespace Sys2Proof.Machine

/-- SET CAP (R110): the response is the cap as taken and the budget that results. -/
def ownSetCap (_p : Port) (payload : List Byte) (s : State) : State × Reply :=
  match payload with
  | [h, l] =>
    let k := min (of16 h l) 2000
    let s1 := s.setCapTo k
    (s1, .okClamped (u16 k ++ u16 s1.power.budget) (decide (2000 < of16 h l)))
  | _ => (s, .refuse .badArg)

/-- SET LEVEL (R167, R109): the fields are C, B and F; the response is C, B and F as taken and the budget
that results. -/
def ownSetLevel (_p : Port) (payload : List Byte) (s : State) : State × Reply :=
  match payload with
  | [c1, c0, b1, b0, f1, f0] =>
    let c := min (of16 c1 c0) 2000
    let b := min (of16 b1 b0) 2000
    let f := min (of16 f1 f0) 16
    let s1 := s.setLevelTo c b f
    (s1, .okClamped (u16 c ++ u16 b ++ u16 f ++ u16 s1.power.budget)
      (decide (2000 < of16 c1 c0) || decide (2000 < of16 b1 b0) || decide (16 < of16 f1 f0)))
  | _ => (s, .refuse .badArg)

/-- How many bays are ACTIVE (R123). -/
def State.activeCount (s : State) : Nat := allBays.countP (fun b => decide ((s.bay b).state = .active))

/-- The sum of the targets of the ACTIVE bays (R123). -/
def State.targetSum (s : State) : Nat :=
  (allBays.map (fun b => if (s.bay b).state = .active then (s.setpoint b).target else 0)).sum

/-- The fields of a QUERY POWER response without a bay (R123). -/
def State.powerFields (s : State) : List Byte :=
  [u8 s.power.tier.code, u8 s.power.candidate.toNat, u8 (flagCode s.power.debounce.isSome)] ++
  u16 s.power.rating ++ u16 s.power.base ++ [u8 s.power.fallback] ++ u16 s.power.cap ++
  u16 s.power.budget ++ [u8 s.suspendedCount] ++ u16 s.activeBudget ++
  u16 (committedLoad s.power.setpoints) ++ u16 s.targetSum ++
  [u8 s.activeCount, u8 s.participants.length,
    u8 (allBays.countP (fun b => (s.setpoint b).throttled))]

/-- The further fields of a QUERY POWER response with a bay: its setpoint record and capped demand
(R123). -/
def State.setpointFields (s : State) (b : BayNo) : List Byte :=
  let x := s.setpoint b
  [u8 x.target, u8 x.issued, u8 x.seq, u8 x.acked, u8 (flagCode x.throttled), u8 (s.bay b).cappedDemand]

/-- QUERY POWER (R123). -/
def ownQueryPower (_p : Port) (payload : List Byte) (s : State) : State × Reply :=
  match payload with
  | [] => (s, .ok s.powerFields)
  | [x] =>
    match bayNo x with
    | some b => (s, .ok (s.powerFields ++ s.setpointFields b))
    | none => (s, .refuse .noSuch)
  | _ => (s, .refuse .badArg)

end Sys2Proof.Machine
end

