-- ==== Sys2Proof/Machine/NoticeCommands.lean ====
section
/-! DEFINITION. READ NOTICES and the status window (Chapter 9). -/

namespace Sys2Proof.Machine

/-- A count of 1 to top is taken as it is; 0 or more than top is taken as top (R162, R165). -/
def takenCount (count top : Nat) : Nat := if count = 0 ∨ top < count then top else count

/-- READ NOTICES (R162): the m oldest notices leave the port's queue; the response carries m, the notices and
how many are left. Where the queue is left empty, OVERRUN is cleared once the response is built (R160). -/
def ownReadNotices (p : Port) (payload : List Byte) (s : State) : State × Reply :=
  match payload with
  | [c] =>
    let m := min (takenCount c.toNat 4) (s.queue p).notices.length
    let rest := (s.queue p).notices.drop m
    (s.setQueue p { s.queue p with notices := rest },
      { status := .ok,
        payload := u8 m :: ((s.queue p).notices.take m).flatMap Notice.bytes ++ [u8 rest.length],
        clamped := decide (takenCount c.toNat 4 ≠ c.toNat), clearsOverrun := rest.isEmpty })
  | _ => (s, .refuse .badArg)

/-- The bay at a position of an aisle (R1). -/
def bayAt (aisle : Fin 6) (position : Fin 8) : BayNo :=
  ⟨aisle.val * 8 + position.val, by omega⟩

/-- The numbers of a range, from first to last or from last to first (R164). -/
def rangeOf {n : Nat} (first last : Fin n) (reverse : Bool) : List (Fin n) :=
  let l := (List.finRange n).filter (fun i => decide (first ≤ i ∧ i ≤ last))
  if reverse then l.reverse else l

/-- The bays of a window in window order (R164). -/
def windowBays (w : Window) : List BayNo :=
  let aisles := rangeOf w.aisleFirst w.aisleLast w.revAisle
  let positions := rangeOf w.posFirst w.posLast w.revPos
  match w.order with
  | .aisleFirst => aisles.flatMap (fun a => positions.map (fun q => bayAt a q))
  | .positionFirst => positions.flatMap (fun q => aisles.map (fun a => bayAt a q))

/-- The first bay in window order (R164). -/
def firstBay (bays : List BayNo) : BayNo := bays.headD 0

/-- The bay after a bay in window order, the first after the last (R165). -/
def nextInWindow (bays : List BayNo) (b : BayNo) : BayNo :=
  match bays.drop (bays.idxOf b + 1) with
  | c :: _ => c
  | [] => firstBay bays

/-- The bays that a READ WINDOW returns, each with its WRAPPED mark, and the pointer after them: the window's
first bay carries WRAPPED unless the fresh mark stands (R165). -/
def readBays (bays : List BayNo) : Nat → BayNo → Bool → List (BayNo × Bool) × BayNo
  | 0, b, _ => ([], b)
  | n + 1, b, fresh =>
    let r := readBays bays n (nextInWindow bays b) false
    ((b, decide (b = firstBay bays) && !fresh) :: r.1, r.2)

/-- A bay summary of a READ WINDOW response (R165, R175). -/
def State.summary (s : State) (b : BayNo) (wrapped : Bool) : List Byte :=
  let x := s.bay b
  [u8 b, u8 x.state.code, u8 (s.lamp b).code, u8 x.presence.code, u8 x.plug.code] ++ opt16 x.ticket ++
  [u8 (s.setpoint b).target, u8 (s.setpoint b).acked] ++ opt32 (x.session.map (fun k => k.energy)) ++
  [u8 (flagCode wrapped)]

/-- A port's window is written (R163). -/
def State.setWindow (s : State) (p : Port) (w : Window) : State :=
  s.setPort p { s.port p with window := some w }

/-- The window of an OPEN WINDOW, its pointer at its first bay and its fresh mark set (R163). -/
def openedWindow (w : Window) : Window := { w with pointer := firstBay (windowBays w), fresh := true }

/-- OPEN WINDOW (R163): the fields are the aisle range, the position range, the order, the reverse-aisle flag
and the reverse-position flag. That an aisle takes 1 byte is the model's reading of R175, whose widths name a
position and no aisle (assumption 10). -/
def ownOpenWindow (p : Port) (payload : List Byte) (s : State) : State × Reply :=
  match payload with
  | [a1, a2, q1, q2, ord, ra, rp] =>
    match aisleNo a1, aisleNo a2, positionNo q1, positionNo q2, windowOrderOf ord, flagOf ra, flagOf rp with
    | some a, some a', some q, some q', some o, some r, some r' =>
      if a ≤ a' ∧ q ≤ q' then
        let w := openedWindow { aisleFirst := a, aisleLast := a', posFirst := q, posLast := q', order := o,
                                revAisle := r, revPos := r', pointer := 0, fresh := true }
        (s.setWindow p w, .ok [u8 (windowBays w).length])
      else (s, .refuse .badArg)
    | _, _, _, _, _, _, _ => (s, .refuse .badArg)
  | _ => (s, .refuse .badArg)

/-- READ WINDOW (R165). -/
def ownReadWindow (p : Port) (payload : List Byte) (s : State) : State × Reply :=
  match payload with
  | [c] =>
    match (s.port p).window with
    | none => (s, .refuse .wrongState)
    | some w =>
      let r := readBays (windowBays w) (takenCount c.toNat 8) w.pointer w.fresh
      (s.setWindow p { w with pointer := r.2, fresh := false },
        .okClamped (r.1.flatMap (fun x => s.summary x.1 x.2)) (decide (takenCount c.toNat 8 ≠ c.toNat)))
  | _ => (s, .refuse .badArg)

end Sys2Proof.Machine
end

