-- ==== Sys2Proof/Machine/ConfigCommands.lean ====
section
/-! DEFINITION. The operating-state control (Chapter 10): SET TIMERS, SET BAY, SET POOL, QUERY CONFIG, START,
RECONFIGURE and RESTART. -/

namespace Sys2Proof.Machine

/-- A value brought into a range (R167). -/
def clampTo (low high x : Nat) : Nat := max low (min x high)

/-- SET TIMERS (R167): arrival grace, offer time and reconnect window. -/
def ownSetTimers (_p : Port) (payload : List Byte) (s : State) : State × Reply :=
  match payload with
  | [g1, g0, o1, o0, r1, r0] =>
    if s.opState = .run then (s, .refuse .wrongState)
    else
      let t : Timers :=
        { grace := clampTo 300 1800 (of16 g1 g0), offer := clampTo 15 180 (of16 o1 o0),
          reconnect := clampTo 10 600 (of16 r1 r0) }
      ({ s with timers := t },
        .okClamped (u16 t.grace ++ u16 t.offer ++ u16 t.reconnect)
          (decide (t.grace ≠ of16 g1 g0) || decide (t.offer ≠ of16 o1 o0) ||
            decide (t.reconnect ≠ of16 r1 r0)))
  | _ => (s, .refuse .badArg)

/-- SET BAY (R168): the fields are bay, enrolled flag, pool and rating. -/
def ownSetBay (_p : Port) (payload : List Byte) (s : State) : State × Reply :=
  match payload with
  | [bay, en, pool, rating] =>
    if s.opState = .run then (s, .refuse .wrongState)
    else
      match bayNo bay with
      | none => (s, .refuse .noSuch)
      | some b =>
        match flagOf en with
        | none => (s, .refuse .badArg)
        | some e =>
          match poolNo pool with
          | none => (s, .refuse .noSuch)
          | some q =>
            if rating.toNat < 6 ∨ 63 < rating.toNat then (s, .refuse .badArg)
            else (s.setBay b { s.bay b with enrolled := e, pool := q, rating := rating.toNat }, .ok [])
  | _ => (s, .refuse .badArg)

/-- SET POOL (R168): the fields are pool, configured flag and kind. -/
def ownSetPool (_p : Port) (payload : List Byte) (s : State) : State × Reply :=
  match payload with
  | [pool, conf, kind] =>
    if s.opState = .run then (s, .refuse .wrongState)
    else
      match poolNo pool with
      | none => (s, .refuse .noSuch)
      | some q =>
        match flagOf conf, poolKindOf kind with
        | some c, some k => (s.setPool q { s.pool q with configured := c, kind := k }, .ok [])
        | _, _ => (s, .refuse .badArg)
  | _ => (s, .refuse .badArg)

/-! ### The validity of the configuration (R169, R170) -/

/-- The enrolled bays, ascending (R170). -/
def State.enrolledBays (s : State) : List BayNo := allBays.filter (fun b => (s.bay b).enrolled)

/-- The configured pools, ascending (R170). -/
def State.configuredPools (s : State) : List PoolNo := allPools.filter (fun q => (s.pool q).configured)

/-- The first check of START that fails, with its offending item as BAD_CONFIG carries it (R170, R175); none
where every check passes. -/
def State.offending (s : State) : Option (Nat × Nat) :=
  if s.enrolledBays = [] then some (1, 255)
  else
    match s.enrolledBays.find? (fun b => !(s.pool (s.bay b).pool).configured) with
    | some b => some (2, b.val)
    | none =>
      match s.configuredPools.find? (fun q => (s.poolBays q).isEmpty) with
      | some q => some (3, q.val)
      | none => none

/-- The two bytes of a validity (R169, R175). The bytes of none failing are a free value, and that they are two, as
those of a failing check are, is the model's choice (assumption 12). -/
def validityBytes (v : Option (Nat × Nat)) : List Byte :=
  match v with
  | some (check, item) => [u8 check, u8 item]
  | none => [Config.noneFailingCode.1, Config.noneFailingCode.2]

/-- The fields of a QUERY CONFIG response for GENERAL (R169). -/
def State.generalFields (s : State) : List Byte :=
  Config.opStateCode (decide (s.opState = .run)) :: (u16 s.power.rating ++ u16 s.power.base ++
  [u8 s.power.fallback] ++ u16 s.power.cap ++ u16 s.timers.grace ++ u16 s.timers.offer ++
  u16 s.timers.reconnect ++
  [u8 s.booking.bands.frozen, u8 s.booking.bands.opened, u8 s.booking.bands.far,
    u8 s.enrolledBays.length, u8 s.configuredPools.length] ++ validityBytes s.offending)

/-- QUERY CONFIG (R169): a selector, with a bay or pool number for BAY and POOL (assumption 11). -/
def ownQueryConfig (_p : Port) (payload : List Byte) (s : State) : State × Reply :=
  match payload with
  | [sel] => if sel.toNat = 0 then (s, .ok s.generalFields) else (s, .refuse .badArg)
  | [sel, x] =>
    match sel.toNat with
    | 1 =>
      match bayNo x with
      | some b =>
        (s, .ok [u8 (flagCode (s.bay b).enrolled), u8 (s.bay b).pool, u8 (s.bay b).rating])
      | none => (s, .refuse .noSuch)
    | 2 =>
      match poolNo x with
      | some q =>
        (s, .ok [u8 (flagCode (s.pool q).configured), u8 (s.pool q).kind.code, u8 (s.poolBays q).length])
      | none => (s, .refuse .noSuch)
    | _ => (s, .refuse .badArg)
  | _ => (s, .refuse .badArg)

/-! ### What START, RECONFIGURE and RESTART clear -/

/-- A bay record at START, RECONFIGURE and RESTART: the configuration and the tag counter are kept (R4). -/
def Bay.cleared (x : Bay) : Bay :=
  { x with state := .offline, presence := .unknown, plug := .unknown, ticket := none,
           blockPending := false, fault := none, session := none }

/-- Every bay record is cleared, without a BAY_STATE, and the admission list is empty (R4, R7, R106). -/
def State.clearBays (s : State) : State :=
  { s with bays := Vector.ofFn (fun b : BayNo => (s.bay b).cleared), admission := [] }

/-- A pool record at START, RECONFIGURE and RESTART: no mask, no rotation pointer and an empty queue
(R45). -/
def Pool.cleared (x : Pool) : Pool := { x with masked := false, pointer := none, queue := [] }

def State.clearPools (s : State) : State :=
  { s with pools := Vector.ofFn (fun q : PoolNo => (s.pool q).cleared) }

/-- Every setpoint record returns to its reset values, without a THROTTLE (R124). -/
def State.clearSetpoints (s : State) : State :=
  { s with power := { s.power with setpoints := Vector.ofFn (fun _ => Setpoint.cleared) } }

/-! ### START (R170) -/

/-- At START the bookings of an unenrolled bay are dropped, in list order (R88). -/
def State.dropUnenrolled (s : State) (b : BayNo) : State :=
  if (s.bay b).enrolled then s
  else (s.bookings b).foldl (fun r k => (r.dropBooking b k.number).noticeDropped k .unenrolled) s

/-- The part passes to RUN (R170). -/
def State.startUp (s : State) : State :=
  let s1 := allBays.foldl State.dropUnenrolled s
  let s2 := s1.clearBays.clearPools.clearSetpoints.clearBus
  ({ s2 with opState := .run } : State).openSweep

/-- START (R170): the response is the number of enrolled bays and of bookings dropped. -/
def ownStart (_p : Port) (payload : List Byte) (s : State) : State × Reply :=
  match payload with
  | [] =>
    if s.opState = .run then (s, .refuse .wrongState)
    else
      match s.offending with
      | some v => (s, .refuseWith .badConfig [u8 v.1, u8 v.2])
      | none =>
        (s.startUp, .ok [u8 s.enrolledBays.length, u8 (s.bookSize - s.startUp.bookSize)])
  | _ => (s, .refuse .badArg)

/-! ### RECONFIGURE (R171) -/

/-- The part passes to CONFIG: the bus ends any sweep with a long CLOSE and goes idle (R140, R171,
assumption 16). -/
def State.reconfigured (s : State) : State :=
  let s1 := s.clearBays.clearPools.clearSetpoints.clearBus
  { s1 with opState := .config, bus := { s1.bus with sent := some (.close .long) } }

/-- RECONFIGURE (R171). -/
def ownReconfigure (_p : Port) (payload : List Byte) (s : State) : State × Reply :=
  match payload with
  | [] =>
    if s.opState = .config then (s, .refuse .wrongState)
    else if s.tickets = [] then (s.reconfigured, .ok []) else (s, .refuse .wrongState)
  | _ => (s, .refuse .badArg)

/-! ### RESTART (R172) -/

/-- The notice queues are emptied and the OVERRUN flags cleared; the DROPPED flags are cleared and the
windows emptied (R143, R155, R157, R160, R163). -/
def State.clearPorts (s : State) : State :=
  { s with
    queues := s.queues.mapAll (fun _ => NoticeQueue.empty),
    ports := s.ports.mapAll (fun u => { u with dropped := false, window := none }) }

/-- Every claim is cleared; in RUN a new sweep opens at once, in CONFIG the bus stays idle (R141, R172). -/
def State.restarted (s : State) : State :=
  let s1 : State := { s.clearBays.clearPools.clearSetpoints.clearPorts with tickets := [] }
  if s.opState = .run then s1.clearBus.openSweep else s1.clearBus

/-- RESTART (R172). -/
def ownRestart (_p : Port) (payload : List Byte) (s : State) : State × Reply :=
  match payload with
  | [] => (s.restarted, .ok [])
  | _ => (s, .refuse .badArg)

end Sys2Proof.Machine
end

