-- ==== Sys2Proof/Machine/PortUnits.lean ====
section
/-! DEFINITION. The port units (Chapter 8): the catalogue, the checks of a request, the response, and the
receive assembler. -/

namespace Sys2Proof.Machine

/-! ### The catalogue (R149, R175) -/

/-- An entry of the command catalogue: the COMMAND code, whether K and N may use it, whether it is a reading
command, and its legal payload lengths (R149, R150, R175). quiet says that its rules change no bay, setpoint
or link record, so that it makes no sweep due (R136). -/
structure CommandInfo where
  code : Byte
  kMay : Bool
  nMay : Bool
  reading : Bool
  quiet : Bool
  lengths : List Nat
deriving DecidableEq, Repr

def infoQueryBay : CommandInfo := ⟨0x10#8, true, true, true, true, [1]⟩
def infoBlockBay : CommandInfo := ⟨0x11#8, false, false, false, false, [1]⟩
def infoUnblockBay : CommandInfo := ⟨0x12#8, false, false, false, false, [1]⟩
def infoClearFault : CommandInfo := ⟨0x13#8, false, false, false, false, [1]⟩
def infoRequestBay : CommandInfo := ⟨0x14#8, true, true, false, false, [3]⟩
def infoAdoptBay : CommandInfo := ⟨0x15#8, true, false, false, false, [3]⟩
def infoAssignBay : CommandInfo := ⟨0x16#8, false, false, false, false, [3]⟩
def infoCancelTicket : CommandInfo := ⟨0x17#8, true, true, false, false, [2]⟩
def infoQueryTicket : CommandInfo := ⟨0x18#8, true, true, true, true, [2]⟩
def infoAcceptOffer : CommandInfo := ⟨0x19#8, true, true, false, false, [3]⟩
def infoDeclineOffer : CommandInfo := ⟨0x1A#8, true, true, false, false, [3]⟩
def infoMaskPool : CommandInfo := ⟨0x1B#8, false, false, false, false, [1]⟩
def infoUnmaskPool : CommandInfo := ⟨0x1C#8, false, false, false, false, [1]⟩
def infoQueryPool : CommandInfo := ⟨0x1D#8, true, true, true, true, [1]⟩
def infoBook : CommandInfo := ⟨0x1E#8, true, true, false, false, [7]⟩
def infoCancelBooking : CommandInfo := ⟨0x1F#8, true, true, false, false, [2]⟩
def infoQueryBookings : CommandInfo := ⟨0x20#8, true, true, true, true, [1]⟩
def infoQueryBooking : CommandInfo := ⟨0x21#8, true, true, true, true, [2]⟩
def infoSetSlotClock : CommandInfo := ⟨0x22#8, false, false, false, false, [6]⟩
def infoSetBands : CommandInfo := ⟨0x23#8, false, false, false, false, [3]⟩
def infoForceClose : CommandInfo := ⟨0x24#8, false, false, false, false, [1]⟩
def infoSetCap : CommandInfo := ⟨0x25#8, false, false, false, false, [2]⟩
def infoQueryPower : CommandInfo := ⟨0x26#8, true, true, true, true, [0, 1]⟩
def infoReadNotices : CommandInfo := ⟨0x27#8, true, true, true, true, [1]⟩
/-- OPEN WINDOW: the legal length 7 takes each aisle field as 1 byte, a width that R175 does not name (assumption
10). -/
def infoOpenWindow : CommandInfo := ⟨0x28#8, true, true, true, true, [7]⟩
def infoReadWindow : CommandInfo := ⟨0x29#8, true, true, true, true, [1]⟩
def infoSetLevel : CommandInfo := ⟨0x2A#8, false, false, false, false, [6]⟩
def infoSetBay : CommandInfo := ⟨0x2B#8, false, false, false, false, [4]⟩
def infoSetPool : CommandInfo := ⟨0x2C#8, false, false, false, false, [3]⟩
def infoSetTimers : CommandInfo := ⟨0x2D#8, false, false, false, false, [6]⟩
def infoQueryConfig : CommandInfo := ⟨0x2E#8, false, false, false, true, [1, 2]⟩
def infoStart : CommandInfo := ⟨0x2F#8, false, false, false, false, [0]⟩
def infoReconfigure : CommandInfo := ⟨0x30#8, false, false, false, false, [0]⟩
def infoRestart : CommandInfo := ⟨0x31#8, false, false, false, false, [0]⟩

/-- A block that owns a command: it takes the port, the payload and the state, and answers the state it
leaves and its reply (R151). -/
abbrev Owner := Port → List Byte → State → State × Reply

/-- The port's role may use the command (R148, R149). -/
def CommandInfo.mayUse (c : CommandInfo) (p : Port) : Bool :=
  match p with
  | .s => true
  | .k => c.kMay
  | .n => c.nMay

/-! ### The response (R152, R153) -/

/-- Build a response: it is being sent, and DROPPED is cleared (R147, R152, R153). -/
def State.respond (s : State) (p : Port) (r : Reply) : State :=
  s.setPort p { s.port p with
    recv := .responding, dropped := false,
    response := some ⟨r.status, s.responseFlags p r, r.payload⟩ }

/-- The OVERRUN flag is cleared where the owner asks for it, once the response has been built (R153, R160). -/
def State.afterResponse (s : State) (p : Port) (r : Reply) : State :=
  if r.clearsOverrun then s.setQueue p { s.queue p with overrun := false } else s

/-- Answer a request (R151 to R153). -/
def State.answer (s : State) (p : Port) (r : Reply) : State := (s.respond p r).afterResponse p r

/-- The port unit is TAKING a request: the frame is complete and handed on (assumption 15), and its inter-byte
timer is stopped (R146, R147). -/
def State.startTaking (s : State) (p : Port) : State :=
  s.setPort p { s.port p with recv := .taking, frame := [], timer := false, discarded := false }

/-! ### The checks of a request (R148) -/

/-- The status with which the port unit refuses a request before its owner, where it does (R148, steps 2 to
4). -/
def State.portRefusal (s : State) (p : Port) (c : CommandInfo) (payload : List Byte) : Option Status :=
  if c.mayUse p = false then some .noRight
  else if s.opState = .config ∧ p ≠ .s ∧ c.reading = false then some .notReady
  else if payload.length ∈ c.lengths then none
  else some .badArg

/-- The owner's work on a request, and its response; afterwards the bus is tested where the command can make a
sweep due (R136, R151, assumption 8). -/
def State.handOver (s : State) (p : Port) (c : CommandInfo) (own : Owner) (payload : List Byte) : State :=
  let r := own p payload s
  let s1 := r.1.answer p r.2
  if c.quiet then s1 else s1.settleBus

/-- A request that has passed its CRC check and names a command is taken (R148, R151). -/
def State.takeRequest (s : State) (p : Port) (c : CommandInfo) (own : Owner) (payload : List Byte) :
    State :=
  let s1 := s.startTaking p
  match s1.portRefusal p c payload with
  | some st => s1.answer p (.refuse st)
  | none => s1.handOver p c own payload

/-- A request whose COMMAND value names no command is answered UNKNOWN_COMMAND, with the value (R148,
R152). -/
def State.takeUnknown (s : State) (p : Port) (command : Byte) : State :=
  (s.startTaking p).answer p (.refuseWith .unknownCommand [command])

/-- A complete frame that fails its CRC is answered FRAME_ERROR with an empty payload (R146). -/
def State.takeBadFrame (s : State) (p : Port) : State :=
  (s.startTaking p).answer p (.refuse .frameError)

/-- The request of a COMMAND value goes to its owner (R148, R149, R175). -/
def State.takeCommand (s : State) (p : Port) (command : Byte) (payload : List Byte) : State :=
  match command.toNat with
  | 0x10 => s.takeRequest p infoQueryBay ownQueryBay payload
  | 0x11 => s.takeRequest p infoBlockBay ownBlockBay payload
  | 0x12 => s.takeRequest p infoUnblockBay ownUnblockBay payload
  | 0x13 => s.takeRequest p infoClearFault ownClearFault payload
  | 0x14 => s.takeRequest p infoRequestBay ownRequestBay payload
  | 0x15 => s.takeRequest p infoAdoptBay ownAdoptBay payload
  | 0x16 => s.takeRequest p infoAssignBay ownAssignBay payload
  | 0x17 => s.takeRequest p infoCancelTicket ownCancelTicket payload
  | 0x18 => s.takeRequest p infoQueryTicket ownQueryTicket payload
  | 0x19 => s.takeRequest p infoAcceptOffer ownAcceptOffer payload
  | 0x1A => s.takeRequest p infoDeclineOffer ownDeclineOffer payload
  | 0x1B => s.takeRequest p infoMaskPool ownMaskPool payload
  | 0x1C => s.takeRequest p infoUnmaskPool ownUnmaskPool payload
  | 0x1D => s.takeRequest p infoQueryPool ownQueryPool payload
  | 0x1E => s.takeRequest p infoBook ownBook payload
  | 0x1F => s.takeRequest p infoCancelBooking ownCancelBooking payload
  | 0x20 => s.takeRequest p infoQueryBookings ownQueryBookings payload
  | 0x21 => s.takeRequest p infoQueryBooking ownQueryBooking payload
  | 0x22 => s.takeRequest p infoSetSlotClock ownSetSlotClock payload
  | 0x23 => s.takeRequest p infoSetBands ownSetBands payload
  | 0x24 => s.takeRequest p infoForceClose ownForceClose payload
  | 0x25 => s.takeRequest p infoSetCap ownSetCap payload
  | 0x26 => s.takeRequest p infoQueryPower ownQueryPower payload
  | 0x27 => s.takeRequest p infoReadNotices ownReadNotices payload
  | 0x28 => s.takeRequest p infoOpenWindow ownOpenWindow payload
  | 0x29 => s.takeRequest p infoReadWindow ownReadWindow payload
  | 0x2A => s.takeRequest p infoSetLevel ownSetLevel payload
  | 0x2B => s.takeRequest p infoSetBay ownSetBay payload
  | 0x2C => s.takeRequest p infoSetPool ownSetPool payload
  | 0x2D => s.takeRequest p infoSetTimers ownSetTimers payload
  | 0x2E => s.takeRequest p infoQueryConfig ownQueryConfig payload
  | 0x2F => s.takeRequest p infoStart ownStart payload
  | 0x30 => s.takeRequest p infoReconfigure ownReconfigure payload
  | 0x31 => s.takeRequest p infoRestart ownRestart payload
  | _ => s.takeUnknown p command

/-- The bytes a frame's CRC covers: from LENGTH to the end of the payload (section 8.2). -/
def frameBody (frame : List Byte) : List Byte := (frame.drop 1).take (frame.length - 3)

/-- The two CRC bytes of a frame. -/
def frameCheck (frame : List Byte) : List Byte := frame.drop (frame.length - 2)

/-- A complete frame is checked and taken (R146, R148). -/
def State.takeFrame (s : State) (p : Port) (frame : List Byte) : State :=
  if crcBytes (crc (frameBody frame)) = frameCheck frame then
    s.takeCommand p ((frame.drop 2).headD 0#8) ((frameBody frame).drop 2)
  else s.takeBadFrame p

/-! ### The receive assembler (R144, R145, R147) -/

/-- A partial frame is discarded and the port is IDLE (R144, R145). -/
def State.dropFrame (s : State) (p : Port) : State :=
  s.setPort p { s.port p with recv := .idle, frame := [], timer := false }

/-- The assembled frame takes these bytes and the inter-byte timer is started again (R144). -/
def State.storeFrame (s : State) (p : Port) (frame : List Byte) : State :=
  s.setPort p { s.port p with recv := .receiving, frame := frame, timer := true }

/-- The frame is complete: SYNC, LENGTH, the LENGTH bytes and two CRC bytes (R144). -/
def frameComplete (frame : List Byte) : Bool :=
  match frame with
  | _ :: len :: rest => decide (rest.length = len.toNat + 2)
  | _ => false

/-- A byte arrives in RECEIVING (R144): a LENGTH outside 1 to 49 discards the frame, and the byte that
completes the frame has it checked and taken. -/
def State.receiveInFrame (s : State) (p : Port) (b : Byte) : State :=
  let frame := (s.port p).frame ++ [b]
  if frame.length = 2 ∧ (b.toNat < 1 ∨ 49 < b.toNat) then s.dropFrame p
  else if frameComplete frame then s.takeFrame p frame
  else s.storeFrame p frame

/-- A byte that arrives in TAKING or RESPONDING is discarded and DROPPED is set (R147). -/
def State.discardBusy (s : State) (p : Port) : State :=
  s.setPort p { s.port p with dropped := true, discarded := true }

/-- A byte that arrives in FLUSHING is discarded and starts the inter-byte timer again (R144, R147). -/
def State.discardFlush (s : State) (p : Port) : State := s.setPort p { s.port p with timer := true }

/-- The receive assembler takes a byte (R144). -/
def State.receive (s : State) (p : Port) (b : Byte) : State :=
  match (s.port p).recv with
  | .idle => if b = portSync then s.storeFrame p [b] else s
  | .receiving => s.receiveInFrame p b
  | .taking => s.discardBusy p
  | .responding => s.discardBusy p
  | .flushing => s.discardFlush p

/-- A byte with a framing error: discarded in IDLE, and in RECEIVING it discards the assembled frame; a busy
or flushing port discards it as any byte (R144, assumption 14). -/
def State.receiveBroken (s : State) (p : Port) : State :=
  match (s.port p).recv with
  | .idle => s
  | .receiving => s.dropFrame p
  | .taking => s.discardBusy p
  | .responding => s.discardBusy p
  | .flushing => s.discardFlush p

/-- The inter-byte timer of a port runs out (R145, R147). -/
def State.timerOut (s : State) (p : Port) : State :=
  if (s.port p).timer then
    match (s.port p).recv with
    | .receiving => s.dropFrame p
    | .flushing => s.dropFrame p
    | .idle => s
    | .taking => s
    | .responding => s
  else s

/-- The last byte of a response leaves the port (R147). -/
def State.responseLeft (s : State) (p : Port) : State :=
  match (s.port p).recv with
  | .responding =>
    if (s.port p).discarded then
      s.setPort p { s.port p with recv := .flushing, timer := true, response := none }
    else s.setPort p { s.port p with recv := .idle, response := none }
  | .idle => s
  | .receiving => s
  | .taking => s
  | .flushing => s

/-! ### A whole frame on the line -/

/-- The bytes of a run arrive one after another. -/
def State.receiveAll (s : State) (p : Port) (bytes : List Byte) : State :=
  bytes.foldl (fun r b => r.receive p b) s

/-- The rest of this frame can complete at the port: it is IDLE, or RECEIVING with a first part of the frame
assembled, and the frame's LENGTH is legal. -/
def State.awaits (s : State) (p : Port) (frame : List Byte) : Bool :=
  match (s.port p).recv with
  | .idle => decide (frame.length ≤ 53)
  | .receiving =>
    decide (frame.length ≤ 53) && decide ((s.port p).frame ≠ []) &&
    (s.port p).frame.isPrefixOf frame && decide ((s.port p).frame.length < frame.length)
  | .taking => false
  | .responding => false
  | .flushing => false

/-- A frame comes to its end at a port (assumption 2). Where the port awaits it, the bytes not yet received arrive
and the frame is taken; otherwise its bytes fall to the receive assembler one by one, which discards or misreads
them (R144, R147). -/
def State.deliver (s : State) (p : Port) (frame : List Byte) (taken : State → State) : State :=
  if s.awaits p frame then taken s else s.receiveAll p frame

/-- A request frame of a catalogue command comes to its end at a port (R148, R151). -/
def State.request (s : State) (p : Port) (c : CommandInfo) (own : Owner) (payload : List Byte) : State :=
  s.deliver p (requestFrame c.code payload) (fun r => r.takeRequest p c own payload)

end Sys2Proof.Machine
end

