-- ==== Sys2Proof/Machine/Requests.lean ====
section
/-! DEFINITION. The meanings of the 34 request rows: a request of the catalogue comes to its end on a port, is
checked by the port unit, taken by its owner and answered (R148 to R152). -/

namespace Sys2Proof.Machine

/-- QUERY BAY (R25). -/
def execQueryBay (p : Port) (payload : List Byte) (s : State) : Host.Outcome State Fault Refusal :=
  .next (s.request p infoQueryBay ownQueryBay payload)

/-- BLOCK BAY (R21). -/
def execBlockBay (p : Port) (payload : List Byte) (s : State) : Host.Outcome State Fault Refusal :=
  .next (s.request p infoBlockBay ownBlockBay payload)

/-- UNBLOCK BAY (R22). -/
def execUnblockBay (p : Port) (payload : List Byte) (s : State) : Host.Outcome State Fault Refusal :=
  .next (s.request p infoUnblockBay ownUnblockBay payload)

/-- CLEAR FAULT (R24). -/
def execClearFault (p : Port) (payload : List Byte) (s : State) : Host.Outcome State Fault Refusal :=
  .next (s.request p infoClearFault ownClearFault payload)

/-- REQUEST BAY (R31). -/
def execRequestBay (p : Port) (payload : List Byte) (s : State) : Host.Outcome State Fault Refusal :=
  .next (s.request p infoRequestBay ownRequestBay payload)

/-- ADOPT BAY (R34). -/
def execAdoptBay (p : Port) (payload : List Byte) (s : State) : Host.Outcome State Fault Refusal :=
  .next (s.request p infoAdoptBay ownAdoptBay payload)

/-- ASSIGN BAY (R36). -/
def execAssignBay (p : Port) (payload : List Byte) (s : State) : Host.Outcome State Fault Refusal :=
  .next (s.request p infoAssignBay ownAssignBay payload)

/-- CANCEL TICKET (R41). -/
def execCancelTicket (p : Port) (payload : List Byte) (s : State) : Host.Outcome State Fault Refusal :=
  .next (s.request p infoCancelTicket ownCancelTicket payload)

/-- QUERY TICKET (R42). -/
def execQueryTicket (p : Port) (payload : List Byte) (s : State) : Host.Outcome State Fault Refusal :=
  .next (s.request p infoQueryTicket ownQueryTicket payload)

/-- ACCEPT OFFER (R56). -/
def execAcceptOffer (p : Port) (payload : List Byte) (s : State) : Host.Outcome State Fault Refusal :=
  .next (s.request p infoAcceptOffer ownAcceptOffer payload)

/-- DECLINE OFFER (R57). -/
def execDeclineOffer (p : Port) (payload : List Byte) (s : State) : Host.Outcome State Fault Refusal :=
  .next (s.request p infoDeclineOffer ownDeclineOffer payload)

/-- MASK POOL (R65). -/
def execMaskPool (p : Port) (payload : List Byte) (s : State) : Host.Outcome State Fault Refusal :=
  .next (s.request p infoMaskPool ownMaskPool payload)

/-- UNMASK POOL (R66). -/
def execUnmaskPool (p : Port) (payload : List Byte) (s : State) : Host.Outcome State Fault Refusal :=
  .next (s.request p infoUnmaskPool ownUnmaskPool payload)

/-- QUERY POOL (R67). -/
def execQueryPool (p : Port) (payload : List Byte) (s : State) : Host.Outcome State Fault Refusal :=
  .next (s.request p infoQueryPool ownQueryPool payload)

/-- BOOK (R75). -/
def execBook (p : Port) (payload : List Byte) (s : State) : Host.Outcome State Fault Refusal :=
  .next (s.request p infoBook ownBook payload)

/-- CANCEL BOOKING (R77). -/
def execCancelBooking (p : Port) (payload : List Byte) (s : State) : Host.Outcome State Fault Refusal :=
  .next (s.request p infoCancelBooking ownCancelBooking payload)

/-- QUERY BOOKINGS (R78). -/
def execQueryBookings (p : Port) (payload : List Byte) (s : State) : Host.Outcome State Fault Refusal :=
  .next (s.request p infoQueryBookings ownQueryBookings payload)

/-- QUERY BOOKING (R79). -/
def execQueryBooking (p : Port) (payload : List Byte) (s : State) : Host.Outcome State Fault Refusal :=
  .next (s.request p infoQueryBooking ownQueryBooking payload)

/-- SET SLOT CLOCK (R72). -/
def execSetSlotClock (p : Port) (payload : List Byte) (s : State) : Host.Outcome State Fault Refusal :=
  .next (s.request p infoSetSlotClock ownSetSlotClock payload)

/-- SET BANDS (R74). -/
def execSetBands (p : Port) (payload : List Byte) (s : State) : Host.Outcome State Fault Refusal :=
  .next (s.request p infoSetBands ownSetBands payload)

/-- FORCE CLOSE (R105). -/
def execForceClose (p : Port) (payload : List Byte) (s : State) : Host.Outcome State Fault Refusal :=
  .next (s.request p infoForceClose ownForceClose payload)

/-- SET CAP (R110). -/
def execSetCap (p : Port) (payload : List Byte) (s : State) : Host.Outcome State Fault Refusal :=
  .next (s.request p infoSetCap ownSetCap payload)

/-- QUERY POWER (R123). -/
def execQueryPower (p : Port) (payload : List Byte) (s : State) : Host.Outcome State Fault Refusal :=
  .next (s.request p infoQueryPower ownQueryPower payload)

/-- READ NOTICES (R162). -/
def execReadNotices (p : Port) (payload : List Byte) (s : State) : Host.Outcome State Fault Refusal :=
  .next (s.request p infoReadNotices ownReadNotices payload)

/-- OPEN WINDOW (R163). -/
def execOpenWindow (p : Port) (payload : List Byte) (s : State) : Host.Outcome State Fault Refusal :=
  .next (s.request p infoOpenWindow ownOpenWindow payload)

/-- READ WINDOW (R165). -/
def execReadWindow (p : Port) (payload : List Byte) (s : State) : Host.Outcome State Fault Refusal :=
  .next (s.request p infoReadWindow ownReadWindow payload)

/-- SET LEVEL (R167). -/
def execSetLevel (p : Port) (payload : List Byte) (s : State) : Host.Outcome State Fault Refusal :=
  .next (s.request p infoSetLevel ownSetLevel payload)

/-- SET BAY (R168). -/
def execSetBay (p : Port) (payload : List Byte) (s : State) : Host.Outcome State Fault Refusal :=
  .next (s.request p infoSetBay ownSetBay payload)

/-- SET POOL (R168). -/
def execSetPool (p : Port) (payload : List Byte) (s : State) : Host.Outcome State Fault Refusal :=
  .next (s.request p infoSetPool ownSetPool payload)

/-- SET TIMERS (R167). -/
def execSetTimers (p : Port) (payload : List Byte) (s : State) : Host.Outcome State Fault Refusal :=
  .next (s.request p infoSetTimers ownSetTimers payload)

/-- QUERY CONFIG (R169). -/
def execQueryConfig (p : Port) (payload : List Byte) (s : State) : Host.Outcome State Fault Refusal :=
  .next (s.request p infoQueryConfig ownQueryConfig payload)

/-- START (R170). -/
def execStart (p : Port) (payload : List Byte) (s : State) : Host.Outcome State Fault Refusal :=
  .next (s.request p infoStart ownStart payload)

/-- RECONFIGURE (R171). -/
def execReconfigure (p : Port) (payload : List Byte) (s : State) : Host.Outcome State Fault Refusal :=
  .next (s.request p infoReconfigure ownReconfigure payload)

/-- RESTART (R172). -/
def execRestart (p : Port) (payload : List Byte) (s : State) : Host.Outcome State Fault Refusal :=
  .next (s.request p infoRestart ownRestart payload)

end Sys2Proof.Machine
end

