-- ==== Sys2Proof/Machine/PortEvents.lean ====
section
/-! DEFINITION. The meanings of the rows that reach the part as a whole or a port unit: the power reset, the
time base, the receive assembler, and the frames the port unit answers itself. An event that cannot occur in
the state, such as the expiry of a timer that is stopped, leaves the state as it is (assumption 4). -/

namespace Sys2Proof.Machine

/-- POWER_RESET (R166): every block takes its power-reset values, and the code on the feed-level lines as the
reset ends becomes the candidate (R108). The commands that wait are not the part's. -/
def execPowerReset (feed : BitVec 2) (s : State) : Host.Outcome State Fault Refusal :=
  .next { State.powerOn feed with pending := s.pending }

/-- DEVICE_SECONDS (R178, R71). -/
def execDeviceSeconds (s : State) : Host.Outcome State Fault Refusal := .next s.tick

/-- RECEIVE_BYTE (R144): a byte arrives, with a framing error or without. -/
def execReceiveByte (p : Port) (b : Byte) (framingError : Bool) (s : State) :
    Host.Outcome State Fault Refusal :=
  .next (if framingError then s.receiveBroken p else s.receive p b)

/-- INTER_BYTE_TIMER (R145, R147). -/
def execInterByteTimer (p : Port) (s : State) : Host.Outcome State Fault Refusal := .next (s.timerOut p)

/-- FRAME_ERROR (R146): a frame with these CRC bytes completes and its CRC is checked. -/
def execFrameError (p : Port) (command : Byte) (payload : List Byte) (crcHigh crcLow : Byte) (s : State) :
    Host.Outcome State Fault Refusal :=
  let frame := requestFrameWith command payload crcHigh crcLow
  .next (s.deliver p frame (fun r => r.takeFrame p frame))

/-- UNKNOWN_COMMAND (R148, step 1): a frame with a good CRC completes and its COMMAND value is looked up. -/
def execUnknownCommand (p : Port) (command : Byte) (payload : List Byte) (s : State) :
    Host.Outcome State Fault Refusal :=
  .next (s.deliver p (requestFrame command payload) (fun r => r.takeCommand p command payload))

/-- RESPONSE_DEPARTURE (R147). -/
def execResponseDeparture (p : Port) (s : State) : Host.Outcome State Fault Refusal :=
  .next (s.responseLeft p)

end Sys2Proof.Machine
end

