-- ==== Sys2Proof/Machine/TimerEvents.lean ====
section
/-! DEFINITION. The meanings of the rows in which a timer of the part runs out or the feed-level lines change.
A timer that is stopped, or whose deadline the device seconds have not reached, does not run out, and the row
then leaves the state as it is (assumption 4). Where the head bus waits in LISTEN mode, the event is followed
by the test of R136. -/

namespace Sys2Proof.Machine

/-- The code on the feed-level lines becomes this one; a change makes it the candidate and starts the debounce
timer, again where it runs, to run out 2 s later (R108). -/
def State.feedCodeIs (s : State) (code : BitVec 2) : State :=
  if code = s.power.lines then s
  else { s with power := { s.power with lines := code, candidate := code, debounce := some (s.deadline 2) } }

/-- FEED_CODE_CHANGE (R108). -/
def execFeedCodeChange (code : BitVec 2) (s : State) : Host.Outcome State Fault Refusal :=
  .next (s.feedCodeIs code)

/-- DEBOUNCE_EXPIRY (R108): taken where the deadline of the debounce timer has come (R178). -/
def execDebounceExpiry (s : State) : Host.Outcome State Fault Refusal :=
  .next (if s.isDue s.power.debounce then s.takeCandidate.settleBus else s)

/-- The bay at which a ticket in this state stands, where its timer has run out. -/
def State.dueTicket (s : State) (n : Nat) (st : TicketState) (deadline : Ticket → Option Seconds) :
    Option (Ticket × BayNo) :=
  match s.ticket? n with
  | some t =>
    match t.bay with
    | some b => if t.state = st ∧ s.isDue (deadline t) = true then some (t, b) else none
    | none => none
  | none => none

/-- HOLD_EXPIRY (R38). -/
def execHoldExpiry (n : Nat) (s : State) : Host.Outcome State Fault Refusal :=
  .next (match s.dueTicket n .held Ticket.holdDeadline with
    | some (_, b) => (s.expireHold n b).settleBus
    | none => s)

/-- LAPSE (R58). -/
def execLapse (n : Nat) (s : State) : Host.Outcome State Fault Refusal :=
  .next (match s.dueTicket n .offered Ticket.offerDeadline with
    | some (t, b) => (s.giveUpOffer t b true).settleBus
    | none => s)

/-- The reconnect timer of a bay has run out (R97, R98). -/
def State.reconnectDue (s : State) (b : BayNo) : Bool :=
  match (s.bay b).state, (s.bay b).session with
  | .suspended, some k => s.isDue k.reconnect
  | _, _ => false

/-- RECONNECT_EXPIRY (R98). -/
def execReconnectExpiry (b : BayNo) (s : State) : Host.Outcome State Fault Refusal :=
  .next (if s.reconnectDue b then (s.closeLost b).settleBus else s)

/-- SLOT_EXPIRY (R81, R85). -/
def execSlotExpiry (s : State) : Host.Outcome State Fault Refusal :=
  .next (if s.booking.slotDue then s.expireSlot.settleBus else s)

end Sys2Proof.Machine
end

