-- ==== Sys2Proof/Machine/BusEvents.lean ====
section
/-! DEFINITION. The meanings of the rows of the head bus: its two timers, a pull, the end of an OPEN or a CLOSE,
and the four outcomes of a slot exchange (R125 to R137). A frame or a reply that meets the controller in
another sweep state changes nothing (R126, R137, assumption 4). -/

namespace Sys2Proof.Machine

/-- SWEEP_PERIOD_EXPIRY (R135). -/
def execSweepPeriodExpiry (s : State) : Host.Outcome State Fault Refusal := .next s.sweepPeriodOut

/-- KEEP_ALIVE_EXPIRY (R136). -/
def execKeepAliveExpiry (s : State) : Host.Outcome State Fault Refusal := .next s.keepAliveOut

/-- PULL (R137, R176): a head's SYNC byte is completed to an OPEN only while the controller is IDLE in LISTEN mode
in RUN, and discarded at any other time. -/
def execPull (s : State) : Host.Outcome State Fault Refusal :=
  .next (if s.listening then s.completePull else s)

/-- OPEN_SENT (R125). -/
def execOpenSent (s : State) : Host.Outcome State Fault Refusal :=
  .next (if s.bus.sweep = .opening then s.firstSlot else s)

/-- A REPORT that has passed its check ends the slot exchange; one with an undefined encoding is corrupt, and
is taken as silence (R126). -/
def State.takeReportReply (s : State) (b : BayNo) (r : Report) : State :=
  if reportDefined r then s.takeReply b r else s.takeSilence b

/-- REPORT (R19, R126, R130). -/
def execReport (r : Report) (s : State) : Host.Outcome State Fault Refusal :=
  .next (s.inSlot (fun x b => x.takeReportReply b r))

/-- BUSY (R132). -/
def execBusy (s : State) : Host.Outcome State Fault Refusal := .next (s.inSlot State.takeBusy)

/-- SILENCE (R131). -/
def execSilence (s : State) : Host.Outcome State Fault Refusal := .next (s.inSlot State.takeSilence)

/-- The outcome of a slot exchange from the bytes of the reply (R126, R176). -/
def State.takeReplyBytes (s : State) (b : BayNo) (reply : List Byte) : State :=
  match parseReply reply with
  | .report r => s.takeReply b r
  | .busy => s.takeBusy b
  | .corrupt => s.takeSilence b

/-- CORRUPT (R126, R131): the bytes of the reply are read, and a corrupt reply is taken as silence. -/
def execCorrupt (reply : List Byte) (s : State) : Host.Outcome State Fault Refusal :=
  .next (s.inSlot (fun x b => x.takeReplyBytes b reply))

/-- CLOSE_SENT (R134 to R136). -/
def execCloseSent (s : State) : Host.Outcome State Fault Refusal :=
  .next (match s.bus.sweep with
    | .closing kind => s.closeSent kind
    | .idle => s
    | .opening => s
    | .slot _ => s)

end Sys2Proof.Machine
end

