-- ==== Sys2Proof/Machine/Dispatch.lean ====
section
/-! DEFINITION. What each command does: one arm for each row of the table, in its order. -/

namespace Sys2Proof.Machine

def exec (i : Instr) (s : State) : Host.Outcome State Fault Refusal :=
  match i with
  | .powerReset f => Sys2Proof.Machine.execPowerReset f s
  | .deviceSeconds => Sys2Proof.Machine.execDeviceSeconds s
  | .receiveByte p b fe => Sys2Proof.Machine.execReceiveByte p b fe s
  | .interByteTimer p => Sys2Proof.Machine.execInterByteTimer p s
  | .frameError p c pl h l => Sys2Proof.Machine.execFrameError p c pl h l s
  | .unknownCommand p c pl => Sys2Proof.Machine.execUnknownCommand p c pl s
  | .responseDeparture p => Sys2Proof.Machine.execResponseDeparture p s
  | .queryBay p pl => Sys2Proof.Machine.execQueryBay p pl s
  | .blockBay p pl => Sys2Proof.Machine.execBlockBay p pl s
  | .unblockBay p pl => Sys2Proof.Machine.execUnblockBay p pl s
  | .clearFault p pl => Sys2Proof.Machine.execClearFault p pl s
  | .requestBay p pl => Sys2Proof.Machine.execRequestBay p pl s
  | .adoptBay p pl => Sys2Proof.Machine.execAdoptBay p pl s
  | .assignBay p pl => Sys2Proof.Machine.execAssignBay p pl s
  | .cancelTicket p pl => Sys2Proof.Machine.execCancelTicket p pl s
  | .queryTicket p pl => Sys2Proof.Machine.execQueryTicket p pl s
  | .acceptOffer p pl => Sys2Proof.Machine.execAcceptOffer p pl s
  | .declineOffer p pl => Sys2Proof.Machine.execDeclineOffer p pl s
  | .maskPool p pl => Sys2Proof.Machine.execMaskPool p pl s
  | .unmaskPool p pl => Sys2Proof.Machine.execUnmaskPool p pl s
  | .queryPool p pl => Sys2Proof.Machine.execQueryPool p pl s
  | .book p pl => Sys2Proof.Machine.execBook p pl s
  | .cancelBooking p pl => Sys2Proof.Machine.execCancelBooking p pl s
  | .queryBookings p pl => Sys2Proof.Machine.execQueryBookings p pl s
  | .queryBooking p pl => Sys2Proof.Machine.execQueryBooking p pl s
  | .setSlotClock p pl => Sys2Proof.Machine.execSetSlotClock p pl s
  | .setBands p pl => Sys2Proof.Machine.execSetBands p pl s
  | .forceClose p pl => Sys2Proof.Machine.execForceClose p pl s
  | .setCap p pl => Sys2Proof.Machine.execSetCap p pl s
  | .queryPower p pl => Sys2Proof.Machine.execQueryPower p pl s
  | .readNotices p pl => Sys2Proof.Machine.execReadNotices p pl s
  | .openWindow p pl => Sys2Proof.Machine.execOpenWindow p pl s
  | .readWindow p pl => Sys2Proof.Machine.execReadWindow p pl s
  | .setLevel p pl => Sys2Proof.Machine.execSetLevel p pl s
  | .setBay p pl => Sys2Proof.Machine.execSetBay p pl s
  | .setPool p pl => Sys2Proof.Machine.execSetPool p pl s
  | .setTimers p pl => Sys2Proof.Machine.execSetTimers p pl s
  | .queryConfig p pl => Sys2Proof.Machine.execQueryConfig p pl s
  | .start p pl => Sys2Proof.Machine.execStart p pl s
  | .reconfigure p pl => Sys2Proof.Machine.execReconfigure p pl s
  | .restart p pl => Sys2Proof.Machine.execRestart p pl s
  | .feedCodeChange c => Sys2Proof.Machine.execFeedCodeChange c s
  | .debounceExpiry => Sys2Proof.Machine.execDebounceExpiry s
  | .holdExpiry n => Sys2Proof.Machine.execHoldExpiry n s
  | .lapse n => Sys2Proof.Machine.execLapse n s
  | .reconnectExpiry b => Sys2Proof.Machine.execReconnectExpiry b s
  | .slotExpiry => Sys2Proof.Machine.execSlotExpiry s
  | .sweepPeriodExpiry => Sys2Proof.Machine.execSweepPeriodExpiry s
  | .keepAliveExpiry => Sys2Proof.Machine.execKeepAliveExpiry s
  | .pull => Sys2Proof.Machine.execPull s
  | .openSent => Sys2Proof.Machine.execOpenSent s
  | .report r => Sys2Proof.Machine.execReport r s
  | .busy => Sys2Proof.Machine.execBusy s
  | .silence => Sys2Proof.Machine.execSilence s
  | .corrupt r => Sys2Proof.Machine.execCorrupt r s
  | .closeSent => Sys2Proof.Machine.execCloseSent s

end Sys2Proof.Machine
end

