-- ==== Sys2Proof/Safety.lean ====
section
/-! DEFINITION. The terms in which claims about the part are stated: the answer a request gets, and the
invariants that a safe run keeps. -/

namespace Sys2Proof.Machine

/-! ### Requests and their answers -/

/-- The port, the catalogue entry and the payload of a request row; none for the rows that are no requests. -/
def requestOf : Instr → Option (Port × CommandInfo × List Byte)
  | .powerReset _ => none
  | .deviceSeconds => none
  | .receiveByte _ _ _ => none
  | .interByteTimer _ => none
  | .frameError _ _ _ _ _ => none
  | .unknownCommand _ _ _ => none
  | .responseDeparture _ => none
  | .queryBay p pl => some (p, infoQueryBay, pl)
  | .blockBay p pl => some (p, infoBlockBay, pl)
  | .unblockBay p pl => some (p, infoUnblockBay, pl)
  | .clearFault p pl => some (p, infoClearFault, pl)
  | .requestBay p pl => some (p, infoRequestBay, pl)
  | .adoptBay p pl => some (p, infoAdoptBay, pl)
  | .assignBay p pl => some (p, infoAssignBay, pl)
  | .cancelTicket p pl => some (p, infoCancelTicket, pl)
  | .queryTicket p pl => some (p, infoQueryTicket, pl)
  | .acceptOffer p pl => some (p, infoAcceptOffer, pl)
  | .declineOffer p pl => some (p, infoDeclineOffer, pl)
  | .maskPool p pl => some (p, infoMaskPool, pl)
  | .unmaskPool p pl => some (p, infoUnmaskPool, pl)
  | .queryPool p pl => some (p, infoQueryPool, pl)
  | .book p pl => some (p, infoBook, pl)
  | .cancelBooking p pl => some (p, infoCancelBooking, pl)
  | .queryBookings p pl => some (p, infoQueryBookings, pl)
  | .queryBooking p pl => some (p, infoQueryBooking, pl)
  | .setSlotClock p pl => some (p, infoSetSlotClock, pl)
  | .setBands p pl => some (p, infoSetBands, pl)
  | .forceClose p pl => some (p, infoForceClose, pl)
  | .setCap p pl => some (p, infoSetCap, pl)
  | .queryPower p pl => some (p, infoQueryPower, pl)
  | .readNotices p pl => some (p, infoReadNotices, pl)
  | .openWindow p pl => some (p, infoOpenWindow, pl)
  | .readWindow p pl => some (p, infoReadWindow, pl)
  | .setLevel p pl => some (p, infoSetLevel, pl)
  | .setBay p pl => some (p, infoSetBay, pl)
  | .setPool p pl => some (p, infoSetPool, pl)
  | .setTimers p pl => some (p, infoSetTimers, pl)
  | .queryConfig p pl => some (p, infoQueryConfig, pl)
  | .start p pl => some (p, infoStart, pl)
  | .reconfigure p pl => some (p, infoReconfigure, pl)
  | .restart p pl => some (p, infoRestart, pl)
  | .feedCodeChange _ => none
  | .debounceExpiry => none
  | .holdExpiry _ => none
  | .lapse _ => none
  | .reconnectExpiry _ => none
  | .slotExpiry => none
  | .sweepPeriodExpiry => none
  | .keepAliveExpiry => none
  | .pull => none
  | .openSent => none
  | .report _ => none
  | .busy => none
  | .silence => none
  | .corrupt _ => none
  | .closeSent => none

/-- The port can take a request: it is IDLE (R144). -/
abbrev State.ready (s : State) (p : Port) : Prop := (s.port p).recv = .idle

/-- The port unit while it sends a response that was built over this notice queue (R147, R152, R153): DROPPED
has been carried and is clear, and no byte has been discarded yet. That the assembled frame is empty while the
response leaves is the model's choice (assumption 15). -/
def PortUnit.answering (u : PortUnit) (q : NoticeQueue) (status : Status) (payload : List Byte)
    (clamped : Bool) : PortUnit :=
  { recv := .responding, frame := [], timer := false, dropped := false, discarded := false,
    response := some
      ⟨status, ⟨q.overrun, u.dropped, !q.notices.isEmpty, clamped⟩, payload⟩,
    window := u.window }

/-- A command has been answered on a port with this status and payload, and the other two ports are as they
were. The flags are those of the port and of the notice queue as the command left it (R153). -/
def State.answers (s t : State) (p : Port) (status : Status) (payload : List Byte) (clamped : Bool) :
    Prop :=
  t.port p = (s.port p).answering (t.queue p) status payload clamped ∧ ∀ q, q ≠ p → t.port q = s.port q

/-- The bus is as the command found it, but for a LISTEN sweep that the command's own changes make due
(R136, assumption 8). -/
def State.busSettled (s t : State) : Prop := t = ({ t with bus := s.bus } : State).settleBus

/-- A command has been carried out or refused on a port: the state is the effect, with the response on the port
and, where the effect makes one due, a LISTEN sweep (R136, R151 to R153). -/
def State.answeredWith (s effect t : State) (p : Port) (status : Status) (payload : List Byte)
    (clamped : Bool) : Prop :=
  s.answers t p status payload clamped ∧ s.busSettled t ∧
  t = { effect with ports := t.ports, bus := t.bus }

/-- A request is answered with a status and an empty payload, and nothing but the port changes (R148). -/
def State.turnedAway (s : State) (c : Instr) (p : Port) (status : Status) : Prop :=
  ∃ t, exec c s = .next t ∧ s.answers t p status [] false ∧ t = { s with ports := t.ports }

/-- A request reaches its owner, which refuses it with a status and a payload, and nothing but the port
changes, where no sweep is due (R136, R151). -/
def State.refusedBy (s : State) (c : Instr) (p : Port) (status : Status) (payload : List Byte) : Prop :=
  ∃ t, exec c s = .next t ∧ s.answeredWith s t p status payload false

/-- The bus as a sweep opens with a frame at a device second (R125, R135, R136, R178): the sweep period timer runs
out 1 s later and the keep-alive timer is stopped. -/
def HeadBus.opened (x : HeadBus) (now : Seconds) (frame : BusFrame) : HeadBus :=
  { x with sweep := .opening, sweepTimer := some (now + 1#32), keepAlive := none, sent := some frame }

/-! ### Notices -/

/-- A port's queue after these notices have been raised to the port one after another (R158, R159). -/
def State.queueAfter (s : State) (p : Port) (notices : List Notice) : NoticeQueue :=
  (notices.foldl (fun r n => r.raise p n) s).queue p

/-- The THROTTLE notices that a recompute which has led to this state raises to a port (R115): one for each ACTIVE
bay of the admission list, in its order, whose throttled flag is not what it was, to the origin of the bay's
ticket. -/
def State.throttles (t : State) (was : BayNo → Bool) (p : Port) : List Notice :=
  t.admission.filterMap (fun b =>
    if (t.bay b).state = .active ∧ (t.setpoint b).throttled ≠ was b then
      match (t.bay b).ticket with
      | some n =>
        if (t.ticket? n).map Ticket.origin = some p then some (.throttle n b (t.setpoint b).throttled) else none
      | none => none
    else none)

/-! ### Bays and tickets in what a command leaves alone -/

/-- The bay record after placement by last report, from its presence, its block pending flag and its link
(R5, R6). -/
def Bay.placed (x : Bay) (lost : Bool) : Bay :=
  match x.presence, x.blockPending with
  | .present, _ => { x with state := .occupied, ticket := none }
  | .empty, true => { x with state := .blocked, blockPending := false, ticket := none }
  | .unknown, true => { x with state := .blocked, blockPending := false, ticket := none }
  | .empty, false => { x with state := if lost then .offline else .free, ticket := none }
  | .unknown, false => { x with state := .offline, ticket := none }

/-- A bay is as it was, or was FREE and has been offered (R55). -/
def Bay.keptOrOffered (x y : Bay) : Prop :=
  y = x ∨ x.state = .free ∧ ∃ n, y = { x with state := .offered, ticket := some n }

/-- A ticket is as it was, or was WAITING and has been offered a bay (R55). -/
def Ticket.keptOrOffered (x y : Ticket) : Prop :=
  y = x ∨ x.state = .waiting ∧ ∃ b d, y = { x with state := .offered, bay := some b, offerDeadline := some d }

/-- Every bay but b is kept or offered. -/
def State.baysKept (s t : State) (b : BayNo) : Prop :=
  ∀ c, c ≠ b → (s.bay c).keptOrOffered (t.bay c)

/-- Every live ticket but n stays live, kept or offered. -/
def State.ticketsKept (s t : State) (n : Nat) : Prop :=
  ∀ m, m ≠ n → ∀ x, s.ticket? m = some x → ∃ y, t.ticket? m = some y ∧ x.keptOrOffered y

/-! ### Invariants of a safe run -/

/-- While the controller waits in LISTEN mode, no sweep is due (R136). -/
abbrev ListenQuiet (s : State) : Prop := s.listening = true → s.listenDue = false

/-- The link follows the silence count, and both counts are in range (R129). -/
abbrev LinksAgree (s : State) : Prop :=
  ∀ b, (s.link b).silence ≤ 3 ∧ (s.link b).busy ≤ 10 ∧
    ((s.link b).link = .online ↔ (s.link b).silence = 0) ∧ ((s.link b).link = .lost ↔ (s.link b).silence = 3)

/-- Every notice queue holds at most 24 notices, and the S queue at most one BAY_STATE of a bay and at most one
FEED (R157, R159). -/
abbrev NoticesFit (s : State) : Prop :=
  (s.queue .s).notices.length ≤ 24 ∧ (s.queue .k).notices.length ≤ 24 ∧ (s.queue .n).notices.length ≤ 24 ∧
  (s.queue .s).notices.Pairwise (fun a b => a.coalesces b = false)

/-- The ticket table holds at most 64 entries with different numbers from 1 to 65535, and its counter names
such a number (R26, R28). -/
abbrev TicketsFit (s : State) : Prop :=
  s.tickets.length ≤ 64 ∧ s.liveTickets.Nodup ∧ (∀ n ∈ s.liveTickets, 1 ≤ n ∧ n ≤ 65535) ∧
  1 ≤ s.ticketCounter ∧ s.ticketCounter ≤ 65535

/-- The book holds at most 160 bookings, a bay at most 6, with different numbers from 1 to 65535 (R68 to
R70). -/
abbrev BookFits (s : State) : Prop :=
  s.bookSize ≤ 160 ∧ (∀ b, (s.bookings b).length ≤ 6) ∧ s.liveBookings.Nodup ∧
  (∀ n ∈ s.liveBookings, 1 ≤ n ∧ n ≤ 65535) ∧ 1 ≤ s.booking.counter ∧ s.booking.counter ≤ 65535

/-- The bookings of a bay start at offsets 1 to 95, stand in the order of their starts and do not overlap
(R69). -/
abbrev BookOrdered (s : State) : Prop :=
  ∀ b, (∀ k ∈ s.bookings b, 1 ≤ s.offset k ∧ s.offset k ≤ 95 ∧ 1 ≤ k.length ∧ k.length ≤ 16) ∧
    (s.bookings b).Pairwise (fun j k => s.offset j + (j.length : Int) ≤ s.offset k)

/-- Every setting is in its range: the timers (R167), the level settings (R109), the bands (R73), the seconds
into slot (R71), and each bay's rating and tag counter (R2). -/
abbrev SettingsInRange (s : State) : Prop :=
  (300 ≤ s.timers.grace ∧ s.timers.grace ≤ 1800) ∧ (15 ≤ s.timers.offer ∧ s.timers.offer ≤ 180) ∧
  (10 ≤ s.timers.reconnect ∧ s.timers.reconnect ≤ 600) ∧
  s.power.rating ≤ 2000 ∧ s.power.base ≤ 2000 ∧ s.power.fallback ≤ 16 ∧ s.power.cap ≤ 2000 ∧
  (s.booking.bands.frozen + s.booking.bands.opened + s.booking.bands.far = 96 ∧
    1 ≤ s.booking.bands.frozen ∧ s.booking.bands.frozen ≤ 8 ∧ 40 ≤ s.booking.bands.opened ∧
    s.booking.bands.far ≤ 48) ∧
  s.booking.secondsIntoSlot ≤ 899 ∧
  ∀ b, (6 ≤ (s.bay b).rating ∧ (s.bay b).rating ≤ 63) ∧ (1 ≤ (s.bay b).tagCounter ∧ (s.bay b).tagCounter ≤ 255)

/-- Every setpoint record is in range (R116): a target is 0 or 6 to 63, issued and acked are at most 63, and a
sequence is at most 15. -/
abbrev SetpointsInRange (s : State) : Prop :=
  ∀ b, ((s.setpoint b).target = 0 ∨ (6 ≤ (s.setpoint b).target ∧ (s.setpoint b).target ≤ 63)) ∧
    (s.setpoint b).issued ≤ 63 ∧ (s.setpoint b).acked ≤ 63 ∧ (s.setpoint b).seq ≤ 15

/-- The first bytes of a request frame that is not complete yet: SYNC, and a legal LENGTH once it has arrived
(R144). -/
def frameBegun (frame : List Byte) : Bool :=
  match frame with
  | [] => false
  | [b] => b == portSync
  | b :: len :: rest =>
    (b == portSync) && decide (1 ≤ len.toNat ∧ len.toNat ≤ 49 ∧ rest.length < len.toNat + 2)

/-- Between two commands a port unit is not TAKING, its inter-byte timer runs in RECEIVING and FLUSHING only, a
response stands in RESPONDING only, and a frame is assembled in RECEIVING only (R143, R144, R147). That the assembled
frame is empty in RESPONDING and FLUSHING is the model's choice (assumption 15). -/
abbrev PortsSettled (s : State) : Prop :=
  ∀ p, (s.port p).recv ≠ .taking ∧
    ((s.port p).timer = true ↔ (s.port p).recv = .receiving ∨ (s.port p).recv = .flushing) ∧
    ((s.port p).response.isSome = true ↔ (s.port p).recv = .responding) ∧
    ((s.port p).recv = .receiving → frameBegun (s.port p).frame = true) ∧
    ((s.port p).recv ≠ .receiving → (s.port p).frame = [])

/-! ### The claims on the level -/

/-- A bay in this state names a ticket. -/
abbrev State.namedAt (s : State) (t : Ticket) (st : BayState) : Prop :=
  ∃ b ∈ t.bay, (s.bay b).state = st ∧ (s.bay b).ticket = some t.number

/-- A live ticket stands where its state says (section 2.2, R46): WAITING in its pool's queue, OFFERED in that
queue and named by an OFFERED bay, HELD named by a HELD bay, ARRIVED by an OCCUPIED one, CHARGING by an ACTIVE
or SUSPENDED one; and it holds the deadline of a timer that runs, and no other. -/
abbrev State.ticketPlaced (s : State) (t : Ticket) : Prop :=
  (t.state = .waiting → t.bay = none) ∧
  (t.state = .waiting ∨ t.state = .offered → t.number ∈ (s.pool t.pool).queue) ∧
  (t.offerDeadline.isSome = true ↔ t.state = .offered) ∧ (t.holdDeadline.isSome = true ↔ t.state = .held) ∧
  (t.state = .offered → s.namedAt t .offered) ∧ (t.state = .held → s.namedAt t .held) ∧
  (t.state = .arrived → s.namedAt t .occupied) ∧
  (t.state = .charging → s.namedAt t .active ∨ s.namedAt t .suspended)

/-- A bay's ticket, session and fault are present in the states that R2 and R91 name, and the bay's ticket
names the bay in turn (R2). An unenrolled bay is OFFLINE (R3). -/
abbrev State.bayPlaced (s : State) (b : BayNo) : Prop :=
  ((s.bay b).enrolled = false → (s.bay b).state = .offline) ∧
  (∀ n ∈ (s.bay b).ticket, ∃ t ∈ s.tickets, t.number = n ∧ t.bay = some b) ∧
  ((s.bay b).state = .offered ∨ (s.bay b).state = .held ∨ (s.bay b).state = .active ∨
    (s.bay b).state = .suspended → (s.bay b).ticket.isSome = true) ∧
  ((s.bay b).state = .offline ∨ (s.bay b).state = .free ∨ (s.bay b).state = .blocked ∨
    (s.bay b).state = .faulted → (s.bay b).ticket = none) ∧
  ((s.bay b).session.isSome = true ↔ (s.bay b).state = .active ∨ (s.bay b).state = .suspended) ∧
  (∀ k ∈ (s.bay b).session,
    (s.bay b).ticket = some k.ticket ∧ (k.reconnect.isSome = true ↔ (s.bay b).state = .suspended)) ∧
  ((s.bay b).fault.isSome = true ↔ (s.bay b).state = .faulted)

/-- A wait queue holds each of its pool's WAITING and OFFERED tickets once, at most 12 of them, in the order of
their classes (R46). -/
abbrev State.queuePlaced (s : State) (q : PoolNo) : Prop :=
  (s.pool q).queue.length ≤ 12 ∧ (s.pool q).queue.Nodup ∧
  (s.pool q).queue.Pairwise (fun m n => s.rankOf m ≤ s.rankOf n) ∧
  ∀ n ∈ (s.pool q).queue, ∃ t ∈ s.tickets, t.number = n ∧ t.pool = q ∧
    (t.state = .waiting ∨ t.state = .offered)

/-- Tickets, bays, wait queues and the admission list agree with one another (section 2.2, R2, R46, R55, R91,
R94), the level is empty in CONFIG (R29, R138), and a slot exchange is with an enrolled bay (R125). -/
abbrev ClaimsAgree (s : State) : Prop :=
  TicketsFit s ∧ (∀ t ∈ s.tickets, s.ticketPlaced t) ∧ (∀ b, s.bayPlaced b) ∧ (∀ q, s.queuePlaced q) ∧
  s.admission.Nodup ∧
  (∀ b, b ∈ s.admission ↔ (s.bay b).state = .active ∨ (s.bay b).state = .suspended) ∧
  (s.opState = .config → s.tickets = [] ∧ s.bus.sweep = .idle ∧ ∀ b, (s.bay b).state = .offline) ∧
  (∀ b, s.bus.sweep = .slot b → (s.bay b).enrolled = true)

/-- In RUN the configuration passes the checks of START: every enrolled bay names a configured pool and every
configured pool has an enrolled bay (R43, R170). -/
abbrev ConfigurationValid (s : State) : Prop := s.opState = .run → s.offending = none

/-- The setpoint records follow the bays (R116, R122): a SUSPENDED bay stands at F with target 0, and a bay
without a session at target 0 and issued 0, not throttled. -/
abbrev SetpointsFollow (s : State) : Prop :=
  ∀ b, ((s.bay b).state = .suspended → (s.setpoint b).target = 0 ∧
      (s.setpoint b).issued = s.power.fallback ∧ (s.setpoint b).acked = s.power.fallback) ∧
    ((s.bay b).state ≠ .active ∧ (s.bay b).state ≠ .suspended →
      (s.setpoint b).target = 0 ∧ (s.setpoint b).issued = 0 ∧ (s.setpoint b).throttled = false)

/-- An ACTIVE bay's target is at most its capped demand, and it is throttled exactly while the target is below
it (R112, R115). -/
abbrev FlagsFollow (s : State) : Prop :=
  ∀ b, (s.bay b).state = .active → (s.setpoint b).target ≤ (s.bay b).cappedDemand ∧
    (s.setpoint b).throttled = decide ((s.setpoint b).target < (s.bay b).cappedDemand)

/-- The targets of the ACTIVE bays come to no more than max(0, A − F × n_s) (R114). -/
abbrev TargetsFit (s : State) : Prop := s.targetSum ≤ s.activeBudget

/-- In RUN no bay is eligible for a WAITING ticket (R49): no pairing is missed. -/
abbrev NoneMissed (s : State) : Prop :=
  s.opState = .run → ∀ t ∈ s.tickets, t.state = .waiting → ∀ b, s.eligible b t = false

end Sys2Proof.Machine
end

