-- ==== Sys2Proof/Certificates/Slice0/Obligations.lean ====
section
/-! DEFINITION. The statements for the provers, from the numbered rules of spec/, block by block. A statement names
the state a command finds s and the state it leaves t; what it does not name in an equation of states is
unchanged. -/

open Sys2Proof Sys2Proof.Machine

/-! ### Steps and the queue of commands -/

/-- A step takes the command at the front of the queue with the queue's rest; every command answers a next state in
every state and leaves the queue; on an empty queue the part idles. The queue is the model's own (assumption 5). -/
def Obligations.StepRunsFrontCommand : Prop :=
  (∀ (s : State) (c : Instr) (rest : List Instr),
    s.pending = c :: rest → step s = exec c { s with pending := rest }) ∧
  (∀ (s : State) (c : Instr), ∃ t, exec c s = .next t ∧ t.pending = s.pending) ∧
  ∀ s : State, s.pending = [] → step s = .next s

/-! ### Ports (Chapter 8) -/

/-- At an IDLE port a request row is what its frame's bytes do, received one after another (R144, R146, R148,
R174, R175), for each of the 34 requests, for a COMMAND value outside the catalogue and for a frame with any
CRC bytes. The rows stand for whole frames: assumption 2. -/
def Obligations.RequestRowIsItsFrame : Prop :=
  ∀ (s : State) (p : Port) (pl : List Byte), s.ready p → pl.length ≤ 48 →
    (∀ (c : Instr) (i : CommandInfo), requestOf c = some (p, i, pl) →
      exec c s = .next (s.receiveAll p (requestFrame i.code pl))) ∧
    (∀ x : Byte, commandKnown x = false →
      exec (.unknownCommand p x pl) s = .next (s.receiveAll p (requestFrame x pl))) ∧
    ∀ x h l : Byte, exec (.frameError p x pl h l) s = .next (s.receiveAll p (requestFrameWith x pl h l))

/-- The right, the operating state and the form, tested in this order, decide a request before its owner (R148,
R150); S is never answered NOT_READY. By COMMAND code (R149, R175), S may use every command, K all but those of the
supervisor alone, and N all that K may but ADOPT BAY; and each command has the payload lengths of its row. That
OPEN WINDOW has length 7, with 1 byte for an aisle, and SET BANDS length 3, with 1 byte for a size, is the model's
reading of R175: assumption 10. -/
def Obligations.PortRefusals : Prop :=
  ∀ (c : Instr) (s : State) (p : Port) (i : CommandInfo) (pl : List Byte),
    requestOf c = some (p, i, pl) → s.ready p → pl.length ≤ 48 →
    (i.mayUse p = false → s.turnedAway c p .noRight) ∧
    (i.mayUse p = true → s.opState = .config → p ≠ .s → i.reading = false → s.turnedAway c p .notReady) ∧
    (i.mayUse p = true → s.opState = .run ∨ p = .s ∨ i.reading = true → pl.length ∉ i.lengths →
      s.turnedAway c p .badArg) ∧
    (p = .s → ∃ t r, exec c s = .next t ∧ (t.port .s).response = some r ∧ r.status ≠ .notReady) ∧
    i.mayUse .s = true ∧
    (i.mayUse .k = true ↔ i.code.toNat ∈
      [0x10, 0x14, 0x15, 0x17, 0x18, 0x19, 0x1A, 0x1D, 0x1E, 0x1F, 0x20, 0x21, 0x26, 0x27, 0x28, 0x29]) ∧
    (i.mayUse .n = true ↔ i.mayUse .k = true ∧ i.code.toNat ≠ 0x15) ∧
    (i.reading = true ↔ i.code.toNat ∈ [0x10, 0x18, 0x1D, 0x20, 0x21, 0x26, 0x27, 0x28, 0x29]) ∧
    ∀ n, n ∈ i.lengths ↔
      (n = 0 ∧ i.code.toNat ∈ [0x26, 0x2F, 0x30, 0x31]) ∨
      (n = 1 ∧ i.code.toNat ∈
        [0x10, 0x11, 0x12, 0x13, 0x1B, 0x1C, 0x1D, 0x20, 0x24, 0x26, 0x27, 0x29, 0x2E]) ∨
      (n = 2 ∧ i.code.toNat ∈ [0x17, 0x18, 0x1F, 0x21, 0x25, 0x2E]) ∨
      (n = 3 ∧ i.code.toNat ∈ [0x14, 0x15, 0x16, 0x19, 0x1A, 0x23, 0x2C]) ∨
      (n = 4 ∧ i.code.toNat = 0x2B) ∨ (n = 6 ∧ i.code.toNat ∈ [0x22, 0x2A, 0x2D]) ∨
      (n = 7 ∧ i.code.toNat ∈ [0x1E, 0x28])

/-- A frame whose CRC fails is answered FRAME_ERROR with an empty payload (R146); one with a good CRC whose COMMAND
value names no command is answered UNKNOWN_COMMAND with the value received (R148, R152). Nothing but the port
changes. -/
def Obligations.BadFramesAnswered : Prop :=
  ∀ (s : State) (p : Port) (x : Byte) (pl : List Byte), s.ready p → pl.length ≤ 48 →
    (∀ h l : Byte, [h, l] ≠ crcBytes (crc (requestBody x pl)) →
      s.turnedAway (.frameError p x pl h l) p .frameError) ∧
    (commandKnown x = false →
      ∃ t, exec (.unknownCommand p x pl) s = .next t ∧ s.answers t p .unknownCommand [x] false ∧
        t = { s with ports := t.ports })

/-- The receive assembler takes each byte by the receive state (R144, R147): the rows of the table of R144, and a
framing error in IDLE and in RECEIVING. -/
def Obligations.BytesReceivedByState : Prop :=
  ∀ (s : State) (p : Port) (b : Byte),
    let u := s.port p
    let dropped := s.setPort p { u with recv := .idle, frame := [], timer := false }
    (u.recv = .idle → b = portSync → exec (.receiveByte p b false) s =
      .next (s.setPort p { u with recv := .receiving, frame := [b], timer := true })) ∧
    (u.recv = .idle → b ≠ portSync → exec (.receiveByte p b false) s = .next s) ∧
    (u.recv = .idle → exec (.receiveByte p b true) s = .next s) ∧
    (u.recv = .receiving → exec (.receiveByte p b true) s = .next dropped) ∧
    (∀ x : Byte, u.recv = .receiving → u.frame = [x] → b.toNat = 0 ∨ 49 < b.toNat →
      exec (.receiveByte p b false) s = .next dropped) ∧
    (∀ x : Byte, u.recv = .receiving → u.frame = [x] → 1 ≤ b.toNat ∧ b.toNat ≤ 49 →
      exec (.receiveByte p b false) s = .next (s.setPort p { u with frame := [x, b], timer := true })) ∧
    (∀ (x len : Byte) (rest : List Byte), u.recv = .receiving → u.frame = x :: len :: rest →
      rest.length + 1 ≠ len.toNat + 2 → exec (.receiveByte p b false) s =
        .next (s.setPort p { u with frame := x :: len :: rest ++ [b], timer := true })) ∧
    (∀ (x len : Byte) (rest : List Byte), u.recv = .receiving → u.frame = x :: len :: rest →
      rest.length + 1 = len.toNat + 2 → exec (.receiveByte p b false) s =
        .next (s.takeFrame p (x :: len :: rest ++ [b]))) ∧
    (u.recv = .responding → exec (.receiveByte p b false) s =
      .next (s.setPort p { u with dropped := true, discarded := true })) ∧
    (u.recv = .flushing → exec (.receiveByte p b false) s = .next (s.setPort p { u with timer := true }))

/-- The inter-byte timer discards a partial frame, or ends FLUSHING (R145, R147); the last byte of a response
leaves the port IDLE, or FLUSHING with the timer started where a byte was discarded meanwhile; a request that arrives
while the port is RESPONDING is discarded and sets DROPPED, and one that arrives while it is FLUSHING starts the
timer again (R147). -/
def Obligations.BusyPortsFlush : Prop :=
  ∀ (s : State) (p : Port),
    let u := s.port p
    (u.timer = true → u.recv = .receiving ∨ u.recv = .flushing → exec (.interByteTimer p) s =
      .next (s.setPort p { u with recv := .idle, frame := [], timer := false })) ∧
    (u.recv = .responding → u.discarded = false → exec (.responseDeparture p) s =
      .next (s.setPort p { u with recv := .idle, response := none })) ∧
    (u.recv = .responding → u.discarded = true → exec (.responseDeparture p) s =
      .next (s.setPort p { u with recv := .flushing, timer := true, response := none })) ∧
    ∀ (c : Instr) (i : CommandInfo) (pl : List Byte), requestOf c = some (p, i, pl) →
      (u.recv = .responding → exec c s = .next (s.setPort p { u with dropped := true, discarded := true })) ∧
      (u.recv = .flushing → exec c s = .next (s.setPort p { u with timer := true }))

/-- The seven queries answer OK with the record as it stands, field by field in the order of R25, R42, R67, R78, R79,
R123 and R169, and refuse a number that names no record; they change nothing but the port. The layout of a field
where R175 leaves a choice (assumption 10), the refusal of a selector whose length is not its own (assumption 11) and
the free bytes of the operating state and of the validity none failing (assumption 12) are the model's. -/
def Obligations.QueriesAnswerAndChangeNothing : Prop :=
  ∀ (s : State) (p : Port), s.ready p →
    let answered := fun (c : Instr) (pl : List Byte) =>
      ∃ t, exec c s = .next t ∧ s.answers t p .ok pl false ∧ t = { s with ports := t.ports }
    let flag := fun (x : Bool) => u8 (if x then 1 else 0)
    let count := fun (f : BayNo → Bool) => u8 (allBays.countP f)
    let opt1 := fun (x : Option Nat) => match x with | some n => u8 n | none => 0xFF#8
    let opt2 := fun (x : Option Nat) => match x with | some n => u16 n | none => [0#8, 0#8]
    let opt4 := fun (x : Option Nat) => match x with | some n => 1#8 :: u32 n | none => [0#8, 0#8, 0#8, 0#8, 0#8]
    let power := [u8 s.power.tier.code, u8 s.power.candidate.toNat, flag s.power.debounce.isSome] ++
      u16 s.power.rating ++ u16 s.power.base ++ [u8 s.power.fallback] ++ u16 s.power.cap ++
      u16 s.power.budget ++ [count (fun a => decide ((s.bay a).state = .suspended))] ++ u16 s.activeBudget ++
      u16 (committedLoad s.power.setpoints) ++ u16 s.targetSum ++
      [count (fun a => decide ((s.bay a).state = .active)), u8 s.participants.length,
        count (fun a => (s.setpoint a).throttled)]
    (∀ (x : Byte) (b : BayNo), b.val = x.toNat →
      let y := s.bay b
      let z := s.setpoint b
      answered (.queryBay p [x])
        ([u8 b, flag y.enrolled, u8 y.pool, u8 y.rating, u8 y.state.code, u8 (lampOf y.state z.throttled).code,
            u8 (s.link b).link.code, u8 y.presence.code, u8 y.plug.code, flag y.blockPending] ++
          (match y.state, y.fault with
            | .faulted, some (.headFault c) => [1#8, c]
            | .faulted, some .headStall => [2#8, 0#8]
            | _, _ => [0#8, 0#8]) ++
          opt2 y.ticket ++ [u8 y.tagCounter] ++ (s.bookings b).flatMap (fun k => u16 k.number) ++
          (match y.session with
            | some k => [u8 k.tag, u8 k.cls.code, u8 k.demand, 1#8] ++ u32 k.energy
            | none => [])) ∧
      answered (.queryPower p [x])
        (power ++ [u8 z.target, u8 z.issued, u8 z.seq, u8 z.acked, flag z.throttled, u8 y.cappedDemand]) ∧
      (y.enrolled = true → answered (.queryBookings p [x])
        (u8 b :: u32 s.booking.slotNow.toNat ++ [u8 (s.bookings b).length] ++ (s.bookings b).flatMap (fun k =>
          u16 k.number ++
            [u8 (s.offset k).toNat, u8 k.length, u8 k.cls.code, u8 (originCode k.origin)]))) ∧
      (y.enrolled = false → s.turnedAway (.queryBookings p [x]) p .noSuch) ∧
      (p = .s → answered (.queryConfig p [1#8, x]) [flag y.enrolled, u8 y.pool, u8 y.rating])) ∧
    (∀ x : Byte, 48 ≤ x.toNat →
      s.turnedAway (.queryBay p [x]) p .noSuch ∧ s.turnedAway (.queryPower p [x]) p .noSuch ∧
      s.turnedAway (.queryBookings p [x]) p .noSuch ∧
      (p = .s → s.turnedAway (.queryConfig p [1#8, x]) p .noSuch)) ∧
    (∀ (x : Byte) (q : PoolNo), q.val = x.toNat →
      let y := s.pool q
      let mine := fun (f : Bay → Bool) =>
        count (fun a => (s.bay a).enrolled && decide ((s.bay a).pool = q) && f (s.bay a))
      answered (.queryPool p [x])
        ([u8 q, flag y.configured, u8 y.kind.code, flag y.masked, opt1 (y.pointer.map Fin.val),
            mine (fun _ => true), mine (fun a => decide (a.state = .free)),
            mine (fun a => decide (a.state = .offered)), u8 y.queue.length] ++
          y.queue.flatMap (fun n => u16 n ++ (match s.ticket? n with
            | some t => [u8 t.cls.code, u8 t.state.code]
            | none => [0xFF#8, 0xFF#8]))) ∧
      (p = .s → answered (.queryConfig p [2#8, x])
        [flag y.configured, u8 y.kind.code, mine (fun _ => true)])) ∧
    (∀ x : Byte, 8 ≤ x.toNat → s.turnedAway (.queryPool p [x]) p .noSuch ∧
      (p = .s → s.turnedAway (.queryConfig p [2#8, x]) p .noSuch)) ∧
    answered (.queryPower p []) power ∧
    (p = .s → answered (.queryConfig p [0#8])
      (Config.opStateCode (decide (s.opState = .run)) ::
        (u16 s.power.rating ++ u16 s.power.base ++ [u8 s.power.fallback] ++ u16 s.power.cap ++
        u16 s.timers.grace ++ u16 s.timers.offer ++ u16 s.timers.reconnect ++
        [u8 s.booking.bands.frozen, u8 s.booking.bands.opened, u8 s.booking.bands.far,
          count (fun a => (s.bay a).enrolled), u8 (allPools.countP (fun q => (s.pool q).configured))] ++
        (match s.offending with
          | some (check, item) => [u8 check, u8 item]
          | none => [Config.noneFailingCode.1, Config.noneFailingCode.2])))) ∧
    (∀ x y : Byte, p = .s → (x.toNat ≠ 0 → s.turnedAway (.queryConfig p [x]) p .badArg) ∧
      (x.toNat ≠ 1 → x.toNat ≠ 2 → s.turnedAway (.queryConfig p [x, y]) p .badArg)) ∧
    (∀ (h l : Byte) (t : Ticket), of16 h l ≠ 0 → s.ticket? (of16 h l) = some t → p = .s ∨ t.origin = p →
      answered (.queryTicket p [h, l])
        (u16 t.number ++ [u8 (originCode t.origin), u8 t.kind.code, u8 t.cls.code, u8 t.pool, u8 t.stay,
            u8 t.state.code, opt1 (t.bay.map Fin.val)] ++
          opt4 (t.offerDeadline.map BitVec.toNat) ++ opt4 (t.holdDeadline.map BitVec.toNat) ++
          [opt1 (t.lastDeclined.map Fin.val)] ++ opt2 t.booking ++ u32 s.deviceSeconds.toNat ++
          [if t.state = .waiting ∨ t.state = .offered then
              u8 ((s.pool t.pool).queue.idxOf t.number + 1) else 0xFF#8,
            match t.state, t.bay with
              | .charging, some b => u8 (s.bay b).state.code
              | _, _ => 0xFF#8])) ∧
    ∀ h l : Byte,
      (of16 h l = 0 ∨ (∀ b, ∀ k ∈ s.bookings b, k.number ≠ of16 h l) →
        s.turnedAway (.queryBooking p [h, l]) p .noSuch) ∧
      ∀ (b : BayNo) (k : Booking), of16 h l ≠ 0 → s.findBooking (of16 h l) = some (b, k) →
        (p ≠ .s → k.origin ≠ p → s.turnedAway (.queryBooking p [h, l]) p .notOwner) ∧
        (p = .s ∨ k.origin = p → answered (.queryBooking p [h, l])
          (u16 k.number ++ [u8 (originCode k.origin), u8 b] ++ u32 k.start.toNat ++
            [u8 k.length, u8 k.cls.code, u8 (s.offset k).toNat,
              match s.booking.bands.bandOf (s.offset k) with | some z => u8 z.code | none => 0xFF#8] ++
            u32 s.booking.slotNow.toNat ++ u16 s.booking.secondsIntoSlot))

/-! ### Bays (Chapter 1) -/

/-- BLOCK BAY at a bay without a claim makes it BLOCKED with one BAY_STATE; at a bay in use or FAULTED it sets
block pending and leaves the state (R21, R7). -/
def Obligations.BlockBayByState : Prop :=
  ∀ (s : State) (x : Byte) (b : BayNo), s.ready .s → s.opState = .run → s.enrolledBay x = some b →
    (s.bay b).blockPending = false →
    ((s.bay b).state = .offline ∨ (s.bay b).state = .free →
      ∃ t, exec (.blockBay .s [x]) s = .next t ∧ s.answeredWith
        (({ s with bays := s.bays.set b { s.bay b with state := .blocked, ticket := none } } : State).raise .s
          (.bayState b .blocked (s.link b).link none)) t .s .ok [] false) ∧
    ((s.bay b).state = .occupied ∨ (s.bay b).state = .active ∨ (s.bay b).state = .suspended ∨
        (s.bay b).state = .faulted →
      ∃ t, exec (.blockBay .s [x]) s = .next t ∧ s.answeredWith
        { s with bays := s.bays.set b { s.bay b with blockPending := true } } t .s .ok [] false)

/-- BLOCK BAY at an OFFERED bay withdraws the offer, and at a HELD bay requeues the held ticket, or is refused FULL
where its queue holds 12 (R21, R61, R63, R64). The bay is BLOCKED and unnamed; the pool's matching run may offer
other bays, and no other bay or ticket changes. -/
def Obligations.BlockClaimedBay : Prop :=
  ∀ (s : State) (x : Byte) (b : BayNo) (k : Ticket), ClaimsAgree s → s.ready .s → s.opState = .run →
    s.enrolledBay x = some b → (s.bay b).blockPending = false → (s.bay b).ticket = some k.number →
    s.ticket? k.number = some k →
    let after := fun (t : State) (y : Ticket) (queue : List Nat) =>
      exec (.blockBay .s [x]) s = .next t ∧ s.answers t .s .ok [] false ∧
      t.bay b = { s.bay b with state := .blocked, ticket := none } ∧ s.baysKept t b ∧
      (∃ z, t.ticket? k.number = some z ∧ y.keptOrOffered z) ∧ s.ticketsKept t k.number ∧
      (∀ q, t.pool q = { s.pool q with
        pointer := (t.pool q).pointer, queue := if q = k.pool then queue else (s.pool q).queue }) ∧
      t = { s with bays := t.bays, tickets := t.tickets, pools := t.pools, queues := t.queues,
                   ports := t.ports, bus := t.bus }
    ((s.bay b).state = .offered →
      ∃ t, after t { k with state := .waiting, bay := none, offerDeadline := none } (s.pool k.pool).queue ∧
        (k.origin ≠ .s → (s.queue k.origin).notices.length < 24 →
          (s.queue k.origin).notices ++ [.offerWithdrawn k.number b .block] <+: (t.queue k.origin).notices)) ∧
    ((s.bay b).state = .held → (s.pool k.pool).queue.length < 12 →
      ∃ t front back, (s.pool k.pool).queue = front ++ back ∧
        (∀ m ∈ front, s.rankOf m ≤ k.requeuedClass.rank) ∧ (∀ m ∈ back, k.requeuedClass.rank < s.rankOf m) ∧
        after t { k with state := .waiting, cls := k.requeuedClass, bay := none, holdDeadline := none }
          (front ++ k.number :: back) ∧
        (k.origin ≠ .s → (s.queue k.origin).notices.length < 24 →
          (s.queue k.origin).notices ++ [.requeued k.number k.pool (front.length + 1)] <+:
            (t.queue k.origin).notices)) ∧
    ((s.bay b).state = .held → (s.pool k.pool).queue.length = 12 →
      s.refusedBy (.blockBay .s [x]) .s .full [])

/-- UNBLOCK BAY at a BLOCKED bay and CLEAR FAULT at a FAULTED one settle the bay by placement by last report, with
the matching run of a bay that enters FREE and the plug-in of one that enters OCCUPIED while PLUGGED; UNBLOCK BAY
elsewhere removes a block that is pending (R5, R6, R7, R14, R22, R24). That the BAY_STATE of the placement stands
before the notices of the run or the plug-in is the model's reading of R7: assumption 6. -/
def Obligations.OutOfServiceBaysArePlaced : Prop :=
  ∀ (s : State) (x : Byte) (b : BayNo), s.ready .s → s.opState = .run → s.enrolledBay x = some b →
    let y := ({ s.bay b with fault := if (s.bay b).state = .faulted then none else (s.bay b).fault } :
      Bay).placed (s.linkLost b)
    let u := ({ s with bays := s.bays.set b y } : State).raise .s (.bayState b y.state (s.link b).link none)
    let v := if y.state = .free then u.matchRun y.pool
      else if y.state = .occupied ∧ y.plug = .plugged then u.plugIn b else u
    ((s.bay b).state = .blocked → (s.bay b).blockPending = false →
      ∃ t, exec (.unblockBay .s [x]) s = .next t ∧ s.answeredWith v t .s .ok [] false) ∧
    ((s.bay b).state = .faulted →
      ∃ t, exec (.clearFault .s [x]) s = .next t ∧ s.answeredWith v t .s .ok [] false) ∧
    ((s.bay b).state ≠ .blocked → (s.bay b).blockPending = true →
      ∃ t, exec (.unblockBay .s [x]) s = .next t ∧ s.answeredWith
        { s with bays := s.bays.set b { s.bay b with blockPending := false } } t .s .ok [] false)

/-- A bay command is refused, and changes nothing: NO_SUCH for a bay number above 47 or an unenrolled bay (R1,
R3), WRONG_STATE in CONFIG (section 1.6, R105), and WRONG_STATE in the states that do not take it (R21, R22, R24,
R105). FORCE CLOSE tests CONFIG first (R105); that the other three test it after NO_SUCH is the model's reading of
R21, R22 and R24: assumption 9. -/
def Obligations.BayCommandRefusals : Prop :=
  ∀ (s : State) (x : Byte), s.ready .s →
    let service := fun (st : Status) => s.refusedBy (.blockBay .s [x]) .s st [] ∧
      s.refusedBy (.unblockBay .s [x]) .s st [] ∧ s.refusedBy (.clearFault .s [x]) .s st []
    let close := fun (st : Status) => s.refusedBy (.forceClose .s [x]) .s st []
    (s.opState = .config → close .wrongState) ∧
    (48 ≤ x.toNat → service .noSuch ∧ (s.opState = .run → close .noSuch)) ∧
    ∀ b : BayNo, b.val = x.toNat →
      ((s.bay b).enrolled = false → service .noSuch ∧ (s.opState = .run → close .noSuch)) ∧
      ((s.bay b).enrolled = true → s.opState = .config → service .wrongState) ∧
      ((s.bay b).enrolled = true → s.opState = .run →
        ((s.bay b).state = .blocked ∨ (s.bay b).blockPending = true →
          s.refusedBy (.blockBay .s [x]) .s .wrongState []) ∧
        ((s.bay b).state ≠ .blocked → (s.bay b).blockPending = false →
          s.refusedBy (.unblockBay .s [x]) .s .wrongState []) ∧
        ((s.bay b).state ≠ .faulted → s.refusedBy (.clearFault .s [x]) .s .wrongState []) ∧
        ((s.bay b).state ≠ .active → (s.bay b).state ≠ .suspended → close .wrongState))

/-- A plug-in at an OCCUPIED bay (R14, R33, R92, R93): at a bound bay, and at an unbound one for a new AUTO ticket,
the session opens with the stepped tag and the ticket is CHARGING; with no free entry NO_TICKET goes to S; at a bay
whose link is LOST the plug becomes UNKNOWN and nothing else changes. SESSION_OPENED goes to the ticket's origin, then
BAY_STATE to S, then the THROTTLE notices of the recompute (R93, R104, R115). -/
def Obligations.PlugInOpensSession : Prop :=
  ∀ (s : State) (b : BayNo), ClaimsAgree s → (s.bay b).state = .occupied →
    let opened := fun (t : State) (k : Ticket) =>
      let tag := if 255 ≤ (s.bay b).tagCounter then 1 else (s.bay b).tagCounter + 1
      t.bay b = { s.bay b with
        tagCounter := tag, state := .active, ticket := some k.number,
        session := some { tag := tag, ticket := k.number,
                          cls := if k.cls = .access then .access else .standard,
                          opened := s.deviceSeconds, energy := 0, demand := 0, reconnect := none } } ∧
      (∀ c, c ≠ b → t.bay c = s.bay c) ∧ t.admission = s.admission ++ [b] ∧
      t.ticket? k.number = some { k with state := .charging, bay := some b } ∧
      (∀ m, m ≠ k.number → t.ticket? m = s.ticket? m) ∧
      (t.setpoint b).target = 0 ∧ (t.setpoint b).issued = 0 ∧ (t.setpoint b).acked = 0 ∧
      (t.setpoint b).throttled = false ∧
      (∀ p, t.queue p = s.queueAfter p (
        (if p = k.origin then [.sessionOpened k.number b tag] else []) ++
        (if p = .s then [.bayState b .active (s.link b).link none] else []) ++
        t.throttles (fun c => (s.setpoint c).throttled && decide (c ≠ b)) p)) ∧
      t = { s with bays := t.bays, admission := t.admission, tickets := t.tickets,
                   ticketCounter := t.ticketCounter, queues := t.queues,
                   power := { s.power with setpoints := t.power.setpoints } }
    ((s.link b).link ≠ .lost → ∀ k, (s.bay b).ticket = some k.number → s.ticket? k.number = some k →
      opened (s.plugIn b) k) ∧
    ((s.link b).link ≠ .lost → (s.bay b).ticket = none → s.tickets.length < 64 →
      opened (s.plugIn b) { number := s.nextTicket, origin := .k, kind := .auto, cls := .standard,
                            pool := (s.bay b).pool, stay := 8, state := .arrived, bay := some b,
                            offerDeadline := none, holdDeadline := none, lastDeclined := none,
                            booking := none }) ∧
    ((s.link b).link ≠ .lost → (s.bay b).ticket = none → s.tickets.length = 64 →
      s.plugIn b = s.raise .s (.noTicket b)) ∧
    ((s.link b).link = .lost →
      s.plugIn b = { s with bays := s.bays.set b { s.bay b with plug := .unknown } })

/-- FORCE CLOSE (R102, R105, R16, R122): the response carries the ticket, the energy total and the duration; the
session, its ticket and its place in the admission list are gone, the bay is placed by its last report without a
plug-in, its setpoint record stands at target 0 and issued 0 with acked kept, and no other bay, ticket or setting
changes but for the matching run of a bay that has become FREE and the recompute. SESSION_CLOSED goes once to the
ticket's origin and once to S, one copy where these are one port, and BAY_STATE to S. That the response carries the
energy total without a presence byte is the model's reading of R175: assumption 10. -/
def Obligations.ForceCloseEndsSession : Prop :=
  ∀ (s : State) (x : Byte) (b : BayNo) (k : Session), ClaimsAgree s → s.ready .s → s.opState = .run →
    s.enrolledBay x = some b → (s.bay b).session = some k →
    ∃ t, exec (.forceClose .s [x]) s = .next t ∧
      s.answers t .s .ok
        (u16 k.ticket ++ u32 k.energy ++ u32 (s.deviceSeconds - k.opened).toNat) false ∧
      (({ s.bay b with session := none } : Bay).placed (s.linkLost b)).keptOrOffered (t.bay b) ∧
      s.baysKept t b ∧ t.ticket? k.ticket = none ∧ s.ticketsKept t k.ticket ∧
      t.admission = s.admission.filter (fun c => c != b) ∧
      (t.setpoint b).target = 0 ∧ (t.setpoint b).issued = 0 ∧
      (t.setpoint b).acked = (s.setpoint b).acked ∧ (t.setpoint b).throttled = false ∧
      (∀ q, t.pool q = { s.pool q with pointer := (t.pool q).pointer }) ∧
      (∀ y, s.ticket? k.ticket = some y →
        let closed := Notice.sessionClosed k.ticket b .forced k.energy (s.deviceSeconds - k.opened)
        ∀ p, (s.queue p).notices.length < 24 → (t.queue p).notices.count closed =
          (s.queue p).notices.count closed + (if p = .s ∨ p = y.origin then 1 else 0)) ∧
      ((s.queue .s).notices.length < 23 →
        .bayState b (t.bay b).state (s.link b).link none ∈ (t.queue .s).notices) ∧
      t = { s with bays := t.bays, admission := t.admission, tickets := t.tickets, pools := t.pools,
                   queues := t.queues, ports := t.ports, bus := t.bus,
                   power := { s.power with setpoints := t.power.setpoints } }

/-! ### Tickets and pools (Chapters 2 and 3) -/

/-- REQUEST BAY that passes its checks issues a WALK_IN ticket, which is HELD at the first eligible bay in rotation
order, or joins its pool's queue as the last of its class, or is freed with its number spent (R31, R35, R47,
R52). That the response carries the hold deadline without a presence byte is the model's reading of R175:
assumption 10. -/
def Obligations.RequestBayIsGranted : Prop :=
  ∀ (s : State) (p : Port) (x stay z : Byte) (q : PoolNo) (c : Priority), ClaimsAgree s → s.ready p →
    s.opState = .run → priorityOf z = some c → s.configuredPool x = some q → ¬(c = .access ∧ p = .n) →
    ¬((s.pool q).kind = .restricted ∧ c = .standard) → s.tickets.length < 64 →
    let n := s.nextTicket
    let taken := if stay.toNat = 0 then 8 else min stay.toNat 16
    let clamped := decide (16 < stay.toNat)
    let k : Ticket :=
      { number := n, origin := p, kind := .walkIn, cls := if c = .access then .access else .standard, pool := q,
        stay := taken, state := .waiting, bay := none, offerDeadline := none, holdDeadline := none,
        lastDeclined := none, booking := none }
    let deadline := s.deviceSeconds + BitVec.ofNat 32 s.timers.grace
    let counter := if 65535 ≤ n then 1 else n + 1
    (∀ b, (s.rotation q).find? (fun a => s.eligible a k) = some b →
      ∃ t, exec (.requestBay p [x, stay, z]) s = .next t ∧ s.answeredWith
        (({ s with
            tickets := s.tickets ++ [{ k with state := .held, bay := some b, holdDeadline := some deadline }],
            ticketCounter := counter, bays := s.bays.set b { s.bay b with state := .held, ticket := some n },
            pools := s.pools.set q { s.pool q with pointer := some b } } : State).raise .s
          (.bayState b .held (s.link b).link none))
        t p .ok (u16 n ++ u8 b :: u32 deadline.toNat) clamped) ∧
    ((∀ b, s.eligible b k = false) → (s.pool q).queue.length < 12 →
      ∃ t front back, (s.pool q).queue = front ++ back ∧
        (∀ m ∈ front, s.rankOf m ≤ k.cls.rank) ∧ (∀ m ∈ back, k.cls.rank < s.rankOf m) ∧
        exec (.requestBay p [x, stay, z]) s = .next t ∧ s.answeredWith
          { s with tickets := s.tickets ++ [k], ticketCounter := counter,
                   pools := s.pools.set q { s.pool q with queue := front ++ n :: back } }
          t p .queued (u16 n ++ [u8 (front.length + 1)]) clamped) ∧
    ((∀ b, s.eligible b k = false) → (s.pool q).queue.length = 12 →
      ∃ t, exec (.requestBay p [x, stay, z]) s = .next t ∧
        s.answeredWith { s with ticketCounter := counter } t p .full [] false)

/-- The checks of REQUEST BAY in their order (R31): the first that fails refuses the request, which then changes
nothing. -/
def Obligations.RequestBayChecks : Prop :=
  ∀ (s : State) (p : Port) (x stay z : Byte), s.ready p → p = .s ∨ s.opState = .run →
    let refused := fun (st : Status) => s.refusedBy (.requestBay p [x, stay, z]) p st []
    (s.opState = .config → refused .wrongState) ∧
    (s.opState = .run → z.toNat ≠ 0 → z.toNat ≠ 2 → refused .badArg) ∧
    (s.opState = .run → z.toNat = 2 → p = .n → refused .noRight) ∧
    (s.opState = .run → z.toNat = 0 ∨ z.toNat = 2 ∧ p ≠ .n →
      (8 ≤ x.toNat → refused .noSuch) ∧
      ∀ q : PoolNo, q.val = x.toNat →
        ((s.pool q).configured = false → refused .noSuch) ∧
        ((s.pool q).configured = true → (s.pool q).kind = .restricted → z.toNat = 0 → refused .noRight) ∧
        ((s.pool q).configured = true → ¬((s.pool q).kind = .restricted ∧ z.toNat = 0) →
          64 ≤ s.tickets.length → refused .full))

/-- The checks on a named ticket (R29): CANCEL TICKET, QUERY TICKET, ACCEPT OFFER and DECLINE OFFER of a number
that is 0 or not live are refused NO_SUCH; of a live ticket of another origin, from K or N, NOT_OWNER. ACCEPT OFFER and
DECLINE OFFER naming a bay above 47 or unenrolled are refused NO_SUCH, and for an offer that is not open at the bay
LAPSED (R56, R57). The checks of ASSIGN BAY in their order (R36). Nothing changes. -/
def Obligations.NamedTicketChecks : Prop :=
  ∀ (s : State) (p : Port) (h l b : Byte), s.ready p → p = .s ∨ s.opState = .run →
    let offer := fun (st : Status) => s.refusedBy (.acceptOffer p [h, l, b]) p st [] ∧
      s.refusedBy (.declineOffer p [h, l, b]) p st []
    let all := fun (st : Status) => s.refusedBy (.cancelTicket p [h, l]) p st [] ∧
      s.turnedAway (.queryTicket p [h, l]) p st ∧ offer st
    let assign := fun (st : Status) => p = .s → s.refusedBy (.assignBay p [h, l, b]) p st []
    (s.opState = .config → assign .wrongState) ∧
    (of16 h l = 0 ∨ s.ticket? (of16 h l) = none →
      all .noSuch ∧ (s.opState = .run → assign .noSuch)) ∧
    ∀ k, of16 h l ≠ 0 → s.ticket? (of16 h l) = some k →
      (p ≠ .s → k.origin ≠ p → all .notOwner) ∧
      (48 ≤ b.toNat ∨ (∀ a : BayNo, a.val = b.toNat → (s.bay a).enrolled = false) →
        (p = .s ∨ k.origin = p → offer .noSuch) ∧ (s.opState = .run → assign .noSuch)) ∧
      ∀ a : BayNo, a.val = b.toNat → (s.bay a).enrolled = true →
        (p = .s ∨ k.origin = p → ¬(k.state = .offered ∧ k.bay = some a) → offer .lapsed) ∧
        (s.opState = .run → k.state ≠ .waiting ∨ (s.bay a).state ≠ .free → assign .wrongState)

/-- ADOPT BAY (R34) issues a WALK_IN ticket ARRIVED and bound to an unbound OCCUPIED bay; at a plugged bay the
binding is a plug-in, which opens the session before the response unless the bay's link is LOST. Its checks in their
order: the first that fails refuses the request, which then changes nothing. -/
def Obligations.AdoptBayBinds : Prop :=
  (∀ (s : State) (p : Port) (x stay z : Byte), s.ready p → p = .s ∨ p = .k ∧ s.opState = .run →
    let refused := fun (st : Status) => s.refusedBy (.adoptBay p [x, stay, z]) p st []
    (s.opState = .config → refused .wrongState) ∧
    (s.opState = .run → z.toNat ≠ 0 → z.toNat ≠ 2 → refused .badArg) ∧
    (s.opState = .run → z.toNat = 0 ∨ z.toNat = 2 →
      (48 ≤ x.toNat → refused .noSuch) ∧
      ∀ b : BayNo, b.val = x.toNat →
        ((s.bay b).enrolled = false → refused .noSuch) ∧
        ((s.bay b).enrolled = true →
          ((s.bay b).state ≠ .occupied ∨ (s.bay b).ticket ≠ none → refused .wrongState) ∧
          ((s.bay b).state = .occupied → (s.bay b).ticket = none →
            ((s.pool (s.bay b).pool).kind = .restricted → z.toNat = 0 → refused .noRight) ∧
            (¬((s.pool (s.bay b).pool).kind = .restricted ∧ z.toNat = 0) → 64 ≤ s.tickets.length →
              refused .full))))) ∧
  ∀ (s : State) (p : Port) (x stay z : Byte) (b : BayNo) (c : Priority), ClaimsAgree s → s.ready p → p ≠ .n →
    s.opState = .run → priorityOf z = some c → s.enrolledBay x = some b → (s.bay b).state = .occupied →
    (s.bay b).ticket = none → ¬((s.pool (s.bay b).pool).kind = .restricted ∧ c = .standard) →
    s.tickets.length < 64 →
    let n := s.nextTicket
    let u : State := { s with
      tickets := s.tickets ++ [
        { number := n, origin := p, kind := .walkIn, cls := if c = .access then .access else .standard,
          pool := (s.bay b).pool, stay := if stay.toNat = 0 then 8 else min stay.toNat 16, state := .arrived,
          bay := some b, offerDeadline := none, holdDeadline := none, lastDeclined := none, booking := none }],
      ticketCounter := if 65535 ≤ n then 1 else n + 1,
      bays := s.bays.set b { s.bay b with ticket := some n } }
    let clamped := decide (16 < stay.toNat)
    ((s.bay b).plug ≠ .plugged → ∃ t, exec (.adoptBay p [x, stay, z]) s = .next t ∧
      s.answeredWith u t p .ok (u16 n ++ [3#8]) clamped) ∧
    ((s.bay b).plug = .plugged → (s.link b).link = .lost →
      ∃ t, exec (.adoptBay p [x, stay, z]) s = .next t ∧ s.answeredWith
        { u with bays := u.bays.set b { u.bay b with plug := .unknown } } t p .ok (u16 n ++ [3#8]) clamped) ∧
    ((s.bay b).plug = .plugged → (s.link b).link ≠ .lost →
      ∃ t, exec (.adoptBay p [x, stay, z]) s = .next t ∧
        s.answeredWith (u.plugIn b) t p .ok (u16 n ++ [4#8]) clamped ∧ (t.bay b).state = .active)

/-- ASSIGN BAY of a WAITING ticket to a FREE bay, and ACCEPT OFFER of an open offer by the ticket's origin or S: the
ticket leaves its queue and is HELD at the bay to the device seconds plus the arrival grace, its last declined bay
cleared; the bay is HELD and names it, with one BAY_STATE (R35, R36, R48, R56).
That both responses carry the hold deadline without a presence byte is the model's reading of R175: assumption 10. -/
def Obligations.HoldsBeginByCommand : Prop :=
  ∀ (s : State) (p : Port) (h l x : Byte) (b : BayNo) (k : Ticket), ClaimsAgree s → s.ready p →
    s.opState = .run → s.enrolledBay x = some b → k.number = of16 h l → s.ticket? k.number = some k →
    let deadline := s.deviceSeconds + BitVec.ofNat 32 s.timers.grace
    let u := ({ s with
        tickets := s.tickets.map (fun y => if y.number = k.number then { y with
          state := .held, bay := some b, offerDeadline := none, holdDeadline := some deadline,
          lastDeclined := none } else y),
        bays := s.bays.set b { s.bay b with state := .held, ticket := some k.number },
        pools := s.pools.set k.pool { s.pool k.pool with
          queue := (s.pool k.pool).queue.filter (fun m => m != k.number) } } : State).raise .s
      (.bayState b .held (s.link b).link none)
    let fields := u8 b :: u32 deadline.toNat
    (p = .s → k.state = .waiting → (s.bay b).state = .free →
      ∃ t, exec (.assignBay p [h, l, x]) s = .next t ∧ s.answeredWith u t p .ok fields false) ∧
    (p = .s ∨ k.origin = p → k.state = .offered → k.bay = some b →
      ∃ t, exec (.acceptOffer p [h, l, x]) s = .next t ∧ s.answeredWith u t p .ok fields false)

/-- DECLINE OFFER by the ticket's origin or S, and the lapse of an offer whose deadline has come (R57, R58, R48,
R178): the ticket is WAITING as the last of its class with its last declined bay set, a lapse raises OFFER_LAPSED,
the bay is placed by its last report, and one matching run is made in the pool. That the lapse is taken at or after the
deadline is the model's reading of R178 (assumption 4), the place of BAY_STATE among the notices, and its being
raised for a bay that returns to OFFERED, its reading of R7 (assumption 6), and that OFFER_LAPSED stands before the
notices of the settlement, and the THROTTLE notices of a plug-in's recompute before the notices of the run, its
choices (assumptions 19 and 20). -/
def Obligations.OffersGivenUp : Prop :=
  ∀ (s : State) (p : Port) (h l x : Byte) (b : BayNo) (k : Ticket), ClaimsAgree s →
    s.enrolledBay x = some b → k.number = of16 h l → s.ticket? k.number = some k → k.state = .offered →
    k.bay = some b →
    ∃ front back, (s.pool k.pool).queue.filter (fun m => m != k.number) = front ++ back ∧
      (∀ m ∈ front, s.rankOf m ≤ k.cls.rank) ∧ (∀ m ∈ back, k.cls.rank < s.rankOf m) ∧
      let y := (s.bay b).placed (s.linkLost b)
      let u : State := { s with
        tickets := s.tickets.map (fun z => if z.number = k.number then { z with
          state := .waiting, bay := none, offerDeadline := none, lastDeclined := some b } else z),
        bays := s.bays.set b y,
        pools := s.pools.set k.pool { s.pool k.pool with queue := front ++ k.number :: back } }
      let placed := fun (w : State) =>
        let w1 := w.raise .s (.bayState b y.state (s.link b).link none)
        (if y.state = .occupied ∧ y.plug = .plugged then w1.plugIn b else w1).matchRun k.pool
      (s.ready p → s.opState = .run → p = .s ∨ k.origin = p →
        ∃ t, exec (.declineOffer p [h, l, x]) s = .next t ∧
          s.answeredWith (placed u) t p .ok [u8 ((t.pool k.pool).queue.idxOf k.number + 1)] false) ∧
      (∀ d, k.offerDeadline = some d → s.reached d = true →
        exec (.lapse k.number) s = .next (placed (u.raise k.origin (.offerLapsed k.number b))).settleBus)

/-- CANCEL TICKET by the ticket's origin or S, by the ticket's state (R40, R41, R60), and the expiry of a hold whose
deadline has come (R38, R178): the ticket is freed, and the bay of an OFFERED or HELD ticket is placed by its last
report with the plug-in or the matching run that follows; a CHARGING ticket is refused WRONG_STATE. That the expiry
is taken at or after the deadline is the model's reading of R178 (assumption 4), and that BAY_STATE stands before the
notices of the plug-in or the run its reading of R7 (assumption 6). -/
def Obligations.ClaimsWithdrawn : Prop :=
  ∀ (s : State) (p : Port) (h l : Byte) (k : Ticket), ClaimsAgree s → k.number = of16 h l →
    s.ticket? k.number = some k →
    let gone : State := { s with tickets := s.tickets.filter (fun z => z.number != k.number) }
    let unqueued := s.pools.set k.pool { s.pool k.pool with
      queue := (s.pool k.pool).queue.filter (fun m => m != k.number) }
    let placed := fun (w : State) (b : BayNo) =>
      let y := (s.bay b).placed (s.linkLost b)
      let w1 := ({ w with bays := w.bays.set b y } : State).raise .s
        (.bayState b y.state (s.link b).link none)
      if y.state = .free then w1.matchRun y.pool
      else if y.state = .occupied ∧ y.plug = .plugged then w1.plugIn b else w1
    (s.ready p → s.opState = .run → p = .s ∨ k.origin = p →
      let cancels := fun (u : State) =>
        ∃ t, exec (.cancelTicket p [h, l]) s = .next t ∧ s.answeredWith u t p .ok [] false
      (k.state = .waiting → cancels { gone with pools := unqueued }) ∧
      (∀ b, k.state = .offered → k.bay = some b → cancels (placed { gone with pools := unqueued } b)) ∧
      (∀ b, k.state = .held → k.bay = some b → cancels (placed gone b)) ∧
      (∀ b, k.state = .arrived → k.bay = some b →
        cancels { gone with bays := s.bays.set b { s.bay b with ticket := none } }) ∧
      (k.state = .charging → s.refusedBy (.cancelTicket p [h, l]) p .wrongState [])) ∧
    ∀ b d, k.state = .held → k.bay = some b → k.holdDeadline = some d → s.reached d = true →
      exec (.holdExpiry k.number) s =
        .next (placed (gone.raise k.origin (.holdExpired k.number b)) b).settleBus

/-- MASK POOL and UNMASK POOL (R65, R66): the checks in their order, the masked flag, and for UNMASK POOL the one
matching run in the pool; K and N are answered NO_RIGHT. -/
def Obligations.MaskAndUnmask : Prop :=
  ∀ (s : State) (x : Byte), s.ready .s →
    let both := fun (st : Status) =>
      s.refusedBy (.maskPool .s [x]) .s st [] ∧ s.refusedBy (.unmaskPool .s [x]) .s st []
    (∀ p, p ≠ .s → s.ready p →
      s.turnedAway (.maskPool p [x]) p .noRight ∧ s.turnedAway (.unmaskPool p [x]) p .noRight) ∧
    (s.opState = .config → both .wrongState) ∧
    (s.opState = .run → 8 ≤ x.toNat → both .noSuch) ∧
    ∀ q : PoolNo, s.opState = .run → q.val = x.toNat →
      ((s.pool q).configured = false → both .noSuch) ∧
      ((s.pool q).configured = true → (s.pool q).masked = true →
        s.refusedBy (.maskPool .s [x]) .s .wrongState [] ∧
        ∃ t, exec (.unmaskPool .s [x]) s = .next t ∧ s.answeredWith
          (({ s with pools := s.pools.set q { s.pool q with masked := false } } : State).matchRun q)
          t .s .ok [] false) ∧
      ((s.pool q).configured = true → (s.pool q).masked = false →
        s.refusedBy (.unmaskPool .s [x]) .s .wrongState [] ∧
        ∃ t, exec (.maskPool .s [x]) s = .next t ∧ s.answeredWith
          { s with pools := s.pools.set q { s.pool q with masked := true } } t .s .ok [] false)

/-- A matching run takes the bays of its pool in rotation order (R51, R54): a FREE bay is offered to the first WAITING
ticket in queue order for which it is eligible (R44, R49, R50) and which no bay before it has taken, to the device
seconds plus the offer time (R55); the rotation pointer ends at the last bay offered, and each offer raises BAY_STATE
to S and OFFER to the ticket's origin, in this order (assumption 6). Nothing else changes, no pairing is left, and in
a masked pool nothing changes (R53). -/
def Obligations.MatchingRunPairs : Prop :=
  ∀ (s : State) (q : PoolNo), ClaimsAgree s →
    let t := s.matchRun q
    let mine := allBays.filter (fun b => (s.bay b).enrolled && decide ((s.bay b).pool = q))
    let order := match (s.pool q).pointer with
      | some r => mine.filter (fun b => decide (r < b)) ++ mine.filter (fun b => decide (b ≤ r))
      | none => mine
    let fits := fun (b : BayNo) (n : Nat) => ∃ k, s.ticket? n = some k ∧ k.state = .waiting ∧
      (s.bay b).state = .free ∧ (s.pool q).masked = false ∧
      ((s.pool q).kind = .general ∨ k.cls = .access ∨ k.kind = .booked) ∧ k.lastDeclined ≠ some b ∧
      ∀ m ∈ s.bookings b, (k.stay : Int) < s.offset m
    (∀ front b back, order = front ++ b :: back →
      let left := fun (n : Nat) => fits b n ∧ ∀ c ∈ front, (t.bay c).ticket ≠ some n
      (∀ first n rest k, (s.pool q).queue = first ++ n :: rest → (∀ m ∈ first, ¬left m) → left n →
        s.ticket? n = some k →
        t.bay b = { s.bay b with state := .offered, ticket := some n } ∧
        t.ticket? n = some { k with
          state := .offered, bay := some b,
          offerDeadline := some (s.deviceSeconds + BitVec.ofNat 32 s.timers.offer) } ∧
        ((∀ c ∈ back, t.bay c = s.bay c) → (t.pool q).pointer = some b)) ∧
      ((∀ n ∈ (s.pool q).queue, ¬left n) → t.bay b = s.bay b)) ∧
    ((∀ b, t.bay b = s.bay b) → t = s) ∧
    (∀ p, t.queue p = s.queueAfter p (order.flatMap (fun b =>
      match (t.bay b).ticket with
      | some n =>
        if t.bay b = s.bay b then [] else
          (if p = .s then [.bayState b .offered (s.link b).link none] else []) ++
          (if (s.ticket? n).map Ticket.origin = some p then [.offer n b s.timers.offer] else [])
      | none => []))) ∧
    (∀ k ∈ t.tickets, k.state = .waiting → k.pool = q → ∀ b, t.eligible b k = false) ∧
    (∀ b, (s.bay b).keptOrOffered (t.bay b) ∧
      ((s.bay b).pool ≠ q ∨ (s.bay b).enrolled = false → t.bay b = s.bay b)) ∧
    (∀ n x, s.ticket? n = some x → ∃ y, t.ticket? n = some y ∧ x.keptOrOffered y ∧
      (x.pool ≠ q → y = x)) ∧
    (∀ r, t.pool r = { s.pool r with pointer := if r = q then (t.pool q).pointer else (s.pool r).pointer }) ∧
    ((s.pool q).masked = true → t = s) ∧
    t = { s with bays := t.bays, tickets := t.tickets, pools := t.pools, queues := t.queues }

/-- The number of the next ticket, and of the next booking, is the first at or after its counter, with 65535
followed by 1, that is not live (R28, R70). -/
def Obligations.NumbersAreTheFirstNotLive : Prop :=
  let after := fun (n : Nat) => if 65535 ≤ n then 1 else n + 1
  ∀ s : State,
    (TicketsFit s → ∃ i, i ≤ 64 ∧ s.nextTicket = after^[i] s.ticketCounter ∧ s.nextTicket ∉ s.liveTickets ∧
      (∀ j < i, after^[j] s.ticketCounter ∈ s.liveTickets) ∧ 1 ≤ s.nextTicket ∧ s.nextTicket ≤ 65535) ∧
    (BookFits s → ∃ i, i ≤ 160 ∧ s.nextBooking = after^[i] s.booking.counter ∧
      s.nextBooking ∉ s.liveBookings ∧ (∀ j < i, after^[j] s.booking.counter ∈ s.liveBookings) ∧
      1 ≤ s.nextBooking ∧ s.nextBooking ≤ 65535)

/-! ### Bookings and the slot clock (Chapter 4) -/

/-- BOOK that passes its checks (R69, R75, R76): the record joins its bay's list by its start, its number is spent,
the response carries number, bay, start, offset and band, and nothing else changes. That the offset takes 1 byte is
the model's reading of R175: assumption 10. -/
def Obligations.BookPlacesABooking : Prop :=
  ∀ (s : State) (p : Port) (x s3 s2 s1 s0 len z : Byte) (b : BayNo) (c : Priority) (band : Band),
    BookOrdered s → s.ready p → p = .s ∨ s.opState = .run → priorityOf z = some c → ¬(c = .access ∧ p = .n) →
    s.enrolledBay x = some b → 1 ≤ len.toNat ∧ len.toNat ≤ 16 →
    let start : SlotNo := BitVec.ofNat 32 (of32 s3 s2 s1 s0)
    let o := offsetFrom s.booking.slotNow start
    1 ≤ o → s.booking.bands.bandOf o = some band → mayBook p band = true →
    (∀ m ∈ s.bookings b, o + (len.toNat : Int) ≤ s.offset m ∨ s.offset m + (m.length : Int) ≤ o) →
    (s.bookings b).length < 6 → s.bookSize < 160 →
    let n := s.nextBooking
    ∃ t front back, s.bookings b = front ++ back ∧ (∀ m ∈ front, s.offset m < o) ∧
      (∀ m ∈ back, o < s.offset m) ∧
      exec (.book p [x, s3, s2, s1, s0, len, z]) s = .next t ∧ s.answeredWith
        { s with booking := { s.booking with
            book := s.booking.book.set b (front ++
              { number := n, origin := p, start := start, length := len.toNat, cls := c } :: back),
            counter := if 65535 ≤ n then 1 else n + 1 } }
        t p .ok (u16 n ++ u8 b :: u32 start.toNat ++ [u8 o.toNat, u8 band.code]) false

/-- The checks of BOOK in their order (R75, R73): the first that fails refuses the request, which then changes
nothing. In CONFIG the port unit answers K and N NOT_READY. -/
def Obligations.BookChecks : Prop :=
  ∀ (s : State) (p : Port) (x s3 s2 s1 s0 len z : Byte), s.ready p →
    let refused := fun (st : Status) (pl : List Byte) =>
      s.refusedBy (.book p [x, s3, s2, s1, s0, len, z]) p st pl
    let o := offsetFrom s.booking.slotNow (BitVec.ofNat 32 (of32 s3 s2 s1 s0))
    let f : Int := s.booking.bands.frozen
    let g : Int := s.booking.bands.frozen + s.booking.bands.opened
    (p ≠ .s → s.opState = .config →
      s.turnedAway (.book p [x, s3, s2, s1, s0, len, z]) p .notReady) ∧
    (p = .s ∨ s.opState = .run →
    (z.toNat ≠ 0 → z.toNat ≠ 2 → refused .badArg []) ∧
    (z.toNat = 2 → p = .n → refused .noRight []) ∧
    (z.toNat = 0 ∨ z.toNat = 2 ∧ p ≠ .n →
      (s.enrolledBay x = none → refused .noSuch []) ∧
      ∀ b, s.enrolledBay x = some b →
        (len.toNat = 0 ∨ 16 < len.toNat → refused .badArg []) ∧
        (1 ≤ len.toNat ∧ len.toNat ≤ 16 →
          (o ≤ 0 → refused .past []) ∧ (95 < o → refused .band []) ∧
          (1 ≤ o → o ≤ 95 →
            (p = .k → o < f → refused .band []) ∧ (p = .n → o < f ∨ g ≤ o → refused .band []) ∧
            (p = .s ∨ p = .k ∧ f ≤ o ∨ p = .n ∧ f ≤ o ∧ o < g →
              (∀ front m back, s.bookings b = front ++ m :: back →
                (∀ a ∈ front, o + (len.toNat : Int) ≤ s.offset a ∨ s.offset a + (a.length : Int) ≤ o) →
                s.offset m < o + (len.toNat : Int) → o < s.offset m + (m.length : Int) →
                refused .conflict (u16 m.number)) ∧
              ((∀ a ∈ s.bookings b,
                  o + (len.toNat : Int) ≤ s.offset a ∨ s.offset a + (a.length : Int) ≤ o) →
                6 ≤ (s.bookings b).length ∨ 160 ≤ s.bookSize → refused .full []))))))

/-- CANCEL BOOKING (R77): NO_SUCH, NOT_OWNER and BAND in their order; else the booking leaves its list, and in RUN
one matching run is made in the pool of its bay. In CONFIG the port unit answers K and N NOT_READY. -/
def Obligations.CancelBookingRemoves : Prop :=
  ∀ (s : State) (p : Port) (h l : Byte), s.ready p →
    let refused := fun (st : Status) => s.refusedBy (.cancelBooking p [h, l]) p st []
    (p ≠ .s → s.opState = .config → s.turnedAway (.cancelBooking p [h, l]) p .notReady) ∧
    (p = .s ∨ s.opState = .run →
    (of16 h l = 0 ∨ (∀ b, ∀ k ∈ s.bookings b, k.number ≠ of16 h l) → refused .noSuch) ∧
    ∀ b, ∀ k ∈ s.bookings b, BookFits s → k.number = of16 h l →
      let inOpen := (s.booking.bands.frozen : Int) ≤ s.offset k ∧
        s.offset k < s.booking.bands.frozen + s.booking.bands.opened ∧ 0 ≤ s.offset k ∧ s.offset k ≤ 95
      (p ≠ .s → k.origin ≠ p → refused .notOwner) ∧
      (p = .n → k.origin = .n → ¬inOpen → refused .band) ∧
      (p = .s ∨ k.origin = p ∧ (p = .k ∨ inOpen) →
        let u : State := { s with booking := { s.booking with
          book := s.booking.book.set b ((s.bookings b).filter (fun m => m.number != k.number)) } }
        ∃ t, exec (.cancelBooking p [h, l]) s = .next t ∧ s.answeredWith
          (if s.opState = .run then u.matchRun (s.bay b).pool else u) t p .ok [] false))

/-- SET SLOT CLOCK (R72): refused WRONG_STATE in RUN, and where a live booking would leave offsets 1 to 95, with the
first such booking's number; else the clock takes the slot number and the seconds, clamped to 899. That an expiry
which was due is due no more is the model's choice: assumption 3. -/
def Obligations.SetSlotClockSetsTheClock : Prop :=
  ∀ (s : State) (s3 s2 s1 s0 h l : Byte), s.ready .s →
    let now : SlotNo := BitVec.ofNat 32 (of32 s3 s2 s1 s0)
    let stays := fun (k : Booking) => 1 ≤ offsetFrom now k.start ∧ offsetFrom now k.start ≤ 95
    let c := Instr.setSlotClock .s [s3, s2, s1, s0, h, l]
    (s.opState = .run → s.refusedBy c .s .wrongState []) ∧
    (s.opState = .config → ∀ (b : BayNo) (front : List Booking) (k : Booking) (back : List Booking),
      (∀ a < b, ∀ m ∈ s.bookings a, stays m) → s.bookings b = front ++ k :: back →
      (∀ m ∈ front, stays m) → ¬stays k → s.refusedBy c .s .wrongState (u16 k.number)) ∧
    (s.opState = .config → (∀ b, ∀ k ∈ s.bookings b, stays k) →
      ∃ t, exec c s = .next t ∧ s.answeredWith
        { s with booking := { s.booking with
            slotNow := now, secondsIntoSlot := min (of16 h l) 899, slotDue := false } }
        t .s .ok [] (decide (899 < of16 h l)))

/-- SET BANDS (R74): refused WRONG_STATE in RUN, and BAD_ARG for sizes that break a condition of R73; else the three
sizes are taken. That a size takes 1 byte is the model's reading of R175: assumption 10. -/
def Obligations.SetBandsTakesThePartition : Prop :=
  ∀ (s : State) (f o t : Byte), s.ready .s →
    let good := f.toNat + o.toNat + t.toNat = 96 ∧ 1 ≤ f.toNat ∧ f.toNat ≤ 8 ∧ 40 ≤ o.toNat ∧ t.toNat ≤ 48
    let c := Instr.setBands .s [f, o, t]
    (∀ p, p ≠ .s → s.ready p → s.turnedAway (.setBands p [f, o, t]) p .noRight) ∧
    (s.opState = .run → s.refusedBy c .s .wrongState []) ∧
    (s.opState = .config → ¬good → s.refusedBy c .s .badArg []) ∧
    (s.opState = .config → good → ∃ t', exec c s = .next t' ∧ s.answeredWith
      { s with booking := { s.booking with
          bands := { frozen := f.toNat, opened := o.toNat, far := t.toNat } } } t' .s .ok [] false)

/-- One second of the time base (R178, R71): the count advances modulo 2^32, and so do the seconds into slot; where
they would reach 900 the slot expiry is due, which the model marks: assumption 3. -/
def Obligations.SecondsPass : Prop :=
  ∀ s : State,
    (s.booking.secondsIntoSlot < 899 → exec .deviceSeconds s = .next { s with
      deviceSeconds := s.deviceSeconds + 1#32,
      booking := { s.booking with secondsIntoSlot := s.booking.secondsIntoSlot + 1 } }) ∧
    (s.booking.secondsIntoSlot = 899 → exec .deviceSeconds s = .next { s with
      deviceSeconds := s.deviceSeconds + 1#32, booking := { s.booking with slotDue := true } })

/-- A slot expiry in CONFIG (R71, R85, R89): the slot number advances, the seconds into slot return to 0, every
booking whose offset is now 0 leaves the book with BOOKING_DROPPED, NOT_RUNNING, to its origin and to S, one copy
where these are one port, in ascending order of bay, and nothing else changes. That the expiry is taken where the
model's mark says that it is due is the model's choice: assumption 3. -/
def Obligations.SlotExpiryInConfigDrops : Prop :=
  ∀ s : State, BookFits s → BookOrdered s → s.opState = .config → s.booking.slotDue = true →
    ∃ t, exec .slotExpiry s = .next t ∧
      (∀ b, t.bookings b = (s.bookings b).filter (fun k => decide (t.offset k ≠ 0))) ∧
      (∀ p, t.queue p = s.queueAfter p (allBays.flatMap (fun b => (s.bookings b).filterMap (fun k =>
        if t.offset k = 0 ∧ (p = .s ∨ p = k.origin) then some (.bookingDropped k.number .notRunning)
        else none)))) ∧
      t = { s with
        booking := { s.booking with
          book := t.booking.book, slotNow := s.booking.slotNow + 1#32, secondsIntoSlot := 0, slotDue := false },
        queues := t.queues }

/-- A slot expiry in RUN (R71, R81 to R84, R35): the slot number advances, the seconds into slot return to 0, and
every booking that is due leaves the book. Where the table has room for the activations, a due booking's bay that
was FREE or OFFERED is HELD for its BOOKED ticket to the device seconds plus the arrival grace; a bay in another
state is left as it stands. Where one booking is due, the whole expiry (R61, R62, R89): the hold with
BOOKING_ACTIVE, after the withdrawal of an open offer; the displacement into the queue with class DISPLACED or ACCESS
and BOOKING_DISPLACED; or BOOKING_DROPPED, TABLE_FULL or QUEUE_FULL, the latter with its number spent; then a matching
run in every configured pool. That the expiry is taken where the model's mark says that it is due is the model's
choice (assumption 3), and the place of BAY_STATE before BOOKING_ACTIVE its reading of R7 (assumption 6). -/
def Obligations.SlotExpiryInRunActivates : Prop :=
  ∀ s : State, ClaimsAgree s → BookFits s → BookOrdered s → s.opState = .run → s.booking.slotDue = true →
    ∃ t, exec .slotExpiry s = .next t ∧
      (∀ b, t.bookings b = (s.bookings b).filter (fun k => decide (t.offset k ≠ 0))) ∧
      (∀ b, ∀ k ∈ s.bookings b, t.offset k = 0 →
        ((s.bay b).state = .free ∨ (s.bay b).state = .offered → s.tickets.length + 48 ≤ 64 →
          ∃ x, t.ticket? x.number = some x ∧ t.bay b = { s.bay b with state := .held, ticket := some x.number } ∧
            x = { number := x.number, origin := k.origin, kind := .booked,
                  cls := if k.cls = .access then .access else .standard, pool := (s.bay b).pool,
                  stay := k.length, state := .held, bay := some b, offerDeadline := none,
                  holdDeadline := some (s.deviceSeconds + BitVec.ofNat 32 s.timers.grace),
                  lastDeclined := none, booking := some k.number }) ∧
        ((s.bay b).state ≠ .free → (s.bay b).state ≠ .offered → t.bay b = s.bay b)) ∧
      (∀ b, (∀ k ∈ s.bookings b, t.offset k ≠ 0) → (s.bay b).keptOrOffered (t.bay b)) ∧
      (∀ b k back, s.bookings b = k :: back → t.offset k = 0 →
        (∀ c, c ≠ b → ∀ m ∈ s.bookings c, t.offset m ≠ 0) →
        let u : State := { s with booking := { s.booking with
          book := s.booking.book.set b back, slotNow := s.booking.slotNow + 1#32, secondsIntoSlot := 0,
          slotDue := false } }
        let n := s.nextTicket
        let counter := if 65535 ≤ n then 1 else n + 1
        let pool := (s.bay b).pool
        let x : Ticket :=
          { number := n, origin := k.origin, kind := .booked,
            cls := if k.cls = .access then .access else .standard, pool := pool, stay := k.length, state := .held,
            bay := some b, offerDeadline := none,
            holdDeadline := some (s.deviceSeconds + BitVec.ofNat 32 s.timers.grace), lastDeclined := none,
            booking := some k.number }
        let y : Ticket := { x with
          state := .waiting, cls := if k.cls = .access then .access else .displaced, bay := none,
          holdDeadline := none }
        let both := fun (w : State) (m : Notice) =>
          if k.origin = .s then w.raise .s m else (w.raise k.origin m).raise .s m
        let held := fun (w : State) =>
          (({ w with tickets := w.tickets ++ [x], ticketCounter := counter,
                     bays := w.bays.set b { s.bay b with state := .held, ticket := some n } } : State).raise .s
            (.bayState b .held (s.link b).link none)).raise k.origin (.bookingActive k.number n b)
        let leaves := fun (w : State) => t =
          ((allPools.filter (fun q => (s.pool q).configured)).foldl (fun r q => r.matchRun q) w).settleBus
        (s.tickets.length = 64 → leaves (both u (.bookingDropped k.number .tableFull))) ∧
        (s.tickets.length < 64 →
          ((s.bay b).state = .free → leaves (held u)) ∧
          (∀ z, (s.bay b).state = .offered → (s.bay b).ticket = some z.number → s.ticket? z.number = some z →
            leaves (held (({ u with tickets := u.tickets.map (fun m => if m.number = z.number then { m with
                state := .waiting, bay := none, offerDeadline := none } else m) } : State).raise z.origin
              (.offerWithdrawn z.number b .booking)))) ∧
          ((s.bay b).state ≠ .free → (s.bay b).state ≠ .offered →
            ((s.pool pool).queue.length < 12 → ∃ front rear, (s.pool pool).queue = front ++ rear ∧
              (∀ m ∈ front, s.rankOf m ≤ y.cls.rank) ∧ (∀ m ∈ rear, y.cls.rank < s.rankOf m) ∧
              leaves (both { u with
                  tickets := s.tickets ++ [y], ticketCounter := counter,
                  pools := s.pools.set pool { s.pool pool with queue := front ++ n :: rear } }
                (.bookingDisplaced k.number n pool))) ∧
            ((s.pool pool).queue.length = 12 →
              leaves (both { u with ticketCounter := counter } (.bookingDropped k.number .queueFull)))))) ∧
      t = { s with
        booking := { s.booking with
          book := t.booking.book, slotNow := s.booking.slotNow + 1#32, secondsIntoSlot := 0, slotDue := false },
        bays := t.bays, tickets := t.tickets, ticketCounter := t.ticketCounter, pools := t.pools,
        queues := t.queues, bus := t.bus }

/-! ### Power (Chapter 6) -/

/-- SET CAP and SET LEVEL (R109, R110, R111, R167): the settings are clamped and taken, in CONFIG and in RUN; FEED
goes to S where A changes; in RUN a change of F first reaches the SUSPENDED bays, and the targets are recomputed;
the response carries the values as taken and the budget that results. That F takes 2 bytes there is the model's
reading of R175: assumption 10. -/
def Obligations.LevelSettingsTaken : Prop :=
  ∀ (s : State) (c1 c0 b1 b0 f1 f0 h l : Byte), s.ready .s →
    let pct : Nat := match s.power.tier with | .normal => 100 | .reduced => 75 | .critical => 40 | .shed => 0
    let budget := fun (c b k : Nat) => min k (c * pct / 100) - b
    let old := budget s.power.rating s.power.base s.power.cap
    let finish := fun (u : State) (new : Nat) =>
      let v := if new ≠ old then u.raise .s (.feed s.power.tier new) else u
      if s.opState = .run then v.recompute else v
    (let k := min (of16 h l) 2000
      let new := budget s.power.rating s.power.base k
      ∃ t, exec (.setCap .s [h, l]) s = .next t ∧ s.answeredWith
        (finish { s with power := { s.power with cap := k } } new) t .s .ok (u16 k ++ u16 new)
        (decide (2000 < of16 h l))) ∧
    let c := min (of16 c1 c0) 2000
    let b := min (of16 b1 b0) 2000
    let f := min (of16 f1 f0) 16
    let new := budget c b s.power.cap
    ∃ t u, exec (.setLevel .s [c1, c0, b1, b0, f1, f0]) s = .next t ∧
      (∀ a, u.setpoint a =
        if s.opState = .run ∧ f ≠ s.power.fallback ∧ (s.bay a).state = .suspended then
          { s.setpoint a with
            issued := f, acked := f,
            seq := if f = (s.setpoint a).issued then (s.setpoint a).seq else ((s.setpoint a).seq + 1) % 16 }
        else s.setpoint a) ∧
      u = { s with power := { s.power with
              rating := c, base := b, fallback := f, setpoints := u.power.setpoints } } ∧
      s.answeredWith (finish u new) t .s .ok (u16 c ++ u16 b ++ u16 f ++ u16 new)
        (decide (2000 < of16 c1 c0 ∨ 2000 < of16 b1 b0 ∨ 16 < of16 f1 f0))

/-- A change of the code on the feed-level lines makes it the candidate and starts the debounce timer, again where it
runs, to run out 2 s later (R108, R178); before its deadline nothing is taken; when the deadline has come the
candidate is taken: the tier of R107 comes into force with FEED and, in RUN, a recompute where it differs, and nothing
but the timer changes where it does not (R107, R108, R111). That the taking may also come after the deadline is the
model's reading of R178: assumption 4. -/
def Obligations.FeedCodeIsDebounced : Prop :=
  ∀ (s : State) (code : BitVec 2),
    (code ≠ s.power.lines → exec (.feedCodeChange code) s =
      .next { s with power := { s.power with
        lines := code, candidate := code, debounce := some (s.deviceSeconds + 2#32) } }) ∧
    (code = s.power.lines → exec (.feedCodeChange code) s = .next s) ∧
    ((∀ d ∈ s.power.debounce, s.reached d = false) → exec .debounceExpiry s = .next s) ∧
    (∀ d, s.power.debounce = some d → s.reached d = true →
      let tier : Tier := if s.power.candidate = 0#2 then .normal else if s.power.candidate = 1#2 then .reduced
        else if s.power.candidate = 2#2 then .critical else .shed
      let u : State := { s with power := { s.power with tier := tier, debounce := none } }
      (tier = s.power.tier → ListenQuiet s → exec .debounceExpiry s = .next u) ∧
      (tier ≠ s.power.tier →
        let v := u.raise .s (.feed tier u.power.budget)
        exec .debounceExpiry s = .next (if s.opState = .run then v.recompute else v).settleBus))

/-- The targets of the participating bays (R113, R114): every capped demand where they fit the budget; else the
first k bays get at least 6 A and at most their capped demand, the rest 0, and the admitted targets are all at
their capped demand or come to exactly the budget, each at its share or 1 A above it, the 1 A going to the first
bays in order that can take it. -/
def Obligations.TargetsAreShared : Prop :=
  ∀ (budget : Nat) (caps : List Nat), (∀ c ∈ caps, 6 ≤ c) →
    let t := shares budget caps
    let k := min caps.length (budget / 6)
    let spare := budget - 6 * k
    let head := ((caps.take k).map (fun c => c - 6)).sum
    let share := fun (i : Nat) => 6 + spare * (caps.getD i 0 - 6) / head
    t.length = caps.length ∧ (∀ i, t.getD i 0 ≤ caps.getD i 0) ∧ t.sum ≤ budget ∧
    (caps.sum ≤ budget → t = caps) ∧
    (budget < caps.sum →
      (∀ i, k ≤ i → t.getD i 0 = 0) ∧ (∀ i < k, 6 ≤ t.getD i 0) ∧
      (head ≤ spare → t.take k = caps.take k) ∧
      (spare < head → t.sum = budget ∧ ∀ i < k,
        (t.getD i 0 = share i ∨ t.getD i 0 = share i + 1) ∧
        ∀ j < i, t.getD i 0 = share i + 1 → t.getD j 0 = share j + 1 ∨ share j = caps.getD j 0))

/-- A recompute (R112, R115, R117, R119, R121): the participating bays are those of capped demand 6 or more, the
ACCESS sessions first and each class in the order of the admission list; an ACTIVE bay's target is its share of A′,
or 0 where its capped demand is below 6; its throttled flag says whether the target is below the capped demand; where
the target is no more than acked it is issued; the sequence steps exactly where the issued value changes; a changed
flag raises THROTTLE to the origin of the bay's ticket, in the order of the admission list; acked, every bay that is
not ACTIVE and every setting stand. -/
def Obligations.RecomputeSetsTargets : Prop :=
  ∀ s : State, s.admission.Nodup →
    let t := s.recompute
    let caps := s.participants.map (fun b => (s.bay b).cappedDemand)
    let taking := s.admission.filter (fun b => decide (6 ≤ (s.bay b).cappedDemand))
    let access := fun (b : BayNo) => (s.bay b).session.any (fun k => decide (k.cls = .access))
    (∀ b, (s.bay b).state = .active →
      (∀ k, (s.bay b).session = some k → (s.bay b).cappedDemand =
        if min k.demand (s.bay b).rating < 6 then 0 else min k.demand (s.bay b).rating) ∧
      (∀ i, s.participants[i]? = some b →
        (t.setpoint b).target = (shares s.activeBudget caps).getD i 0) ∧
      (b ∉ s.participants → (t.setpoint b).target = 0) ∧
      (t.setpoint b).throttled = decide ((t.setpoint b).target < (s.bay b).cappedDemand) ∧
      ((t.setpoint b).target ≤ (s.setpoint b).acked → (t.setpoint b).issued = (t.setpoint b).target) ∧
      (t.setpoint b).acked = (s.setpoint b).acked ∧
      (t.setpoint b).seq = if (t.setpoint b).issued = (s.setpoint b).issued then (s.setpoint b).seq
        else ((s.setpoint b).seq + 1) % 16) ∧
    (∀ b, (s.bay b).state ≠ .active → t.setpoint b = s.setpoint b) ∧
    s.participants = taking.filter access ++ taking.filter (fun b => !access b) ∧
    s.activeBudget = s.power.budget -
      s.power.fallback * allBays.countP (fun b => decide ((s.bay b).state = .suspended)) ∧
    (∀ p, t.queue p = s.queueAfter p (t.throttles (fun b => (s.setpoint b).throttled) p)) ∧
    t = { s with queues := t.queues, power := { s.power with setpoints := t.power.setpoints } }

/-- The committed load and the raises of a recompute (R116, R120): the load stays within A, or does not grow; where a
bay's committed current rises the load is within A; an issued value that rises is at least 6 A and at most the
target. Over the participating bays in allocation order, a bay whose target is above its acked value is issued its
target where its issued value has come that far, and else its base, the larger of issued and acked, and on top of it
what the target still needs and A less the committed load leaves, unless that stays below 6 A; the load counts the
bays before it as this recompute has issued them, and the others after the decrease step. -/
def Obligations.RaisesStayWithinBudget : Prop :=
  ∀ s : State, s.admission.Nodup →
    let t := s.recompute
    (committedLoad t.power.setpoints ≤ max s.power.budget (committedLoad s.power.setpoints)) ∧
    ∀ b, (max (s.setpoint b).issued (s.setpoint b).acked < max (t.setpoint b).issued (t.setpoint b).acked →
        committedLoad t.power.setpoints ≤ s.power.budget) ∧
      ((s.setpoint b).acked < (t.setpoint b).target → (s.setpoint b).issued < (t.setpoint b).issued →
        6 ≤ (t.setpoint b).issued ∧ (t.setpoint b).issued ≤ (t.setpoint b).target) ∧
      ∀ front back, s.participants = front ++ b :: back → (s.setpoint b).acked < (t.setpoint b).target →
        let standing := fun (c : BayNo) =>
          if c ∈ front ∨ (s.bay c).state = .active ∧ (t.setpoint c).target ≤ (s.setpoint c).acked then
            (t.setpoint c).issued
          else (s.setpoint c).issued
        let load := (allBays.map (fun c => max (standing c) (s.setpoint c).acked)).sum
        let base := max (s.setpoint b).issued (s.setpoint b).acked
        let value := base + min ((t.setpoint b).target - base) (s.power.budget - load)
        (t.setpoint b).issued =
          if (t.setpoint b).target ≤ (s.setpoint b).issued then (t.setpoint b).target
          else if value < 6 then (s.setpoint b).issued else value

/-! ### Notices and windows (Chapter 9) -/

/-- A raised notice reaches its own port's queue alone (R158, R159): on the S queue a BAY_STATE of the same bay and a
FEED update an unread entry in place; else the notice is appended where the queue holds fewer than 24, and
discarded with OVERRUN set where it does not. -/
def Obligations.NoticesAreTaken : Prop :=
  ∀ (s : State) (p : Port) (n : Notice),
    let same := fun (m : Notice) => match n, m with
      | .bayState b _ _ _, .bayState c _ _ _ => p = .s ∧ b = c
      | .feed _ _, .feed _ _ => p = .s
      | _, _ => False
    let q := s.queue p
    let now := fun (x : NoticeQueue) => s.raise p n = { s with queues := s.queues.set p x }
    (∀ front m back, q.notices = front ++ m :: back → same m → (∀ a ∈ front ++ back, ¬same a) →
      now { q with notices := front ++ n :: back }) ∧
    ((∀ m ∈ q.notices, ¬same m) → q.notices.length < 24 → now { q with notices := q.notices ++ [n] }) ∧
    ((∀ m ∈ q.notices, ¬same m) → 24 ≤ q.notices.length → now { q with overrun := true })

/-- READ NOTICES (R160, R162): the oldest notices up to the count leave the port's queue, a count of 0 or above 4
being taken as 4 with CLAMPED; the response carries them and OVERRUN as it stood, and a queue left empty has
OVERRUN cleared. The bytes of a SESSION_CLOSED, its energy total without a presence byte, are the model's reading of
R175: assumption 10. -/
def Obligations.ReadNoticesDrains : Prop :=
  ∀ (s : State) (p : Port) (c : Byte), s.ready p →
    let count := if c.toNat = 0 ∨ 4 < c.toNat then 4 else c.toNat
    let m := min count (s.queue p).notices.length
    let rest := (s.queue p).notices.drop m
    exec (.readNotices p [c]) s = .next { s with
      queues := s.queues.set p { notices := rest, overrun := (s.queue p).overrun && !rest.isEmpty },
      ports := s.ports.set p ((s.port p).answering ⟨rest, (s.queue p).overrun⟩ .ok
        (u8 m :: ((s.queue p).notices.take m).flatMap Notice.bytes ++ [u8 rest.length])
        (decide (c.toNat = 0 ∨ 4 < c.toNat))) }

/-- OPEN WINDOW (R163, R164) sets the port's window with its pointer at the first bay in window order and the fresh
mark, and answers the number of its bays; a range that runs backwards, a number out of range or an undefined code is
refused BAD_ARG with the window as it stood; READ WINDOW (R165) returns the next bays in that order round and round,
the first bay marked WRAPPED unless it is the first read since OPEN WINDOW, and moves the pointer behind them; with
no window it is refused WRONG_STATE. That an aisle of the request takes 1 byte is the model's reading of R175:
assumption 10. -/
def Obligations.WindowsStepThroughTheirBays : Prop :=
  ∀ (s : State) (p : Port), s.ready p →
    (∀ (a a' : Fin 6) (q q' : Fin 8) (o ra rp : Bool), a ≤ a' → q ≤ q' →
      let aisles := (List.finRange 6).filter (fun i => decide (a ≤ i ∧ i ≤ a'))
      let positions := (List.finRange 8).filter (fun i => decide (q ≤ i ∧ i ≤ q'))
      let as := if ra then aisles.reverse else aisles
      let qs := if rp then positions.reverse else positions
      let bays := if o then qs.flatMap (fun j => as.map (fun i => bayAt i j))
        else as.flatMap (fun i => qs.map (fun j => bayAt i j))
      ∃ w, w = { aisleFirst := a, aisleLast := a', posFirst := q, posLast := q',
                 order := if o then .positionFirst else .aisleFirst, revAisle := ra, revPos := rp,
                 pointer := bays.headD 0, fresh := true : Window } ∧ windowBays w = bays ∧
        exec (.openWindow p [u8 a, u8 a', u8 q, u8 q', u8 (flagCode o), u8 (flagCode ra), u8 (flagCode rp)]) s =
          .next (s.setPort p
            (({ s.port p with window := some w } : PortUnit).answering (s.queue p) .ok [u8 bays.length] false))) ∧
    (∀ a a' q q' o ra rp : Byte,
      a'.toNat < a.toNat ∨ q'.toNat < q.toNat ∨ 5 < a.toNat ∨ 5 < a'.toNat ∨ 7 < q.toNat ∨ 7 < q'.toNat ∨
        1 < o.toNat ∨ 1 < ra.toNat ∨ 1 < rp.toNat →
      s.turnedAway (.openWindow p [a, a', q, q', o, ra, rp]) p .badArg) ∧
    (∀ c : Byte, (s.port p).window = none →
      s.turnedAway (.readWindow p [c]) p .wrongState) ∧
    ∀ (c : Byte) (w : Window) (i : Nat), (s.port p).window = some w → (windowBays w)[i]? = some w.pointer →
      let n := if c.toNat = 0 ∨ 8 < c.toNat then 8 else c.toNat
      let bays := windowBays w
      let at' := fun (j : Nat) => (i + j) % bays.length
      exec (.readWindow p [c]) s = .next (s.setPort p
        (({ s.port p with window := some { w with pointer := bays.getD (at' n) 0, fresh := false } } :
            PortUnit).answering (s.queue p) .ok
          ((List.range n).flatMap (fun j =>
            s.summary (bays.getD (at' j) 0) (decide (at' j = 0 ∧ ¬(j = 0 ∧ w.fresh = true)))))
          (decide (c.toNat = 0 ∨ 8 < c.toNat))))

/-! ### Configuration and operating states (Chapter 10) -/

/-- SET BAY, SET POOL and SET TIMERS write their settings in CONFIG (R167, R168), timers clamped into their ranges,
and are refused WRONG_STATE in RUN; the other checks of SET BAY and SET POOL follow in their order. -/
def Obligations.ConfigurationIsSet : Prop :=
  ∀ (s : State) (x e y r f z g1 g0 o1 o0 r1 r0 : Byte), s.ready .s →
    let setBay := Instr.setBay .s [x, e, y, r]
    let setPool := Instr.setPool .s [y, f, z]
    let setTimers := Instr.setTimers .s [g1, g0, o1, o0, r1, r0]
    (s.opState = .run → s.refusedBy setBay .s .wrongState [] ∧ s.refusedBy setPool .s .wrongState [] ∧
      s.refusedBy setTimers .s .wrongState []) ∧
    (s.opState = .config →
      (48 ≤ x.toNat → s.refusedBy setBay .s .noSuch []) ∧
      (x.toNat < 48 → 1 < e.toNat → s.refusedBy setBay .s .badArg []) ∧
      (x.toNat < 48 → e.toNat ≤ 1 → 8 ≤ y.toNat → s.refusedBy setBay .s .noSuch []) ∧
      (x.toNat < 48 → e.toNat ≤ 1 → y.toNat < 8 → r.toNat < 6 ∨ 63 < r.toNat →
        s.refusedBy setBay .s .badArg []) ∧
      (8 ≤ y.toNat → s.refusedBy setPool .s .noSuch []) ∧
      (y.toNat < 8 → 1 < f.toNat ∨ 1 < z.toNat → s.refusedBy setPool .s .badArg []) ∧
      (∀ (b : BayNo) (q : PoolNo), b.val = x.toNat → q.val = y.toNat → e.toNat ≤ 1 →
        6 ≤ r.toNat ∧ r.toNat ≤ 63 → ∃ t, exec setBay s = .next t ∧ s.answeredWith
          (s.setBay b { s.bay b with enrolled := decide (e.toNat = 1), pool := q, rating := r.toNat })
          t .s .ok [] false) ∧
      (∀ q : PoolNo, q.val = y.toNat → f.toNat ≤ 1 → z.toNat ≤ 1 →
        ∃ t, exec setPool s = .next t ∧ s.answeredWith
          (s.setPool q { s.pool q with
            configured := decide (f.toNat = 1), kind := if z.toNat = 1 then .restricted else .general })
          t .s .ok [] false) ∧
      let g := max 300 (min (of16 g1 g0) 1800)
      let o := max 15 (min (of16 o1 o0) 180)
      let w := max 10 (min (of16 r1 r0) 600)
      ∃ t, exec setTimers s = .next t ∧ s.answeredWith
        { s with timers := { grace := g, offer := o, reconnect := w } } t .s .ok (u16 g ++ u16 o ++ u16 w)
        (decide (g ≠ of16 g1 g0 ∨ o ≠ of16 o1 o0 ∨ w ≠ of16 r1 r0)))

/-- START (R170, R88, R139): refused WRONG_STATE in RUN, and BAD_CONFIG with the first check that fails and its item:
no bay enrolled, the lowest enrolled bay whose pool is not configured, the lowest configured pool that no enrolled bay
names. Else the part passes to RUN, the bookings of the unenrolled bays are dropped with BOOKING_DROPPED, UNENROLLED,
the response counts the enrolled bays and the bookings dropped, the records take the values of R4, R45, R124 and R129,
and the first sweep opens, its period timer to run out 1 s later (R135). -/
def Obligations.StartOpensTheLevel : Prop :=
  ∀ s : State, s.ready .s →
    let enrolled := fun (b : BayNo) => (s.bay b).enrolled = true
    let configured := fun (q : PoolNo) => (s.pool q).configured = true
    let fails := fun (check item : Byte) => s.refusedBy (.start .s []) .s .badConfig [check, item]
    (s.opState = .run → s.refusedBy (.start .s []) .s .wrongState []) ∧
    (s.opState = .config →
      ((∀ b, ¬enrolled b) → fails 1#8 0xFF#8) ∧
      (∀ b, enrolled b → ¬configured (s.bay b).pool → (∀ c < b, enrolled c → configured (s.bay c).pool) →
        fails 2#8 (u8 b)) ∧
      ((∃ b, enrolled b) → (∀ b, enrolled b → configured (s.bay b).pool) →
        (∀ q, configured q → (∀ b, enrolled b → (s.bay b).pool ≠ q) →
          (∀ r < q, configured r → ∃ b, enrolled b ∧ (s.bay b).pool = r) → fails 3#8 (u8 q)) ∧
        ((∀ q, configured q → ∃ b, enrolled b ∧ (s.bay b).pool = q) → ∃ t, exec (.start .s []) s = .next t ∧
          s.answers t .s .ok
            [u8 (allBays.countP (fun b => (s.bay b).enrolled)), u8 (s.bookSize - t.bookSize)] false ∧
          (∀ b, t.bookings b = if (s.bay b).enrolled then s.bookings b else []) ∧
          (∀ p, t.queue p = s.queueAfter p (allBays.flatMap (fun b => if (s.bay b).enrolled then [] else
            (s.bookings b).filterMap (fun k => if p = .s ∨ p = k.origin then
              some (.bookingDropped k.number .unenrolled) else none)))) ∧
          (∀ b, t.bay b = { s.bay b with
              state := .offline, presence := .unknown, plug := .unknown, ticket := none, blockPending := false,
              fault := none, session := none } ∧
            t.setpoint b = ⟨0, 0, 0, 0, false⟩ ∧ t.link b = ⟨.lost, 3, 0, .off⟩) ∧
          (∀ q, t.pool q = { s.pool q with masked := false, pointer := none, queue := [] }) ∧
          t = { s with
            opState := .run, admission := [], bays := t.bays, pools := t.pools, ports := t.ports,
            queues := t.queues, booking := { s.booking with book := t.booking.book },
            power := { s.power with setpoints := t.power.setpoints },
            bus := { sweep := .opening, mode := .timed, sweepTimer := some (s.deviceSeconds + 1#32),
                     keepAlive := none, links := t.bus.links, sent := some .opening } })))

/-- RECONFIGURE (R171, R140): refused WRONG_STATE in CONFIG and while a ticket is live; else the part passes to
CONFIG, the bus is idle with a long CLOSE sent, and bays, pools, setpoint and link records are cleared. That the CLOSE
has been sent when the step ends, and that the mode in CONFIG is TIMED, is the model's choice: assumption 16. -/
def Obligations.ReconfigureClosesTheLevel : Prop :=
  ∀ s : State, s.ready .s →
    (s.opState = .config ∨ s.tickets ≠ [] → s.refusedBy (.reconfigure .s []) .s .wrongState []) ∧
    (s.opState = .run → s.tickets = [] → ∃ t, exec (.reconfigure .s []) s = .next t ∧
      s.answers t .s .ok [] false ∧
      (∀ b, t.bay b = { s.bay b with
          state := .offline, presence := .unknown, plug := .unknown, ticket := none, blockPending := false,
          fault := none, session := none } ∧
        t.setpoint b = ⟨0, 0, 0, 0, false⟩ ∧ t.link b = ⟨.lost, 3, 0, .off⟩) ∧
      (∀ q, t.pool q = { s.pool q with masked := false, pointer := none, queue := [] }) ∧
      t = { s with
        opState := .config, admission := [], bays := t.bays, pools := t.pools, ports := t.ports,
        power := { s.power with setpoints := t.power.setpoints },
        bus := { sweep := .idle, mode := .timed, sweepTimer := none, keepAlive := none, links := t.bus.links,
                 sent := some (.close .long) } })

/-- RESTART (R172, R141, R155): tickets, sessions, queues, masks, setpoint and link records, notices, OVERRUN and
DROPPED flags and windows are cleared without a notice, the rest is kept, and in RUN a new sweep opens (R4, R45, R124,
R129). That the bus mode after a RESTART in CONFIG is TIMED is the model's choice: assumption 16. -/
def Obligations.RestartClearsClaims : Prop :=
  ∀ s : State, s.ready .s → ∃ t, exec (.restart .s []) s = .next t ∧
    t.port .s = ({ s.port .s with dropped := false, window := none } : PortUnit).answering
      ⟨[], false⟩ .ok [] false ∧
    (∀ p, p ≠ .s → t.port p = { s.port p with dropped := false, window := none }) ∧
    (∀ p, t.queue p = ⟨[], false⟩) ∧
    (∀ b, t.bay b = { s.bay b with
        state := .offline, presence := .unknown, plug := .unknown, ticket := none, blockPending := false,
        fault := none, session := none } ∧
      t.setpoint b = ⟨0, 0, 0, 0, false⟩ ∧ t.link b = ⟨.lost, 3, 0, .off⟩) ∧
    (∀ q, t.pool q = { s.pool q with masked := false, pointer := none, queue := [] }) ∧
    t = { s with
      tickets := [], admission := [], bays := t.bays, pools := t.pools, ports := t.ports, queues := t.queues,
      power := { s.power with setpoints := t.power.setpoints },
      bus := if s.opState = .run then
          { sweep := .opening, mode := .timed, sweepTimer := some (s.deviceSeconds + 1#32), keepAlive := none,
            links := t.bus.links, sent := some .opening }
        else { s.bus with
          sweep := .idle, mode := .timed, sweepTimer := none, keepAlive := none, links := t.bus.links } }

/-- The values after a power reset that ends with a code on the feed-level lines (R4, R30, R45, R90, R106, R108,
R124, R142, R143, R157, R166, R178). That State.reset has code 0 there is the model's choice: assumption 1. -/
def Obligations.PowerResetValues : Prop :=
  ∀ (s : State) (feed : BitVec 2), ∃ t, exec (.powerReset feed) s = .next t ∧
    t.opState = .config ∧ t.deviceSeconds = 0#32 ∧
    t.timers = { grace := 600, offer := 60, reconnect := 120 } ∧
    (∀ b, t.bay b = { enrolled := false, pool := 0, rating := 32, state := .offline, presence := .unknown,
                      plug := .unknown, ticket := none, blockPending := false, fault := none, tagCounter := 255,
                      session := none } ∧
      t.bookings b = [] ∧ t.setpoint b = ⟨0, 0, 0, 0, false⟩ ∧ t.link b = ⟨.lost, 3, 0, .off⟩) ∧
    t.admission = [] ∧ t.tickets = [] ∧ t.ticketCounter = 1 ∧
    (∀ q, t.pool q = { configured := false, kind := .general, masked := false, pointer := none, queue := [] }) ∧
    t.booking.counter = 1 ∧ t.booking.slotNow = 0#32 ∧ t.booking.secondsIntoSlot = 0 ∧
    t.booking.bands = ⟨2, 70, 24⟩ ∧
    t.power.lines = feed ∧ t.power.tier = .normal ∧ t.power.candidate = feed ∧ t.power.debounce = some 2#32 ∧
    t.power.rating = 0 ∧ t.power.base = 0 ∧ t.power.fallback = 6 ∧ t.power.cap = 2000 ∧
    t.bus.sweep = .idle ∧ t.bus.mode = .timed ∧ t.bus.sweepTimer = none ∧ t.bus.keepAlive = none ∧
    (∀ p, (t.port p).recv = .idle ∧ (t.port p).frame = [] ∧ (t.port p).timer = false ∧
      (t.port p).dropped = false ∧ (t.port p).window = none ∧ t.queue p = ⟨[], false⟩) ∧
    State.reset = { State.powerOn 0#2 with pending := [] } ∧ t = { State.powerOn feed with pending := s.pending }

/-! ### The head bus (Chapter 7) -/

/-- The events that open a sweep and end one (R134, R135, R136, R137, R176): the sweep period timer in IDLE and TIMED,
1 s after the last OPEN; the keep-alive timer, 10 s after the short CLOSE, and a pull, which the part completes with
the rest of the OPEN, in LISTEN mode; a long CLOSE with the period timer run out; and a short CLOSE where a lamp or a
setpoint is owed. Elsewhere a timer that runs out stops, and a pull changes nothing; before its deadline no timer runs
out. That a running-out may be taken after its deadline is the model's reading of R178: assumption 4. -/
def Obligations.SweepsOpenAndClose : Prop :=
  ∀ s : State,
    let opened := fun (frame : BusFrame) =>
      ({ s with bus := { s.bus with
        sweep := .opening, sweepTimer := some (s.deviceSeconds + 1#32), keepAlive := none,
        sent := some frame } } : State)
    let idleIn := fun (m : BusMode) => s.opState = .run ∧ s.bus.sweep = .idle ∧ s.bus.mode = m
    let due := ∃ b, ((s.bay b).enrolled = true ∧
        lampOf (s.bay b).state (s.setpoint b).throttled ≠ (s.link b).lastLamp) ∨
      (s.setpoint b).issued ≠ (s.setpoint b).acked
    let ranOut := fun (timer : Option Seconds) => ∃ d, timer = some d ∧ s.reached d = true
    (ranOut s.bus.sweepTimer → idleIn .timed → exec .sweepPeriodExpiry s = .next (opened .opening)) ∧
    (ranOut s.bus.sweepTimer → ¬idleIn .timed →
      exec .sweepPeriodExpiry s = .next { s with bus := { s.bus with sweepTimer := none } }) ∧
    (¬ranOut s.bus.sweepTimer → exec .sweepPeriodExpiry s = .next s) ∧
    (ranOut s.bus.keepAlive → idleIn .listen → exec .keepAliveExpiry s = .next (opened .opening)) ∧
    (ranOut s.bus.keepAlive → ¬idleIn .listen →
      exec .keepAliveExpiry s = .next { s with bus := { s.bus with keepAlive := none } }) ∧
    (¬ranOut s.bus.keepAlive → exec .keepAliveExpiry s = .next s) ∧
    (idleIn .listen → exec .pull s = .next (opened .restOfOpening)) ∧
    (¬idleIn .listen → exec .pull s = .next s) ∧
    BusFrame.bytes .opening = 0x5A#8 :: BusFrame.bytes .restOfOpening ∧
    BusFrame.bytes .restOfOpening = 0x01#8 :: crcBytes (crc [0x01#8]) ∧
    (s.bus.sweep = .closing .long → s.bus.sweepTimer ≠ none →
      exec .closeSent s = .next { s with bus := { s.bus with sweep := .idle, mode := .timed } }) ∧
    (s.bus.sweep = .closing .long → s.bus.sweepTimer = none →
      exec .closeSent s = .next { opened .opening with bus := { (opened .opening).bus with mode := .timed } }) ∧
    (s.bus.sweep = .closing .short → s.opState = .config ∨ ¬due →
      exec .closeSent s = .next { s with bus := { s.bus with
        sweep := .idle, mode := .listen, keepAlive := some (s.deviceSeconds + 10#32) } }) ∧
    (s.bus.sweep = .closing .short → s.opState = .run → due →
      exec .closeSent s = .next { opened .opening with bus := { (opened .opening).bus with mode := .listen } })

/-- The controller's next frame (R125, R127, R134): after the OPEN the slot command of the lowest-numbered enrolled
bay, after a slot exchange that of the next enrolled bay above it, built from the values as the outcome has left
them; where there is none the CLOSE, long or short by the state as it then stands. -/
def Obligations.NextFrameOfASweep : Prop :=
  ∀ (c : Instr) (s : State) (above : BayNo → Prop),
    ((c = .openSent ∧ s.bus.sweep = .opening ∧ above = fun _ => True) ∨
      ∃ b, s.bus.sweep = .slot b ∧ (above = fun d => b < d) ∧
        (c = .busy ∨ c = .silence ∨ (∃ r, c = .report r) ∨ ∃ x, c = .corrupt x)) →
    ∃ t, exec c s = .next t ∧ (∀ d, (t.bay d).enrolled = (s.bay d).enrolled) ∧
      (∀ d, above d → (s.bay d).enrolled = true → (∀ e, above e → (s.bay e).enrolled = true → d ≤ e) →
        t.bus.sweep = .slot d ∧ t.bus.sent = some (.slot
          { bay := d,
            tag := match (t.bay d).state, (t.bay d).session with
              | .active, some k => k.tag
              | .suspended, some k => k.tag
              | _, _ => 0,
            setpoint := (t.setpoint d).issued, seq := (t.setpoint d).seq, fallback := t.power.fallback,
            lamp := lampOf (t.bay d).state (t.setpoint d).throttled }) ∧
        (t.link d).lastLamp = lampOf (t.bay d).state (t.setpoint d).throttled) ∧
      ((∀ d, above d → (s.bay d).enrolled = false) →
        let long := ∃ d, (t.bay d).state = .active ∨ (t.bay d).state = .suspended ∨
          (t.setpoint d).issued ≠ (t.setpoint d).acked ∨
          ((t.bay d).enrolled = true ∧ (t.link d).link = .silent)
        (long → t.bus.sweep = .closing .long ∧ t.bus.sent = some (.close .long)) ∧
        (¬long → t.bus.sweep = .closing .short ∧ t.bus.sent = some (.close .short)))

/-- Silence, a corrupt reply, BUSY and a REPORT in the link record (R130, R131, R132), and what the loss of a head does
at a bay without a session (R20, R63): FREE becomes OFFLINE, the offer of an OFFERED bay is withdrawn, and any other
bay stands. A change of the link of an enrolled bay in RUN raises one BAY_STATE, with the state and the link in which
the event leaves the bay (R133). -/
def Obligations.LinkRecordsFollowReplies : Prop :=
  ∀ (s : State) (b : BayNo), s.bus.sweep = .slot b → LinksAgree s →
    let shown := fun (x : Bay) => if x.state = .faulted then x.fault else none
    (∀ c : Instr, c = .silence ∨ (∃ x, parseReply x = .corrupt ∧ c = .corrupt x) →
      ∃ t, exec c s = .next t ∧
        ((s.link b).silence = 0 → t.link b = { s.link b with link := .silent, silence := 1, busy := 0 }) ∧
        ((s.link b).silence = 1 → t.link b = { s.link b with link := .silent, silence := 2, busy := 0 }) ∧
        (2 ≤ (s.link b).silence → t.link b = { s.link b with link := .lost, silence := 3, busy := 0 }) ∧
        (∀ d, d ≠ b → t.link d = { s.link d with lastLamp := (t.link d).lastLamp }) ∧
        ((s.link b).silence ≠ 2 → t = { s with queues := t.queues, bus := t.bus }) ∧
        ((s.link b).silence = 2 →
          ((s.bay b).state = .free → t = { s with
            bays := s.bays.set b { s.bay b with state := .offline }, queues := t.queues, bus := t.bus }) ∧
          (∀ k, ClaimsAgree s → (s.bay b).state = .offered → (s.bay b).ticket = some k.number →
            s.ticket? k.number = some k →
            t.bay b = { s.bay b with state := .offline, ticket := none } ∧ s.baysKept t b ∧
            (∃ y, t.ticket? k.number = some y ∧ ({ k with
              state := .waiting, bay := none, offerDeadline := none } : Ticket).keptOrOffered y) ∧
            s.ticketsKept t k.number ∧ (∀ q, (t.pool q).queue = (s.pool q).queue) ∧
            (k.origin ≠ .s → (s.queue k.origin).notices.length < 24 →
              (s.queue k.origin).notices ++ [.offerWithdrawn k.number b .link] <+:
                (t.queue k.origin).notices) ∧
            ((s.queue .s).notices.length < 24 → .bayState b .offline .lost none ∈ (t.queue .s).notices)) ∧
          ((s.bay b).state = .held ∨ (s.bay b).state = .occupied ∨ (s.bay b).state = .offline ∨
              (s.bay b).state = .blocked ∨ (s.bay b).state = .faulted →
            t = { s with queues := t.queues, bus := t.bus })) ∧
        (s.opState = .run → (s.bay b).enrolled = true →
          let told := fun (st : BayState) (l : Link) => s.raise .s (.bayState b st l (shown (s.bay b)))
          ((s.link b).silence = 0 → t.queues = (told (s.bay b).state .silent).queues) ∧
          ((s.link b).silence = 1 ∨ (s.link b).silence = 3 → t.queues = s.queues) ∧
          ((s.link b).silence = 2 →
            ((s.bay b).state = .free → t.queues = (told .offline .lost).queues) ∧
            ((s.bay b).state = .held ∨ (s.bay b).state = .occupied ∨ (s.bay b).state = .offline ∨
                (s.bay b).state = .blocked ∨ (s.bay b).state = .faulted →
              t.queues = (told (s.bay b).state .lost).queues)))) ∧
    (∃ t, exec .busy s = .next t ∧ t.link b = { s.link b with busy := min ((s.link b).busy + 1) 10 } ∧
      ((s.link b).busy < 9 → t = { s with bus := t.bus }) ∧
      (9 ≤ (s.link b).busy → (t.bay b).state = .faulted ∧ (t.bay b).fault = some .headStall)) ∧
    ∀ r, reportDefined r = true → ∃ t, exec (.report r) s = .next t ∧
      t.link b = { s.link b with link := .online, silence := 0, busy := 0 } ∧
      (s.opState = .run → (s.bay b).enrolled = true → (s.link b).silence ≠ 0 → (s.queue .s).notices.length < 24 →
        .bayState b (t.bay b).state .online (shown (t.bay b)) ∈ (t.queue .s).notices)

/-- A session whose head is lost is suspended with the reconnect window as its deadline and the fallback current as
its setpoint (R97, R122); when the deadline has come the session closes with LINK_LOST (R98, R102): its ticket is
freed, its bay is OFFLINE with block pending kept, and its setpoint record stands at issued 0 with acked kept. The
suspension raises BAY_STATE, the close SESSION_CLOSED to the ticket's origin and to S and then BAY_STATE, and each the
THROTTLE notices of its recompute after them (R104, R115, R133, assumption 7). That the expiry is taken at or after
the deadline is the model's reading of R178: assumption 4. -/
def Obligations.SuspensionAndItsExpiry : Prop :=
  ∀ (s : State) (b : BayNo) (k : Session), ClaimsAgree s → (s.bay b).session = some k →
    (∀ c : Instr, s.bus.sweep = .slot b → (s.link b).silence = 2 → (s.bay b).state = .active →
      c = .silence ∨ (∃ x, parseReply x = .corrupt ∧ c = .corrupt x) →
      ∃ t, exec c s = .next t ∧
        t.bay b = { s.bay b with
          state := .suspended,
          session := some { k with
            reconnect := some (s.deviceSeconds + BitVec.ofNat 32 s.timers.reconnect) } } ∧
        (∀ d, d ≠ b → t.bay d = s.bay d) ∧
        (t.setpoint b).target = 0 ∧ (t.setpoint b).issued = s.power.fallback ∧
        (t.setpoint b).acked = s.power.fallback ∧ (t.setpoint b).throttled = (s.setpoint b).throttled ∧
        (∀ p, t.queue p = s.queueAfter p ((if p = .s then [.bayState b .suspended .lost none] else []) ++
          t.throttles (fun c => (s.setpoint c).throttled) p)) ∧
        t = { s with bays := t.bays, queues := t.queues, bus := t.bus,
                     power := { s.power with setpoints := t.power.setpoints } }) ∧
    (∀ d, (s.bay b).state = .suspended → k.reconnect = some d → s.reached d = true →
      ∃ t, exec (.reconnectExpiry b) s = .next t ∧
        t.bay b = { s.bay b with state := .offline, session := none, ticket := none } ∧
        (∀ c, c ≠ b → t.bay c = s.bay c) ∧
        (t.setpoint b).target = 0 ∧ (t.setpoint b).issued = 0 ∧
        (t.setpoint b).acked = (s.setpoint b).acked ∧ (t.setpoint b).throttled = false ∧
        (∀ y, s.ticket? k.ticket = some y → ∀ p, t.queue p = s.queueAfter p (
          (if p = .s ∨ p = y.origin then
            [.sessionClosed k.ticket b .linkLost k.energy (s.deviceSeconds - k.opened)] else []) ++
          (if p = .s then [.bayState b .offline (s.link b).link none] else []) ++
          t.throttles (fun c => (s.setpoint c).throttled) p)) ∧
        t = { s with
          tickets := s.tickets.filter (fun x => x.number != k.ticket),
          admission := s.admission.filter (fun c => c != b), bays := t.bays, queues := t.queues, bus := t.bus,
          power := { s.power with setpoints := t.power.setpoints } })

/-- A head fault, by a REPORT with head status FAULT or by the tenth BUSY in a row (R23, R132): the bay ends FAULTED
with the code and unnamed, presence and plug as they were; its session is closed, the ticket bound to it is freed,
an offer is withdrawn, a held ticket is requeued or, where its queue holds 12, freed. S hears BAY_STATE with the
code, and the ticket's origin one notice: SESSION_CLOSED, which goes to S too, DEPARTED, OFFER_WITHDRAWN with reason
BLOCK, REQUEUED or HOLD_EXPIRED. -/
def Obligations.HeadFaultTakesTheBay : Prop :=
  ∀ (s : State) (b : BayNo) (c : Instr) (code : FaultCode), ClaimsAgree s → s.bus.sweep = .slot b →
    ((∃ r, c = .report r ∧ reportDefined r = true ∧ r.status = 1#8 ∧ code = .headFault r.faultCode) ∨
      (c = .busy ∧ 9 ≤ (s.link b).busy ∧ code = .headStall)) →
    ∃ t, exec c s = .next t ∧
      t.bay b = { s.bay b with
        state := .faulted, fault := some code, ticket := none, session := none,
        blockPending := (s.bay b).blockPending || decide ((s.bay b).state = .blocked) } ∧
      s.baysKept t b ∧ t.admission = s.admission.filter (fun d => d != b) ∧
      (∀ n x, (s.bay b).ticket ≠ some n → s.ticket? n = some x →
        ∃ y, t.ticket? n = some y ∧ x.keptOrOffered y) ∧
      ((s.bay b).state ≠ .faulted ∨ (s.bay b).fault ≠ some code → (s.queue .s).notices.length < 23 →
        .bayState b .faulted (t.link b).link (some code) ∈ (t.queue .s).notices) ∧
      (∀ k, (s.bay b).ticket = some k.number → s.ticket? k.number = some k →
        let told := fun (n : Notice) => (s.queue k.origin).notices.length < 23 →
          (t.queue k.origin).notices.count n = (s.queue k.origin).notices.count n + 1
        (∀ z, (s.bay b).session = some z →
          let closed := Notice.sessionClosed k.number b .fault z.energy (s.deviceSeconds - z.opened)
          ∀ p, (s.queue p).notices.length < 23 → (t.queue p).notices.count closed =
            (s.queue p).notices.count closed + (if p = .s ∨ p = k.origin then 1 else 0)) ∧
        (k.state = .arrived → told (.departed k.number b)) ∧
        (k.state = .offered → told (.offerWithdrawn k.number b .block)) ∧
        (k.state = .held → (s.pool k.pool).queue.length = 12 → told (.holdExpired k.number b)) ∧
        (k.state = .held → (s.pool k.pool).queue.length < 12 →
          told (.requeued k.number k.pool ((t.pool k.pool).queue.idxOf k.number + 1))) ∧
        (k.state = .charging ∨ k.state = .arrived ∨
            k.state = .held ∧ (s.pool k.pool).queue.length = 12 → t.ticket? k.number = none) ∧
        (k.state = .offered → ∃ y, t.ticket? k.number = some y ∧
          ({ k with state := .waiting, bay := none, offerDeadline := none } : Ticket).keptOrOffered y) ∧
        (k.state = .held → (s.pool k.pool).queue.length < 12 → ∃ y, t.ticket? k.number = some y ∧
          k.number ∈ (t.pool k.pool).queue ∧
          ({ k with state := .waiting, cls := k.requeuedClass, bay := none, holdDeadline := none } :
            Ticket).keptOrOffered y)) ∧
      t = { s with bays := t.bays, tickets := t.tickets, pools := t.pools, admission := t.admission,
                   queues := t.queues, bus := t.bus, power := { s.power with setpoints := t.power.setpoints } }

/-- A REPORT at a bay with a session (R15, R16, R17, R95, R96, R99, R100, R118): PLUGGED at an ACTIVE bay writes the
clamped demand, and adds the energy where the tag echo names the session; PLUGGED with the session's tag at a
SUSPENDED bay resumes it; any other plug or tag closes it, and the bay is placed, then takes the presence. A matching
echo acknowledges the issued value where the demand step has caused no recompute. A resumption raises BAY_STATE, and a
close SESSION_CLOSED, UNPLUGGED, once to the ticket's origin and once to S, one copy where these are one port (R102,
R103, R104). -/
def Obligations.ReportAtASession : Prop :=
  ∀ (s : State) (b : BayNo) (k : Session) (r : Report), ClaimsAgree s → s.bus.sweep = .slot b →
    (s.bay b).session = some k → (s.bay b).presence = .present → reportDefined r = true → r.status = 0#8 →
    r.code = 0#16 →
    let taken := { k with demand := min r.demand.toNat 63, reconnect := none }
    let added := min (k.energy + r.energy.toNat) 4294967295
    ((s.bay b).state = .active → r.plug = 2#8 → ∃ t, exec (.report r) s = .next t ∧
      t.bay b = { s.bay b with
        plug := .plugged,
        session := some { taken with energy := if r.tagEcho.toNat = k.tag then added else k.energy } } ∧
      (min (min r.demand.toNat 63) (s.bay b).rating = min k.demand (s.bay b).rating →
        (t.setpoint b).acked =
          if r.echo.toNat = (s.setpoint b).seq then (s.setpoint b).issued else (s.setpoint b).acked) ∧
      (∀ d, d ≠ b → t.bay d = s.bay d) ∧
      t = { s with bays := t.bays, queues := t.queues, bus := t.bus,
                   power := { s.power with setpoints := t.power.setpoints } }) ∧
    ((s.bay b).state = .suspended → r.plug = 2#8 → r.tagEcho.toNat = k.tag →
      ∃ t, exec (.report r) s = .next t ∧
        t.bay b = { s.bay b with
          state := .active, plug := .plugged, session := some { taken with energy := added } } ∧
        (∀ d, d ≠ b → t.bay d = s.bay d) ∧
        ((s.queue .s).notices.length < 24 → .bayState b .active .online none ∈ (t.queue .s).notices) ∧
        t = { s with bays := t.bays, queues := t.queues, bus := t.bus,
                     power := { s.power with setpoints := t.power.setpoints } }) ∧
    (r.plug = 1#8 ∨ (s.bay b).state = .suspended ∧ r.tagEcho.toNat ≠ k.tag →
      ∃ t, exec (.report r) s = .next t ∧
        (({ s.bay b with
          presence := if r.plug = 2#8 ∨ r.presence = 2#8 then .present else .empty,
          plug := if r.plug = 2#8 then .plugged else .unplugged, session := none } :
            Bay).placed false).keptOrOffered (t.bay b) ∧
        s.baysKept t b ∧ t.ticket? k.ticket = none ∧ s.ticketsKept t k.ticket ∧
        t.admission = s.admission.filter (fun d => d != b) ∧ (t.setpoint b).issued = 0 ∧
        ∀ y, s.ticket? k.ticket = some y →
          let closed := Notice.sessionClosed k.ticket b .unplugged k.energy (s.deviceSeconds - k.opened)
          ∀ p, (s.queue p).notices.length < 23 → (t.queue p).notices.count closed =
            (s.queue p).notices.count closed + (if p = .s ∨ p = y.origin then 1 else 0))

/-- A REPORT without a code at a bay without a session (R9 to R14): an OFFLINE bay is placed by it, PRESENT makes a
FREE bay OCCUPIED and is the arrival at a HELD bay, with ARRIVED, EMPTY is the departure from an OCCUPIED bay, with
DEPARTED where it is bound, and anything else is recorded. A plug-in opens a session, with SESSION_OPENED: at a HELD
bay for its ticket; at an OCCUPIED bay whose plug was not PLUGGED for the ticket bound there; and at an unbound one,
or at a FREE or OFFLINE bay, for a new AUTO ticket, or raises NO_TICKET where the table is full (R33, R92, R93). The
session takes the REPORT's demand, and its energy where the tag echo names the new session already: assumption 13. -/
def Obligations.ReportOfPresence : Prop :=
  ∀ (s : State) (b : BayNo) (r : Report), ClaimsAgree s → s.bus.sweep = .slot b → reportDefined r = true →
    r.status = 0#8 → r.code = 0#16 →
    let presence : Presence := if r.plug = 2#8 ∨ r.presence = 2#8 then .present else .empty
    let x : Bay := { s.bay b with
      presence := presence, plug := if r.plug = 2#8 then .plugged else .unplugged }
    let st := (s.bay b).state
    ∃ t, exec (.report r) s = .next t ∧ s.baysKept t b ∧
      t = { s with
        bays := t.bays, admission := t.admission, tickets := t.tickets, ticketCounter := t.ticketCounter,
        pools := t.pools, queues := t.queues, bus := t.bus,
        power := { s.power with setpoints := t.power.setpoints } } ∧
      let told := fun (p : Port) (n : Notice) => (s.queue p).notices.length < 22 →
        (t.queue p).notices.count n = (s.queue p).notices.count n + 1
      let opens := fun (k : Ticket) =>
        let tag := if 255 ≤ (s.bay b).tagCounter then 1 else (s.bay b).tagCounter + 1
        t.bay b = { x with
          tagCounter := tag, state := .active, ticket := some k.number,
          session := some { tag := tag, ticket := k.number,
                            cls := if k.cls = .access then .access else .standard, opened := s.deviceSeconds,
                            energy := if r.tagEcho.toNat = tag then r.energy.toNat else 0,
                            demand := min r.demand.toNat 63, reconnect := none } } ∧
        t.ticket? k.number = some { k with state := .charging, bay := some b, holdDeadline := none } ∧
        (∀ m, m ≠ k.number → t.ticket? m = s.ticket? m) ∧ (∀ d, d ≠ b → t.bay d = s.bay d) ∧
        t.admission = s.admission ++ [b] ∧ told k.origin (.sessionOpened k.number b tag)
      let plugsIn := fun (bound : Option Nat) =>
        (∀ k, bound = some k.number → s.ticket? k.number = some k → opens k) ∧
        (bound = none → s.tickets.length < 64 →
          opens { number := s.nextTicket, origin := .k, kind := .auto, cls := .standard, pool := (s.bay b).pool,
                  stay := 8, state := .arrived, bay := some b, offerDeadline := none, holdDeadline := none,
                  lastDeclined := none, booking := none }) ∧
        (bound = none → s.tickets.length = 64 →
          t.bay b = { x with state := .occupied, ticket := none } ∧ t.tickets = s.tickets ∧
          told .s (.noTicket b))
      (st = .offline → r.plug = 1#8 → (x.placed false).keptOrOffered (t.bay b)) ∧
      (st = .offline ∨ st = .free → r.plug = 2#8 → plugsIn none) ∧
      (st = .free → presence = .empty → t.bay b = x) ∧
      (st = .free → r.plug = 1#8 → presence = .present →
        t.bay b = { x with state := .occupied } ∧ t.tickets = s.tickets) ∧
      (st = .offered ∨ st = .blocked ∨ st = .faulted → t.bay b = x ∧ t.tickets = s.tickets) ∧
      (st = .held → presence = .empty → t.bay b = x ∧ t.tickets = s.tickets) ∧
      (∀ k, st = .held → presence = .present → (s.bay b).ticket = some k.number →
        s.ticket? k.number = some k →
        (r.plug = 1#8 → t.bay b = { x with state := .occupied } ∧
          t.ticket? k.number = some { k with state := .arrived, holdDeadline := none }) ∧
        (r.plug = 2#8 → opens k) ∧ told k.origin (.arrived k.number b) ∧
        (k.origin ≠ .s → (s.queue k.origin).notices.length < 24 →
          (s.queue k.origin).notices ++ [.arrived k.number b] <+: (t.queue k.origin).notices)) ∧
      (st = .occupied → presence = .empty →
        (x.placed false).keptOrOffered (t.bay b) ∧ (∀ n, (s.bay b).ticket = some n → t.ticket? n = none) ∧
        ∀ k, (s.bay b).ticket = some k.number → s.ticket? k.number = some k →
          told k.origin (.departed k.number b)) ∧
      (st = .occupied → presence = .present → r.plug = 1#8 ∨ (s.bay b).plug = .plugged →
        t.bay b = x ∧ t.tickets = s.tickets) ∧
      (st = .occupied → r.plug = 2#8 → (s.bay b).plug ≠ .plugged → plugsIn (s.bay b).ticket)

/-- A presented code is dispatched by the first test that holds (R18, R86): the ticket held here arrives, with ARRIVED,
the ticket bound here does nothing, the first booking of the bay below F_b activates early, with BOOKING_ACTIVE, or,
with no free entry, raises NO_TICKET, a ticket HELD elsewhere gives WRONG_BAY, and any other code CODE_UNKNOWN; a bay
that becomes OCCUPIED or bound here while PLUGGED takes a plug-in. The place of BAY_STATE among these notices is the
model's reading of R7: assumption 6. A REPORT with a code takes its plug and presence
steps, which at a bay that has no use for them only record, then the code so dispatched, then its demand and energy
at an ACTIVE bay, and its echo (R17, R19). That the energy is added where the tag echo equals the session's tag also
when this REPORT opened the session is the model's reading of R17 and R95: assumption 13. -/
def Obligations.PresentedCodesAreDispatched : Prop :=
  (∀ (s : State) (b : BayNo) (r : Report), s.bus.sweep = .slot b → reportDefined r = true → r.status = 0#8 →
    r.code ≠ 0#16 →
    let presence : Presence := if r.plug = 2#8 ∨ r.presence = 2#8 then .present else .empty
    let plug : Plug := if r.plug = 2#8 then .plugged else .unplugged
    let st := (s.bay b).state
    let u := ((s.linkOnline b).plugStep b plug r.tagEcho.toNat).presenceStep b presence
    let v := u.presentCode b r.code.toNat
    (st = .offered ∨ st = .blocked ∨ st = .faulted ∨ (st = .free ∨ st = .held) ∧ presence = .empty →
      u = (s.linkOnline b).setBay b { s.bay b with plug := plug, presence := presence }) ∧
    ∃ t, exec (.report r) s = .next t ∧
      ((v.bay b).state ≠ .active → t = (v.takeEcho b r.echo.toNat).afterSlot b) ∧
      ∀ k, (v.bay b).state = .active → (v.bay b).session = some k →
        t.bay b = { v.bay b with session := some { k with
          demand := min r.demand.toNat 63,
          energy := if r.tagEcho.toNat = k.tag then min (k.energy + r.energy.toNat) 4294967295
            else k.energy } } ∧
        (∀ d, d ≠ b → t.bay d = v.bay d) ∧
        t = { v with bays := t.bays, queues := t.queues, bus := t.bus,
                     power := { v.power with setpoints := t.power.setpoints } }) ∧
  ∀ (s : State) (b : BayNo) (code : Nat), ClaimsAgree s → BookFits s →
    let t := s.presentCode b code
    let heldHere := (s.bay b).state = .held ∧ (s.bay b).ticket = some code
    let boundHere := ((s.bay b).state = .occupied ∨ (s.bay b).state = .active ∨ (s.bay b).state = .suspended) ∧
      (s.bay b).ticket = some code
    let early := fun (k : Booking) (back : List Booking) =>
      s.bookings b = k :: back ∧ k.number = code ∧ s.offset k < (s.booking.bands.frozen : Int) ∧
        ((s.bay b).state = .free ∨ (s.bay b).state = .occupied ∧ (s.bay b).ticket = none)
    let follows := fun (w : State) => t = if (s.bay b).plug = .plugged then w.plugIn b else w
    (∀ k, heldHere → s.ticket? code = some k →
      follows ((({ s with
          tickets := s.tickets.map (fun y => if y.number = code then { y with
            state := .arrived, holdDeadline := none } else y),
          bays := s.bays.set b { s.bay b with state := .occupied } } : State).raise k.origin
        (.arrived code b)).raise .s (.bayState b .occupied (s.link b).link none))) ∧
    (heldHere → (s.bay b).plug ≠ .plugged → t.bay b = { s.bay b with state := .occupied } ∧
      ∀ k, s.ticket? code = some k →
        t.ticket? code = some { k with state := .arrived, holdDeadline := none }) ∧
    (boundHere → t = s) ∧
    (∀ k back, early k back → s.tickets.length = 64 → t = s.raise .s (.noTicket b)) ∧
    (∀ k back, early k back → s.tickets.length < 64 →
      let x : Ticket :=
        { number := s.nextTicket, origin := k.origin, kind := .booked,
          cls := if k.cls = .access then .access else .standard, pool := (s.bay b).pool, stay := k.length,
          state := .arrived, bay := some b, offerDeadline := none, holdDeadline := none, lastDeclined := none,
          booking := some k.number }
      let w : State := { s with
        booking := { s.booking with book := s.booking.book.set b back }, tickets := s.tickets ++ [x],
        ticketCounter := if 65535 ≤ x.number then 1 else x.number + 1,
        bays := s.bays.set b { s.bay b with state := .occupied, ticket := some x.number } }
      follows ((if (s.bay b).state = .free then w.raise .s (.bayState b .occupied (s.link b).link none)
        else w).raise k.origin (.bookingActive k.number x.number b)) ∧
      ((s.bay b).plug ≠ .plugged → t.bookings b = back ∧
        t.bay b = { s.bay b with state := .occupied, ticket := some x.number } ∧
        t.ticket? x.number = some x)) ∧
    (¬heldHere → ¬boundHere → (∀ k back, ¬early k back) →
      ((∃ k, s.ticket? code = some k ∧ k.state = .held ∧ k.bay ≠ some b) → t = s.raise .s (.wrongBay b code)) ∧
      ((∀ k, s.ticket? code = some k → k.state ≠ .held) → t = s.raise .s (.codeUnknown b code)))

/-! ### Frames (Chapter 11) -/

/-- The bus controller reads a REPORT that a head sends as that REPORT exactly where every field holds a defined
encoding, and else as corrupt; it reads BUSY as BUSY; and a reply whose check differs in any bit is corrupt (R126,
R174, R176). -/
def Obligations.RepliesAreReadAsSent : Prop :=
  (∀ r, reportDefined r = true → parseReply (reportFrame r) = .report r) ∧
  (∀ r, reportDefined r = false → parseReply (reportFrame r) = .corrupt) ∧
  parseReply busyFrame = .busy ∧
  ∀ (body : List Byte) (h l : Byte), [h, l] ≠ crcBytes (crc body) →
    parseReply (busSync :: (body ++ [h, l])) = .corrupt

/-! ### Invariants -/

/-- The state right after reset meets every invariant. -/
def Obligations.ResetMeetsInvariants : Prop :=
  let s := State.reset
  ListenQuiet s ∧ LinksAgree s ∧ NoticesFit s ∧ TicketsFit s ∧ BookFits s ∧ BookOrdered s ∧ SettingsInRange s ∧
  SetpointsInRange s ∧ PortsSettled s ∧ ClaimsAgree s ∧ ConfigurationValid s ∧ SetpointsFollow s ∧
  FlagsFollow s ∧ TargetsFit s ∧ NoneMissed s

/-- Every step keeps, each on its own: no sweep is owed while the bus listens (R136), the links follow their counts
(R129), the notice queues fit and are coalesced (R157, R159), and the port units are settled (R143, R144,
R147, assumption 15). -/
def Obligations.BusNoticesAndPortsKept : Prop :=
  ∀ s t : State, step s = .next t →
    (ListenQuiet s → ListenQuiet t) ∧ (LinksAgree s → LinksAgree t) ∧ (NoticesFit s → NoticesFit t) ∧
    (PortsSettled s → PortsSettled t)

/-- Every step keeps the capacity of the book and the numbers in it (R68, R70), and the order and the horizon of
every bay's bookings (R69). -/
def Obligations.BookKept : Prop :=
  ∀ s t : State, step s = .next t → (BookFits s → BookFits t) ∧ (BookOrdered s → BookOrdered t)

/-- Every step keeps every setting in its range (R2, R71, R73, R109, R167), and with it every setpoint record
(R116). -/
def Obligations.RangesKept : Prop :=
  ∀ s t : State, SettingsInRange s → step s = .next t →
    SettingsInRange t ∧ (SetpointsInRange s → SetpointsInRange t)

/-- Every step keeps tickets, bays, wait queues, sessions and the admission list in agreement (section 2.2, R2, R26,
R29, R46, R55, R91, R94, R125). -/
def Obligations.ClaimsKept : Prop :=
  ∀ s t : State, ClaimsAgree s → step s = .next t → ClaimsAgree t

/-- Every step keeps the setpoint records in step with the bays and the demands (R112, R115, R116, R122), and the
targets of the ACTIVE bays within max(0, A − F × n_s) (R114). -/
def Obligations.TargetsKeptWithinBudget : Prop :=
  ∀ s t : State, ClaimsAgree s → SetpointsFollow s → step s = .next t →
    SetpointsFollow t ∧ (FlagsFollow s → FlagsFollow t) ∧ (FlagsFollow s → TargetsFit s → TargetsFit t)

/-- Every step keeps the configuration of RUN valid, and misses no pairing: no bay is eligible for a WAITING ticket
(R43, R49, R53). -/
def Obligations.NoPairingIsMissed : Prop :=
  ∀ s t : State, ConfigurationValid s → step s = .next t →
    ConfigurationValid t ∧ (ClaimsAgree s → NoneMissed s → NoneMissed t)
end

