-- ==== Sys2Proof/Laws/State.lean ====
section
/-! SUPPORT. What each record update of the state leaves as it is, one lemma per field, and reading a record
after it has been written. -/

namespace Sys2Proof.Machine

/-! ### setBay -/

@[simp] theorem State.setBay_opState (s : State) (b : BayNo) (x : Bay) : (s.setBay b x).opState = s.opState := rfl
@[simp] theorem State.setBay_deviceSeconds (s : State) (b : BayNo) (x : Bay) : (s.setBay b x).deviceSeconds = s.deviceSeconds := rfl
@[simp] theorem State.setBay_timers (s : State) (b : BayNo) (x : Bay) : (s.setBay b x).timers = s.timers := rfl
@[simp] theorem State.setBay_admission (s : State) (b : BayNo) (x : Bay) : (s.setBay b x).admission = s.admission := rfl
@[simp] theorem State.setBay_tickets (s : State) (b : BayNo) (x : Bay) : (s.setBay b x).tickets = s.tickets := rfl
@[simp] theorem State.setBay_ticketCounter (s : State) (b : BayNo) (x : Bay) : (s.setBay b x).ticketCounter = s.ticketCounter := rfl
@[simp] theorem State.setBay_pools (s : State) (b : BayNo) (x : Bay) : (s.setBay b x).pools = s.pools := rfl
@[simp] theorem State.setBay_booking (s : State) (b : BayNo) (x : Bay) : (s.setBay b x).booking = s.booking := rfl
@[simp] theorem State.setBay_power (s : State) (b : BayNo) (x : Bay) : (s.setBay b x).power = s.power := rfl
@[simp] theorem State.setBay_bus (s : State) (b : BayNo) (x : Bay) : (s.setBay b x).bus = s.bus := rfl
@[simp] theorem State.setBay_ports (s : State) (b : BayNo) (x : Bay) : (s.setBay b x).ports = s.ports := rfl
@[simp] theorem State.setBay_queues (s : State) (b : BayNo) (x : Bay) : (s.setBay b x).queues = s.queues := rfl
@[simp] theorem State.setBay_pending (s : State) (b : BayNo) (x : Bay) : (s.setBay b x).pending = s.pending := rfl

/-! ### setPool -/

@[simp] theorem State.setPool_opState (s : State) (q : PoolNo) (x : Pool) : (s.setPool q x).opState = s.opState := rfl
@[simp] theorem State.setPool_deviceSeconds (s : State) (q : PoolNo) (x : Pool) : (s.setPool q x).deviceSeconds = s.deviceSeconds := rfl
@[simp] theorem State.setPool_timers (s : State) (q : PoolNo) (x : Pool) : (s.setPool q x).timers = s.timers := rfl
@[simp] theorem State.setPool_bays (s : State) (q : PoolNo) (x : Pool) : (s.setPool q x).bays = s.bays := rfl
@[simp] theorem State.setPool_admission (s : State) (q : PoolNo) (x : Pool) : (s.setPool q x).admission = s.admission := rfl
@[simp] theorem State.setPool_tickets (s : State) (q : PoolNo) (x : Pool) : (s.setPool q x).tickets = s.tickets := rfl
@[simp] theorem State.setPool_ticketCounter (s : State) (q : PoolNo) (x : Pool) : (s.setPool q x).ticketCounter = s.ticketCounter := rfl
@[simp] theorem State.setPool_booking (s : State) (q : PoolNo) (x : Pool) : (s.setPool q x).booking = s.booking := rfl
@[simp] theorem State.setPool_power (s : State) (q : PoolNo) (x : Pool) : (s.setPool q x).power = s.power := rfl
@[simp] theorem State.setPool_bus (s : State) (q : PoolNo) (x : Pool) : (s.setPool q x).bus = s.bus := rfl
@[simp] theorem State.setPool_ports (s : State) (q : PoolNo) (x : Pool) : (s.setPool q x).ports = s.ports := rfl
@[simp] theorem State.setPool_queues (s : State) (q : PoolNo) (x : Pool) : (s.setPool q x).queues = s.queues := rfl
@[simp] theorem State.setPool_pending (s : State) (q : PoolNo) (x : Pool) : (s.setPool q x).pending = s.pending := rfl

/-! ### setBookings -/

@[simp] theorem State.setBookings_opState (s : State) (b : BayNo) (l : List Booking) : (s.setBookings b l).opState = s.opState := rfl
@[simp] theorem State.setBookings_deviceSeconds (s : State) (b : BayNo) (l : List Booking) : (s.setBookings b l).deviceSeconds = s.deviceSeconds := rfl
@[simp] theorem State.setBookings_timers (s : State) (b : BayNo) (l : List Booking) : (s.setBookings b l).timers = s.timers := rfl
@[simp] theorem State.setBookings_bays (s : State) (b : BayNo) (l : List Booking) : (s.setBookings b l).bays = s.bays := rfl
@[simp] theorem State.setBookings_admission (s : State) (b : BayNo) (l : List Booking) : (s.setBookings b l).admission = s.admission := rfl
@[simp] theorem State.setBookings_tickets (s : State) (b : BayNo) (l : List Booking) : (s.setBookings b l).tickets = s.tickets := rfl
@[simp] theorem State.setBookings_ticketCounter (s : State) (b : BayNo) (l : List Booking) : (s.setBookings b l).ticketCounter = s.ticketCounter := rfl
@[simp] theorem State.setBookings_pools (s : State) (b : BayNo) (l : List Booking) : (s.setBookings b l).pools = s.pools := rfl
@[simp] theorem State.setBookings_power (s : State) (b : BayNo) (l : List Booking) : (s.setBookings b l).power = s.power := rfl
@[simp] theorem State.setBookings_bus (s : State) (b : BayNo) (l : List Booking) : (s.setBookings b l).bus = s.bus := rfl
@[simp] theorem State.setBookings_ports (s : State) (b : BayNo) (l : List Booking) : (s.setBookings b l).ports = s.ports := rfl
@[simp] theorem State.setBookings_queues (s : State) (b : BayNo) (l : List Booking) : (s.setBookings b l).queues = s.queues := rfl
@[simp] theorem State.setBookings_pending (s : State) (b : BayNo) (l : List Booking) : (s.setBookings b l).pending = s.pending := rfl

/-! ### setSetpoint -/

@[simp] theorem State.setSetpoint_opState (s : State) (b : BayNo) (x : Setpoint) : (s.setSetpoint b x).opState = s.opState := rfl
@[simp] theorem State.setSetpoint_deviceSeconds (s : State) (b : BayNo) (x : Setpoint) : (s.setSetpoint b x).deviceSeconds = s.deviceSeconds := rfl
@[simp] theorem State.setSetpoint_timers (s : State) (b : BayNo) (x : Setpoint) : (s.setSetpoint b x).timers = s.timers := rfl
@[simp] theorem State.setSetpoint_bays (s : State) (b : BayNo) (x : Setpoint) : (s.setSetpoint b x).bays = s.bays := rfl
@[simp] theorem State.setSetpoint_admission (s : State) (b : BayNo) (x : Setpoint) : (s.setSetpoint b x).admission = s.admission := rfl
@[simp] theorem State.setSetpoint_tickets (s : State) (b : BayNo) (x : Setpoint) : (s.setSetpoint b x).tickets = s.tickets := rfl
@[simp] theorem State.setSetpoint_ticketCounter (s : State) (b : BayNo) (x : Setpoint) : (s.setSetpoint b x).ticketCounter = s.ticketCounter := rfl
@[simp] theorem State.setSetpoint_pools (s : State) (b : BayNo) (x : Setpoint) : (s.setSetpoint b x).pools = s.pools := rfl
@[simp] theorem State.setSetpoint_booking (s : State) (b : BayNo) (x : Setpoint) : (s.setSetpoint b x).booking = s.booking := rfl
@[simp] theorem State.setSetpoint_bus (s : State) (b : BayNo) (x : Setpoint) : (s.setSetpoint b x).bus = s.bus := rfl
@[simp] theorem State.setSetpoint_ports (s : State) (b : BayNo) (x : Setpoint) : (s.setSetpoint b x).ports = s.ports := rfl
@[simp] theorem State.setSetpoint_queues (s : State) (b : BayNo) (x : Setpoint) : (s.setSetpoint b x).queues = s.queues := rfl
@[simp] theorem State.setSetpoint_pending (s : State) (b : BayNo) (x : Setpoint) : (s.setSetpoint b x).pending = s.pending := rfl

/-! ### setLink -/

@[simp] theorem State.setLink_opState (s : State) (b : BayNo) (x : LinkRecord) : (s.setLink b x).opState = s.opState := rfl
@[simp] theorem State.setLink_deviceSeconds (s : State) (b : BayNo) (x : LinkRecord) : (s.setLink b x).deviceSeconds = s.deviceSeconds := rfl
@[simp] theorem State.setLink_timers (s : State) (b : BayNo) (x : LinkRecord) : (s.setLink b x).timers = s.timers := rfl
@[simp] theorem State.setLink_bays (s : State) (b : BayNo) (x : LinkRecord) : (s.setLink b x).bays = s.bays := rfl
@[simp] theorem State.setLink_admission (s : State) (b : BayNo) (x : LinkRecord) : (s.setLink b x).admission = s.admission := rfl
@[simp] theorem State.setLink_tickets (s : State) (b : BayNo) (x : LinkRecord) : (s.setLink b x).tickets = s.tickets := rfl
@[simp] theorem State.setLink_ticketCounter (s : State) (b : BayNo) (x : LinkRecord) : (s.setLink b x).ticketCounter = s.ticketCounter := rfl
@[simp] theorem State.setLink_pools (s : State) (b : BayNo) (x : LinkRecord) : (s.setLink b x).pools = s.pools := rfl
@[simp] theorem State.setLink_booking (s : State) (b : BayNo) (x : LinkRecord) : (s.setLink b x).booking = s.booking := rfl
@[simp] theorem State.setLink_power (s : State) (b : BayNo) (x : LinkRecord) : (s.setLink b x).power = s.power := rfl
@[simp] theorem State.setLink_ports (s : State) (b : BayNo) (x : LinkRecord) : (s.setLink b x).ports = s.ports := rfl
@[simp] theorem State.setLink_queues (s : State) (b : BayNo) (x : LinkRecord) : (s.setLink b x).queues = s.queues := rfl
@[simp] theorem State.setLink_pending (s : State) (b : BayNo) (x : LinkRecord) : (s.setLink b x).pending = s.pending := rfl

/-! ### setPort -/

@[simp] theorem State.setPort_opState (s : State) (p : Port) (x : PortUnit) : (s.setPort p x).opState = s.opState := rfl
@[simp] theorem State.setPort_deviceSeconds (s : State) (p : Port) (x : PortUnit) : (s.setPort p x).deviceSeconds = s.deviceSeconds := rfl
@[simp] theorem State.setPort_timers (s : State) (p : Port) (x : PortUnit) : (s.setPort p x).timers = s.timers := rfl
@[simp] theorem State.setPort_bays (s : State) (p : Port) (x : PortUnit) : (s.setPort p x).bays = s.bays := rfl
@[simp] theorem State.setPort_admission (s : State) (p : Port) (x : PortUnit) : (s.setPort p x).admission = s.admission := rfl
@[simp] theorem State.setPort_tickets (s : State) (p : Port) (x : PortUnit) : (s.setPort p x).tickets = s.tickets := rfl
@[simp] theorem State.setPort_ticketCounter (s : State) (p : Port) (x : PortUnit) : (s.setPort p x).ticketCounter = s.ticketCounter := rfl
@[simp] theorem State.setPort_pools (s : State) (p : Port) (x : PortUnit) : (s.setPort p x).pools = s.pools := rfl
@[simp] theorem State.setPort_booking (s : State) (p : Port) (x : PortUnit) : (s.setPort p x).booking = s.booking := rfl
@[simp] theorem State.setPort_power (s : State) (p : Port) (x : PortUnit) : (s.setPort p x).power = s.power := rfl
@[simp] theorem State.setPort_bus (s : State) (p : Port) (x : PortUnit) : (s.setPort p x).bus = s.bus := rfl
@[simp] theorem State.setPort_queues (s : State) (p : Port) (x : PortUnit) : (s.setPort p x).queues = s.queues := rfl
@[simp] theorem State.setPort_pending (s : State) (p : Port) (x : PortUnit) : (s.setPort p x).pending = s.pending := rfl

/-! ### setQueue -/

@[simp] theorem State.setQueue_opState (s : State) (p : Port) (x : NoticeQueue) : (s.setQueue p x).opState = s.opState := rfl
@[simp] theorem State.setQueue_deviceSeconds (s : State) (p : Port) (x : NoticeQueue) : (s.setQueue p x).deviceSeconds = s.deviceSeconds := rfl
@[simp] theorem State.setQueue_timers (s : State) (p : Port) (x : NoticeQueue) : (s.setQueue p x).timers = s.timers := rfl
@[simp] theorem State.setQueue_bays (s : State) (p : Port) (x : NoticeQueue) : (s.setQueue p x).bays = s.bays := rfl
@[simp] theorem State.setQueue_admission (s : State) (p : Port) (x : NoticeQueue) : (s.setQueue p x).admission = s.admission := rfl
@[simp] theorem State.setQueue_tickets (s : State) (p : Port) (x : NoticeQueue) : (s.setQueue p x).tickets = s.tickets := rfl
@[simp] theorem State.setQueue_ticketCounter (s : State) (p : Port) (x : NoticeQueue) : (s.setQueue p x).ticketCounter = s.ticketCounter := rfl
@[simp] theorem State.setQueue_pools (s : State) (p : Port) (x : NoticeQueue) : (s.setQueue p x).pools = s.pools := rfl
@[simp] theorem State.setQueue_booking (s : State) (p : Port) (x : NoticeQueue) : (s.setQueue p x).booking = s.booking := rfl
@[simp] theorem State.setQueue_power (s : State) (p : Port) (x : NoticeQueue) : (s.setQueue p x).power = s.power := rfl
@[simp] theorem State.setQueue_bus (s : State) (p : Port) (x : NoticeQueue) : (s.setQueue p x).bus = s.bus := rfl
@[simp] theorem State.setQueue_ports (s : State) (p : Port) (x : NoticeQueue) : (s.setQueue p x).ports = s.ports := rfl
@[simp] theorem State.setQueue_pending (s : State) (p : Port) (x : NoticeQueue) : (s.setQueue p x).pending = s.pending := rfl

/-! ### modTicket -/

@[simp] theorem State.modTicket_opState (s : State) (n : Nat) (f : Ticket → Ticket) : (s.modTicket n f).opState = s.opState := rfl
@[simp] theorem State.modTicket_deviceSeconds (s : State) (n : Nat) (f : Ticket → Ticket) : (s.modTicket n f).deviceSeconds = s.deviceSeconds := rfl
@[simp] theorem State.modTicket_timers (s : State) (n : Nat) (f : Ticket → Ticket) : (s.modTicket n f).timers = s.timers := rfl
@[simp] theorem State.modTicket_bays (s : State) (n : Nat) (f : Ticket → Ticket) : (s.modTicket n f).bays = s.bays := rfl
@[simp] theorem State.modTicket_admission (s : State) (n : Nat) (f : Ticket → Ticket) : (s.modTicket n f).admission = s.admission := rfl
@[simp] theorem State.modTicket_ticketCounter (s : State) (n : Nat) (f : Ticket → Ticket) : (s.modTicket n f).ticketCounter = s.ticketCounter := rfl
@[simp] theorem State.modTicket_pools (s : State) (n : Nat) (f : Ticket → Ticket) : (s.modTicket n f).pools = s.pools := rfl
@[simp] theorem State.modTicket_booking (s : State) (n : Nat) (f : Ticket → Ticket) : (s.modTicket n f).booking = s.booking := rfl
@[simp] theorem State.modTicket_power (s : State) (n : Nat) (f : Ticket → Ticket) : (s.modTicket n f).power = s.power := rfl
@[simp] theorem State.modTicket_bus (s : State) (n : Nat) (f : Ticket → Ticket) : (s.modTicket n f).bus = s.bus := rfl
@[simp] theorem State.modTicket_ports (s : State) (n : Nat) (f : Ticket → Ticket) : (s.modTicket n f).ports = s.ports := rfl
@[simp] theorem State.modTicket_queues (s : State) (n : Nat) (f : Ticket → Ticket) : (s.modTicket n f).queues = s.queues := rfl
@[simp] theorem State.modTicket_pending (s : State) (n : Nat) (f : Ticket → Ticket) : (s.modTicket n f).pending = s.pending := rfl

/-! ### The parts of the blocks that an update leaves -/

@[simp] theorem State.setBookings_slotNow (s : State) (b : BayNo) (l : List Booking) :
    (s.setBookings b l).booking.slotNow = s.booking.slotNow := rfl
@[simp] theorem State.setBookings_secondsIntoSlot (s : State) (b : BayNo) (l : List Booking) :
    (s.setBookings b l).booking.secondsIntoSlot = s.booking.secondsIntoSlot := rfl
@[simp] theorem State.setBookings_slotDue (s : State) (b : BayNo) (l : List Booking) :
    (s.setBookings b l).booking.slotDue = s.booking.slotDue := rfl
@[simp] theorem State.setBookings_bands (s : State) (b : BayNo) (l : List Booking) :
    (s.setBookings b l).booking.bands = s.booking.bands := rfl
@[simp] theorem State.setBookings_counter (s : State) (b : BayNo) (l : List Booking) :
    (s.setBookings b l).booking.counter = s.booking.counter := rfl
@[simp] theorem State.setSetpoint_budget (s : State) (b : BayNo) (x : Setpoint) :
    (s.setSetpoint b x).power.budget = s.power.budget := rfl
@[simp] theorem State.setSetpoint_fallback (s : State) (b : BayNo) (x : Setpoint) :
    (s.setSetpoint b x).power.fallback = s.power.fallback := rfl
@[simp] theorem State.setLink_sweep (s : State) (b : BayNo) (x : LinkRecord) :
    (s.setLink b x).bus.sweep = s.bus.sweep := rfl
@[simp] theorem State.setLink_mode (s : State) (b : BayNo) (x : LinkRecord) :
    (s.setLink b x).bus.mode = s.bus.mode := rfl

/-! ### Reading a record -/

@[simp] theorem PerPort.get_set_self {α : Type} (x : PerPort α) (p : Port) (v : α) :
    (x.set p v).get p = v := by cases p <;> rfl

theorem PerPort.get_set_of_ne {α : Type} (x : PerPort α) {p q : Port} (h : q ≠ p) (v : α) :
    (x.set p v).get q = x.get q := by cases p <;> cases q <;> first | rfl | exact absurd rfl h

theorem PerPort.get_set {α : Type} (x : PerPort α) (p q : Port) (v : α) :
    (x.set p v).get q = if q = p then v else x.get q := by cases p <;> cases q <;> rfl

@[simp] theorem PerPort.set_set {α : Type} (x : PerPort α) (p : Port) (v w : α) :
    (x.set p v).set p w = x.set p w := by cases p <;> rfl

@[simp] theorem PerPort.set_get_self {α : Type} (x : PerPort α) (p : Port) : x.set p (x.get p) = x := by
  cases p <;> rfl

@[simp] theorem PerPort.get_mapAll {α : Type} (x : PerPort α) (f : α → α) (p : Port) :
    (x.mapAll f).get p = f (x.get p) := by cases p <;> rfl

@[simp] theorem State.setBay_bay_self (s : State) (b : BayNo) (x : Bay) : (s.setBay b x).bay b = x := by
  simp [State.setBay, State.bay]

theorem State.setBay_bay_of_ne (s : State) {b c : BayNo} (h : c ≠ b) (x : Bay) :
    (s.setBay b x).bay c = s.bay c := by
  simp only [State.setBay, State.bay, Fin.getElem_fin]
  exact Vector.getElem_set_ne _ _ (fun e => h (Fin.ext e.symm))

theorem State.setBay_bay (s : State) (b c : BayNo) (x : Bay) :
    (s.setBay b x).bay c = if c = b then x else s.bay c := by
  split
  · subst_vars; simp
  · exact State.setBay_bay_of_ne s (by assumption) x

@[simp] theorem State.setPool_pool_self (s : State) (b : PoolNo) (x : Pool) : (s.setPool b x).pool b = x := by
  simp [State.setPool, State.pool]

theorem State.setPool_pool_of_ne (s : State) {b c : PoolNo} (h : c ≠ b) (x : Pool) :
    (s.setPool b x).pool c = s.pool c := by
  simp only [State.setPool, State.pool, Fin.getElem_fin]
  exact Vector.getElem_set_ne _ _ (fun e => h (Fin.ext e.symm))

theorem State.setPool_pool (s : State) (b c : PoolNo) (x : Pool) :
    (s.setPool b x).pool c = if c = b then x else s.pool c := by
  split
  · subst_vars; simp
  · exact State.setPool_pool_of_ne s (by assumption) x

@[simp] theorem State.setBookings_bookings_self (s : State) (b : BayNo) (x : List Booking) : (s.setBookings b x).bookings b = x := by
  simp [State.setBookings, State.bookings]

theorem State.setBookings_bookings_of_ne (s : State) {b c : BayNo} (h : c ≠ b) (x : List Booking) :
    (s.setBookings b x).bookings c = s.bookings c := by
  simp only [State.setBookings, State.bookings, Fin.getElem_fin]
  exact Vector.getElem_set_ne _ _ (fun e => h (Fin.ext e.symm))

theorem State.setBookings_bookings (s : State) (b c : BayNo) (x : List Booking) :
    (s.setBookings b x).bookings c = if c = b then x else s.bookings c := by
  split
  · subst_vars; simp
  · exact State.setBookings_bookings_of_ne s (by assumption) x

@[simp] theorem State.setSetpoint_setpoint_self (s : State) (b : BayNo) (x : Setpoint) : (s.setSetpoint b x).setpoint b = x := by
  simp [State.setSetpoint, State.setpoint]

theorem State.setSetpoint_setpoint_of_ne (s : State) {b c : BayNo} (h : c ≠ b) (x : Setpoint) :
    (s.setSetpoint b x).setpoint c = s.setpoint c := by
  simp only [State.setSetpoint, State.setpoint, Fin.getElem_fin]
  exact Vector.getElem_set_ne _ _ (fun e => h (Fin.ext e.symm))

theorem State.setSetpoint_setpoint (s : State) (b c : BayNo) (x : Setpoint) :
    (s.setSetpoint b x).setpoint c = if c = b then x else s.setpoint c := by
  split
  · subst_vars; simp
  · exact State.setSetpoint_setpoint_of_ne s (by assumption) x

@[simp] theorem State.setLink_link_self (s : State) (b : BayNo) (x : LinkRecord) : (s.setLink b x).link b = x := by
  simp [State.setLink, State.link]

theorem State.setLink_link_of_ne (s : State) {b c : BayNo} (h : c ≠ b) (x : LinkRecord) :
    (s.setLink b x).link c = s.link c := by
  simp only [State.setLink, State.link, Fin.getElem_fin]
  exact Vector.getElem_set_ne _ _ (fun e => h (Fin.ext e.symm))

theorem State.setLink_link (s : State) (b c : BayNo) (x : LinkRecord) :
    (s.setLink b x).link c = if c = b then x else s.link c := by
  split
  · subst_vars; simp
  · exact State.setLink_link_of_ne s (by assumption) x

@[simp] theorem State.setPort_port_self (s : State) (p : Port) (x : PortUnit) : (s.setPort p x).port p = x := by
  simp [State.setPort, State.port]

theorem State.setPort_port (s : State) (p q : Port) (x : PortUnit) :
    (s.setPort p x).port q = if q = p then x else s.port q := by
  simp [State.setPort, State.port, PerPort.get_set]

@[simp] theorem State.setPort_setPort (s : State) (p : Port) (x y : PortUnit) :
    (s.setPort p x).setPort p y = s.setPort p y := by
  simp [State.setPort]

@[simp] theorem State.setQueue_queue_self (s : State) (p : Port) (x : NoticeQueue) : (s.setQueue p x).queue p = x := by
  simp [State.setQueue, State.queue]

theorem State.setQueue_queue (s : State) (p q : Port) (x : NoticeQueue) :
    (s.setQueue p x).queue q = if q = p then x else s.queue q := by
  simp [State.setQueue, State.queue, PerPort.get_set]

@[simp] theorem State.setQueue_setQueue (s : State) (p : Port) (x y : NoticeQueue) :
    (s.setQueue p x).setQueue p y = s.setQueue p y := by
  simp [State.setQueue]

/-! ### Reading a record of another table -/

@[simp] theorem State.setBay_pool (s : State) (b : BayNo) (x : Bay) (i : PoolNo) : (s.setBay b x).pool i = s.pool i := rfl
@[simp] theorem State.setBay_bookings (s : State) (b : BayNo) (x : Bay) (i : BayNo) : (s.setBay b x).bookings i = s.bookings i := rfl
@[simp] theorem State.setBay_setpoint (s : State) (b : BayNo) (x : Bay) (i : BayNo) : (s.setBay b x).setpoint i = s.setpoint i := rfl
@[simp] theorem State.setBay_link (s : State) (b : BayNo) (x : Bay) (i : BayNo) : (s.setBay b x).link i = s.link i := rfl
@[simp] theorem State.setBay_port (s : State) (b : BayNo) (x : Bay) (i : Port) : (s.setBay b x).port i = s.port i := rfl
@[simp] theorem State.setBay_queue (s : State) (b : BayNo) (x : Bay) (i : Port) : (s.setBay b x).queue i = s.queue i := rfl
@[simp] theorem State.setBay_ticket_find (s : State) (b : BayNo) (x : Bay) (i : Nat) : (s.setBay b x).ticket? i = s.ticket? i := rfl
@[simp] theorem State.setPool_bay (s : State) (q : PoolNo) (x : Pool) (i : BayNo) : (s.setPool q x).bay i = s.bay i := rfl
@[simp] theorem State.setPool_bookings (s : State) (q : PoolNo) (x : Pool) (i : BayNo) : (s.setPool q x).bookings i = s.bookings i := rfl
@[simp] theorem State.setPool_setpoint (s : State) (q : PoolNo) (x : Pool) (i : BayNo) : (s.setPool q x).setpoint i = s.setpoint i := rfl
@[simp] theorem State.setPool_link (s : State) (q : PoolNo) (x : Pool) (i : BayNo) : (s.setPool q x).link i = s.link i := rfl
@[simp] theorem State.setPool_port (s : State) (q : PoolNo) (x : Pool) (i : Port) : (s.setPool q x).port i = s.port i := rfl
@[simp] theorem State.setPool_queue (s : State) (q : PoolNo) (x : Pool) (i : Port) : (s.setPool q x).queue i = s.queue i := rfl
@[simp] theorem State.setPool_ticket_find (s : State) (q : PoolNo) (x : Pool) (i : Nat) : (s.setPool q x).ticket? i = s.ticket? i := rfl
@[simp] theorem State.setBookings_bay (s : State) (b : BayNo) (l : List Booking) (i : BayNo) : (s.setBookings b l).bay i = s.bay i := rfl
@[simp] theorem State.setBookings_pool (s : State) (b : BayNo) (l : List Booking) (i : PoolNo) : (s.setBookings b l).pool i = s.pool i := rfl
@[simp] theorem State.setBookings_setpoint (s : State) (b : BayNo) (l : List Booking) (i : BayNo) : (s.setBookings b l).setpoint i = s.setpoint i := rfl
@[simp] theorem State.setBookings_link (s : State) (b : BayNo) (l : List Booking) (i : BayNo) : (s.setBookings b l).link i = s.link i := rfl
@[simp] theorem State.setBookings_port (s : State) (b : BayNo) (l : List Booking) (i : Port) : (s.setBookings b l).port i = s.port i := rfl
@[simp] theorem State.setBookings_queue (s : State) (b : BayNo) (l : List Booking) (i : Port) : (s.setBookings b l).queue i = s.queue i := rfl
@[simp] theorem State.setBookings_ticket_find (s : State) (b : BayNo) (l : List Booking) (i : Nat) : (s.setBookings b l).ticket? i = s.ticket? i := rfl
@[simp] theorem State.setSetpoint_bay (s : State) (b : BayNo) (x : Setpoint) (i : BayNo) : (s.setSetpoint b x).bay i = s.bay i := rfl
@[simp] theorem State.setSetpoint_pool (s : State) (b : BayNo) (x : Setpoint) (i : PoolNo) : (s.setSetpoint b x).pool i = s.pool i := rfl
@[simp] theorem State.setSetpoint_bookings (s : State) (b : BayNo) (x : Setpoint) (i : BayNo) : (s.setSetpoint b x).bookings i = s.bookings i := rfl
@[simp] theorem State.setSetpoint_link (s : State) (b : BayNo) (x : Setpoint) (i : BayNo) : (s.setSetpoint b x).link i = s.link i := rfl
@[simp] theorem State.setSetpoint_port (s : State) (b : BayNo) (x : Setpoint) (i : Port) : (s.setSetpoint b x).port i = s.port i := rfl
@[simp] theorem State.setSetpoint_queue (s : State) (b : BayNo) (x : Setpoint) (i : Port) : (s.setSetpoint b x).queue i = s.queue i := rfl
@[simp] theorem State.setSetpoint_ticket_find (s : State) (b : BayNo) (x : Setpoint) (i : Nat) : (s.setSetpoint b x).ticket? i = s.ticket? i := rfl
@[simp] theorem State.setLink_bay (s : State) (b : BayNo) (x : LinkRecord) (i : BayNo) : (s.setLink b x).bay i = s.bay i := rfl
@[simp] theorem State.setLink_pool (s : State) (b : BayNo) (x : LinkRecord) (i : PoolNo) : (s.setLink b x).pool i = s.pool i := rfl
@[simp] theorem State.setLink_bookings (s : State) (b : BayNo) (x : LinkRecord) (i : BayNo) : (s.setLink b x).bookings i = s.bookings i := rfl
@[simp] theorem State.setLink_setpoint (s : State) (b : BayNo) (x : LinkRecord) (i : BayNo) : (s.setLink b x).setpoint i = s.setpoint i := rfl
@[simp] theorem State.setLink_port (s : State) (b : BayNo) (x : LinkRecord) (i : Port) : (s.setLink b x).port i = s.port i := rfl
@[simp] theorem State.setLink_queue (s : State) (b : BayNo) (x : LinkRecord) (i : Port) : (s.setLink b x).queue i = s.queue i := rfl
@[simp] theorem State.setLink_ticket_find (s : State) (b : BayNo) (x : LinkRecord) (i : Nat) : (s.setLink b x).ticket? i = s.ticket? i := rfl
@[simp] theorem State.setPort_bay (s : State) (p : Port) (x : PortUnit) (i : BayNo) : (s.setPort p x).bay i = s.bay i := rfl
@[simp] theorem State.setPort_pool (s : State) (p : Port) (x : PortUnit) (i : PoolNo) : (s.setPort p x).pool i = s.pool i := rfl
@[simp] theorem State.setPort_bookings (s : State) (p : Port) (x : PortUnit) (i : BayNo) : (s.setPort p x).bookings i = s.bookings i := rfl
@[simp] theorem State.setPort_setpoint (s : State) (p : Port) (x : PortUnit) (i : BayNo) : (s.setPort p x).setpoint i = s.setpoint i := rfl
@[simp] theorem State.setPort_link (s : State) (p : Port) (x : PortUnit) (i : BayNo) : (s.setPort p x).link i = s.link i := rfl
@[simp] theorem State.setPort_queue (s : State) (p : Port) (x : PortUnit) (i : Port) : (s.setPort p x).queue i = s.queue i := rfl
@[simp] theorem State.setPort_ticket_find (s : State) (p : Port) (x : PortUnit) (i : Nat) : (s.setPort p x).ticket? i = s.ticket? i := rfl
@[simp] theorem State.setQueue_bay (s : State) (p : Port) (x : NoticeQueue) (i : BayNo) : (s.setQueue p x).bay i = s.bay i := rfl
@[simp] theorem State.setQueue_pool (s : State) (p : Port) (x : NoticeQueue) (i : PoolNo) : (s.setQueue p x).pool i = s.pool i := rfl
@[simp] theorem State.setQueue_bookings (s : State) (p : Port) (x : NoticeQueue) (i : BayNo) : (s.setQueue p x).bookings i = s.bookings i := rfl
@[simp] theorem State.setQueue_setpoint (s : State) (p : Port) (x : NoticeQueue) (i : BayNo) : (s.setQueue p x).setpoint i = s.setpoint i := rfl
@[simp] theorem State.setQueue_link (s : State) (p : Port) (x : NoticeQueue) (i : BayNo) : (s.setQueue p x).link i = s.link i := rfl
@[simp] theorem State.setQueue_port (s : State) (p : Port) (x : NoticeQueue) (i : Port) : (s.setQueue p x).port i = s.port i := rfl
@[simp] theorem State.setQueue_ticket_find (s : State) (p : Port) (x : NoticeQueue) (i : Nat) : (s.setQueue p x).ticket? i = s.ticket? i := rfl
@[simp] theorem State.modTicket_bay (s : State) (n : Nat) (f : Ticket → Ticket) (i : BayNo) : (s.modTicket n f).bay i = s.bay i := rfl
@[simp] theorem State.modTicket_pool (s : State) (n : Nat) (f : Ticket → Ticket) (i : PoolNo) : (s.modTicket n f).pool i = s.pool i := rfl
@[simp] theorem State.modTicket_bookings (s : State) (n : Nat) (f : Ticket → Ticket) (i : BayNo) : (s.modTicket n f).bookings i = s.bookings i := rfl
@[simp] theorem State.modTicket_setpoint (s : State) (n : Nat) (f : Ticket → Ticket) (i : BayNo) : (s.modTicket n f).setpoint i = s.setpoint i := rfl
@[simp] theorem State.modTicket_link (s : State) (n : Nat) (f : Ticket → Ticket) (i : BayNo) : (s.modTicket n f).link i = s.link i := rfl
@[simp] theorem State.modTicket_port (s : State) (n : Nat) (f : Ticket → Ticket) (i : Port) : (s.modTicket n f).port i = s.port i := rfl
@[simp] theorem State.modTicket_queue (s : State) (n : Nat) (f : Ticket → Ticket) (i : Port) : (s.modTicket n f).queue i = s.queue i := rfl

end Sys2Proof.Machine
end

