-- ==== Sys2Proof/Laws/Frames.lean ====
section
/-! SUPPORT. What each operation of the blocks leaves as it is: for each operation, one lemma for each field of
the state that it does not write. -/

namespace Sys2Proof.Machine

/-- Folding an operation that leaves a reading of the state as it is leaves that reading as it is. -/
theorem foldl_frame {α β : Type} (g : State → β) (f : State → α → State)
    (h : ∀ s a, g (f s a) = g s) (l : List α) (s : State) : g (l.foldl f s) = g s := by
  induction l generalizing s with
  | nil => rfl
  | cons a l ih => rw [List.foldl_cons, ih, h]

/-! ### raise -/

@[simp] theorem State.raise_opState (s : State) (p : Port) (n : Notice) : (s.raise p n).opState = s.opState := by
  simp only [State.raise]; repeat' split
  all_goals simp
@[simp] theorem State.raise_deviceSeconds (s : State) (p : Port) (n : Notice) : (s.raise p n).deviceSeconds = s.deviceSeconds := by
  simp only [State.raise]; repeat' split
  all_goals simp
@[simp] theorem State.raise_timers (s : State) (p : Port) (n : Notice) : (s.raise p n).timers = s.timers := by
  simp only [State.raise]; repeat' split
  all_goals simp
@[simp] theorem State.raise_bays (s : State) (p : Port) (n : Notice) : (s.raise p n).bays = s.bays := by
  simp only [State.raise]; repeat' split
  all_goals simp
@[simp] theorem State.raise_admission (s : State) (p : Port) (n : Notice) : (s.raise p n).admission = s.admission := by
  simp only [State.raise]; repeat' split
  all_goals simp
@[simp] theorem State.raise_tickets (s : State) (p : Port) (n : Notice) : (s.raise p n).tickets = s.tickets := by
  simp only [State.raise]; repeat' split
  all_goals simp
@[simp] theorem State.raise_ticketCounter (s : State) (p : Port) (n : Notice) : (s.raise p n).ticketCounter = s.ticketCounter := by
  simp only [State.raise]; repeat' split
  all_goals simp
@[simp] theorem State.raise_pools (s : State) (p : Port) (n : Notice) : (s.raise p n).pools = s.pools := by
  simp only [State.raise]; repeat' split
  all_goals simp
@[simp] theorem State.raise_booking (s : State) (p : Port) (n : Notice) : (s.raise p n).booking = s.booking := by
  simp only [State.raise]; repeat' split
  all_goals simp
@[simp] theorem State.raise_power (s : State) (p : Port) (n : Notice) : (s.raise p n).power = s.power := by
  simp only [State.raise]; repeat' split
  all_goals simp
@[simp] theorem State.raise_bus (s : State) (p : Port) (n : Notice) : (s.raise p n).bus = s.bus := by
  simp only [State.raise]; repeat' split
  all_goals simp
@[simp] theorem State.raise_ports (s : State) (p : Port) (n : Notice) : (s.raise p n).ports = s.ports := by
  simp only [State.raise]; repeat' split
  all_goals simp
@[simp] theorem State.raise_pending (s : State) (p : Port) (n : Notice) : (s.raise p n).pending = s.pending := by
  simp only [State.raise]; repeat' split
  all_goals simp

/-! ### raiseBoth -/

@[simp] theorem State.raiseBoth_opState (s : State) (p : Port) (n : Notice) : (s.raiseBoth p n).opState = s.opState := by
  simp only [State.raiseBoth]; repeat' split
  all_goals simp
@[simp] theorem State.raiseBoth_deviceSeconds (s : State) (p : Port) (n : Notice) : (s.raiseBoth p n).deviceSeconds = s.deviceSeconds := by
  simp only [State.raiseBoth]; repeat' split
  all_goals simp
@[simp] theorem State.raiseBoth_timers (s : State) (p : Port) (n : Notice) : (s.raiseBoth p n).timers = s.timers := by
  simp only [State.raiseBoth]; repeat' split
  all_goals simp
@[simp] theorem State.raiseBoth_bays (s : State) (p : Port) (n : Notice) : (s.raiseBoth p n).bays = s.bays := by
  simp only [State.raiseBoth]; repeat' split
  all_goals simp
@[simp] theorem State.raiseBoth_admission (s : State) (p : Port) (n : Notice) : (s.raiseBoth p n).admission = s.admission := by
  simp only [State.raiseBoth]; repeat' split
  all_goals simp
@[simp] theorem State.raiseBoth_tickets (s : State) (p : Port) (n : Notice) : (s.raiseBoth p n).tickets = s.tickets := by
  simp only [State.raiseBoth]; repeat' split
  all_goals simp
@[simp] theorem State.raiseBoth_ticketCounter (s : State) (p : Port) (n : Notice) : (s.raiseBoth p n).ticketCounter = s.ticketCounter := by
  simp only [State.raiseBoth]; repeat' split
  all_goals simp
@[simp] theorem State.raiseBoth_pools (s : State) (p : Port) (n : Notice) : (s.raiseBoth p n).pools = s.pools := by
  simp only [State.raiseBoth]; repeat' split
  all_goals simp
@[simp] theorem State.raiseBoth_booking (s : State) (p : Port) (n : Notice) : (s.raiseBoth p n).booking = s.booking := by
  simp only [State.raiseBoth]; repeat' split
  all_goals simp
@[simp] theorem State.raiseBoth_power (s : State) (p : Port) (n : Notice) : (s.raiseBoth p n).power = s.power := by
  simp only [State.raiseBoth]; repeat' split
  all_goals simp
@[simp] theorem State.raiseBoth_bus (s : State) (p : Port) (n : Notice) : (s.raiseBoth p n).bus = s.bus := by
  simp only [State.raiseBoth]; repeat' split
  all_goals simp
@[simp] theorem State.raiseBoth_ports (s : State) (p : Port) (n : Notice) : (s.raiseBoth p n).ports = s.ports := by
  simp only [State.raiseBoth]; repeat' split
  all_goals simp
@[simp] theorem State.raiseBoth_pending (s : State) (p : Port) (n : Notice) : (s.raiseBoth p n).pending = s.pending := by
  simp only [State.raiseBoth]; repeat' split
  all_goals simp

/-! ### raiseTo -/

@[simp] theorem State.raiseTo_opState (s : State) (k : Nat) (n : Notice) : (s.raiseTo k n).opState = s.opState := by
  simp only [State.raiseTo]; repeat' split
  all_goals simp
@[simp] theorem State.raiseTo_deviceSeconds (s : State) (k : Nat) (n : Notice) : (s.raiseTo k n).deviceSeconds = s.deviceSeconds := by
  simp only [State.raiseTo]; repeat' split
  all_goals simp
@[simp] theorem State.raiseTo_timers (s : State) (k : Nat) (n : Notice) : (s.raiseTo k n).timers = s.timers := by
  simp only [State.raiseTo]; repeat' split
  all_goals simp
@[simp] theorem State.raiseTo_bays (s : State) (k : Nat) (n : Notice) : (s.raiseTo k n).bays = s.bays := by
  simp only [State.raiseTo]; repeat' split
  all_goals simp
@[simp] theorem State.raiseTo_admission (s : State) (k : Nat) (n : Notice) : (s.raiseTo k n).admission = s.admission := by
  simp only [State.raiseTo]; repeat' split
  all_goals simp
@[simp] theorem State.raiseTo_tickets (s : State) (k : Nat) (n : Notice) : (s.raiseTo k n).tickets = s.tickets := by
  simp only [State.raiseTo]; repeat' split
  all_goals simp
@[simp] theorem State.raiseTo_ticketCounter (s : State) (k : Nat) (n : Notice) : (s.raiseTo k n).ticketCounter = s.ticketCounter := by
  simp only [State.raiseTo]; repeat' split
  all_goals simp
@[simp] theorem State.raiseTo_pools (s : State) (k : Nat) (n : Notice) : (s.raiseTo k n).pools = s.pools := by
  simp only [State.raiseTo]; repeat' split
  all_goals simp
@[simp] theorem State.raiseTo_booking (s : State) (k : Nat) (n : Notice) : (s.raiseTo k n).booking = s.booking := by
  simp only [State.raiseTo]; repeat' split
  all_goals simp
@[simp] theorem State.raiseTo_power (s : State) (k : Nat) (n : Notice) : (s.raiseTo k n).power = s.power := by
  simp only [State.raiseTo]; repeat' split
  all_goals simp
@[simp] theorem State.raiseTo_bus (s : State) (k : Nat) (n : Notice) : (s.raiseTo k n).bus = s.bus := by
  simp only [State.raiseTo]; repeat' split
  all_goals simp
@[simp] theorem State.raiseTo_ports (s : State) (k : Nat) (n : Notice) : (s.raiseTo k n).ports = s.ports := by
  simp only [State.raiseTo]; repeat' split
  all_goals simp
@[simp] theorem State.raiseTo_pending (s : State) (k : Nat) (n : Notice) : (s.raiseTo k n).pending = s.pending := by
  simp only [State.raiseTo]; repeat' split
  all_goals simp

/-! ### changeBay -/

@[simp] theorem State.changeBay_opState (s : State) (b : BayNo) (f : Bay → Bay) : (s.changeBay b f).opState = s.opState := by
  simp only [State.changeBay]; repeat' split
  all_goals simp
@[simp] theorem State.changeBay_deviceSeconds (s : State) (b : BayNo) (f : Bay → Bay) : (s.changeBay b f).deviceSeconds = s.deviceSeconds := by
  simp only [State.changeBay]; repeat' split
  all_goals simp
@[simp] theorem State.changeBay_timers (s : State) (b : BayNo) (f : Bay → Bay) : (s.changeBay b f).timers = s.timers := by
  simp only [State.changeBay]; repeat' split
  all_goals simp
@[simp] theorem State.changeBay_admission (s : State) (b : BayNo) (f : Bay → Bay) : (s.changeBay b f).admission = s.admission := by
  simp only [State.changeBay]; repeat' split
  all_goals simp
@[simp] theorem State.changeBay_tickets (s : State) (b : BayNo) (f : Bay → Bay) : (s.changeBay b f).tickets = s.tickets := by
  simp only [State.changeBay]; repeat' split
  all_goals simp
@[simp] theorem State.changeBay_ticketCounter (s : State) (b : BayNo) (f : Bay → Bay) : (s.changeBay b f).ticketCounter = s.ticketCounter := by
  simp only [State.changeBay]; repeat' split
  all_goals simp
@[simp] theorem State.changeBay_pools (s : State) (b : BayNo) (f : Bay → Bay) : (s.changeBay b f).pools = s.pools := by
  simp only [State.changeBay]; repeat' split
  all_goals simp
@[simp] theorem State.changeBay_booking (s : State) (b : BayNo) (f : Bay → Bay) : (s.changeBay b f).booking = s.booking := by
  simp only [State.changeBay]; repeat' split
  all_goals simp
@[simp] theorem State.changeBay_power (s : State) (b : BayNo) (f : Bay → Bay) : (s.changeBay b f).power = s.power := by
  simp only [State.changeBay]; repeat' split
  all_goals simp
@[simp] theorem State.changeBay_bus (s : State) (b : BayNo) (f : Bay → Bay) : (s.changeBay b f).bus = s.bus := by
  simp only [State.changeBay]; repeat' split
  all_goals simp
@[simp] theorem State.changeBay_ports (s : State) (b : BayNo) (f : Bay → Bay) : (s.changeBay b f).ports = s.ports := by
  simp only [State.changeBay]; repeat' split
  all_goals simp
@[simp] theorem State.changeBay_pending (s : State) (b : BayNo) (f : Bay → Bay) : (s.changeBay b f).pending = s.pending := by
  simp only [State.changeBay]; repeat' split
  all_goals simp

/-! ### retarget -/

@[simp] theorem State.retarget_opState (s : State) : s.retarget.opState = s.opState := by simp [State.retarget, State.retargetTo]
@[simp] theorem State.retarget_deviceSeconds (s : State) : s.retarget.deviceSeconds = s.deviceSeconds := by simp [State.retarget, State.retargetTo]
@[simp] theorem State.retarget_timers (s : State) : s.retarget.timers = s.timers := by simp [State.retarget, State.retargetTo]
@[simp] theorem State.retarget_bays (s : State) : s.retarget.bays = s.bays := by simp [State.retarget, State.retargetTo]
@[simp] theorem State.retarget_admission (s : State) : s.retarget.admission = s.admission := by simp [State.retarget, State.retargetTo]
@[simp] theorem State.retarget_tickets (s : State) : s.retarget.tickets = s.tickets := by simp [State.retarget, State.retargetTo]
@[simp] theorem State.retarget_ticketCounter (s : State) : s.retarget.ticketCounter = s.ticketCounter := by simp [State.retarget, State.retargetTo]
@[simp] theorem State.retarget_pools (s : State) : s.retarget.pools = s.pools := by simp [State.retarget, State.retargetTo]
@[simp] theorem State.retarget_booking (s : State) : s.retarget.booking = s.booking := by simp [State.retarget, State.retargetTo]
@[simp] theorem State.retarget_bus (s : State) : s.retarget.bus = s.bus := by simp [State.retarget, State.retargetTo]
@[simp] theorem State.retarget_ports (s : State) : s.retarget.ports = s.ports := by simp [State.retarget, State.retargetTo]
@[simp] theorem State.retarget_queues (s : State) : s.retarget.queues = s.queues := by simp [State.retarget, State.retargetTo]
@[simp] theorem State.retarget_pending (s : State) : s.retarget.pending = s.pending := by simp [State.retarget, State.retargetTo]

/-! ### decreaseStep -/

@[simp] theorem State.decreaseStep_opState (s : State) : s.decreaseStep.opState = s.opState := by simp [State.decreaseStep]
@[simp] theorem State.decreaseStep_deviceSeconds (s : State) : s.decreaseStep.deviceSeconds = s.deviceSeconds := by simp [State.decreaseStep]
@[simp] theorem State.decreaseStep_timers (s : State) : s.decreaseStep.timers = s.timers := by simp [State.decreaseStep]
@[simp] theorem State.decreaseStep_bays (s : State) : s.decreaseStep.bays = s.bays := by simp [State.decreaseStep]
@[simp] theorem State.decreaseStep_admission (s : State) : s.decreaseStep.admission = s.admission := by simp [State.decreaseStep]
@[simp] theorem State.decreaseStep_tickets (s : State) : s.decreaseStep.tickets = s.tickets := by simp [State.decreaseStep]
@[simp] theorem State.decreaseStep_ticketCounter (s : State) : s.decreaseStep.ticketCounter = s.ticketCounter := by simp [State.decreaseStep]
@[simp] theorem State.decreaseStep_pools (s : State) : s.decreaseStep.pools = s.pools := by simp [State.decreaseStep]
@[simp] theorem State.decreaseStep_booking (s : State) : s.decreaseStep.booking = s.booking := by simp [State.decreaseStep]
@[simp] theorem State.decreaseStep_bus (s : State) : s.decreaseStep.bus = s.bus := by simp [State.decreaseStep]
@[simp] theorem State.decreaseStep_ports (s : State) : s.decreaseStep.ports = s.ports := by simp [State.decreaseStep]
@[simp] theorem State.decreaseStep_queues (s : State) : s.decreaseStep.queues = s.queues := by simp [State.decreaseStep]
@[simp] theorem State.decreaseStep_pending (s : State) : s.decreaseStep.pending = s.pending := by simp [State.decreaseStep]

/-! ### raiseStep -/

@[simp] theorem State.raiseStep_opState (s : State) : s.raiseStep.opState = s.opState := by simp [State.raiseStep]
@[simp] theorem State.raiseStep_deviceSeconds (s : State) : s.raiseStep.deviceSeconds = s.deviceSeconds := by simp [State.raiseStep]
@[simp] theorem State.raiseStep_timers (s : State) : s.raiseStep.timers = s.timers := by simp [State.raiseStep]
@[simp] theorem State.raiseStep_bays (s : State) : s.raiseStep.bays = s.bays := by simp [State.raiseStep]
@[simp] theorem State.raiseStep_admission (s : State) : s.raiseStep.admission = s.admission := by simp [State.raiseStep]
@[simp] theorem State.raiseStep_tickets (s : State) : s.raiseStep.tickets = s.tickets := by simp [State.raiseStep]
@[simp] theorem State.raiseStep_ticketCounter (s : State) : s.raiseStep.ticketCounter = s.ticketCounter := by simp [State.raiseStep]
@[simp] theorem State.raiseStep_pools (s : State) : s.raiseStep.pools = s.pools := by simp [State.raiseStep]
@[simp] theorem State.raiseStep_booking (s : State) : s.raiseStep.booking = s.booking := by simp [State.raiseStep]
@[simp] theorem State.raiseStep_bus (s : State) : s.raiseStep.bus = s.bus := by simp [State.raiseStep]
@[simp] theorem State.raiseStep_ports (s : State) : s.raiseStep.ports = s.ports := by simp [State.raiseStep]
@[simp] theorem State.raiseStep_queues (s : State) : s.raiseStep.queues = s.queues := by simp [State.raiseStep]
@[simp] theorem State.raiseStep_pending (s : State) : s.raiseStep.pending = s.pending := by simp [State.raiseStep]

/-! ### throttleNotice -/

@[simp] theorem State.throttleNotice_opState (r s : State) (b : BayNo) : (r.throttleNotice s b).opState = s.opState := by
  unfold State.throttleNotice; repeat' split
  all_goals simp
@[simp] theorem State.throttleNotice_deviceSeconds (r s : State) (b : BayNo) : (r.throttleNotice s b).deviceSeconds = s.deviceSeconds := by
  unfold State.throttleNotice; repeat' split
  all_goals simp
@[simp] theorem State.throttleNotice_timers (r s : State) (b : BayNo) : (r.throttleNotice s b).timers = s.timers := by
  unfold State.throttleNotice; repeat' split
  all_goals simp
@[simp] theorem State.throttleNotice_bays (r s : State) (b : BayNo) : (r.throttleNotice s b).bays = s.bays := by
  unfold State.throttleNotice; repeat' split
  all_goals simp
@[simp] theorem State.throttleNotice_admission (r s : State) (b : BayNo) : (r.throttleNotice s b).admission = s.admission := by
  unfold State.throttleNotice; repeat' split
  all_goals simp
@[simp] theorem State.throttleNotice_tickets (r s : State) (b : BayNo) : (r.throttleNotice s b).tickets = s.tickets := by
  unfold State.throttleNotice; repeat' split
  all_goals simp
@[simp] theorem State.throttleNotice_ticketCounter (r s : State) (b : BayNo) : (r.throttleNotice s b).ticketCounter = s.ticketCounter := by
  unfold State.throttleNotice; repeat' split
  all_goals simp
@[simp] theorem State.throttleNotice_pools (r s : State) (b : BayNo) : (r.throttleNotice s b).pools = s.pools := by
  unfold State.throttleNotice; repeat' split
  all_goals simp
@[simp] theorem State.throttleNotice_booking (r s : State) (b : BayNo) : (r.throttleNotice s b).booking = s.booking := by
  unfold State.throttleNotice; repeat' split
  all_goals simp
@[simp] theorem State.throttleNotice_power (r s : State) (b : BayNo) : (r.throttleNotice s b).power = s.power := by
  unfold State.throttleNotice; repeat' split
  all_goals simp
@[simp] theorem State.throttleNotice_bus (r s : State) (b : BayNo) : (r.throttleNotice s b).bus = s.bus := by
  unfold State.throttleNotice; repeat' split
  all_goals simp
@[simp] theorem State.throttleNotice_ports (r s : State) (b : BayNo) : (r.throttleNotice s b).ports = s.ports := by
  unfold State.throttleNotice; repeat' split
  all_goals simp
@[simp] theorem State.throttleNotice_pending (r s : State) (b : BayNo) : (r.throttleNotice s b).pending = s.pending := by
  unfold State.throttleNotice; repeat' split
  all_goals simp

/-! ### recompute -/

@[simp] theorem State.recompute_opState (s : State) : s.recompute.opState = s.opState := by
  unfold State.recompute
  rw [foldl_frame (·.opState) _ (by simp)]; simp
@[simp] theorem State.recompute_deviceSeconds (s : State) : s.recompute.deviceSeconds = s.deviceSeconds := by
  unfold State.recompute
  rw [foldl_frame (·.deviceSeconds) _ (by simp)]; simp
@[simp] theorem State.recompute_timers (s : State) : s.recompute.timers = s.timers := by
  unfold State.recompute
  rw [foldl_frame (·.timers) _ (by simp)]; simp
@[simp] theorem State.recompute_bays (s : State) : s.recompute.bays = s.bays := by
  unfold State.recompute
  rw [foldl_frame (·.bays) _ (by simp)]; simp
@[simp] theorem State.recompute_admission (s : State) : s.recompute.admission = s.admission := by
  unfold State.recompute
  rw [foldl_frame (·.admission) _ (by simp)]; simp
@[simp] theorem State.recompute_tickets (s : State) : s.recompute.tickets = s.tickets := by
  unfold State.recompute
  rw [foldl_frame (·.tickets) _ (by simp)]; simp
@[simp] theorem State.recompute_ticketCounter (s : State) : s.recompute.ticketCounter = s.ticketCounter := by
  unfold State.recompute
  rw [foldl_frame (·.ticketCounter) _ (by simp)]; simp
@[simp] theorem State.recompute_pools (s : State) : s.recompute.pools = s.pools := by
  unfold State.recompute
  rw [foldl_frame (·.pools) _ (by simp)]; simp
@[simp] theorem State.recompute_booking (s : State) : s.recompute.booking = s.booking := by
  unfold State.recompute
  rw [foldl_frame (·.booking) _ (by simp)]; simp
@[simp] theorem State.recompute_bus (s : State) : s.recompute.bus = s.bus := by
  unfold State.recompute
  rw [foldl_frame (·.bus) _ (by simp)]; simp
@[simp] theorem State.recompute_ports (s : State) : s.recompute.ports = s.ports := by
  unfold State.recompute
  rw [foldl_frame (·.ports) _ (by simp)]; simp
@[simp] theorem State.recompute_pending (s : State) : s.recompute.pending = s.pending := by
  unfold State.recompute
  rw [foldl_frame (·.pending) _ (by simp)]; simp

/-! ### recomputeInRun -/

@[simp] theorem State.recomputeInRun_opState (s : State) : s.recomputeInRun.opState = s.opState := by
  simp only [State.recomputeInRun]; repeat' split
  all_goals simp
@[simp] theorem State.recomputeInRun_deviceSeconds (s : State) : s.recomputeInRun.deviceSeconds = s.deviceSeconds := by
  simp only [State.recomputeInRun]; repeat' split
  all_goals simp
@[simp] theorem State.recomputeInRun_timers (s : State) : s.recomputeInRun.timers = s.timers := by
  simp only [State.recomputeInRun]; repeat' split
  all_goals simp
@[simp] theorem State.recomputeInRun_bays (s : State) : s.recomputeInRun.bays = s.bays := by
  simp only [State.recomputeInRun]; repeat' split
  all_goals simp
@[simp] theorem State.recomputeInRun_admission (s : State) : s.recomputeInRun.admission = s.admission := by
  simp only [State.recomputeInRun]; repeat' split
  all_goals simp
@[simp] theorem State.recomputeInRun_tickets (s : State) : s.recomputeInRun.tickets = s.tickets := by
  simp only [State.recomputeInRun]; repeat' split
  all_goals simp
@[simp] theorem State.recomputeInRun_ticketCounter (s : State) : s.recomputeInRun.ticketCounter = s.ticketCounter := by
  simp only [State.recomputeInRun]; repeat' split
  all_goals simp
@[simp] theorem State.recomputeInRun_pools (s : State) : s.recomputeInRun.pools = s.pools := by
  simp only [State.recomputeInRun]; repeat' split
  all_goals simp
@[simp] theorem State.recomputeInRun_booking (s : State) : s.recomputeInRun.booking = s.booking := by
  simp only [State.recomputeInRun]; repeat' split
  all_goals simp
@[simp] theorem State.recomputeInRun_bus (s : State) : s.recomputeInRun.bus = s.bus := by
  simp only [State.recomputeInRun]; repeat' split
  all_goals simp
@[simp] theorem State.recomputeInRun_ports (s : State) : s.recomputeInRun.ports = s.ports := by
  simp only [State.recomputeInRun]; repeat' split
  all_goals simp
@[simp] theorem State.recomputeInRun_pending (s : State) : s.recomputeInRun.pending = s.pending := by
  simp only [State.recomputeInRun]; repeat' split
  all_goals simp

/-! ### takeEcho -/

@[simp] theorem State.takeEcho_opState (s : State) (b : BayNo) (e : Nat) : (s.takeEcho b e).opState = s.opState := by
  simp only [State.takeEcho]; repeat' split
  all_goals simp
@[simp] theorem State.takeEcho_deviceSeconds (s : State) (b : BayNo) (e : Nat) : (s.takeEcho b e).deviceSeconds = s.deviceSeconds := by
  simp only [State.takeEcho]; repeat' split
  all_goals simp
@[simp] theorem State.takeEcho_timers (s : State) (b : BayNo) (e : Nat) : (s.takeEcho b e).timers = s.timers := by
  simp only [State.takeEcho]; repeat' split
  all_goals simp
@[simp] theorem State.takeEcho_bays (s : State) (b : BayNo) (e : Nat) : (s.takeEcho b e).bays = s.bays := by
  simp only [State.takeEcho]; repeat' split
  all_goals simp
@[simp] theorem State.takeEcho_admission (s : State) (b : BayNo) (e : Nat) : (s.takeEcho b e).admission = s.admission := by
  simp only [State.takeEcho]; repeat' split
  all_goals simp
@[simp] theorem State.takeEcho_tickets (s : State) (b : BayNo) (e : Nat) : (s.takeEcho b e).tickets = s.tickets := by
  simp only [State.takeEcho]; repeat' split
  all_goals simp
@[simp] theorem State.takeEcho_ticketCounter (s : State) (b : BayNo) (e : Nat) : (s.takeEcho b e).ticketCounter = s.ticketCounter := by
  simp only [State.takeEcho]; repeat' split
  all_goals simp
@[simp] theorem State.takeEcho_pools (s : State) (b : BayNo) (e : Nat) : (s.takeEcho b e).pools = s.pools := by
  simp only [State.takeEcho]; repeat' split
  all_goals simp
@[simp] theorem State.takeEcho_booking (s : State) (b : BayNo) (e : Nat) : (s.takeEcho b e).booking = s.booking := by
  simp only [State.takeEcho]; repeat' split
  all_goals simp
@[simp] theorem State.takeEcho_bus (s : State) (b : BayNo) (e : Nat) : (s.takeEcho b e).bus = s.bus := by
  simp only [State.takeEcho]; repeat' split
  all_goals simp
@[simp] theorem State.takeEcho_ports (s : State) (b : BayNo) (e : Nat) : (s.takeEcho b e).ports = s.ports := by
  simp only [State.takeEcho]; repeat' split
  all_goals simp
@[simp] theorem State.takeEcho_pending (s : State) (b : BayNo) (e : Nat) : (s.takeEcho b e).pending = s.pending := by
  simp only [State.takeEcho]; repeat' split
  all_goals simp

/-! ### issue -/

@[simp] theorem State.issue_opState (s : State) (t : Ticket) : (s.issue t).opState = s.opState := by simp [State.issue]
@[simp] theorem State.issue_deviceSeconds (s : State) (t : Ticket) : (s.issue t).deviceSeconds = s.deviceSeconds := by simp [State.issue]
@[simp] theorem State.issue_timers (s : State) (t : Ticket) : (s.issue t).timers = s.timers := by simp [State.issue]
@[simp] theorem State.issue_bays (s : State) (t : Ticket) : (s.issue t).bays = s.bays := by simp [State.issue]
@[simp] theorem State.issue_admission (s : State) (t : Ticket) : (s.issue t).admission = s.admission := by simp [State.issue]
@[simp] theorem State.issue_pools (s : State) (t : Ticket) : (s.issue t).pools = s.pools := by simp [State.issue]
@[simp] theorem State.issue_booking (s : State) (t : Ticket) : (s.issue t).booking = s.booking := by simp [State.issue]
@[simp] theorem State.issue_power (s : State) (t : Ticket) : (s.issue t).power = s.power := by simp [State.issue]
@[simp] theorem State.issue_bus (s : State) (t : Ticket) : (s.issue t).bus = s.bus := by simp [State.issue]
@[simp] theorem State.issue_ports (s : State) (t : Ticket) : (s.issue t).ports = s.ports := by simp [State.issue]
@[simp] theorem State.issue_queues (s : State) (t : Ticket) : (s.issue t).queues = s.queues := by simp [State.issue]
@[simp] theorem State.issue_pending (s : State) (t : Ticket) : (s.issue t).pending = s.pending := by simp [State.issue]

/-! ### leaveQueue -/

@[simp] theorem State.leaveQueue_opState (s : State) (q : PoolNo) (n : Nat) : (s.leaveQueue q n).opState = s.opState := by simp [State.leaveQueue]
@[simp] theorem State.leaveQueue_deviceSeconds (s : State) (q : PoolNo) (n : Nat) : (s.leaveQueue q n).deviceSeconds = s.deviceSeconds := by simp [State.leaveQueue]
@[simp] theorem State.leaveQueue_timers (s : State) (q : PoolNo) (n : Nat) : (s.leaveQueue q n).timers = s.timers := by simp [State.leaveQueue]
@[simp] theorem State.leaveQueue_bays (s : State) (q : PoolNo) (n : Nat) : (s.leaveQueue q n).bays = s.bays := by simp [State.leaveQueue]
@[simp] theorem State.leaveQueue_admission (s : State) (q : PoolNo) (n : Nat) : (s.leaveQueue q n).admission = s.admission := by simp [State.leaveQueue]
@[simp] theorem State.leaveQueue_tickets (s : State) (q : PoolNo) (n : Nat) : (s.leaveQueue q n).tickets = s.tickets := by simp [State.leaveQueue]
@[simp] theorem State.leaveQueue_ticketCounter (s : State) (q : PoolNo) (n : Nat) : (s.leaveQueue q n).ticketCounter = s.ticketCounter := by simp [State.leaveQueue]
@[simp] theorem State.leaveQueue_booking (s : State) (q : PoolNo) (n : Nat) : (s.leaveQueue q n).booking = s.booking := by simp [State.leaveQueue]
@[simp] theorem State.leaveQueue_power (s : State) (q : PoolNo) (n : Nat) : (s.leaveQueue q n).power = s.power := by simp [State.leaveQueue]
@[simp] theorem State.leaveQueue_bus (s : State) (q : PoolNo) (n : Nat) : (s.leaveQueue q n).bus = s.bus := by simp [State.leaveQueue]
@[simp] theorem State.leaveQueue_ports (s : State) (q : PoolNo) (n : Nat) : (s.leaveQueue q n).ports = s.ports := by simp [State.leaveQueue]
@[simp] theorem State.leaveQueue_queues (s : State) (q : PoolNo) (n : Nat) : (s.leaveQueue q n).queues = s.queues := by simp [State.leaveQueue]
@[simp] theorem State.leaveQueue_pending (s : State) (q : PoolNo) (n : Nat) : (s.leaveQueue q n).pending = s.pending := by simp [State.leaveQueue]

/-! ### unname -/

@[simp] theorem State.unname_opState (s : State) (b : BayNo) (n : Nat) : (s.unname b n).opState = s.opState := by
  simp only [State.unname]; repeat' split
  all_goals simp
@[simp] theorem State.unname_deviceSeconds (s : State) (b : BayNo) (n : Nat) : (s.unname b n).deviceSeconds = s.deviceSeconds := by
  simp only [State.unname]; repeat' split
  all_goals simp
@[simp] theorem State.unname_timers (s : State) (b : BayNo) (n : Nat) : (s.unname b n).timers = s.timers := by
  simp only [State.unname]; repeat' split
  all_goals simp
@[simp] theorem State.unname_admission (s : State) (b : BayNo) (n : Nat) : (s.unname b n).admission = s.admission := by
  simp only [State.unname]; repeat' split
  all_goals simp
@[simp] theorem State.unname_tickets (s : State) (b : BayNo) (n : Nat) : (s.unname b n).tickets = s.tickets := by
  simp only [State.unname]; repeat' split
  all_goals simp
@[simp] theorem State.unname_ticketCounter (s : State) (b : BayNo) (n : Nat) : (s.unname b n).ticketCounter = s.ticketCounter := by
  simp only [State.unname]; repeat' split
  all_goals simp
@[simp] theorem State.unname_pools (s : State) (b : BayNo) (n : Nat) : (s.unname b n).pools = s.pools := by
  simp only [State.unname]; repeat' split
  all_goals simp
@[simp] theorem State.unname_booking (s : State) (b : BayNo) (n : Nat) : (s.unname b n).booking = s.booking := by
  simp only [State.unname]; repeat' split
  all_goals simp
@[simp] theorem State.unname_power (s : State) (b : BayNo) (n : Nat) : (s.unname b n).power = s.power := by
  simp only [State.unname]; repeat' split
  all_goals simp
@[simp] theorem State.unname_bus (s : State) (b : BayNo) (n : Nat) : (s.unname b n).bus = s.bus := by
  simp only [State.unname]; repeat' split
  all_goals simp
@[simp] theorem State.unname_ports (s : State) (b : BayNo) (n : Nat) : (s.unname b n).ports = s.ports := by
  simp only [State.unname]; repeat' split
  all_goals simp
@[simp] theorem State.unname_queues (s : State) (b : BayNo) (n : Nat) : (s.unname b n).queues = s.queues := by
  simp only [State.unname]; repeat' split
  all_goals simp
@[simp] theorem State.unname_pending (s : State) (b : BayNo) (n : Nat) : (s.unname b n).pending = s.pending := by
  simp only [State.unname]; repeat' split
  all_goals simp

/-! ### freeTicket -/

@[simp] theorem State.freeTicket_opState (s : State) (n : Nat) : (s.freeTicket n).opState = s.opState := by
  simp only [State.freeTicket]; repeat' split
  all_goals simp
@[simp] theorem State.freeTicket_deviceSeconds (s : State) (n : Nat) : (s.freeTicket n).deviceSeconds = s.deviceSeconds := by
  simp only [State.freeTicket]; repeat' split
  all_goals simp
@[simp] theorem State.freeTicket_timers (s : State) (n : Nat) : (s.freeTicket n).timers = s.timers := by
  simp only [State.freeTicket]; repeat' split
  all_goals simp
@[simp] theorem State.freeTicket_admission (s : State) (n : Nat) : (s.freeTicket n).admission = s.admission := by
  simp only [State.freeTicket]; repeat' split
  all_goals simp
@[simp] theorem State.freeTicket_ticketCounter (s : State) (n : Nat) : (s.freeTicket n).ticketCounter = s.ticketCounter := by
  simp only [State.freeTicket]; repeat' split
  all_goals simp
@[simp] theorem State.freeTicket_booking (s : State) (n : Nat) : (s.freeTicket n).booking = s.booking := by
  simp only [State.freeTicket]; repeat' split
  all_goals simp
@[simp] theorem State.freeTicket_power (s : State) (n : Nat) : (s.freeTicket n).power = s.power := by
  simp only [State.freeTicket]; repeat' split
  all_goals simp
@[simp] theorem State.freeTicket_bus (s : State) (n : Nat) : (s.freeTicket n).bus = s.bus := by
  simp only [State.freeTicket]; repeat' split
  all_goals simp
@[simp] theorem State.freeTicket_ports (s : State) (n : Nat) : (s.freeTicket n).ports = s.ports := by
  simp only [State.freeTicket]; repeat' split
  all_goals simp
@[simp] theorem State.freeTicket_queues (s : State) (n : Nat) : (s.freeTicket n).queues = s.queues := by
  simp only [State.freeTicket]; repeat' split
  all_goals simp
@[simp] theorem State.freeTicket_pending (s : State) (n : Nat) : (s.freeTicket n).pending = s.pending := by
  simp only [State.freeTicket]; repeat' split
  all_goals simp

/-! ### holdAt -/

@[simp] theorem State.holdAt_opState (s : State) (n : Nat) (b : BayNo) : (s.holdAt n b).opState = s.opState := by
  simp [State.holdAt]
@[simp] theorem State.holdAt_deviceSeconds (s : State) (n : Nat) (b : BayNo) : (s.holdAt n b).deviceSeconds = s.deviceSeconds := by
  simp [State.holdAt]
@[simp] theorem State.holdAt_timers (s : State) (n : Nat) (b : BayNo) : (s.holdAt n b).timers = s.timers := by
  simp [State.holdAt]
@[simp] theorem State.holdAt_admission (s : State) (n : Nat) (b : BayNo) : (s.holdAt n b).admission = s.admission := by
  simp [State.holdAt]
@[simp] theorem State.holdAt_ticketCounter (s : State) (n : Nat) (b : BayNo) : (s.holdAt n b).ticketCounter = s.ticketCounter := by
  simp [State.holdAt]
@[simp] theorem State.holdAt_pools (s : State) (n : Nat) (b : BayNo) : (s.holdAt n b).pools = s.pools := by
  simp [State.holdAt]
@[simp] theorem State.holdAt_booking (s : State) (n : Nat) (b : BayNo) : (s.holdAt n b).booking = s.booking := by
  simp [State.holdAt]
@[simp] theorem State.holdAt_power (s : State) (n : Nat) (b : BayNo) : (s.holdAt n b).power = s.power := by
  simp [State.holdAt]
@[simp] theorem State.holdAt_bus (s : State) (n : Nat) (b : BayNo) : (s.holdAt n b).bus = s.bus := by
  simp [State.holdAt]
@[simp] theorem State.holdAt_ports (s : State) (n : Nat) (b : BayNo) : (s.holdAt n b).ports = s.ports := by
  simp [State.holdAt]
@[simp] theorem State.holdAt_pending (s : State) (n : Nat) (b : BayNo) : (s.holdAt n b).pending = s.pending := by
  simp [State.holdAt]

/-! ### arrive -/

@[simp] theorem State.arrive_opState (s : State) (n : Nat) (b : BayNo) : (s.arrive n b).opState = s.opState := by
  simp [State.arrive]
@[simp] theorem State.arrive_deviceSeconds (s : State) (n : Nat) (b : BayNo) : (s.arrive n b).deviceSeconds = s.deviceSeconds := by
  simp [State.arrive]
@[simp] theorem State.arrive_timers (s : State) (n : Nat) (b : BayNo) : (s.arrive n b).timers = s.timers := by
  simp [State.arrive]
@[simp] theorem State.arrive_admission (s : State) (n : Nat) (b : BayNo) : (s.arrive n b).admission = s.admission := by
  simp [State.arrive]
@[simp] theorem State.arrive_ticketCounter (s : State) (n : Nat) (b : BayNo) : (s.arrive n b).ticketCounter = s.ticketCounter := by
  simp [State.arrive]
@[simp] theorem State.arrive_pools (s : State) (n : Nat) (b : BayNo) : (s.arrive n b).pools = s.pools := by
  simp [State.arrive]
@[simp] theorem State.arrive_booking (s : State) (n : Nat) (b : BayNo) : (s.arrive n b).booking = s.booking := by
  simp [State.arrive]
@[simp] theorem State.arrive_power (s : State) (n : Nat) (b : BayNo) : (s.arrive n b).power = s.power := by
  simp [State.arrive]
@[simp] theorem State.arrive_bus (s : State) (n : Nat) (b : BayNo) : (s.arrive n b).bus = s.bus := by
  simp [State.arrive]
@[simp] theorem State.arrive_ports (s : State) (n : Nat) (b : BayNo) : (s.arrive n b).ports = s.ports := by
  simp [State.arrive]
@[simp] theorem State.arrive_pending (s : State) (n : Nat) (b : BayNo) : (s.arrive n b).pending = s.pending := by
  simp [State.arrive]

/-! ### joinQueue -/

@[simp] theorem State.joinQueue_opState (s : State) (q : PoolNo) (n : Nat) : (s.joinQueue q n).opState = s.opState := by simp [State.joinQueue]
@[simp] theorem State.joinQueue_deviceSeconds (s : State) (q : PoolNo) (n : Nat) : (s.joinQueue q n).deviceSeconds = s.deviceSeconds := by simp [State.joinQueue]
@[simp] theorem State.joinQueue_timers (s : State) (q : PoolNo) (n : Nat) : (s.joinQueue q n).timers = s.timers := by simp [State.joinQueue]
@[simp] theorem State.joinQueue_bays (s : State) (q : PoolNo) (n : Nat) : (s.joinQueue q n).bays = s.bays := by simp [State.joinQueue]
@[simp] theorem State.joinQueue_admission (s : State) (q : PoolNo) (n : Nat) : (s.joinQueue q n).admission = s.admission := by simp [State.joinQueue]
@[simp] theorem State.joinQueue_tickets (s : State) (q : PoolNo) (n : Nat) : (s.joinQueue q n).tickets = s.tickets := by simp [State.joinQueue]
@[simp] theorem State.joinQueue_ticketCounter (s : State) (q : PoolNo) (n : Nat) : (s.joinQueue q n).ticketCounter = s.ticketCounter := by simp [State.joinQueue]
@[simp] theorem State.joinQueue_booking (s : State) (q : PoolNo) (n : Nat) : (s.joinQueue q n).booking = s.booking := by simp [State.joinQueue]
@[simp] theorem State.joinQueue_power (s : State) (q : PoolNo) (n : Nat) : (s.joinQueue q n).power = s.power := by simp [State.joinQueue]
@[simp] theorem State.joinQueue_bus (s : State) (q : PoolNo) (n : Nat) : (s.joinQueue q n).bus = s.bus := by simp [State.joinQueue]
@[simp] theorem State.joinQueue_ports (s : State) (q : PoolNo) (n : Nat) : (s.joinQueue q n).ports = s.ports := by simp [State.joinQueue]
@[simp] theorem State.joinQueue_queues (s : State) (q : PoolNo) (n : Nat) : (s.joinQueue q n).queues = s.queues := by simp [State.joinQueue]
@[simp] theorem State.joinQueue_pending (s : State) (q : PoolNo) (n : Nat) : (s.joinQueue q n).pending = s.pending := by simp [State.joinQueue]

/-! ### toBack -/

@[simp] theorem State.toBack_opState (s : State) (q : PoolNo) (n : Nat) : (s.toBack q n).opState = s.opState := by
  simp [State.toBack]
@[simp] theorem State.toBack_deviceSeconds (s : State) (q : PoolNo) (n : Nat) : (s.toBack q n).deviceSeconds = s.deviceSeconds := by
  simp [State.toBack]
@[simp] theorem State.toBack_timers (s : State) (q : PoolNo) (n : Nat) : (s.toBack q n).timers = s.timers := by
  simp [State.toBack]
@[simp] theorem State.toBack_bays (s : State) (q : PoolNo) (n : Nat) : (s.toBack q n).bays = s.bays := by
  simp [State.toBack]
@[simp] theorem State.toBack_admission (s : State) (q : PoolNo) (n : Nat) : (s.toBack q n).admission = s.admission := by
  simp [State.toBack]
@[simp] theorem State.toBack_tickets (s : State) (q : PoolNo) (n : Nat) : (s.toBack q n).tickets = s.tickets := by
  simp [State.toBack]
@[simp] theorem State.toBack_ticketCounter (s : State) (q : PoolNo) (n : Nat) : (s.toBack q n).ticketCounter = s.ticketCounter := by
  simp [State.toBack]
@[simp] theorem State.toBack_booking (s : State) (q : PoolNo) (n : Nat) : (s.toBack q n).booking = s.booking := by
  simp [State.toBack]
@[simp] theorem State.toBack_power (s : State) (q : PoolNo) (n : Nat) : (s.toBack q n).power = s.power := by
  simp [State.toBack]
@[simp] theorem State.toBack_bus (s : State) (q : PoolNo) (n : Nat) : (s.toBack q n).bus = s.bus := by
  simp [State.toBack]
@[simp] theorem State.toBack_ports (s : State) (q : PoolNo) (n : Nat) : (s.toBack q n).ports = s.ports := by
  simp [State.toBack]
@[simp] theorem State.toBack_queues (s : State) (q : PoolNo) (n : Nat) : (s.toBack q n).queues = s.queues := by
  simp [State.toBack]
@[simp] theorem State.toBack_pending (s : State) (q : PoolNo) (n : Nat) : (s.toBack q n).pending = s.pending := by
  simp [State.toBack]

/-! ### pointTo -/

@[simp] theorem State.pointTo_opState (s : State) (q : PoolNo) (b : BayNo) : (s.pointTo q b).opState = s.opState := by simp [State.pointTo]
@[simp] theorem State.pointTo_deviceSeconds (s : State) (q : PoolNo) (b : BayNo) : (s.pointTo q b).deviceSeconds = s.deviceSeconds := by simp [State.pointTo]
@[simp] theorem State.pointTo_timers (s : State) (q : PoolNo) (b : BayNo) : (s.pointTo q b).timers = s.timers := by simp [State.pointTo]
@[simp] theorem State.pointTo_bays (s : State) (q : PoolNo) (b : BayNo) : (s.pointTo q b).bays = s.bays := by simp [State.pointTo]
@[simp] theorem State.pointTo_admission (s : State) (q : PoolNo) (b : BayNo) : (s.pointTo q b).admission = s.admission := by simp [State.pointTo]
@[simp] theorem State.pointTo_tickets (s : State) (q : PoolNo) (b : BayNo) : (s.pointTo q b).tickets = s.tickets := by simp [State.pointTo]
@[simp] theorem State.pointTo_ticketCounter (s : State) (q : PoolNo) (b : BayNo) : (s.pointTo q b).ticketCounter = s.ticketCounter := by simp [State.pointTo]
@[simp] theorem State.pointTo_booking (s : State) (q : PoolNo) (b : BayNo) : (s.pointTo q b).booking = s.booking := by simp [State.pointTo]
@[simp] theorem State.pointTo_power (s : State) (q : PoolNo) (b : BayNo) : (s.pointTo q b).power = s.power := by simp [State.pointTo]
@[simp] theorem State.pointTo_bus (s : State) (q : PoolNo) (b : BayNo) : (s.pointTo q b).bus = s.bus := by simp [State.pointTo]
@[simp] theorem State.pointTo_ports (s : State) (q : PoolNo) (b : BayNo) : (s.pointTo q b).ports = s.ports := by simp [State.pointTo]
@[simp] theorem State.pointTo_queues (s : State) (q : PoolNo) (b : BayNo) : (s.pointTo q b).queues = s.queues := by simp [State.pointTo]
@[simp] theorem State.pointTo_pending (s : State) (q : PoolNo) (b : BayNo) : (s.pointTo q b).pending = s.pending := by simp [State.pointTo]

/-! ### offerBay -/

@[simp] theorem State.offerBay_opState (s : State) (q : PoolNo) (b : BayNo) (t : Ticket) : (s.offerBay q b t).opState = s.opState := by
  simp [State.offerBay]
@[simp] theorem State.offerBay_deviceSeconds (s : State) (q : PoolNo) (b : BayNo) (t : Ticket) : (s.offerBay q b t).deviceSeconds = s.deviceSeconds := by
  simp [State.offerBay]
@[simp] theorem State.offerBay_timers (s : State) (q : PoolNo) (b : BayNo) (t : Ticket) : (s.offerBay q b t).timers = s.timers := by
  simp [State.offerBay]
@[simp] theorem State.offerBay_admission (s : State) (q : PoolNo) (b : BayNo) (t : Ticket) : (s.offerBay q b t).admission = s.admission := by
  simp [State.offerBay]
@[simp] theorem State.offerBay_ticketCounter (s : State) (q : PoolNo) (b : BayNo) (t : Ticket) : (s.offerBay q b t).ticketCounter = s.ticketCounter := by
  simp [State.offerBay]
@[simp] theorem State.offerBay_booking (s : State) (q : PoolNo) (b : BayNo) (t : Ticket) : (s.offerBay q b t).booking = s.booking := by
  simp [State.offerBay]
@[simp] theorem State.offerBay_power (s : State) (q : PoolNo) (b : BayNo) (t : Ticket) : (s.offerBay q b t).power = s.power := by
  simp [State.offerBay]
@[simp] theorem State.offerBay_bus (s : State) (q : PoolNo) (b : BayNo) (t : Ticket) : (s.offerBay q b t).bus = s.bus := by
  simp [State.offerBay]
@[simp] theorem State.offerBay_ports (s : State) (q : PoolNo) (b : BayNo) (t : Ticket) : (s.offerBay q b t).ports = s.ports := by
  simp [State.offerBay]
@[simp] theorem State.offerBay_pending (s : State) (q : PoolNo) (b : BayNo) (t : Ticket) : (s.offerBay q b t).pending = s.pending := by
  simp [State.offerBay]

/-! ### matchBay -/

@[simp] theorem State.matchBay_opState (s : State) (q : PoolNo) (b : BayNo) : (s.matchBay q b).opState = s.opState := by
  simp only [State.matchBay]; repeat' split
  all_goals simp
@[simp] theorem State.matchBay_deviceSeconds (s : State) (q : PoolNo) (b : BayNo) : (s.matchBay q b).deviceSeconds = s.deviceSeconds := by
  simp only [State.matchBay]; repeat' split
  all_goals simp
@[simp] theorem State.matchBay_timers (s : State) (q : PoolNo) (b : BayNo) : (s.matchBay q b).timers = s.timers := by
  simp only [State.matchBay]; repeat' split
  all_goals simp
@[simp] theorem State.matchBay_admission (s : State) (q : PoolNo) (b : BayNo) : (s.matchBay q b).admission = s.admission := by
  simp only [State.matchBay]; repeat' split
  all_goals simp
@[simp] theorem State.matchBay_ticketCounter (s : State) (q : PoolNo) (b : BayNo) : (s.matchBay q b).ticketCounter = s.ticketCounter := by
  simp only [State.matchBay]; repeat' split
  all_goals simp
@[simp] theorem State.matchBay_booking (s : State) (q : PoolNo) (b : BayNo) : (s.matchBay q b).booking = s.booking := by
  simp only [State.matchBay]; repeat' split
  all_goals simp
@[simp] theorem State.matchBay_power (s : State) (q : PoolNo) (b : BayNo) : (s.matchBay q b).power = s.power := by
  simp only [State.matchBay]; repeat' split
  all_goals simp
@[simp] theorem State.matchBay_bus (s : State) (q : PoolNo) (b : BayNo) : (s.matchBay q b).bus = s.bus := by
  simp only [State.matchBay]; repeat' split
  all_goals simp
@[simp] theorem State.matchBay_ports (s : State) (q : PoolNo) (b : BayNo) : (s.matchBay q b).ports = s.ports := by
  simp only [State.matchBay]; repeat' split
  all_goals simp
@[simp] theorem State.matchBay_pending (s : State) (q : PoolNo) (b : BayNo) : (s.matchBay q b).pending = s.pending := by
  simp only [State.matchBay]; repeat' split
  all_goals simp

/-! ### matchRun -/

@[simp] theorem State.matchRun_opState (s : State) (q : PoolNo) : (s.matchRun q).opState = s.opState := foldl_frame (·.opState) _ (by simp) _ _
@[simp] theorem State.matchRun_deviceSeconds (s : State) (q : PoolNo) : (s.matchRun q).deviceSeconds = s.deviceSeconds := foldl_frame (·.deviceSeconds) _ (by simp) _ _
@[simp] theorem State.matchRun_timers (s : State) (q : PoolNo) : (s.matchRun q).timers = s.timers := foldl_frame (·.timers) _ (by simp) _ _
@[simp] theorem State.matchRun_admission (s : State) (q : PoolNo) : (s.matchRun q).admission = s.admission := foldl_frame (·.admission) _ (by simp) _ _
@[simp] theorem State.matchRun_ticketCounter (s : State) (q : PoolNo) : (s.matchRun q).ticketCounter = s.ticketCounter := foldl_frame (·.ticketCounter) _ (by simp) _ _
@[simp] theorem State.matchRun_booking (s : State) (q : PoolNo) : (s.matchRun q).booking = s.booking := foldl_frame (·.booking) _ (by simp) _ _
@[simp] theorem State.matchRun_power (s : State) (q : PoolNo) : (s.matchRun q).power = s.power := foldl_frame (·.power) _ (by simp) _ _
@[simp] theorem State.matchRun_bus (s : State) (q : PoolNo) : (s.matchRun q).bus = s.bus := foldl_frame (·.bus) _ (by simp) _ _
@[simp] theorem State.matchRun_ports (s : State) (q : PoolNo) : (s.matchRun q).ports = s.ports := foldl_frame (·.ports) _ (by simp) _ _
@[simp] theorem State.matchRun_pending (s : State) (q : PoolNo) : (s.matchRun q).pending = s.pending := foldl_frame (·.pending) _ (by simp) _ _

/-! ### matchIn -/

@[simp] theorem State.matchIn_opState (s : State) (q : Option PoolNo) : (s.matchIn q).opState = s.opState := by
  simp only [State.matchIn]; repeat' split
  all_goals simp
@[simp] theorem State.matchIn_deviceSeconds (s : State) (q : Option PoolNo) : (s.matchIn q).deviceSeconds = s.deviceSeconds := by
  simp only [State.matchIn]; repeat' split
  all_goals simp
@[simp] theorem State.matchIn_timers (s : State) (q : Option PoolNo) : (s.matchIn q).timers = s.timers := by
  simp only [State.matchIn]; repeat' split
  all_goals simp
@[simp] theorem State.matchIn_admission (s : State) (q : Option PoolNo) : (s.matchIn q).admission = s.admission := by
  simp only [State.matchIn]; repeat' split
  all_goals simp
@[simp] theorem State.matchIn_ticketCounter (s : State) (q : Option PoolNo) : (s.matchIn q).ticketCounter = s.ticketCounter := by
  simp only [State.matchIn]; repeat' split
  all_goals simp
@[simp] theorem State.matchIn_booking (s : State) (q : Option PoolNo) : (s.matchIn q).booking = s.booking := by
  simp only [State.matchIn]; repeat' split
  all_goals simp
@[simp] theorem State.matchIn_power (s : State) (q : Option PoolNo) : (s.matchIn q).power = s.power := by
  simp only [State.matchIn]; repeat' split
  all_goals simp
@[simp] theorem State.matchIn_bus (s : State) (q : Option PoolNo) : (s.matchIn q).bus = s.bus := by
  simp only [State.matchIn]; repeat' split
  all_goals simp
@[simp] theorem State.matchIn_ports (s : State) (q : Option PoolNo) : (s.matchIn q).ports = s.ports := by
  simp only [State.matchIn]; repeat' split
  all_goals simp
@[simp] theorem State.matchIn_pending (s : State) (q : Option PoolNo) : (s.matchIn q).pending = s.pending := by
  simp only [State.matchIn]; repeat' split
  all_goals simp

/-! ### withdraw -/

@[simp] theorem State.withdraw_opState (s : State) (b : BayNo) (w : WithdrawReason) : (s.withdraw b w).opState = s.opState := by
  simp only [State.withdraw]; repeat' split
  all_goals simp
@[simp] theorem State.withdraw_deviceSeconds (s : State) (b : BayNo) (w : WithdrawReason) : (s.withdraw b w).deviceSeconds = s.deviceSeconds := by
  simp only [State.withdraw]; repeat' split
  all_goals simp
@[simp] theorem State.withdraw_timers (s : State) (b : BayNo) (w : WithdrawReason) : (s.withdraw b w).timers = s.timers := by
  simp only [State.withdraw]; repeat' split
  all_goals simp
@[simp] theorem State.withdraw_admission (s : State) (b : BayNo) (w : WithdrawReason) : (s.withdraw b w).admission = s.admission := by
  simp only [State.withdraw]; repeat' split
  all_goals simp
@[simp] theorem State.withdraw_ticketCounter (s : State) (b : BayNo) (w : WithdrawReason) : (s.withdraw b w).ticketCounter = s.ticketCounter := by
  simp only [State.withdraw]; repeat' split
  all_goals simp
@[simp] theorem State.withdraw_pools (s : State) (b : BayNo) (w : WithdrawReason) : (s.withdraw b w).pools = s.pools := by
  simp only [State.withdraw]; repeat' split
  all_goals simp
@[simp] theorem State.withdraw_booking (s : State) (b : BayNo) (w : WithdrawReason) : (s.withdraw b w).booking = s.booking := by
  simp only [State.withdraw]; repeat' split
  all_goals simp
@[simp] theorem State.withdraw_power (s : State) (b : BayNo) (w : WithdrawReason) : (s.withdraw b w).power = s.power := by
  simp only [State.withdraw]; repeat' split
  all_goals simp
@[simp] theorem State.withdraw_bus (s : State) (b : BayNo) (w : WithdrawReason) : (s.withdraw b w).bus = s.bus := by
  simp only [State.withdraw]; repeat' split
  all_goals simp
@[simp] theorem State.withdraw_ports (s : State) (b : BayNo) (w : WithdrawReason) : (s.withdraw b w).ports = s.ports := by
  simp only [State.withdraw]; repeat' split
  all_goals simp
@[simp] theorem State.withdraw_pending (s : State) (b : BayNo) (w : WithdrawReason) : (s.withdraw b w).pending = s.pending := by
  simp only [State.withdraw]; repeat' split
  all_goals simp

/-! ### requeue -/

@[simp] theorem State.requeue_opState (s : State) (n : Nat) (b : BayNo) : (s.requeue n b).opState = s.opState := by
  simp only [State.requeue]; repeat' split
  all_goals simp
@[simp] theorem State.requeue_deviceSeconds (s : State) (n : Nat) (b : BayNo) : (s.requeue n b).deviceSeconds = s.deviceSeconds := by
  simp only [State.requeue]; repeat' split
  all_goals simp
@[simp] theorem State.requeue_timers (s : State) (n : Nat) (b : BayNo) : (s.requeue n b).timers = s.timers := by
  simp only [State.requeue]; repeat' split
  all_goals simp
@[simp] theorem State.requeue_admission (s : State) (n : Nat) (b : BayNo) : (s.requeue n b).admission = s.admission := by
  simp only [State.requeue]; repeat' split
  all_goals simp
@[simp] theorem State.requeue_ticketCounter (s : State) (n : Nat) (b : BayNo) : (s.requeue n b).ticketCounter = s.ticketCounter := by
  simp only [State.requeue]; repeat' split
  all_goals simp
@[simp] theorem State.requeue_booking (s : State) (n : Nat) (b : BayNo) : (s.requeue n b).booking = s.booking := by
  simp only [State.requeue]; repeat' split
  all_goals simp
@[simp] theorem State.requeue_power (s : State) (n : Nat) (b : BayNo) : (s.requeue n b).power = s.power := by
  simp only [State.requeue]; repeat' split
  all_goals simp
@[simp] theorem State.requeue_bus (s : State) (n : Nat) (b : BayNo) : (s.requeue n b).bus = s.bus := by
  simp only [State.requeue]; repeat' split
  all_goals simp
@[simp] theorem State.requeue_ports (s : State) (n : Nat) (b : BayNo) : (s.requeue n b).ports = s.ports := by
  simp only [State.requeue]; repeat' split
  all_goals simp
@[simp] theorem State.requeue_pending (s : State) (n : Nat) (b : BayNo) : (s.requeue n b).pending = s.pending := by
  simp only [State.requeue]; repeat' split
  all_goals simp

/-! ### settleFree -/

@[simp] theorem State.settleFree_opState (s : State) (b : BayNo) : (s.settleFree b).opState = s.opState := by
  simp only [State.settleFree]; repeat' split
  all_goals simp
@[simp] theorem State.settleFree_deviceSeconds (s : State) (b : BayNo) : (s.settleFree b).deviceSeconds = s.deviceSeconds := by
  simp only [State.settleFree]; repeat' split
  all_goals simp
@[simp] theorem State.settleFree_timers (s : State) (b : BayNo) : (s.settleFree b).timers = s.timers := by
  simp only [State.settleFree]; repeat' split
  all_goals simp
@[simp] theorem State.settleFree_admission (s : State) (b : BayNo) : (s.settleFree b).admission = s.admission := by
  simp only [State.settleFree]; repeat' split
  all_goals simp
@[simp] theorem State.settleFree_tickets (s : State) (b : BayNo) : (s.settleFree b).tickets = s.tickets := by
  simp only [State.settleFree]; repeat' split
  all_goals simp
@[simp] theorem State.settleFree_ticketCounter (s : State) (b : BayNo) : (s.settleFree b).ticketCounter = s.ticketCounter := by
  simp only [State.settleFree]; repeat' split
  all_goals simp
@[simp] theorem State.settleFree_pools (s : State) (b : BayNo) : (s.settleFree b).pools = s.pools := by
  simp only [State.settleFree]; repeat' split
  all_goals simp
@[simp] theorem State.settleFree_booking (s : State) (b : BayNo) : (s.settleFree b).booking = s.booking := by
  simp only [State.settleFree]; repeat' split
  all_goals simp
@[simp] theorem State.settleFree_power (s : State) (b : BayNo) : (s.settleFree b).power = s.power := by
  simp only [State.settleFree]; repeat' split
  all_goals simp
@[simp] theorem State.settleFree_bus (s : State) (b : BayNo) : (s.settleFree b).bus = s.bus := by
  simp only [State.settleFree]; repeat' split
  all_goals simp
@[simp] theorem State.settleFree_ports (s : State) (b : BayNo) : (s.settleFree b).ports = s.ports := by
  simp only [State.settleFree]; repeat' split
  all_goals simp
@[simp] theorem State.settleFree_pending (s : State) (b : BayNo) : (s.settleFree b).pending = s.pending := by
  simp only [State.settleFree]; repeat' split
  all_goals simp

/-! ### matchIfFree -/

@[simp] theorem State.matchIfFree_opState (s : State) (b : BayNo) : (s.matchIfFree b).opState = s.opState := by
  simp only [State.matchIfFree]; repeat' split
  all_goals simp
@[simp] theorem State.matchIfFree_deviceSeconds (s : State) (b : BayNo) : (s.matchIfFree b).deviceSeconds = s.deviceSeconds := by
  simp only [State.matchIfFree]; repeat' split
  all_goals simp
@[simp] theorem State.matchIfFree_timers (s : State) (b : BayNo) : (s.matchIfFree b).timers = s.timers := by
  simp only [State.matchIfFree]; repeat' split
  all_goals simp
@[simp] theorem State.matchIfFree_admission (s : State) (b : BayNo) : (s.matchIfFree b).admission = s.admission := by
  simp only [State.matchIfFree]; repeat' split
  all_goals simp
@[simp] theorem State.matchIfFree_ticketCounter (s : State) (b : BayNo) : (s.matchIfFree b).ticketCounter = s.ticketCounter := by
  simp only [State.matchIfFree]; repeat' split
  all_goals simp
@[simp] theorem State.matchIfFree_booking (s : State) (b : BayNo) : (s.matchIfFree b).booking = s.booking := by
  simp only [State.matchIfFree]; repeat' split
  all_goals simp
@[simp] theorem State.matchIfFree_power (s : State) (b : BayNo) : (s.matchIfFree b).power = s.power := by
  simp only [State.matchIfFree]; repeat' split
  all_goals simp
@[simp] theorem State.matchIfFree_bus (s : State) (b : BayNo) : (s.matchIfFree b).bus = s.bus := by
  simp only [State.matchIfFree]; repeat' split
  all_goals simp
@[simp] theorem State.matchIfFree_ports (s : State) (b : BayNo) : (s.matchIfFree b).ports = s.ports := by
  simp only [State.matchIfFree]; repeat' split
  all_goals simp
@[simp] theorem State.matchIfFree_pending (s : State) (b : BayNo) : (s.matchIfFree b).pending = s.pending := by
  simp only [State.matchIfFree]; repeat' split
  all_goals simp

/-! ### enterFree -/

@[simp] theorem State.enterFree_opState (s : State) (b : BayNo) : (s.enterFree b).opState = s.opState := by
  simp [State.enterFree]
@[simp] theorem State.enterFree_deviceSeconds (s : State) (b : BayNo) : (s.enterFree b).deviceSeconds = s.deviceSeconds := by
  simp [State.enterFree]
@[simp] theorem State.enterFree_timers (s : State) (b : BayNo) : (s.enterFree b).timers = s.timers := by
  simp [State.enterFree]
@[simp] theorem State.enterFree_admission (s : State) (b : BayNo) : (s.enterFree b).admission = s.admission := by
  simp [State.enterFree]
@[simp] theorem State.enterFree_ticketCounter (s : State) (b : BayNo) : (s.enterFree b).ticketCounter = s.ticketCounter := by
  simp [State.enterFree]
@[simp] theorem State.enterFree_booking (s : State) (b : BayNo) : (s.enterFree b).booking = s.booking := by
  simp [State.enterFree]
@[simp] theorem State.enterFree_power (s : State) (b : BayNo) : (s.enterFree b).power = s.power := by
  simp [State.enterFree]
@[simp] theorem State.enterFree_bus (s : State) (b : BayNo) : (s.enterFree b).bus = s.bus := by
  simp [State.enterFree]
@[simp] theorem State.enterFree_ports (s : State) (b : BayNo) : (s.enterFree b).ports = s.ports := by
  simp [State.enterFree]
@[simp] theorem State.enterFree_pending (s : State) (b : BayNo) : (s.enterFree b).pending = s.pending := by
  simp [State.enterFree]

/-! ### openSession -/

@[simp] theorem State.openSession_opState (s : State) (b : BayNo) (n : Nat) : (s.openSession b n).opState = s.opState := by
  simp [State.openSession]
@[simp] theorem State.openSession_deviceSeconds (s : State) (b : BayNo) (n : Nat) : (s.openSession b n).deviceSeconds = s.deviceSeconds := by
  simp [State.openSession]
@[simp] theorem State.openSession_timers (s : State) (b : BayNo) (n : Nat) : (s.openSession b n).timers = s.timers := by
  simp [State.openSession]
@[simp] theorem State.openSession_ticketCounter (s : State) (b : BayNo) (n : Nat) : (s.openSession b n).ticketCounter = s.ticketCounter := by
  simp [State.openSession]
@[simp] theorem State.openSession_pools (s : State) (b : BayNo) (n : Nat) : (s.openSession b n).pools = s.pools := by
  simp [State.openSession]
@[simp] theorem State.openSession_booking (s : State) (b : BayNo) (n : Nat) : (s.openSession b n).booking = s.booking := by
  simp [State.openSession]
@[simp] theorem State.openSession_bus (s : State) (b : BayNo) (n : Nat) : (s.openSession b n).bus = s.bus := by
  simp [State.openSession]
@[simp] theorem State.openSession_ports (s : State) (b : BayNo) (n : Nat) : (s.openSession b n).ports = s.ports := by
  simp [State.openSession]
@[simp] theorem State.openSession_pending (s : State) (b : BayNo) (n : Nat) : (s.openSession b n).pending = s.pending := by
  simp [State.openSession]

/-! ### plugIn -/

@[simp] theorem State.plugIn_opState (s : State) (b : BayNo) : (s.plugIn b).opState = s.opState := by
  simp only [State.plugIn]; repeat' split
  all_goals simp
@[simp] theorem State.plugIn_deviceSeconds (s : State) (b : BayNo) : (s.plugIn b).deviceSeconds = s.deviceSeconds := by
  simp only [State.plugIn]; repeat' split
  all_goals simp
@[simp] theorem State.plugIn_timers (s : State) (b : BayNo) : (s.plugIn b).timers = s.timers := by
  simp only [State.plugIn]; repeat' split
  all_goals simp
@[simp] theorem State.plugIn_pools (s : State) (b : BayNo) : (s.plugIn b).pools = s.pools := by
  simp only [State.plugIn]; repeat' split
  all_goals simp
@[simp] theorem State.plugIn_booking (s : State) (b : BayNo) : (s.plugIn b).booking = s.booking := by
  simp only [State.plugIn]; repeat' split
  all_goals simp
@[simp] theorem State.plugIn_bus (s : State) (b : BayNo) : (s.plugIn b).bus = s.bus := by
  simp only [State.plugIn]; repeat' split
  all_goals simp
@[simp] theorem State.plugIn_ports (s : State) (b : BayNo) : (s.plugIn b).ports = s.ports := by
  simp only [State.plugIn]; repeat' split
  all_goals simp
@[simp] theorem State.plugIn_pending (s : State) (b : BayNo) : (s.plugIn b).pending = s.pending := by
  simp only [State.plugIn]; repeat' split
  all_goals simp

/-! ### plugInIfPlugged -/

@[simp] theorem State.plugInIfPlugged_opState (s : State) (b : BayNo) : (s.plugInIfPlugged b).opState = s.opState := by
  simp only [State.plugInIfPlugged]; repeat' split
  all_goals simp
@[simp] theorem State.plugInIfPlugged_deviceSeconds (s : State) (b : BayNo) : (s.plugInIfPlugged b).deviceSeconds = s.deviceSeconds := by
  simp only [State.plugInIfPlugged]; repeat' split
  all_goals simp
@[simp] theorem State.plugInIfPlugged_timers (s : State) (b : BayNo) : (s.plugInIfPlugged b).timers = s.timers := by
  simp only [State.plugInIfPlugged]; repeat' split
  all_goals simp
@[simp] theorem State.plugInIfPlugged_pools (s : State) (b : BayNo) : (s.plugInIfPlugged b).pools = s.pools := by
  simp only [State.plugInIfPlugged]; repeat' split
  all_goals simp
@[simp] theorem State.plugInIfPlugged_booking (s : State) (b : BayNo) : (s.plugInIfPlugged b).booking = s.booking := by
  simp only [State.plugInIfPlugged]; repeat' split
  all_goals simp
@[simp] theorem State.plugInIfPlugged_bus (s : State) (b : BayNo) : (s.plugInIfPlugged b).bus = s.bus := by
  simp only [State.plugInIfPlugged]; repeat' split
  all_goals simp
@[simp] theorem State.plugInIfPlugged_ports (s : State) (b : BayNo) : (s.plugInIfPlugged b).ports = s.ports := by
  simp only [State.plugInIfPlugged]; repeat' split
  all_goals simp
@[simp] theorem State.plugInIfPlugged_pending (s : State) (b : BayNo) : (s.plugInIfPlugged b).pending = s.pending := by
  simp only [State.plugInIfPlugged]; repeat' split
  all_goals simp

/-! ### placeAt -/

@[simp] theorem State.placeAt_opState (s : State) (b : BayNo) : (s.placeAt b).opState = s.opState := by
  simp only [State.placeAt]; repeat' split
  all_goals simp
@[simp] theorem State.placeAt_deviceSeconds (s : State) (b : BayNo) : (s.placeAt b).deviceSeconds = s.deviceSeconds := by
  simp only [State.placeAt]; repeat' split
  all_goals simp
@[simp] theorem State.placeAt_timers (s : State) (b : BayNo) : (s.placeAt b).timers = s.timers := by
  simp only [State.placeAt]; repeat' split
  all_goals simp
@[simp] theorem State.placeAt_admission (s : State) (b : BayNo) : (s.placeAt b).admission = s.admission := by
  simp only [State.placeAt]; repeat' split
  all_goals simp
@[simp] theorem State.placeAt_tickets (s : State) (b : BayNo) : (s.placeAt b).tickets = s.tickets := by
  simp only [State.placeAt]; repeat' split
  all_goals simp
@[simp] theorem State.placeAt_ticketCounter (s : State) (b : BayNo) : (s.placeAt b).ticketCounter = s.ticketCounter := by
  simp only [State.placeAt]; repeat' split
  all_goals simp
@[simp] theorem State.placeAt_pools (s : State) (b : BayNo) : (s.placeAt b).pools = s.pools := by
  simp only [State.placeAt]; repeat' split
  all_goals simp
@[simp] theorem State.placeAt_booking (s : State) (b : BayNo) : (s.placeAt b).booking = s.booking := by
  simp only [State.placeAt]; repeat' split
  all_goals simp
@[simp] theorem State.placeAt_power (s : State) (b : BayNo) : (s.placeAt b).power = s.power := by
  simp only [State.placeAt]; repeat' split
  all_goals simp
@[simp] theorem State.placeAt_bus (s : State) (b : BayNo) : (s.placeAt b).bus = s.bus := by
  simp only [State.placeAt]; repeat' split
  all_goals simp
@[simp] theorem State.placeAt_ports (s : State) (b : BayNo) : (s.placeAt b).ports = s.ports := by
  simp only [State.placeAt]; repeat' split
  all_goals simp
@[simp] theorem State.placeAt_pending (s : State) (b : BayNo) : (s.placeAt b).pending = s.pending := by
  simp only [State.placeAt]; repeat' split
  all_goals simp

/-! ### place -/

@[simp] theorem State.place_opState (s : State) (b : BayNo) : (s.place b).opState = s.opState := by
  simp [State.place]
@[simp] theorem State.place_deviceSeconds (s : State) (b : BayNo) : (s.place b).deviceSeconds = s.deviceSeconds := by
  simp [State.place]
@[simp] theorem State.place_timers (s : State) (b : BayNo) : (s.place b).timers = s.timers := by
  simp [State.place]
@[simp] theorem State.place_booking (s : State) (b : BayNo) : (s.place b).booking = s.booking := by
  simp [State.place]
@[simp] theorem State.place_bus (s : State) (b : BayNo) : (s.place b).bus = s.bus := by
  simp [State.place]
@[simp] theorem State.place_ports (s : State) (b : BayNo) : (s.place b).ports = s.ports := by
  simp [State.place]
@[simp] theorem State.place_pending (s : State) (b : BayNo) : (s.place b).pending = s.pending := by
  simp [State.place]

/-! ### placeClosed -/

@[simp] theorem State.placeClosed_opState (s : State) (b : BayNo) : (s.placeClosed b).opState = s.opState := by
  simp [State.placeClosed]
@[simp] theorem State.placeClosed_deviceSeconds (s : State) (b : BayNo) : (s.placeClosed b).deviceSeconds = s.deviceSeconds := by
  simp [State.placeClosed]
@[simp] theorem State.placeClosed_timers (s : State) (b : BayNo) : (s.placeClosed b).timers = s.timers := by
  simp [State.placeClosed]
@[simp] theorem State.placeClosed_admission (s : State) (b : BayNo) : (s.placeClosed b).admission = s.admission := by
  simp [State.placeClosed]
@[simp] theorem State.placeClosed_ticketCounter (s : State) (b : BayNo) : (s.placeClosed b).ticketCounter = s.ticketCounter := by
  simp [State.placeClosed]
@[simp] theorem State.placeClosed_booking (s : State) (b : BayNo) : (s.placeClosed b).booking = s.booking := by
  simp [State.placeClosed]
@[simp] theorem State.placeClosed_power (s : State) (b : BayNo) : (s.placeClosed b).power = s.power := by
  simp [State.placeClosed]
@[simp] theorem State.placeClosed_bus (s : State) (b : BayNo) : (s.placeClosed b).bus = s.bus := by
  simp [State.placeClosed]
@[simp] theorem State.placeClosed_ports (s : State) (b : BayNo) : (s.placeClosed b).ports = s.ports := by
  simp [State.placeClosed]
@[simp] theorem State.placeClosed_pending (s : State) (b : BayNo) : (s.placeClosed b).pending = s.pending := by
  simp [State.placeClosed]

/-! ### placeUnmatched -/

@[simp] theorem State.placeUnmatched_opState (s : State) (b : BayNo) : (s.placeUnmatched b).opState = s.opState := by
  simp [State.placeUnmatched]
@[simp] theorem State.placeUnmatched_deviceSeconds (s : State) (b : BayNo) : (s.placeUnmatched b).deviceSeconds = s.deviceSeconds := by
  simp [State.placeUnmatched]
@[simp] theorem State.placeUnmatched_timers (s : State) (b : BayNo) : (s.placeUnmatched b).timers = s.timers := by
  simp [State.placeUnmatched]
@[simp] theorem State.placeUnmatched_pools (s : State) (b : BayNo) : (s.placeUnmatched b).pools = s.pools := by
  simp [State.placeUnmatched]
@[simp] theorem State.placeUnmatched_booking (s : State) (b : BayNo) : (s.placeUnmatched b).booking = s.booking := by
  simp [State.placeUnmatched]
@[simp] theorem State.placeUnmatched_bus (s : State) (b : BayNo) : (s.placeUnmatched b).bus = s.bus := by
  simp [State.placeUnmatched]
@[simp] theorem State.placeUnmatched_ports (s : State) (b : BayNo) : (s.placeUnmatched b).ports = s.ports := by
  simp [State.placeUnmatched]
@[simp] theorem State.placeUnmatched_pending (s : State) (b : BayNo) : (s.placeUnmatched b).pending = s.pending := by
  simp [State.placeUnmatched]

/-! ### suspend -/

@[simp] theorem State.suspend_opState (s : State) (b : BayNo) : (s.suspend b).opState = s.opState := by
  simp [State.suspend]
@[simp] theorem State.suspend_deviceSeconds (s : State) (b : BayNo) : (s.suspend b).deviceSeconds = s.deviceSeconds := by
  simp [State.suspend]
@[simp] theorem State.suspend_timers (s : State) (b : BayNo) : (s.suspend b).timers = s.timers := by
  simp [State.suspend]
@[simp] theorem State.suspend_admission (s : State) (b : BayNo) : (s.suspend b).admission = s.admission := by
  simp [State.suspend]
@[simp] theorem State.suspend_tickets (s : State) (b : BayNo) : (s.suspend b).tickets = s.tickets := by
  simp [State.suspend]
@[simp] theorem State.suspend_ticketCounter (s : State) (b : BayNo) : (s.suspend b).ticketCounter = s.ticketCounter := by
  simp [State.suspend]
@[simp] theorem State.suspend_pools (s : State) (b : BayNo) : (s.suspend b).pools = s.pools := by
  simp [State.suspend]
@[simp] theorem State.suspend_booking (s : State) (b : BayNo) : (s.suspend b).booking = s.booking := by
  simp [State.suspend]
@[simp] theorem State.suspend_bus (s : State) (b : BayNo) : (s.suspend b).bus = s.bus := by
  simp [State.suspend]
@[simp] theorem State.suspend_ports (s : State) (b : BayNo) : (s.suspend b).ports = s.ports := by
  simp [State.suspend]
@[simp] theorem State.suspend_pending (s : State) (b : BayNo) : (s.suspend b).pending = s.pending := by
  simp [State.suspend]

/-! ### resume -/

@[simp] theorem State.resume_opState (s : State) (b : BayNo) : (s.resume b).opState = s.opState := by
  simp [State.resume]
@[simp] theorem State.resume_deviceSeconds (s : State) (b : BayNo) : (s.resume b).deviceSeconds = s.deviceSeconds := by
  simp [State.resume]
@[simp] theorem State.resume_timers (s : State) (b : BayNo) : (s.resume b).timers = s.timers := by
  simp [State.resume]
@[simp] theorem State.resume_admission (s : State) (b : BayNo) : (s.resume b).admission = s.admission := by
  simp [State.resume]
@[simp] theorem State.resume_tickets (s : State) (b : BayNo) : (s.resume b).tickets = s.tickets := by
  simp [State.resume]
@[simp] theorem State.resume_ticketCounter (s : State) (b : BayNo) : (s.resume b).ticketCounter = s.ticketCounter := by
  simp [State.resume]
@[simp] theorem State.resume_pools (s : State) (b : BayNo) : (s.resume b).pools = s.pools := by
  simp [State.resume]
@[simp] theorem State.resume_booking (s : State) (b : BayNo) : (s.resume b).booking = s.booking := by
  simp [State.resume]
@[simp] theorem State.resume_bus (s : State) (b : BayNo) : (s.resume b).bus = s.bus := by
  simp [State.resume]
@[simp] theorem State.resume_ports (s : State) (b : BayNo) : (s.resume b).ports = s.ports := by
  simp [State.resume]
@[simp] theorem State.resume_pending (s : State) (b : BayNo) : (s.resume b).pending = s.pending := by
  simp [State.resume]

/-! ### noticeClosed -/

@[simp] theorem State.noticeClosed_opState (s : State) (b : BayNo) (k : Session) (w : CloseReason) : (s.noticeClosed b k w).opState = s.opState := by
  simp only [State.noticeClosed]; repeat' split
  all_goals simp
@[simp] theorem State.noticeClosed_deviceSeconds (s : State) (b : BayNo) (k : Session) (w : CloseReason) : (s.noticeClosed b k w).deviceSeconds = s.deviceSeconds := by
  simp only [State.noticeClosed]; repeat' split
  all_goals simp
@[simp] theorem State.noticeClosed_timers (s : State) (b : BayNo) (k : Session) (w : CloseReason) : (s.noticeClosed b k w).timers = s.timers := by
  simp only [State.noticeClosed]; repeat' split
  all_goals simp
@[simp] theorem State.noticeClosed_bays (s : State) (b : BayNo) (k : Session) (w : CloseReason) : (s.noticeClosed b k w).bays = s.bays := by
  simp only [State.noticeClosed]; repeat' split
  all_goals simp
@[simp] theorem State.noticeClosed_admission (s : State) (b : BayNo) (k : Session) (w : CloseReason) : (s.noticeClosed b k w).admission = s.admission := by
  simp only [State.noticeClosed]; repeat' split
  all_goals simp
@[simp] theorem State.noticeClosed_tickets (s : State) (b : BayNo) (k : Session) (w : CloseReason) : (s.noticeClosed b k w).tickets = s.tickets := by
  simp only [State.noticeClosed]; repeat' split
  all_goals simp
@[simp] theorem State.noticeClosed_ticketCounter (s : State) (b : BayNo) (k : Session) (w : CloseReason) : (s.noticeClosed b k w).ticketCounter = s.ticketCounter := by
  simp only [State.noticeClosed]; repeat' split
  all_goals simp
@[simp] theorem State.noticeClosed_pools (s : State) (b : BayNo) (k : Session) (w : CloseReason) : (s.noticeClosed b k w).pools = s.pools := by
  simp only [State.noticeClosed]; repeat' split
  all_goals simp
@[simp] theorem State.noticeClosed_booking (s : State) (b : BayNo) (k : Session) (w : CloseReason) : (s.noticeClosed b k w).booking = s.booking := by
  simp only [State.noticeClosed]; repeat' split
  all_goals simp
@[simp] theorem State.noticeClosed_power (s : State) (b : BayNo) (k : Session) (w : CloseReason) : (s.noticeClosed b k w).power = s.power := by
  simp only [State.noticeClosed]; repeat' split
  all_goals simp
@[simp] theorem State.noticeClosed_bus (s : State) (b : BayNo) (k : Session) (w : CloseReason) : (s.noticeClosed b k w).bus = s.bus := by
  simp only [State.noticeClosed]; repeat' split
  all_goals simp
@[simp] theorem State.noticeClosed_ports (s : State) (b : BayNo) (k : Session) (w : CloseReason) : (s.noticeClosed b k w).ports = s.ports := by
  simp only [State.noticeClosed]; repeat' split
  all_goals simp
@[simp] theorem State.noticeClosed_pending (s : State) (b : BayNo) (k : Session) (w : CloseReason) : (s.noticeClosed b k w).pending = s.pending := by
  simp only [State.noticeClosed]; repeat' split
  all_goals simp

/-! ### endSession -/

@[simp] theorem State.endSession_opState (s : State) (b : BayNo) (k : Session) (w : CloseReason) : (s.endSession b k w).opState = s.opState := by
  simp [State.endSession]
@[simp] theorem State.endSession_deviceSeconds (s : State) (b : BayNo) (k : Session) (w : CloseReason) : (s.endSession b k w).deviceSeconds = s.deviceSeconds := by
  simp [State.endSession]
@[simp] theorem State.endSession_timers (s : State) (b : BayNo) (k : Session) (w : CloseReason) : (s.endSession b k w).timers = s.timers := by
  simp [State.endSession]
@[simp] theorem State.endSession_ticketCounter (s : State) (b : BayNo) (k : Session) (w : CloseReason) : (s.endSession b k w).ticketCounter = s.ticketCounter := by
  simp [State.endSession]
@[simp] theorem State.endSession_booking (s : State) (b : BayNo) (k : Session) (w : CloseReason) : (s.endSession b k w).booking = s.booking := by
  simp [State.endSession]
@[simp] theorem State.endSession_bus (s : State) (b : BayNo) (k : Session) (w : CloseReason) : (s.endSession b k w).bus = s.bus := by
  simp [State.endSession]
@[simp] theorem State.endSession_ports (s : State) (b : BayNo) (k : Session) (w : CloseReason) : (s.endSession b k w).ports = s.ports := by
  simp [State.endSession]
@[simp] theorem State.endSession_pending (s : State) (b : BayNo) (k : Session) (w : CloseReason) : (s.endSession b k w).pending = s.pending := by
  simp [State.endSession]

/-! ### closePlaced -/

@[simp] theorem State.closePlaced_opState (s : State) (b : BayNo) (w : CloseReason) : (s.closePlaced b w).opState = s.opState := by
  simp only [State.closePlaced]; repeat' split
  all_goals simp
@[simp] theorem State.closePlaced_deviceSeconds (s : State) (b : BayNo) (w : CloseReason) : (s.closePlaced b w).deviceSeconds = s.deviceSeconds := by
  simp only [State.closePlaced]; repeat' split
  all_goals simp
@[simp] theorem State.closePlaced_timers (s : State) (b : BayNo) (w : CloseReason) : (s.closePlaced b w).timers = s.timers := by
  simp only [State.closePlaced]; repeat' split
  all_goals simp
@[simp] theorem State.closePlaced_ticketCounter (s : State) (b : BayNo) (w : CloseReason) : (s.closePlaced b w).ticketCounter = s.ticketCounter := by
  simp only [State.closePlaced]; repeat' split
  all_goals simp
@[simp] theorem State.closePlaced_booking (s : State) (b : BayNo) (w : CloseReason) : (s.closePlaced b w).booking = s.booking := by
  simp only [State.closePlaced]; repeat' split
  all_goals simp
@[simp] theorem State.closePlaced_bus (s : State) (b : BayNo) (w : CloseReason) : (s.closePlaced b w).bus = s.bus := by
  simp only [State.closePlaced]; repeat' split
  all_goals simp
@[simp] theorem State.closePlaced_ports (s : State) (b : BayNo) (w : CloseReason) : (s.closePlaced b w).ports = s.ports := by
  simp only [State.closePlaced]; repeat' split
  all_goals simp
@[simp] theorem State.closePlaced_pending (s : State) (b : BayNo) (w : CloseReason) : (s.closePlaced b w).pending = s.pending := by
  simp only [State.closePlaced]; repeat' split
  all_goals simp

/-! ### closeLost -/

@[simp] theorem State.closeLost_opState (s : State) (b : BayNo) : (s.closeLost b).opState = s.opState := by
  simp only [State.closeLost]; repeat' split
  all_goals simp
@[simp] theorem State.closeLost_deviceSeconds (s : State) (b : BayNo) : (s.closeLost b).deviceSeconds = s.deviceSeconds := by
  simp only [State.closeLost]; repeat' split
  all_goals simp
@[simp] theorem State.closeLost_timers (s : State) (b : BayNo) : (s.closeLost b).timers = s.timers := by
  simp only [State.closeLost]; repeat' split
  all_goals simp
@[simp] theorem State.closeLost_ticketCounter (s : State) (b : BayNo) : (s.closeLost b).ticketCounter = s.ticketCounter := by
  simp only [State.closeLost]; repeat' split
  all_goals simp
@[simp] theorem State.closeLost_booking (s : State) (b : BayNo) : (s.closeLost b).booking = s.booking := by
  simp only [State.closeLost]; repeat' split
  all_goals simp
@[simp] theorem State.closeLost_bus (s : State) (b : BayNo) : (s.closeLost b).bus = s.bus := by
  simp only [State.closeLost]; repeat' split
  all_goals simp
@[simp] theorem State.closeLost_ports (s : State) (b : BayNo) : (s.closeLost b).ports = s.ports := by
  simp only [State.closeLost]; repeat' split
  all_goals simp
@[simp] theorem State.closeLost_pending (s : State) (b : BayNo) : (s.closeLost b).pending = s.pending := by
  simp only [State.closeLost]; repeat' split
  all_goals simp

/-! ### enterFaulted -/

@[simp] theorem State.enterFaulted_opState (s : State) (b : BayNo) (c : FaultCode) : (s.enterFaulted b c).opState = s.opState := by
  simp [State.enterFaulted]
@[simp] theorem State.enterFaulted_deviceSeconds (s : State) (b : BayNo) (c : FaultCode) : (s.enterFaulted b c).deviceSeconds = s.deviceSeconds := by
  simp [State.enterFaulted]
@[simp] theorem State.enterFaulted_timers (s : State) (b : BayNo) (c : FaultCode) : (s.enterFaulted b c).timers = s.timers := by
  simp [State.enterFaulted]
@[simp] theorem State.enterFaulted_admission (s : State) (b : BayNo) (c : FaultCode) : (s.enterFaulted b c).admission = s.admission := by
  simp [State.enterFaulted]
@[simp] theorem State.enterFaulted_tickets (s : State) (b : BayNo) (c : FaultCode) : (s.enterFaulted b c).tickets = s.tickets := by
  simp [State.enterFaulted]
@[simp] theorem State.enterFaulted_ticketCounter (s : State) (b : BayNo) (c : FaultCode) : (s.enterFaulted b c).ticketCounter = s.ticketCounter := by
  simp [State.enterFaulted]
@[simp] theorem State.enterFaulted_pools (s : State) (b : BayNo) (c : FaultCode) : (s.enterFaulted b c).pools = s.pools := by
  simp [State.enterFaulted]
@[simp] theorem State.enterFaulted_booking (s : State) (b : BayNo) (c : FaultCode) : (s.enterFaulted b c).booking = s.booking := by
  simp [State.enterFaulted]
@[simp] theorem State.enterFaulted_power (s : State) (b : BayNo) (c : FaultCode) : (s.enterFaulted b c).power = s.power := by
  simp [State.enterFaulted]
@[simp] theorem State.enterFaulted_bus (s : State) (b : BayNo) (c : FaultCode) : (s.enterFaulted b c).bus = s.bus := by
  simp [State.enterFaulted]
@[simp] theorem State.enterFaulted_ports (s : State) (b : BayNo) (c : FaultCode) : (s.enterFaulted b c).ports = s.ports := by
  simp [State.enterFaulted]
@[simp] theorem State.enterFaulted_pending (s : State) (b : BayNo) (c : FaultCode) : (s.enterFaulted b c).pending = s.pending := by
  simp [State.enterFaulted]

/-! ### freeWith -/

@[simp] theorem State.freeWith_opState (s : State) (n : Nat) (m : Notice) : (s.freeWith n m).opState = s.opState := by
  simp [State.freeWith]
@[simp] theorem State.freeWith_deviceSeconds (s : State) (n : Nat) (m : Notice) : (s.freeWith n m).deviceSeconds = s.deviceSeconds := by
  simp [State.freeWith]
@[simp] theorem State.freeWith_timers (s : State) (n : Nat) (m : Notice) : (s.freeWith n m).timers = s.timers := by
  simp [State.freeWith]
@[simp] theorem State.freeWith_admission (s : State) (n : Nat) (m : Notice) : (s.freeWith n m).admission = s.admission := by
  simp [State.freeWith]
@[simp] theorem State.freeWith_ticketCounter (s : State) (n : Nat) (m : Notice) : (s.freeWith n m).ticketCounter = s.ticketCounter := by
  simp [State.freeWith]
@[simp] theorem State.freeWith_booking (s : State) (n : Nat) (m : Notice) : (s.freeWith n m).booking = s.booking := by
  simp [State.freeWith]
@[simp] theorem State.freeWith_power (s : State) (n : Nat) (m : Notice) : (s.freeWith n m).power = s.power := by
  simp [State.freeWith]
@[simp] theorem State.freeWith_bus (s : State) (n : Nat) (m : Notice) : (s.freeWith n m).bus = s.bus := by
  simp [State.freeWith]
@[simp] theorem State.freeWith_ports (s : State) (n : Nat) (m : Notice) : (s.freeWith n m).ports = s.ports := by
  simp [State.freeWith]
@[simp] theorem State.freeWith_pending (s : State) (n : Nat) (m : Notice) : (s.freeWith n m).pending = s.pending := by
  simp [State.freeWith]

/-! ### headFault -/

@[simp] theorem State.headFault_opState (s : State) (b : BayNo) (c : FaultCode) : (s.headFault b c).opState = s.opState := by
  simp only [State.headFault]; repeat' split
  all_goals simp
@[simp] theorem State.headFault_deviceSeconds (s : State) (b : BayNo) (c : FaultCode) : (s.headFault b c).deviceSeconds = s.deviceSeconds := by
  simp only [State.headFault]; repeat' split
  all_goals simp
@[simp] theorem State.headFault_timers (s : State) (b : BayNo) (c : FaultCode) : (s.headFault b c).timers = s.timers := by
  simp only [State.headFault]; repeat' split
  all_goals simp
@[simp] theorem State.headFault_ticketCounter (s : State) (b : BayNo) (c : FaultCode) : (s.headFault b c).ticketCounter = s.ticketCounter := by
  simp only [State.headFault]; repeat' split
  all_goals simp
@[simp] theorem State.headFault_booking (s : State) (b : BayNo) (c : FaultCode) : (s.headFault b c).booking = s.booking := by
  simp only [State.headFault]; repeat' split
  all_goals simp
@[simp] theorem State.headFault_bus (s : State) (b : BayNo) (c : FaultCode) : (s.headFault b c).bus = s.bus := by
  simp only [State.headFault]; repeat' split
  all_goals simp
@[simp] theorem State.headFault_ports (s : State) (b : BayNo) (c : FaultCode) : (s.headFault b c).ports = s.ports := by
  simp only [State.headFault]; repeat' split
  all_goals simp
@[simp] theorem State.headFault_pending (s : State) (b : BayNo) (c : FaultCode) : (s.headFault b c).pending = s.pending := by
  simp only [State.headFault]; repeat' split
  all_goals simp

/-! ### loseHead -/

@[simp] theorem State.loseHead_opState (s : State) (b : BayNo) : (s.loseHead b).opState = s.opState := by
  simp only [State.loseHead]; repeat' split
  all_goals simp
@[simp] theorem State.loseHead_deviceSeconds (s : State) (b : BayNo) : (s.loseHead b).deviceSeconds = s.deviceSeconds := by
  simp only [State.loseHead]; repeat' split
  all_goals simp
@[simp] theorem State.loseHead_timers (s : State) (b : BayNo) : (s.loseHead b).timers = s.timers := by
  simp only [State.loseHead]; repeat' split
  all_goals simp
@[simp] theorem State.loseHead_admission (s : State) (b : BayNo) : (s.loseHead b).admission = s.admission := by
  simp only [State.loseHead]; repeat' split
  all_goals simp
@[simp] theorem State.loseHead_ticketCounter (s : State) (b : BayNo) : (s.loseHead b).ticketCounter = s.ticketCounter := by
  simp only [State.loseHead]; repeat' split
  all_goals simp
@[simp] theorem State.loseHead_booking (s : State) (b : BayNo) : (s.loseHead b).booking = s.booking := by
  simp only [State.loseHead]; repeat' split
  all_goals simp
@[simp] theorem State.loseHead_bus (s : State) (b : BayNo) : (s.loseHead b).bus = s.bus := by
  simp only [State.loseHead]; repeat' split
  all_goals simp
@[simp] theorem State.loseHead_ports (s : State) (b : BayNo) : (s.loseHead b).ports = s.ports := by
  simp only [State.loseHead]; repeat' split
  all_goals simp
@[simp] theorem State.loseHead_pending (s : State) (b : BayNo) : (s.loseHead b).pending = s.pending := by
  simp only [State.loseHead]; repeat' split
  all_goals simp

/-! ### dropBooking -/

@[simp] theorem State.dropBooking_opState (s : State) (b : BayNo) (n : Nat) : (s.dropBooking b n).opState = s.opState := by simp [State.dropBooking]
@[simp] theorem State.dropBooking_deviceSeconds (s : State) (b : BayNo) (n : Nat) : (s.dropBooking b n).deviceSeconds = s.deviceSeconds := by simp [State.dropBooking]
@[simp] theorem State.dropBooking_timers (s : State) (b : BayNo) (n : Nat) : (s.dropBooking b n).timers = s.timers := by simp [State.dropBooking]
@[simp] theorem State.dropBooking_bays (s : State) (b : BayNo) (n : Nat) : (s.dropBooking b n).bays = s.bays := by simp [State.dropBooking]
@[simp] theorem State.dropBooking_admission (s : State) (b : BayNo) (n : Nat) : (s.dropBooking b n).admission = s.admission := by simp [State.dropBooking]
@[simp] theorem State.dropBooking_tickets (s : State) (b : BayNo) (n : Nat) : (s.dropBooking b n).tickets = s.tickets := by simp [State.dropBooking]
@[simp] theorem State.dropBooking_ticketCounter (s : State) (b : BayNo) (n : Nat) : (s.dropBooking b n).ticketCounter = s.ticketCounter := by simp [State.dropBooking]
@[simp] theorem State.dropBooking_pools (s : State) (b : BayNo) (n : Nat) : (s.dropBooking b n).pools = s.pools := by simp [State.dropBooking]
@[simp] theorem State.dropBooking_power (s : State) (b : BayNo) (n : Nat) : (s.dropBooking b n).power = s.power := by simp [State.dropBooking]
@[simp] theorem State.dropBooking_bus (s : State) (b : BayNo) (n : Nat) : (s.dropBooking b n).bus = s.bus := by simp [State.dropBooking]
@[simp] theorem State.dropBooking_ports (s : State) (b : BayNo) (n : Nat) : (s.dropBooking b n).ports = s.ports := by simp [State.dropBooking]
@[simp] theorem State.dropBooking_queues (s : State) (b : BayNo) (n : Nat) : (s.dropBooking b n).queues = s.queues := by simp [State.dropBooking]
@[simp] theorem State.dropBooking_pending (s : State) (b : BayNo) (n : Nat) : (s.dropBooking b n).pending = s.pending := by simp [State.dropBooking]

/-! ### noticeDropped -/

@[simp] theorem State.noticeDropped_opState (s : State) (k : Booking) (w : DropReason) : (s.noticeDropped k w).opState = s.opState := by
  simp [State.noticeDropped]
@[simp] theorem State.noticeDropped_deviceSeconds (s : State) (k : Booking) (w : DropReason) : (s.noticeDropped k w).deviceSeconds = s.deviceSeconds := by
  simp [State.noticeDropped]
@[simp] theorem State.noticeDropped_timers (s : State) (k : Booking) (w : DropReason) : (s.noticeDropped k w).timers = s.timers := by
  simp [State.noticeDropped]
@[simp] theorem State.noticeDropped_bays (s : State) (k : Booking) (w : DropReason) : (s.noticeDropped k w).bays = s.bays := by
  simp [State.noticeDropped]
@[simp] theorem State.noticeDropped_admission (s : State) (k : Booking) (w : DropReason) : (s.noticeDropped k w).admission = s.admission := by
  simp [State.noticeDropped]
@[simp] theorem State.noticeDropped_tickets (s : State) (k : Booking) (w : DropReason) : (s.noticeDropped k w).tickets = s.tickets := by
  simp [State.noticeDropped]
@[simp] theorem State.noticeDropped_ticketCounter (s : State) (k : Booking) (w : DropReason) : (s.noticeDropped k w).ticketCounter = s.ticketCounter := by
  simp [State.noticeDropped]
@[simp] theorem State.noticeDropped_pools (s : State) (k : Booking) (w : DropReason) : (s.noticeDropped k w).pools = s.pools := by
  simp [State.noticeDropped]
@[simp] theorem State.noticeDropped_booking (s : State) (k : Booking) (w : DropReason) : (s.noticeDropped k w).booking = s.booking := by
  simp [State.noticeDropped]
@[simp] theorem State.noticeDropped_power (s : State) (k : Booking) (w : DropReason) : (s.noticeDropped k w).power = s.power := by
  simp [State.noticeDropped]
@[simp] theorem State.noticeDropped_bus (s : State) (k : Booking) (w : DropReason) : (s.noticeDropped k w).bus = s.bus := by
  simp [State.noticeDropped]
@[simp] theorem State.noticeDropped_ports (s : State) (k : Booking) (w : DropReason) : (s.noticeDropped k w).ports = s.ports := by
  simp [State.noticeDropped]
@[simp] theorem State.noticeDropped_pending (s : State) (k : Booking) (w : DropReason) : (s.noticeDropped k w).pending = s.pending := by
  simp [State.noticeDropped]

/-! ### displace -/

@[simp] theorem State.displace_opState (s : State) (b : BayNo) (k : Booking) : (s.displace b k).opState = s.opState := by
  simp only [State.displace]; repeat' split
  all_goals simp
@[simp] theorem State.displace_deviceSeconds (s : State) (b : BayNo) (k : Booking) : (s.displace b k).deviceSeconds = s.deviceSeconds := by
  simp only [State.displace]; repeat' split
  all_goals simp
@[simp] theorem State.displace_timers (s : State) (b : BayNo) (k : Booking) : (s.displace b k).timers = s.timers := by
  simp only [State.displace]; repeat' split
  all_goals simp
@[simp] theorem State.displace_admission (s : State) (b : BayNo) (k : Booking) : (s.displace b k).admission = s.admission := by
  simp only [State.displace]; repeat' split
  all_goals simp
@[simp] theorem State.displace_booking (s : State) (b : BayNo) (k : Booking) : (s.displace b k).booking = s.booking := by
  simp only [State.displace]; repeat' split
  all_goals simp
@[simp] theorem State.displace_power (s : State) (b : BayNo) (k : Booking) : (s.displace b k).power = s.power := by
  simp only [State.displace]; repeat' split
  all_goals simp
@[simp] theorem State.displace_bus (s : State) (b : BayNo) (k : Booking) : (s.displace b k).bus = s.bus := by
  simp only [State.displace]; repeat' split
  all_goals simp
@[simp] theorem State.displace_ports (s : State) (b : BayNo) (k : Booking) : (s.displace b k).ports = s.ports := by
  simp only [State.displace]; repeat' split
  all_goals simp
@[simp] theorem State.displace_pending (s : State) (b : BayNo) (k : Booking) : (s.displace b k).pending = s.pending := by
  simp only [State.displace]; repeat' split
  all_goals simp

/-! ### holdBooked -/

@[simp] theorem State.holdBooked_opState (s : State) (b : BayNo) (k : Booking) : (s.holdBooked b k).opState = s.opState := by
  simp [State.holdBooked]
@[simp] theorem State.holdBooked_deviceSeconds (s : State) (b : BayNo) (k : Booking) : (s.holdBooked b k).deviceSeconds = s.deviceSeconds := by
  simp [State.holdBooked]
@[simp] theorem State.holdBooked_timers (s : State) (b : BayNo) (k : Booking) : (s.holdBooked b k).timers = s.timers := by
  simp [State.holdBooked]
@[simp] theorem State.holdBooked_admission (s : State) (b : BayNo) (k : Booking) : (s.holdBooked b k).admission = s.admission := by
  simp [State.holdBooked]
@[simp] theorem State.holdBooked_pools (s : State) (b : BayNo) (k : Booking) : (s.holdBooked b k).pools = s.pools := by
  simp [State.holdBooked]
@[simp] theorem State.holdBooked_booking (s : State) (b : BayNo) (k : Booking) : (s.holdBooked b k).booking = s.booking := by
  simp [State.holdBooked]
@[simp] theorem State.holdBooked_power (s : State) (b : BayNo) (k : Booking) : (s.holdBooked b k).power = s.power := by
  simp [State.holdBooked]
@[simp] theorem State.holdBooked_bus (s : State) (b : BayNo) (k : Booking) : (s.holdBooked b k).bus = s.bus := by
  simp [State.holdBooked]
@[simp] theorem State.holdBooked_ports (s : State) (b : BayNo) (k : Booking) : (s.holdBooked b k).ports = s.ports := by
  simp [State.holdBooked]
@[simp] theorem State.holdBooked_pending (s : State) (b : BayNo) (k : Booking) : (s.holdBooked b k).pending = s.pending := by
  simp [State.holdBooked]

/-! ### activate -/

@[simp] theorem State.activate_opState (s : State) (b : BayNo) (k : Booking) : (s.activate b k).opState = s.opState := by
  simp only [State.activate]; repeat' split
  all_goals simp
@[simp] theorem State.activate_deviceSeconds (s : State) (b : BayNo) (k : Booking) : (s.activate b k).deviceSeconds = s.deviceSeconds := by
  simp only [State.activate]; repeat' split
  all_goals simp
@[simp] theorem State.activate_timers (s : State) (b : BayNo) (k : Booking) : (s.activate b k).timers = s.timers := by
  simp only [State.activate]; repeat' split
  all_goals simp
@[simp] theorem State.activate_admission (s : State) (b : BayNo) (k : Booking) : (s.activate b k).admission = s.admission := by
  simp only [State.activate]; repeat' split
  all_goals simp
@[simp] theorem State.activate_power (s : State) (b : BayNo) (k : Booking) : (s.activate b k).power = s.power := by
  simp only [State.activate]; repeat' split
  all_goals simp
@[simp] theorem State.activate_bus (s : State) (b : BayNo) (k : Booking) : (s.activate b k).bus = s.bus := by
  simp only [State.activate]; repeat' split
  all_goals simp
@[simp] theorem State.activate_ports (s : State) (b : BayNo) (k : Booking) : (s.activate b k).ports = s.ports := by
  simp only [State.activate]; repeat' split
  all_goals simp
@[simp] theorem State.activate_pending (s : State) (b : BayNo) (k : Booking) : (s.activate b k).pending = s.pending := by
  simp only [State.activate]; repeat' split
  all_goals simp

/-! ### activateEarly -/

@[simp] theorem State.activateEarly_opState (s : State) (b : BayNo) (k : Booking) : (s.activateEarly b k).opState = s.opState := by
  simp only [State.activateEarly]; repeat' split
  all_goals simp
@[simp] theorem State.activateEarly_deviceSeconds (s : State) (b : BayNo) (k : Booking) : (s.activateEarly b k).deviceSeconds = s.deviceSeconds := by
  simp only [State.activateEarly]; repeat' split
  all_goals simp
@[simp] theorem State.activateEarly_timers (s : State) (b : BayNo) (k : Booking) : (s.activateEarly b k).timers = s.timers := by
  simp only [State.activateEarly]; repeat' split
  all_goals simp
@[simp] theorem State.activateEarly_pools (s : State) (b : BayNo) (k : Booking) : (s.activateEarly b k).pools = s.pools := by
  simp only [State.activateEarly]; repeat' split
  all_goals simp
@[simp] theorem State.activateEarly_bus (s : State) (b : BayNo) (k : Booking) : (s.activateEarly b k).bus = s.bus := by
  simp only [State.activateEarly]; repeat' split
  all_goals simp
@[simp] theorem State.activateEarly_ports (s : State) (b : BayNo) (k : Booking) : (s.activateEarly b k).ports = s.ports := by
  simp only [State.activateEarly]; repeat' split
  all_goals simp
@[simp] theorem State.activateEarly_pending (s : State) (b : BayNo) (k : Booking) : (s.activateEarly b k).pending = s.pending := by
  simp only [State.activateEarly]; repeat' split
  all_goals simp

/-! ### stepSlot -/

@[simp] theorem State.stepSlot_opState (s : State) : s.stepSlot.opState = s.opState := by simp [State.stepSlot]
@[simp] theorem State.stepSlot_deviceSeconds (s : State) : s.stepSlot.deviceSeconds = s.deviceSeconds := by simp [State.stepSlot]
@[simp] theorem State.stepSlot_timers (s : State) : s.stepSlot.timers = s.timers := by simp [State.stepSlot]
@[simp] theorem State.stepSlot_bays (s : State) : s.stepSlot.bays = s.bays := by simp [State.stepSlot]
@[simp] theorem State.stepSlot_admission (s : State) : s.stepSlot.admission = s.admission := by simp [State.stepSlot]
@[simp] theorem State.stepSlot_tickets (s : State) : s.stepSlot.tickets = s.tickets := by simp [State.stepSlot]
@[simp] theorem State.stepSlot_ticketCounter (s : State) : s.stepSlot.ticketCounter = s.ticketCounter := by simp [State.stepSlot]
@[simp] theorem State.stepSlot_pools (s : State) : s.stepSlot.pools = s.pools := by simp [State.stepSlot]
@[simp] theorem State.stepSlot_power (s : State) : s.stepSlot.power = s.power := by simp [State.stepSlot]
@[simp] theorem State.stepSlot_bus (s : State) : s.stepSlot.bus = s.bus := by simp [State.stepSlot]
@[simp] theorem State.stepSlot_ports (s : State) : s.stepSlot.ports = s.ports := by simp [State.stepSlot]
@[simp] theorem State.stepSlot_queues (s : State) : s.stepSlot.queues = s.queues := by simp [State.stepSlot]
@[simp] theorem State.stepSlot_pending (s : State) : s.stepSlot.pending = s.pending := by simp [State.stepSlot]

/-! ### activateDue -/

@[simp] theorem State.activateDue_opState (s : State) (b : BayNo) : (s.activateDue b).opState = s.opState := by
  simp only [State.activateDue]; repeat' split
  all_goals simp
@[simp] theorem State.activateDue_deviceSeconds (s : State) (b : BayNo) : (s.activateDue b).deviceSeconds = s.deviceSeconds := by
  simp only [State.activateDue]; repeat' split
  all_goals simp
@[simp] theorem State.activateDue_timers (s : State) (b : BayNo) : (s.activateDue b).timers = s.timers := by
  simp only [State.activateDue]; repeat' split
  all_goals simp
@[simp] theorem State.activateDue_admission (s : State) (b : BayNo) : (s.activateDue b).admission = s.admission := by
  simp only [State.activateDue]; repeat' split
  all_goals simp
@[simp] theorem State.activateDue_power (s : State) (b : BayNo) : (s.activateDue b).power = s.power := by
  simp only [State.activateDue]; repeat' split
  all_goals simp
@[simp] theorem State.activateDue_bus (s : State) (b : BayNo) : (s.activateDue b).bus = s.bus := by
  simp only [State.activateDue]; repeat' split
  all_goals simp
@[simp] theorem State.activateDue_ports (s : State) (b : BayNo) : (s.activateDue b).ports = s.ports := by
  simp only [State.activateDue]; repeat' split
  all_goals simp
@[simp] theorem State.activateDue_pending (s : State) (b : BayNo) : (s.activateDue b).pending = s.pending := by
  simp only [State.activateDue]; repeat' split
  all_goals simp

/-! ### dropDue -/

@[simp] theorem State.dropDue_opState (s : State) (b : BayNo) : (s.dropDue b).opState = s.opState := by
  simp only [State.dropDue]; repeat' split
  all_goals simp
@[simp] theorem State.dropDue_deviceSeconds (s : State) (b : BayNo) : (s.dropDue b).deviceSeconds = s.deviceSeconds := by
  simp only [State.dropDue]; repeat' split
  all_goals simp
@[simp] theorem State.dropDue_timers (s : State) (b : BayNo) : (s.dropDue b).timers = s.timers := by
  simp only [State.dropDue]; repeat' split
  all_goals simp
@[simp] theorem State.dropDue_bays (s : State) (b : BayNo) : (s.dropDue b).bays = s.bays := by
  simp only [State.dropDue]; repeat' split
  all_goals simp
@[simp] theorem State.dropDue_admission (s : State) (b : BayNo) : (s.dropDue b).admission = s.admission := by
  simp only [State.dropDue]; repeat' split
  all_goals simp
@[simp] theorem State.dropDue_tickets (s : State) (b : BayNo) : (s.dropDue b).tickets = s.tickets := by
  simp only [State.dropDue]; repeat' split
  all_goals simp
@[simp] theorem State.dropDue_ticketCounter (s : State) (b : BayNo) : (s.dropDue b).ticketCounter = s.ticketCounter := by
  simp only [State.dropDue]; repeat' split
  all_goals simp
@[simp] theorem State.dropDue_pools (s : State) (b : BayNo) : (s.dropDue b).pools = s.pools := by
  simp only [State.dropDue]; repeat' split
  all_goals simp
@[simp] theorem State.dropDue_power (s : State) (b : BayNo) : (s.dropDue b).power = s.power := by
  simp only [State.dropDue]; repeat' split
  all_goals simp
@[simp] theorem State.dropDue_bus (s : State) (b : BayNo) : (s.dropDue b).bus = s.bus := by
  simp only [State.dropDue]; repeat' split
  all_goals simp
@[simp] theorem State.dropDue_ports (s : State) (b : BayNo) : (s.dropDue b).ports = s.ports := by
  simp only [State.dropDue]; repeat' split
  all_goals simp
@[simp] theorem State.dropDue_pending (s : State) (b : BayNo) : (s.dropDue b).pending = s.pending := by
  simp only [State.dropDue]; repeat' split
  all_goals simp

/-! ### matchConfigured -/

@[simp] theorem State.matchConfigured_opState (s : State) (q : PoolNo) : (s.matchConfigured q).opState = s.opState := by
  simp only [State.matchConfigured]; repeat' split
  all_goals simp
@[simp] theorem State.matchConfigured_deviceSeconds (s : State) (q : PoolNo) : (s.matchConfigured q).deviceSeconds = s.deviceSeconds := by
  simp only [State.matchConfigured]; repeat' split
  all_goals simp
@[simp] theorem State.matchConfigured_timers (s : State) (q : PoolNo) : (s.matchConfigured q).timers = s.timers := by
  simp only [State.matchConfigured]; repeat' split
  all_goals simp
@[simp] theorem State.matchConfigured_admission (s : State) (q : PoolNo) : (s.matchConfigured q).admission = s.admission := by
  simp only [State.matchConfigured]; repeat' split
  all_goals simp
@[simp] theorem State.matchConfigured_ticketCounter (s : State) (q : PoolNo) : (s.matchConfigured q).ticketCounter = s.ticketCounter := by
  simp only [State.matchConfigured]; repeat' split
  all_goals simp
@[simp] theorem State.matchConfigured_booking (s : State) (q : PoolNo) : (s.matchConfigured q).booking = s.booking := by
  simp only [State.matchConfigured]; repeat' split
  all_goals simp
@[simp] theorem State.matchConfigured_power (s : State) (q : PoolNo) : (s.matchConfigured q).power = s.power := by
  simp only [State.matchConfigured]; repeat' split
  all_goals simp
@[simp] theorem State.matchConfigured_bus (s : State) (q : PoolNo) : (s.matchConfigured q).bus = s.bus := by
  simp only [State.matchConfigured]; repeat' split
  all_goals simp
@[simp] theorem State.matchConfigured_ports (s : State) (q : PoolNo) : (s.matchConfigured q).ports = s.ports := by
  simp only [State.matchConfigured]; repeat' split
  all_goals simp
@[simp] theorem State.matchConfigured_pending (s : State) (q : PoolNo) : (s.matchConfigured q).pending = s.pending := by
  simp only [State.matchConfigured]; repeat' split
  all_goals simp

/-! ### expireSlot -/

@[simp] theorem State.expireSlot_opState (s : State) : s.expireSlot.opState = s.opState := by
  unfold State.expireSlot; split
  · rw [foldl_frame (·.opState) _ (by simp), foldl_frame (·.opState) _ (by simp), State.stepSlot_opState]
  · rw [foldl_frame (·.opState) _ (by simp), State.stepSlot_opState]
@[simp] theorem State.expireSlot_deviceSeconds (s : State) : s.expireSlot.deviceSeconds = s.deviceSeconds := by
  unfold State.expireSlot; split
  · rw [foldl_frame (·.deviceSeconds) _ (by simp), foldl_frame (·.deviceSeconds) _ (by simp), State.stepSlot_deviceSeconds]
  · rw [foldl_frame (·.deviceSeconds) _ (by simp), State.stepSlot_deviceSeconds]
@[simp] theorem State.expireSlot_timers (s : State) : s.expireSlot.timers = s.timers := by
  unfold State.expireSlot; split
  · rw [foldl_frame (·.timers) _ (by simp), foldl_frame (·.timers) _ (by simp), State.stepSlot_timers]
  · rw [foldl_frame (·.timers) _ (by simp), State.stepSlot_timers]
@[simp] theorem State.expireSlot_admission (s : State) : s.expireSlot.admission = s.admission := by
  unfold State.expireSlot; split
  · rw [foldl_frame (·.admission) _ (by simp), foldl_frame (·.admission) _ (by simp), State.stepSlot_admission]
  · rw [foldl_frame (·.admission) _ (by simp), State.stepSlot_admission]
@[simp] theorem State.expireSlot_power (s : State) : s.expireSlot.power = s.power := by
  unfold State.expireSlot; split
  · rw [foldl_frame (·.power) _ (by simp), foldl_frame (·.power) _ (by simp), State.stepSlot_power]
  · rw [foldl_frame (·.power) _ (by simp), State.stepSlot_power]
@[simp] theorem State.expireSlot_bus (s : State) : s.expireSlot.bus = s.bus := by
  unfold State.expireSlot; split
  · rw [foldl_frame (·.bus) _ (by simp), foldl_frame (·.bus) _ (by simp), State.stepSlot_bus]
  · rw [foldl_frame (·.bus) _ (by simp), State.stepSlot_bus]
@[simp] theorem State.expireSlot_ports (s : State) : s.expireSlot.ports = s.ports := by
  unfold State.expireSlot; split
  · rw [foldl_frame (·.ports) _ (by simp), foldl_frame (·.ports) _ (by simp), State.stepSlot_ports]
  · rw [foldl_frame (·.ports) _ (by simp), State.stepSlot_ports]
@[simp] theorem State.expireSlot_pending (s : State) : s.expireSlot.pending = s.pending := by
  unfold State.expireSlot; split
  · rw [foldl_frame (·.pending) _ (by simp), foldl_frame (·.pending) _ (by simp), State.stepSlot_pending]
  · rw [foldl_frame (·.pending) _ (by simp), State.stepSlot_pending]

/-! ### tick -/

@[simp] theorem State.tick_opState (s : State) : s.tick.opState = s.opState := by
  simp only [State.tick]; repeat' split
  all_goals simp
@[simp] theorem State.tick_timers (s : State) : s.tick.timers = s.timers := by
  simp only [State.tick]; repeat' split
  all_goals simp
@[simp] theorem State.tick_bays (s : State) : s.tick.bays = s.bays := by
  simp only [State.tick]; repeat' split
  all_goals simp
@[simp] theorem State.tick_admission (s : State) : s.tick.admission = s.admission := by
  simp only [State.tick]; repeat' split
  all_goals simp
@[simp] theorem State.tick_tickets (s : State) : s.tick.tickets = s.tickets := by
  simp only [State.tick]; repeat' split
  all_goals simp
@[simp] theorem State.tick_ticketCounter (s : State) : s.tick.ticketCounter = s.ticketCounter := by
  simp only [State.tick]; repeat' split
  all_goals simp
@[simp] theorem State.tick_pools (s : State) : s.tick.pools = s.pools := by
  simp only [State.tick]; repeat' split
  all_goals simp
@[simp] theorem State.tick_power (s : State) : s.tick.power = s.power := by
  simp only [State.tick]; repeat' split
  all_goals simp
@[simp] theorem State.tick_bus (s : State) : s.tick.bus = s.bus := by
  simp only [State.tick]; repeat' split
  all_goals simp
@[simp] theorem State.tick_ports (s : State) : s.tick.ports = s.ports := by
  simp only [State.tick]; repeat' split
  all_goals simp
@[simp] theorem State.tick_queues (s : State) : s.tick.queues = s.queues := by
  simp only [State.tick]; repeat' split
  all_goals simp
@[simp] theorem State.tick_pending (s : State) : s.tick.pending = s.pending := by
  simp only [State.tick]; repeat' split
  all_goals simp

/-! ### giveUpOffer -/

@[simp] theorem State.giveUpOffer_opState (s : State) (t : Ticket) (b : BayNo) (l : Bool) : (s.giveUpOffer t b l).opState = s.opState := by
  simp only [State.giveUpOffer]; repeat' split
  all_goals simp
@[simp] theorem State.giveUpOffer_deviceSeconds (s : State) (t : Ticket) (b : BayNo) (l : Bool) : (s.giveUpOffer t b l).deviceSeconds = s.deviceSeconds := by
  simp only [State.giveUpOffer]; repeat' split
  all_goals simp
@[simp] theorem State.giveUpOffer_timers (s : State) (t : Ticket) (b : BayNo) (l : Bool) : (s.giveUpOffer t b l).timers = s.timers := by
  simp only [State.giveUpOffer]; repeat' split
  all_goals simp
@[simp] theorem State.giveUpOffer_booking (s : State) (t : Ticket) (b : BayNo) (l : Bool) : (s.giveUpOffer t b l).booking = s.booking := by
  simp only [State.giveUpOffer]; repeat' split
  all_goals simp
@[simp] theorem State.giveUpOffer_bus (s : State) (t : Ticket) (b : BayNo) (l : Bool) : (s.giveUpOffer t b l).bus = s.bus := by
  simp only [State.giveUpOffer]; repeat' split
  all_goals simp
@[simp] theorem State.giveUpOffer_ports (s : State) (t : Ticket) (b : BayNo) (l : Bool) : (s.giveUpOffer t b l).ports = s.ports := by
  simp only [State.giveUpOffer]; repeat' split
  all_goals simp
@[simp] theorem State.giveUpOffer_pending (s : State) (t : Ticket) (b : BayNo) (l : Bool) : (s.giveUpOffer t b l).pending = s.pending := by
  simp only [State.giveUpOffer]; repeat' split
  all_goals simp

/-! ### expireHold -/

@[simp] theorem State.expireHold_opState (s : State) (n : Nat) (b : BayNo) : (s.expireHold n b).opState = s.opState := by
  simp [State.expireHold]
@[simp] theorem State.expireHold_deviceSeconds (s : State) (n : Nat) (b : BayNo) : (s.expireHold n b).deviceSeconds = s.deviceSeconds := by
  simp [State.expireHold]
@[simp] theorem State.expireHold_timers (s : State) (n : Nat) (b : BayNo) : (s.expireHold n b).timers = s.timers := by
  simp [State.expireHold]
@[simp] theorem State.expireHold_booking (s : State) (n : Nat) (b : BayNo) : (s.expireHold n b).booking = s.booking := by
  simp [State.expireHold]
@[simp] theorem State.expireHold_bus (s : State) (n : Nat) (b : BayNo) : (s.expireHold n b).bus = s.bus := by
  simp [State.expireHold]
@[simp] theorem State.expireHold_ports (s : State) (n : Nat) (b : BayNo) : (s.expireHold n b).ports = s.ports := by
  simp [State.expireHold]
@[simp] theorem State.expireHold_pending (s : State) (n : Nat) (b : BayNo) : (s.expireHold n b).pending = s.pending := by
  simp [State.expireHold]

/-! ### cancel -/

@[simp] theorem State.cancel_opState (s : State) (t : Ticket) : (s.cancel t).opState = s.opState := by
  simp only [State.cancel]; repeat' split
  all_goals simp
@[simp] theorem State.cancel_deviceSeconds (s : State) (t : Ticket) : (s.cancel t).deviceSeconds = s.deviceSeconds := by
  simp only [State.cancel]; repeat' split
  all_goals simp
@[simp] theorem State.cancel_timers (s : State) (t : Ticket) : (s.cancel t).timers = s.timers := by
  simp only [State.cancel]; repeat' split
  all_goals simp
@[simp] theorem State.cancel_booking (s : State) (t : Ticket) : (s.cancel t).booking = s.booking := by
  simp only [State.cancel]; repeat' split
  all_goals simp
@[simp] theorem State.cancel_bus (s : State) (t : Ticket) : (s.cancel t).bus = s.bus := by
  simp only [State.cancel]; repeat' split
  all_goals simp
@[simp] theorem State.cancel_ports (s : State) (t : Ticket) : (s.cancel t).ports = s.ports := by
  simp only [State.cancel]; repeat' split
  all_goals simp
@[simp] theorem State.cancel_pending (s : State) (t : Ticket) : (s.cancel t).pending = s.pending := by
  simp only [State.cancel]; repeat' split
  all_goals simp

/-! ### holdQueued -/

@[simp] theorem State.holdQueued_opState (s : State) (t : Ticket) (b : BayNo) : (s.holdQueued t b).opState = s.opState := by
  simp [State.holdQueued]
@[simp] theorem State.holdQueued_deviceSeconds (s : State) (t : Ticket) (b : BayNo) : (s.holdQueued t b).deviceSeconds = s.deviceSeconds := by
  simp [State.holdQueued]
@[simp] theorem State.holdQueued_timers (s : State) (t : Ticket) (b : BayNo) : (s.holdQueued t b).timers = s.timers := by
  simp [State.holdQueued]
@[simp] theorem State.holdQueued_admission (s : State) (t : Ticket) (b : BayNo) : (s.holdQueued t b).admission = s.admission := by
  simp [State.holdQueued]
@[simp] theorem State.holdQueued_ticketCounter (s : State) (t : Ticket) (b : BayNo) : (s.holdQueued t b).ticketCounter = s.ticketCounter := by
  simp [State.holdQueued]
@[simp] theorem State.holdQueued_booking (s : State) (t : Ticket) (b : BayNo) : (s.holdQueued t b).booking = s.booking := by
  simp [State.holdQueued]
@[simp] theorem State.holdQueued_power (s : State) (t : Ticket) (b : BayNo) : (s.holdQueued t b).power = s.power := by
  simp [State.holdQueued]
@[simp] theorem State.holdQueued_bus (s : State) (t : Ticket) (b : BayNo) : (s.holdQueued t b).bus = s.bus := by
  simp [State.holdQueued]
@[simp] theorem State.holdQueued_ports (s : State) (t : Ticket) (b : BayNo) : (s.holdQueued t b).ports = s.ports := by
  simp [State.holdQueued]
@[simp] theorem State.holdQueued_pending (s : State) (t : Ticket) (b : BayNo) : (s.holdQueued t b).pending = s.pending := by
  simp [State.holdQueued]

/-! ### plugStep -/

@[simp] theorem State.plugStep_opState (s : State) (b : BayNo) (g : Plug) (e : Nat) : (s.plugStep b g e).opState = s.opState := by
  simp only [State.plugStep]; repeat' split
  all_goals simp
@[simp] theorem State.plugStep_deviceSeconds (s : State) (b : BayNo) (g : Plug) (e : Nat) : (s.plugStep b g e).deviceSeconds = s.deviceSeconds := by
  simp only [State.plugStep]; repeat' split
  all_goals simp
@[simp] theorem State.plugStep_timers (s : State) (b : BayNo) (g : Plug) (e : Nat) : (s.plugStep b g e).timers = s.timers := by
  simp only [State.plugStep]; repeat' split
  all_goals simp
@[simp] theorem State.plugStep_booking (s : State) (b : BayNo) (g : Plug) (e : Nat) : (s.plugStep b g e).booking = s.booking := by
  simp only [State.plugStep]; repeat' split
  all_goals simp
@[simp] theorem State.plugStep_bus (s : State) (b : BayNo) (g : Plug) (e : Nat) : (s.plugStep b g e).bus = s.bus := by
  simp only [State.plugStep]; repeat' split
  all_goals simp
@[simp] theorem State.plugStep_ports (s : State) (b : BayNo) (g : Plug) (e : Nat) : (s.plugStep b g e).ports = s.ports := by
  simp only [State.plugStep]; repeat' split
  all_goals simp
@[simp] theorem State.plugStep_pending (s : State) (b : BayNo) (g : Plug) (e : Nat) : (s.plugStep b g e).pending = s.pending := by
  simp only [State.plugStep]; repeat' split
  all_goals simp

/-! ### depart -/

@[simp] theorem State.depart_opState (s : State) (b : BayNo) : (s.depart b).opState = s.opState := by
  simp only [State.depart]; repeat' split
  all_goals simp
@[simp] theorem State.depart_deviceSeconds (s : State) (b : BayNo) : (s.depart b).deviceSeconds = s.deviceSeconds := by
  simp only [State.depart]; repeat' split
  all_goals simp
@[simp] theorem State.depart_timers (s : State) (b : BayNo) : (s.depart b).timers = s.timers := by
  simp only [State.depart]; repeat' split
  all_goals simp
@[simp] theorem State.depart_admission (s : State) (b : BayNo) : (s.depart b).admission = s.admission := by
  simp only [State.depart]; repeat' split
  all_goals simp
@[simp] theorem State.depart_ticketCounter (s : State) (b : BayNo) : (s.depart b).ticketCounter = s.ticketCounter := by
  simp only [State.depart]; repeat' split
  all_goals simp
@[simp] theorem State.depart_booking (s : State) (b : BayNo) : (s.depart b).booking = s.booking := by
  simp only [State.depart]; repeat' split
  all_goals simp
@[simp] theorem State.depart_power (s : State) (b : BayNo) : (s.depart b).power = s.power := by
  simp only [State.depart]; repeat' split
  all_goals simp
@[simp] theorem State.depart_bus (s : State) (b : BayNo) : (s.depart b).bus = s.bus := by
  simp only [State.depart]; repeat' split
  all_goals simp
@[simp] theorem State.depart_ports (s : State) (b : BayNo) : (s.depart b).ports = s.ports := by
  simp only [State.depart]; repeat' split
  all_goals simp
@[simp] theorem State.depart_pending (s : State) (b : BayNo) : (s.depart b).pending = s.pending := by
  simp only [State.depart]; repeat' split
  all_goals simp

/-! ### presenceStep -/

@[simp] theorem State.presenceStep_opState (s : State) (b : BayNo) (p : Presence) : (s.presenceStep b p).opState = s.opState := by
  simp only [State.presenceStep]; repeat' split
  all_goals simp
@[simp] theorem State.presenceStep_deviceSeconds (s : State) (b : BayNo) (p : Presence) : (s.presenceStep b p).deviceSeconds = s.deviceSeconds := by
  simp only [State.presenceStep]; repeat' split
  all_goals simp
@[simp] theorem State.presenceStep_timers (s : State) (b : BayNo) (p : Presence) : (s.presenceStep b p).timers = s.timers := by
  simp only [State.presenceStep]; repeat' split
  all_goals simp
@[simp] theorem State.presenceStep_booking (s : State) (b : BayNo) (p : Presence) : (s.presenceStep b p).booking = s.booking := by
  simp only [State.presenceStep]; repeat' split
  all_goals simp
@[simp] theorem State.presenceStep_bus (s : State) (b : BayNo) (p : Presence) : (s.presenceStep b p).bus = s.bus := by
  simp only [State.presenceStep]; repeat' split
  all_goals simp
@[simp] theorem State.presenceStep_ports (s : State) (b : BayNo) (p : Presence) : (s.presenceStep b p).ports = s.ports := by
  simp only [State.presenceStep]; repeat' split
  all_goals simp
@[simp] theorem State.presenceStep_pending (s : State) (b : BayNo) (p : Presence) : (s.presenceStep b p).pending = s.pending := by
  simp only [State.presenceStep]; repeat' split
  all_goals simp

/-! ### presentCode -/

@[simp] theorem State.presentCode_opState (s : State) (b : BayNo) (c : Nat) : (s.presentCode b c).opState = s.opState := by
  simp only [State.presentCode]; repeat' split
  all_goals simp
@[simp] theorem State.presentCode_deviceSeconds (s : State) (b : BayNo) (c : Nat) : (s.presentCode b c).deviceSeconds = s.deviceSeconds := by
  simp only [State.presentCode]; repeat' split
  all_goals simp
@[simp] theorem State.presentCode_timers (s : State) (b : BayNo) (c : Nat) : (s.presentCode b c).timers = s.timers := by
  simp only [State.presentCode]; repeat' split
  all_goals simp
@[simp] theorem State.presentCode_pools (s : State) (b : BayNo) (c : Nat) : (s.presentCode b c).pools = s.pools := by
  simp only [State.presentCode]; repeat' split
  all_goals simp
@[simp] theorem State.presentCode_bus (s : State) (b : BayNo) (c : Nat) : (s.presentCode b c).bus = s.bus := by
  simp only [State.presentCode]; repeat' split
  all_goals simp
@[simp] theorem State.presentCode_ports (s : State) (b : BayNo) (c : Nat) : (s.presentCode b c).ports = s.ports := by
  simp only [State.presentCode]; repeat' split
  all_goals simp
@[simp] theorem State.presentCode_pending (s : State) (b : BayNo) (c : Nat) : (s.presentCode b c).pending = s.pending := by
  simp only [State.presentCode]; repeat' split
  all_goals simp

/-! ### codeStep -/

@[simp] theorem State.codeStep_opState (s : State) (b : BayNo) (c : Nat) : (s.codeStep b c).opState = s.opState := by
  simp only [State.codeStep]; repeat' split
  all_goals simp
@[simp] theorem State.codeStep_deviceSeconds (s : State) (b : BayNo) (c : Nat) : (s.codeStep b c).deviceSeconds = s.deviceSeconds := by
  simp only [State.codeStep]; repeat' split
  all_goals simp
@[simp] theorem State.codeStep_timers (s : State) (b : BayNo) (c : Nat) : (s.codeStep b c).timers = s.timers := by
  simp only [State.codeStep]; repeat' split
  all_goals simp
@[simp] theorem State.codeStep_pools (s : State) (b : BayNo) (c : Nat) : (s.codeStep b c).pools = s.pools := by
  simp only [State.codeStep]; repeat' split
  all_goals simp
@[simp] theorem State.codeStep_bus (s : State) (b : BayNo) (c : Nat) : (s.codeStep b c).bus = s.bus := by
  simp only [State.codeStep]; repeat' split
  all_goals simp
@[simp] theorem State.codeStep_ports (s : State) (b : BayNo) (c : Nat) : (s.codeStep b c).ports = s.ports := by
  simp only [State.codeStep]; repeat' split
  all_goals simp
@[simp] theorem State.codeStep_pending (s : State) (b : BayNo) (c : Nat) : (s.codeStep b c).pending = s.pending := by
  simp only [State.codeStep]; repeat' split
  all_goals simp

/-! ### demandStep -/

@[simp] theorem State.demandStep_opState (s : State) (b : BayNo) (d : Nat) : (s.demandStep b d).opState = s.opState := by
  simp only [State.demandStep]; repeat' split
  all_goals simp
@[simp] theorem State.demandStep_deviceSeconds (s : State) (b : BayNo) (d : Nat) : (s.demandStep b d).deviceSeconds = s.deviceSeconds := by
  simp only [State.demandStep]; repeat' split
  all_goals simp
@[simp] theorem State.demandStep_timers (s : State) (b : BayNo) (d : Nat) : (s.demandStep b d).timers = s.timers := by
  simp only [State.demandStep]; repeat' split
  all_goals simp
@[simp] theorem State.demandStep_admission (s : State) (b : BayNo) (d : Nat) : (s.demandStep b d).admission = s.admission := by
  simp only [State.demandStep]; repeat' split
  all_goals simp
@[simp] theorem State.demandStep_tickets (s : State) (b : BayNo) (d : Nat) : (s.demandStep b d).tickets = s.tickets := by
  simp only [State.demandStep]; repeat' split
  all_goals simp
@[simp] theorem State.demandStep_ticketCounter (s : State) (b : BayNo) (d : Nat) : (s.demandStep b d).ticketCounter = s.ticketCounter := by
  simp only [State.demandStep]; repeat' split
  all_goals simp
@[simp] theorem State.demandStep_pools (s : State) (b : BayNo) (d : Nat) : (s.demandStep b d).pools = s.pools := by
  simp only [State.demandStep]; repeat' split
  all_goals simp
@[simp] theorem State.demandStep_booking (s : State) (b : BayNo) (d : Nat) : (s.demandStep b d).booking = s.booking := by
  simp only [State.demandStep]; repeat' split
  all_goals simp
@[simp] theorem State.demandStep_bus (s : State) (b : BayNo) (d : Nat) : (s.demandStep b d).bus = s.bus := by
  simp only [State.demandStep]; repeat' split
  all_goals simp
@[simp] theorem State.demandStep_ports (s : State) (b : BayNo) (d : Nat) : (s.demandStep b d).ports = s.ports := by
  simp only [State.demandStep]; repeat' split
  all_goals simp
@[simp] theorem State.demandStep_pending (s : State) (b : BayNo) (d : Nat) : (s.demandStep b d).pending = s.pending := by
  simp only [State.demandStep]; repeat' split
  all_goals simp

/-! ### energyStep -/

@[simp] theorem State.energyStep_opState (s : State) (b : BayNo) (i e : Nat) : (s.energyStep b i e).opState = s.opState := by
  simp only [State.energyStep]; repeat' split
  all_goals simp
@[simp] theorem State.energyStep_deviceSeconds (s : State) (b : BayNo) (i e : Nat) : (s.energyStep b i e).deviceSeconds = s.deviceSeconds := by
  simp only [State.energyStep]; repeat' split
  all_goals simp
@[simp] theorem State.energyStep_timers (s : State) (b : BayNo) (i e : Nat) : (s.energyStep b i e).timers = s.timers := by
  simp only [State.energyStep]; repeat' split
  all_goals simp
@[simp] theorem State.energyStep_admission (s : State) (b : BayNo) (i e : Nat) : (s.energyStep b i e).admission = s.admission := by
  simp only [State.energyStep]; repeat' split
  all_goals simp
@[simp] theorem State.energyStep_tickets (s : State) (b : BayNo) (i e : Nat) : (s.energyStep b i e).tickets = s.tickets := by
  simp only [State.energyStep]; repeat' split
  all_goals simp
@[simp] theorem State.energyStep_ticketCounter (s : State) (b : BayNo) (i e : Nat) : (s.energyStep b i e).ticketCounter = s.ticketCounter := by
  simp only [State.energyStep]; repeat' split
  all_goals simp
@[simp] theorem State.energyStep_pools (s : State) (b : BayNo) (i e : Nat) : (s.energyStep b i e).pools = s.pools := by
  simp only [State.energyStep]; repeat' split
  all_goals simp
@[simp] theorem State.energyStep_booking (s : State) (b : BayNo) (i e : Nat) : (s.energyStep b i e).booking = s.booking := by
  simp only [State.energyStep]; repeat' split
  all_goals simp
@[simp] theorem State.energyStep_power (s : State) (b : BayNo) (i e : Nat) : (s.energyStep b i e).power = s.power := by
  simp only [State.energyStep]; repeat' split
  all_goals simp
@[simp] theorem State.energyStep_bus (s : State) (b : BayNo) (i e : Nat) : (s.energyStep b i e).bus = s.bus := by
  simp only [State.energyStep]; repeat' split
  all_goals simp
@[simp] theorem State.energyStep_ports (s : State) (b : BayNo) (i e : Nat) : (s.energyStep b i e).ports = s.ports := by
  simp only [State.energyStep]; repeat' split
  all_goals simp
@[simp] theorem State.energyStep_queues (s : State) (b : BayNo) (i e : Nat) : (s.energyStep b i e).queues = s.queues := by
  simp only [State.energyStep]; repeat' split
  all_goals simp
@[simp] theorem State.energyStep_pending (s : State) (b : BayNo) (i e : Nat) : (s.energyStep b i e).pending = s.pending := by
  simp only [State.energyStep]; repeat' split
  all_goals simp

/-! ### takeReport -/

@[simp] theorem State.takeReport_opState (s : State) (b : BayNo) (r : Report) : (s.takeReport b r).opState = s.opState := by
  simp only [State.takeReport]; repeat' split
  all_goals simp
@[simp] theorem State.takeReport_deviceSeconds (s : State) (b : BayNo) (r : Report) : (s.takeReport b r).deviceSeconds = s.deviceSeconds := by
  simp only [State.takeReport]; repeat' split
  all_goals simp
@[simp] theorem State.takeReport_timers (s : State) (b : BayNo) (r : Report) : (s.takeReport b r).timers = s.timers := by
  simp only [State.takeReport]; repeat' split
  all_goals simp
@[simp] theorem State.takeReport_bus (s : State) (b : BayNo) (r : Report) : (s.takeReport b r).bus = s.bus := by
  simp only [State.takeReport]; repeat' split
  all_goals simp
@[simp] theorem State.takeReport_ports (s : State) (b : BayNo) (r : Report) : (s.takeReport b r).ports = s.ports := by
  simp only [State.takeReport]; repeat' split
  all_goals simp
@[simp] theorem State.takeReport_pending (s : State) (b : BayNo) (r : Report) : (s.takeReport b r).pending = s.pending := by
  simp only [State.takeReport]; repeat' split
  all_goals simp

/-! ### openWith -/

@[simp] theorem State.openWith_opState (s : State) (f : BusFrame) : (s.openWith f).opState = s.opState := by simp [State.openWith]
@[simp] theorem State.openWith_deviceSeconds (s : State) (f : BusFrame) : (s.openWith f).deviceSeconds = s.deviceSeconds := by simp [State.openWith]
@[simp] theorem State.openWith_timers (s : State) (f : BusFrame) : (s.openWith f).timers = s.timers := by simp [State.openWith]
@[simp] theorem State.openWith_bays (s : State) (f : BusFrame) : (s.openWith f).bays = s.bays := by simp [State.openWith]
@[simp] theorem State.openWith_admission (s : State) (f : BusFrame) : (s.openWith f).admission = s.admission := by simp [State.openWith]
@[simp] theorem State.openWith_tickets (s : State) (f : BusFrame) : (s.openWith f).tickets = s.tickets := by simp [State.openWith]
@[simp] theorem State.openWith_ticketCounter (s : State) (f : BusFrame) : (s.openWith f).ticketCounter = s.ticketCounter := by simp [State.openWith]
@[simp] theorem State.openWith_pools (s : State) (f : BusFrame) : (s.openWith f).pools = s.pools := by simp [State.openWith]
@[simp] theorem State.openWith_booking (s : State) (f : BusFrame) : (s.openWith f).booking = s.booking := by simp [State.openWith]
@[simp] theorem State.openWith_power (s : State) (f : BusFrame) : (s.openWith f).power = s.power := by simp [State.openWith]
@[simp] theorem State.openWith_ports (s : State) (f : BusFrame) : (s.openWith f).ports = s.ports := by simp [State.openWith]
@[simp] theorem State.openWith_queues (s : State) (f : BusFrame) : (s.openWith f).queues = s.queues := by simp [State.openWith]
@[simp] theorem State.openWith_pending (s : State) (f : BusFrame) : (s.openWith f).pending = s.pending := by simp [State.openWith]

/-! ### openSweep -/

@[simp] theorem State.openSweep_opState (s : State) : s.openSweep.opState = s.opState := by simp [State.openSweep]
@[simp] theorem State.openSweep_deviceSeconds (s : State) : s.openSweep.deviceSeconds = s.deviceSeconds := by simp [State.openSweep]
@[simp] theorem State.openSweep_timers (s : State) : s.openSweep.timers = s.timers := by simp [State.openSweep]
@[simp] theorem State.openSweep_bays (s : State) : s.openSweep.bays = s.bays := by simp [State.openSweep]
@[simp] theorem State.openSweep_admission (s : State) : s.openSweep.admission = s.admission := by simp [State.openSweep]
@[simp] theorem State.openSweep_tickets (s : State) : s.openSweep.tickets = s.tickets := by simp [State.openSweep]
@[simp] theorem State.openSweep_ticketCounter (s : State) : s.openSweep.ticketCounter = s.ticketCounter := by simp [State.openSweep]
@[simp] theorem State.openSweep_pools (s : State) : s.openSweep.pools = s.pools := by simp [State.openSweep]
@[simp] theorem State.openSweep_booking (s : State) : s.openSweep.booking = s.booking := by simp [State.openSweep]
@[simp] theorem State.openSweep_power (s : State) : s.openSweep.power = s.power := by simp [State.openSweep]
@[simp] theorem State.openSweep_ports (s : State) : s.openSweep.ports = s.ports := by simp [State.openSweep]
@[simp] theorem State.openSweep_queues (s : State) : s.openSweep.queues = s.queues := by simp [State.openSweep]
@[simp] theorem State.openSweep_pending (s : State) : s.openSweep.pending = s.pending := by simp [State.openSweep]

/-! ### completePull -/

@[simp] theorem State.completePull_opState (s : State) : s.completePull.opState = s.opState := by simp [State.completePull]
@[simp] theorem State.completePull_deviceSeconds (s : State) : s.completePull.deviceSeconds = s.deviceSeconds := by simp [State.completePull]
@[simp] theorem State.completePull_timers (s : State) : s.completePull.timers = s.timers := by simp [State.completePull]
@[simp] theorem State.completePull_bays (s : State) : s.completePull.bays = s.bays := by simp [State.completePull]
@[simp] theorem State.completePull_admission (s : State) : s.completePull.admission = s.admission := by simp [State.completePull]
@[simp] theorem State.completePull_tickets (s : State) : s.completePull.tickets = s.tickets := by simp [State.completePull]
@[simp] theorem State.completePull_ticketCounter (s : State) : s.completePull.ticketCounter = s.ticketCounter := by simp [State.completePull]
@[simp] theorem State.completePull_pools (s : State) : s.completePull.pools = s.pools := by simp [State.completePull]
@[simp] theorem State.completePull_booking (s : State) : s.completePull.booking = s.booking := by simp [State.completePull]
@[simp] theorem State.completePull_power (s : State) : s.completePull.power = s.power := by simp [State.completePull]
@[simp] theorem State.completePull_ports (s : State) : s.completePull.ports = s.ports := by simp [State.completePull]
@[simp] theorem State.completePull_queues (s : State) : s.completePull.queues = s.queues := by simp [State.completePull]
@[simp] theorem State.completePull_pending (s : State) : s.completePull.pending = s.pending := by simp [State.completePull]

/-! ### enterSlot -/

@[simp] theorem State.enterSlot_opState (s : State) (b : BayNo) : (s.enterSlot b).opState = s.opState := by simp [State.enterSlot, State.setLink]
@[simp] theorem State.enterSlot_deviceSeconds (s : State) (b : BayNo) : (s.enterSlot b).deviceSeconds = s.deviceSeconds := by simp [State.enterSlot, State.setLink]
@[simp] theorem State.enterSlot_timers (s : State) (b : BayNo) : (s.enterSlot b).timers = s.timers := by simp [State.enterSlot, State.setLink]
@[simp] theorem State.enterSlot_bays (s : State) (b : BayNo) : (s.enterSlot b).bays = s.bays := by simp [State.enterSlot, State.setLink]
@[simp] theorem State.enterSlot_admission (s : State) (b : BayNo) : (s.enterSlot b).admission = s.admission := by simp [State.enterSlot, State.setLink]
@[simp] theorem State.enterSlot_tickets (s : State) (b : BayNo) : (s.enterSlot b).tickets = s.tickets := by simp [State.enterSlot, State.setLink]
@[simp] theorem State.enterSlot_ticketCounter (s : State) (b : BayNo) : (s.enterSlot b).ticketCounter = s.ticketCounter := by simp [State.enterSlot, State.setLink]
@[simp] theorem State.enterSlot_pools (s : State) (b : BayNo) : (s.enterSlot b).pools = s.pools := by simp [State.enterSlot, State.setLink]
@[simp] theorem State.enterSlot_booking (s : State) (b : BayNo) : (s.enterSlot b).booking = s.booking := by simp [State.enterSlot, State.setLink]
@[simp] theorem State.enterSlot_power (s : State) (b : BayNo) : (s.enterSlot b).power = s.power := by simp [State.enterSlot, State.setLink]
@[simp] theorem State.enterSlot_ports (s : State) (b : BayNo) : (s.enterSlot b).ports = s.ports := by simp [State.enterSlot, State.setLink]
@[simp] theorem State.enterSlot_queues (s : State) (b : BayNo) : (s.enterSlot b).queues = s.queues := by simp [State.enterSlot, State.setLink]
@[simp] theorem State.enterSlot_pending (s : State) (b : BayNo) : (s.enterSlot b).pending = s.pending := by simp [State.enterSlot, State.setLink]

/-! ### enterClosing -/

@[simp] theorem State.enterClosing_opState (s : State) : s.enterClosing.opState = s.opState := by simp [State.enterClosing]
@[simp] theorem State.enterClosing_deviceSeconds (s : State) : s.enterClosing.deviceSeconds = s.deviceSeconds := by simp [State.enterClosing]
@[simp] theorem State.enterClosing_timers (s : State) : s.enterClosing.timers = s.timers := by simp [State.enterClosing]
@[simp] theorem State.enterClosing_bays (s : State) : s.enterClosing.bays = s.bays := by simp [State.enterClosing]
@[simp] theorem State.enterClosing_admission (s : State) : s.enterClosing.admission = s.admission := by simp [State.enterClosing]
@[simp] theorem State.enterClosing_tickets (s : State) : s.enterClosing.tickets = s.tickets := by simp [State.enterClosing]
@[simp] theorem State.enterClosing_ticketCounter (s : State) : s.enterClosing.ticketCounter = s.ticketCounter := by simp [State.enterClosing]
@[simp] theorem State.enterClosing_pools (s : State) : s.enterClosing.pools = s.pools := by simp [State.enterClosing]
@[simp] theorem State.enterClosing_booking (s : State) : s.enterClosing.booking = s.booking := by simp [State.enterClosing]
@[simp] theorem State.enterClosing_power (s : State) : s.enterClosing.power = s.power := by simp [State.enterClosing]
@[simp] theorem State.enterClosing_ports (s : State) : s.enterClosing.ports = s.ports := by simp [State.enterClosing]
@[simp] theorem State.enterClosing_queues (s : State) : s.enterClosing.queues = s.queues := by simp [State.enterClosing]
@[simp] theorem State.enterClosing_pending (s : State) : s.enterClosing.pending = s.pending := by simp [State.enterClosing]

/-! ### enterNext -/

@[simp] theorem State.enterNext_opState (s : State) (l : List BayNo) : (s.enterNext l).opState = s.opState := by
  simp only [State.enterNext]; repeat' split
  all_goals simp
@[simp] theorem State.enterNext_deviceSeconds (s : State) (l : List BayNo) : (s.enterNext l).deviceSeconds = s.deviceSeconds := by
  simp only [State.enterNext]; repeat' split
  all_goals simp
@[simp] theorem State.enterNext_timers (s : State) (l : List BayNo) : (s.enterNext l).timers = s.timers := by
  simp only [State.enterNext]; repeat' split
  all_goals simp
@[simp] theorem State.enterNext_bays (s : State) (l : List BayNo) : (s.enterNext l).bays = s.bays := by
  simp only [State.enterNext]; repeat' split
  all_goals simp
@[simp] theorem State.enterNext_admission (s : State) (l : List BayNo) : (s.enterNext l).admission = s.admission := by
  simp only [State.enterNext]; repeat' split
  all_goals simp
@[simp] theorem State.enterNext_tickets (s : State) (l : List BayNo) : (s.enterNext l).tickets = s.tickets := by
  simp only [State.enterNext]; repeat' split
  all_goals simp
@[simp] theorem State.enterNext_ticketCounter (s : State) (l : List BayNo) : (s.enterNext l).ticketCounter = s.ticketCounter := by
  simp only [State.enterNext]; repeat' split
  all_goals simp
@[simp] theorem State.enterNext_pools (s : State) (l : List BayNo) : (s.enterNext l).pools = s.pools := by
  simp only [State.enterNext]; repeat' split
  all_goals simp
@[simp] theorem State.enterNext_booking (s : State) (l : List BayNo) : (s.enterNext l).booking = s.booking := by
  simp only [State.enterNext]; repeat' split
  all_goals simp
@[simp] theorem State.enterNext_power (s : State) (l : List BayNo) : (s.enterNext l).power = s.power := by
  simp only [State.enterNext]; repeat' split
  all_goals simp
@[simp] theorem State.enterNext_ports (s : State) (l : List BayNo) : (s.enterNext l).ports = s.ports := by
  simp only [State.enterNext]; repeat' split
  all_goals simp
@[simp] theorem State.enterNext_queues (s : State) (l : List BayNo) : (s.enterNext l).queues = s.queues := by
  simp only [State.enterNext]; repeat' split
  all_goals simp
@[simp] theorem State.enterNext_pending (s : State) (l : List BayNo) : (s.enterNext l).pending = s.pending := by
  simp only [State.enterNext]; repeat' split
  all_goals simp

/-! ### firstSlot -/

@[simp] theorem State.firstSlot_opState (s : State) : s.firstSlot.opState = s.opState := by
  simp [State.firstSlot]
@[simp] theorem State.firstSlot_deviceSeconds (s : State) : s.firstSlot.deviceSeconds = s.deviceSeconds := by
  simp [State.firstSlot]
@[simp] theorem State.firstSlot_timers (s : State) : s.firstSlot.timers = s.timers := by
  simp [State.firstSlot]
@[simp] theorem State.firstSlot_bays (s : State) : s.firstSlot.bays = s.bays := by
  simp [State.firstSlot]
@[simp] theorem State.firstSlot_admission (s : State) : s.firstSlot.admission = s.admission := by
  simp [State.firstSlot]
@[simp] theorem State.firstSlot_tickets (s : State) : s.firstSlot.tickets = s.tickets := by
  simp [State.firstSlot]
@[simp] theorem State.firstSlot_ticketCounter (s : State) : s.firstSlot.ticketCounter = s.ticketCounter := by
  simp [State.firstSlot]
@[simp] theorem State.firstSlot_pools (s : State) : s.firstSlot.pools = s.pools := by
  simp [State.firstSlot]
@[simp] theorem State.firstSlot_booking (s : State) : s.firstSlot.booking = s.booking := by
  simp [State.firstSlot]
@[simp] theorem State.firstSlot_power (s : State) : s.firstSlot.power = s.power := by
  simp [State.firstSlot]
@[simp] theorem State.firstSlot_ports (s : State) : s.firstSlot.ports = s.ports := by
  simp [State.firstSlot]
@[simp] theorem State.firstSlot_queues (s : State) : s.firstSlot.queues = s.queues := by
  simp [State.firstSlot]
@[simp] theorem State.firstSlot_pending (s : State) : s.firstSlot.pending = s.pending := by
  simp [State.firstSlot]

/-! ### afterSlot -/

@[simp] theorem State.afterSlot_opState (s : State) (b : BayNo) : (s.afterSlot b).opState = s.opState := by
  simp [State.afterSlot]
@[simp] theorem State.afterSlot_deviceSeconds (s : State) (b : BayNo) : (s.afterSlot b).deviceSeconds = s.deviceSeconds := by
  simp [State.afterSlot]
@[simp] theorem State.afterSlot_timers (s : State) (b : BayNo) : (s.afterSlot b).timers = s.timers := by
  simp [State.afterSlot]
@[simp] theorem State.afterSlot_bays (s : State) (b : BayNo) : (s.afterSlot b).bays = s.bays := by
  simp [State.afterSlot]
@[simp] theorem State.afterSlot_admission (s : State) (b : BayNo) : (s.afterSlot b).admission = s.admission := by
  simp [State.afterSlot]
@[simp] theorem State.afterSlot_tickets (s : State) (b : BayNo) : (s.afterSlot b).tickets = s.tickets := by
  simp [State.afterSlot]
@[simp] theorem State.afterSlot_ticketCounter (s : State) (b : BayNo) : (s.afterSlot b).ticketCounter = s.ticketCounter := by
  simp [State.afterSlot]
@[simp] theorem State.afterSlot_pools (s : State) (b : BayNo) : (s.afterSlot b).pools = s.pools := by
  simp [State.afterSlot]
@[simp] theorem State.afterSlot_booking (s : State) (b : BayNo) : (s.afterSlot b).booking = s.booking := by
  simp [State.afterSlot]
@[simp] theorem State.afterSlot_power (s : State) (b : BayNo) : (s.afterSlot b).power = s.power := by
  simp [State.afterSlot]
@[simp] theorem State.afterSlot_ports (s : State) (b : BayNo) : (s.afterSlot b).ports = s.ports := by
  simp [State.afterSlot]
@[simp] theorem State.afterSlot_queues (s : State) (b : BayNo) : (s.afterSlot b).queues = s.queues := by
  simp [State.afterSlot]
@[simp] theorem State.afterSlot_pending (s : State) (b : BayNo) : (s.afterSlot b).pending = s.pending := by
  simp [State.afterSlot]

/-! ### changeLink -/

@[simp] theorem State.changeLink_opState (s : State) (b : BayNo) (x : LinkRecord) : (s.changeLink b x).opState = s.opState := by
  simp only [State.changeLink]; repeat' split
  all_goals simp
@[simp] theorem State.changeLink_deviceSeconds (s : State) (b : BayNo) (x : LinkRecord) : (s.changeLink b x).deviceSeconds = s.deviceSeconds := by
  simp only [State.changeLink]; repeat' split
  all_goals simp
@[simp] theorem State.changeLink_timers (s : State) (b : BayNo) (x : LinkRecord) : (s.changeLink b x).timers = s.timers := by
  simp only [State.changeLink]; repeat' split
  all_goals simp
@[simp] theorem State.changeLink_bays (s : State) (b : BayNo) (x : LinkRecord) : (s.changeLink b x).bays = s.bays := by
  simp only [State.changeLink]; repeat' split
  all_goals simp
@[simp] theorem State.changeLink_admission (s : State) (b : BayNo) (x : LinkRecord) : (s.changeLink b x).admission = s.admission := by
  simp only [State.changeLink]; repeat' split
  all_goals simp
@[simp] theorem State.changeLink_tickets (s : State) (b : BayNo) (x : LinkRecord) : (s.changeLink b x).tickets = s.tickets := by
  simp only [State.changeLink]; repeat' split
  all_goals simp
@[simp] theorem State.changeLink_ticketCounter (s : State) (b : BayNo) (x : LinkRecord) : (s.changeLink b x).ticketCounter = s.ticketCounter := by
  simp only [State.changeLink]; repeat' split
  all_goals simp
@[simp] theorem State.changeLink_pools (s : State) (b : BayNo) (x : LinkRecord) : (s.changeLink b x).pools = s.pools := by
  simp only [State.changeLink]; repeat' split
  all_goals simp
@[simp] theorem State.changeLink_booking (s : State) (b : BayNo) (x : LinkRecord) : (s.changeLink b x).booking = s.booking := by
  simp only [State.changeLink]; repeat' split
  all_goals simp
@[simp] theorem State.changeLink_power (s : State) (b : BayNo) (x : LinkRecord) : (s.changeLink b x).power = s.power := by
  simp only [State.changeLink]; repeat' split
  all_goals simp
@[simp] theorem State.changeLink_ports (s : State) (b : BayNo) (x : LinkRecord) : (s.changeLink b x).ports = s.ports := by
  simp only [State.changeLink]; repeat' split
  all_goals simp
@[simp] theorem State.changeLink_pending (s : State) (b : BayNo) (x : LinkRecord) : (s.changeLink b x).pending = s.pending := by
  simp only [State.changeLink]; repeat' split
  all_goals simp

/-! ### linkOnline -/

@[simp] theorem State.linkOnline_opState (s : State) (b : BayNo) : (s.linkOnline b).opState = s.opState := by
  simp [State.linkOnline]
@[simp] theorem State.linkOnline_deviceSeconds (s : State) (b : BayNo) : (s.linkOnline b).deviceSeconds = s.deviceSeconds := by
  simp [State.linkOnline]
@[simp] theorem State.linkOnline_timers (s : State) (b : BayNo) : (s.linkOnline b).timers = s.timers := by
  simp [State.linkOnline]
@[simp] theorem State.linkOnline_bays (s : State) (b : BayNo) : (s.linkOnline b).bays = s.bays := by
  simp [State.linkOnline]
@[simp] theorem State.linkOnline_admission (s : State) (b : BayNo) : (s.linkOnline b).admission = s.admission := by
  simp [State.linkOnline]
@[simp] theorem State.linkOnline_tickets (s : State) (b : BayNo) : (s.linkOnline b).tickets = s.tickets := by
  simp [State.linkOnline]
@[simp] theorem State.linkOnline_ticketCounter (s : State) (b : BayNo) : (s.linkOnline b).ticketCounter = s.ticketCounter := by
  simp [State.linkOnline]
@[simp] theorem State.linkOnline_pools (s : State) (b : BayNo) : (s.linkOnline b).pools = s.pools := by
  simp [State.linkOnline]
@[simp] theorem State.linkOnline_booking (s : State) (b : BayNo) : (s.linkOnline b).booking = s.booking := by
  simp [State.linkOnline]
@[simp] theorem State.linkOnline_power (s : State) (b : BayNo) : (s.linkOnline b).power = s.power := by
  simp [State.linkOnline]
@[simp] theorem State.linkOnline_ports (s : State) (b : BayNo) : (s.linkOnline b).ports = s.ports := by
  simp [State.linkOnline]
@[simp] theorem State.linkOnline_pending (s : State) (b : BayNo) : (s.linkOnline b).pending = s.pending := by
  simp [State.linkOnline]

/-! ### takeSilence -/

@[simp] theorem State.takeSilence_opState (s : State) (b : BayNo) : (s.takeSilence b).opState = s.opState := by
  simp only [State.takeSilence]; repeat' split
  all_goals simp
@[simp] theorem State.takeSilence_deviceSeconds (s : State) (b : BayNo) : (s.takeSilence b).deviceSeconds = s.deviceSeconds := by
  simp only [State.takeSilence]; repeat' split
  all_goals simp
@[simp] theorem State.takeSilence_timers (s : State) (b : BayNo) : (s.takeSilence b).timers = s.timers := by
  simp only [State.takeSilence]; repeat' split
  all_goals simp
@[simp] theorem State.takeSilence_admission (s : State) (b : BayNo) : (s.takeSilence b).admission = s.admission := by
  simp only [State.takeSilence]; repeat' split
  all_goals simp
@[simp] theorem State.takeSilence_ticketCounter (s : State) (b : BayNo) : (s.takeSilence b).ticketCounter = s.ticketCounter := by
  simp only [State.takeSilence]; repeat' split
  all_goals simp
@[simp] theorem State.takeSilence_booking (s : State) (b : BayNo) : (s.takeSilence b).booking = s.booking := by
  simp only [State.takeSilence]; repeat' split
  all_goals simp
@[simp] theorem State.takeSilence_ports (s : State) (b : BayNo) : (s.takeSilence b).ports = s.ports := by
  simp only [State.takeSilence]; repeat' split
  all_goals simp
@[simp] theorem State.takeSilence_pending (s : State) (b : BayNo) : (s.takeSilence b).pending = s.pending := by
  simp only [State.takeSilence]; repeat' split
  all_goals simp

/-! ### takeBusy -/

@[simp] theorem State.takeBusy_opState (s : State) (b : BayNo) : (s.takeBusy b).opState = s.opState := by
  simp only [State.takeBusy]; repeat' split
  all_goals simp
@[simp] theorem State.takeBusy_deviceSeconds (s : State) (b : BayNo) : (s.takeBusy b).deviceSeconds = s.deviceSeconds := by
  simp only [State.takeBusy]; repeat' split
  all_goals simp
@[simp] theorem State.takeBusy_timers (s : State) (b : BayNo) : (s.takeBusy b).timers = s.timers := by
  simp only [State.takeBusy]; repeat' split
  all_goals simp
@[simp] theorem State.takeBusy_ticketCounter (s : State) (b : BayNo) : (s.takeBusy b).ticketCounter = s.ticketCounter := by
  simp only [State.takeBusy]; repeat' split
  all_goals simp
@[simp] theorem State.takeBusy_booking (s : State) (b : BayNo) : (s.takeBusy b).booking = s.booking := by
  simp only [State.takeBusy]; repeat' split
  all_goals simp
@[simp] theorem State.takeBusy_ports (s : State) (b : BayNo) : (s.takeBusy b).ports = s.ports := by
  simp only [State.takeBusy]; repeat' split
  all_goals simp
@[simp] theorem State.takeBusy_pending (s : State) (b : BayNo) : (s.takeBusy b).pending = s.pending := by
  simp only [State.takeBusy]; repeat' split
  all_goals simp

/-! ### takeReply -/

@[simp] theorem State.takeReply_opState (s : State) (b : BayNo) (r : Report) : (s.takeReply b r).opState = s.opState := by
  simp [State.takeReply]
@[simp] theorem State.takeReply_deviceSeconds (s : State) (b : BayNo) (r : Report) : (s.takeReply b r).deviceSeconds = s.deviceSeconds := by
  simp [State.takeReply]
@[simp] theorem State.takeReply_timers (s : State) (b : BayNo) (r : Report) : (s.takeReply b r).timers = s.timers := by
  simp [State.takeReply]
@[simp] theorem State.takeReply_ports (s : State) (b : BayNo) (r : Report) : (s.takeReply b r).ports = s.ports := by
  simp [State.takeReply]
@[simp] theorem State.takeReply_pending (s : State) (b : BayNo) (r : Report) : (s.takeReply b r).pending = s.pending := by
  simp [State.takeReply]

/-! ### takeReportReply -/

@[simp] theorem State.takeReportReply_opState (s : State) (b : BayNo) (r : Report) : (s.takeReportReply b r).opState = s.opState := by
  simp only [State.takeReportReply]; repeat' split
  all_goals simp
@[simp] theorem State.takeReportReply_deviceSeconds (s : State) (b : BayNo) (r : Report) : (s.takeReportReply b r).deviceSeconds = s.deviceSeconds := by
  simp only [State.takeReportReply]; repeat' split
  all_goals simp
@[simp] theorem State.takeReportReply_timers (s : State) (b : BayNo) (r : Report) : (s.takeReportReply b r).timers = s.timers := by
  simp only [State.takeReportReply]; repeat' split
  all_goals simp
@[simp] theorem State.takeReportReply_ports (s : State) (b : BayNo) (r : Report) : (s.takeReportReply b r).ports = s.ports := by
  simp only [State.takeReportReply]; repeat' split
  all_goals simp
@[simp] theorem State.takeReportReply_pending (s : State) (b : BayNo) (r : Report) : (s.takeReportReply b r).pending = s.pending := by
  simp only [State.takeReportReply]; repeat' split
  all_goals simp

/-! ### takeReplyBytes -/

@[simp] theorem State.takeReplyBytes_opState (s : State) (b : BayNo) (l : List Byte) : (s.takeReplyBytes b l).opState = s.opState := by
  simp only [State.takeReplyBytes]; repeat' split
  all_goals simp
@[simp] theorem State.takeReplyBytes_deviceSeconds (s : State) (b : BayNo) (l : List Byte) : (s.takeReplyBytes b l).deviceSeconds = s.deviceSeconds := by
  simp only [State.takeReplyBytes]; repeat' split
  all_goals simp
@[simp] theorem State.takeReplyBytes_timers (s : State) (b : BayNo) (l : List Byte) : (s.takeReplyBytes b l).timers = s.timers := by
  simp only [State.takeReplyBytes]; repeat' split
  all_goals simp
@[simp] theorem State.takeReplyBytes_ports (s : State) (b : BayNo) (l : List Byte) : (s.takeReplyBytes b l).ports = s.ports := by
  simp only [State.takeReplyBytes]; repeat' split
  all_goals simp
@[simp] theorem State.takeReplyBytes_pending (s : State) (b : BayNo) (l : List Byte) : (s.takeReplyBytes b l).pending = s.pending := by
  simp only [State.takeReplyBytes]; repeat' split
  all_goals simp

/-! ### settleBus -/

@[simp] theorem State.settleBus_opState (s : State) : s.settleBus.opState = s.opState := by
  simp only [State.settleBus]; repeat' split
  all_goals simp
@[simp] theorem State.settleBus_deviceSeconds (s : State) : s.settleBus.deviceSeconds = s.deviceSeconds := by
  simp only [State.settleBus]; repeat' split
  all_goals simp
@[simp] theorem State.settleBus_timers (s : State) : s.settleBus.timers = s.timers := by
  simp only [State.settleBus]; repeat' split
  all_goals simp
@[simp] theorem State.settleBus_bays (s : State) : s.settleBus.bays = s.bays := by
  simp only [State.settleBus]; repeat' split
  all_goals simp
@[simp] theorem State.settleBus_admission (s : State) : s.settleBus.admission = s.admission := by
  simp only [State.settleBus]; repeat' split
  all_goals simp
@[simp] theorem State.settleBus_tickets (s : State) : s.settleBus.tickets = s.tickets := by
  simp only [State.settleBus]; repeat' split
  all_goals simp
@[simp] theorem State.settleBus_ticketCounter (s : State) : s.settleBus.ticketCounter = s.ticketCounter := by
  simp only [State.settleBus]; repeat' split
  all_goals simp
@[simp] theorem State.settleBus_pools (s : State) : s.settleBus.pools = s.pools := by
  simp only [State.settleBus]; repeat' split
  all_goals simp
@[simp] theorem State.settleBus_booking (s : State) : s.settleBus.booking = s.booking := by
  simp only [State.settleBus]; repeat' split
  all_goals simp
@[simp] theorem State.settleBus_power (s : State) : s.settleBus.power = s.power := by
  simp only [State.settleBus]; repeat' split
  all_goals simp
@[simp] theorem State.settleBus_ports (s : State) : s.settleBus.ports = s.ports := by
  simp only [State.settleBus]; repeat' split
  all_goals simp
@[simp] theorem State.settleBus_queues (s : State) : s.settleBus.queues = s.queues := by
  simp only [State.settleBus]; repeat' split
  all_goals simp
@[simp] theorem State.settleBus_pending (s : State) : s.settleBus.pending = s.pending := by
  simp only [State.settleBus]; repeat' split
  all_goals simp

/-! ### closeSent -/

@[simp] theorem State.closeSent_opState (s : State) (k : CloseKind) : (s.closeSent k).opState = s.opState := by
  simp only [State.closeSent]; repeat' split
  all_goals simp
@[simp] theorem State.closeSent_deviceSeconds (s : State) (k : CloseKind) : (s.closeSent k).deviceSeconds = s.deviceSeconds := by
  simp only [State.closeSent]; repeat' split
  all_goals simp
@[simp] theorem State.closeSent_timers (s : State) (k : CloseKind) : (s.closeSent k).timers = s.timers := by
  simp only [State.closeSent]; repeat' split
  all_goals simp
@[simp] theorem State.closeSent_bays (s : State) (k : CloseKind) : (s.closeSent k).bays = s.bays := by
  simp only [State.closeSent]; repeat' split
  all_goals simp
@[simp] theorem State.closeSent_admission (s : State) (k : CloseKind) : (s.closeSent k).admission = s.admission := by
  simp only [State.closeSent]; repeat' split
  all_goals simp
@[simp] theorem State.closeSent_tickets (s : State) (k : CloseKind) : (s.closeSent k).tickets = s.tickets := by
  simp only [State.closeSent]; repeat' split
  all_goals simp
@[simp] theorem State.closeSent_ticketCounter (s : State) (k : CloseKind) : (s.closeSent k).ticketCounter = s.ticketCounter := by
  simp only [State.closeSent]; repeat' split
  all_goals simp
@[simp] theorem State.closeSent_pools (s : State) (k : CloseKind) : (s.closeSent k).pools = s.pools := by
  simp only [State.closeSent]; repeat' split
  all_goals simp
@[simp] theorem State.closeSent_booking (s : State) (k : CloseKind) : (s.closeSent k).booking = s.booking := by
  simp only [State.closeSent]; repeat' split
  all_goals simp
@[simp] theorem State.closeSent_power (s : State) (k : CloseKind) : (s.closeSent k).power = s.power := by
  simp only [State.closeSent]; repeat' split
  all_goals simp
@[simp] theorem State.closeSent_ports (s : State) (k : CloseKind) : (s.closeSent k).ports = s.ports := by
  simp only [State.closeSent]; repeat' split
  all_goals simp
@[simp] theorem State.closeSent_queues (s : State) (k : CloseKind) : (s.closeSent k).queues = s.queues := by
  simp only [State.closeSent]; repeat' split
  all_goals simp
@[simp] theorem State.closeSent_pending (s : State) (k : CloseKind) : (s.closeSent k).pending = s.pending := by
  simp only [State.closeSent]; repeat' split
  all_goals simp

/-! ### sweepPeriodOut -/

@[simp] theorem State.sweepPeriodOut_opState (s : State) : s.sweepPeriodOut.opState = s.opState := by
  simp only [State.sweepPeriodOut]; repeat' split
  all_goals simp
@[simp] theorem State.sweepPeriodOut_deviceSeconds (s : State) : s.sweepPeriodOut.deviceSeconds = s.deviceSeconds := by
  simp only [State.sweepPeriodOut]; repeat' split
  all_goals simp
@[simp] theorem State.sweepPeriodOut_timers (s : State) : s.sweepPeriodOut.timers = s.timers := by
  simp only [State.sweepPeriodOut]; repeat' split
  all_goals simp
@[simp] theorem State.sweepPeriodOut_bays (s : State) : s.sweepPeriodOut.bays = s.bays := by
  simp only [State.sweepPeriodOut]; repeat' split
  all_goals simp
@[simp] theorem State.sweepPeriodOut_admission (s : State) : s.sweepPeriodOut.admission = s.admission := by
  simp only [State.sweepPeriodOut]; repeat' split
  all_goals simp
@[simp] theorem State.sweepPeriodOut_tickets (s : State) : s.sweepPeriodOut.tickets = s.tickets := by
  simp only [State.sweepPeriodOut]; repeat' split
  all_goals simp
@[simp] theorem State.sweepPeriodOut_ticketCounter (s : State) : s.sweepPeriodOut.ticketCounter = s.ticketCounter := by
  simp only [State.sweepPeriodOut]; repeat' split
  all_goals simp
@[simp] theorem State.sweepPeriodOut_pools (s : State) : s.sweepPeriodOut.pools = s.pools := by
  simp only [State.sweepPeriodOut]; repeat' split
  all_goals simp
@[simp] theorem State.sweepPeriodOut_booking (s : State) : s.sweepPeriodOut.booking = s.booking := by
  simp only [State.sweepPeriodOut]; repeat' split
  all_goals simp
@[simp] theorem State.sweepPeriodOut_power (s : State) : s.sweepPeriodOut.power = s.power := by
  simp only [State.sweepPeriodOut]; repeat' split
  all_goals simp
@[simp] theorem State.sweepPeriodOut_ports (s : State) : s.sweepPeriodOut.ports = s.ports := by
  simp only [State.sweepPeriodOut]; repeat' split
  all_goals simp
@[simp] theorem State.sweepPeriodOut_queues (s : State) : s.sweepPeriodOut.queues = s.queues := by
  simp only [State.sweepPeriodOut]; repeat' split
  all_goals simp
@[simp] theorem State.sweepPeriodOut_pending (s : State) : s.sweepPeriodOut.pending = s.pending := by
  simp only [State.sweepPeriodOut]; repeat' split
  all_goals simp

/-! ### keepAliveOut -/

@[simp] theorem State.keepAliveOut_opState (s : State) : s.keepAliveOut.opState = s.opState := by
  simp only [State.keepAliveOut]; repeat' split
  all_goals simp
@[simp] theorem State.keepAliveOut_deviceSeconds (s : State) : s.keepAliveOut.deviceSeconds = s.deviceSeconds := by
  simp only [State.keepAliveOut]; repeat' split
  all_goals simp
@[simp] theorem State.keepAliveOut_timers (s : State) : s.keepAliveOut.timers = s.timers := by
  simp only [State.keepAliveOut]; repeat' split
  all_goals simp
@[simp] theorem State.keepAliveOut_bays (s : State) : s.keepAliveOut.bays = s.bays := by
  simp only [State.keepAliveOut]; repeat' split
  all_goals simp
@[simp] theorem State.keepAliveOut_admission (s : State) : s.keepAliveOut.admission = s.admission := by
  simp only [State.keepAliveOut]; repeat' split
  all_goals simp
@[simp] theorem State.keepAliveOut_tickets (s : State) : s.keepAliveOut.tickets = s.tickets := by
  simp only [State.keepAliveOut]; repeat' split
  all_goals simp
@[simp] theorem State.keepAliveOut_ticketCounter (s : State) : s.keepAliveOut.ticketCounter = s.ticketCounter := by
  simp only [State.keepAliveOut]; repeat' split
  all_goals simp
@[simp] theorem State.keepAliveOut_pools (s : State) : s.keepAliveOut.pools = s.pools := by
  simp only [State.keepAliveOut]; repeat' split
  all_goals simp
@[simp] theorem State.keepAliveOut_booking (s : State) : s.keepAliveOut.booking = s.booking := by
  simp only [State.keepAliveOut]; repeat' split
  all_goals simp
@[simp] theorem State.keepAliveOut_power (s : State) : s.keepAliveOut.power = s.power := by
  simp only [State.keepAliveOut]; repeat' split
  all_goals simp
@[simp] theorem State.keepAliveOut_ports (s : State) : s.keepAliveOut.ports = s.ports := by
  simp only [State.keepAliveOut]; repeat' split
  all_goals simp
@[simp] theorem State.keepAliveOut_queues (s : State) : s.keepAliveOut.queues = s.queues := by
  simp only [State.keepAliveOut]; repeat' split
  all_goals simp
@[simp] theorem State.keepAliveOut_pending (s : State) : s.keepAliveOut.pending = s.pending := by
  simp only [State.keepAliveOut]; repeat' split
  all_goals simp

/-! ### clearBus -/

@[simp] theorem State.clearBus_opState (s : State) : s.clearBus.opState = s.opState := by simp [State.clearBus]
@[simp] theorem State.clearBus_deviceSeconds (s : State) : s.clearBus.deviceSeconds = s.deviceSeconds := by simp [State.clearBus]
@[simp] theorem State.clearBus_timers (s : State) : s.clearBus.timers = s.timers := by simp [State.clearBus]
@[simp] theorem State.clearBus_bays (s : State) : s.clearBus.bays = s.bays := by simp [State.clearBus]
@[simp] theorem State.clearBus_admission (s : State) : s.clearBus.admission = s.admission := by simp [State.clearBus]
@[simp] theorem State.clearBus_tickets (s : State) : s.clearBus.tickets = s.tickets := by simp [State.clearBus]
@[simp] theorem State.clearBus_ticketCounter (s : State) : s.clearBus.ticketCounter = s.ticketCounter := by simp [State.clearBus]
@[simp] theorem State.clearBus_pools (s : State) : s.clearBus.pools = s.pools := by simp [State.clearBus]
@[simp] theorem State.clearBus_booking (s : State) : s.clearBus.booking = s.booking := by simp [State.clearBus]
@[simp] theorem State.clearBus_power (s : State) : s.clearBus.power = s.power := by simp [State.clearBus]
@[simp] theorem State.clearBus_ports (s : State) : s.clearBus.ports = s.ports := by simp [State.clearBus]
@[simp] theorem State.clearBus_queues (s : State) : s.clearBus.queues = s.queues := by simp [State.clearBus]
@[simp] theorem State.clearBus_pending (s : State) : s.clearBus.pending = s.pending := by simp [State.clearBus]

/-! ### enterBlocked -/

@[simp] theorem State.enterBlocked_opState (s : State) (b : BayNo) : (s.enterBlocked b).opState = s.opState := by
  simp [State.enterBlocked]
@[simp] theorem State.enterBlocked_deviceSeconds (s : State) (b : BayNo) : (s.enterBlocked b).deviceSeconds = s.deviceSeconds := by
  simp [State.enterBlocked]
@[simp] theorem State.enterBlocked_timers (s : State) (b : BayNo) : (s.enterBlocked b).timers = s.timers := by
  simp [State.enterBlocked]
@[simp] theorem State.enterBlocked_admission (s : State) (b : BayNo) : (s.enterBlocked b).admission = s.admission := by
  simp [State.enterBlocked]
@[simp] theorem State.enterBlocked_tickets (s : State) (b : BayNo) : (s.enterBlocked b).tickets = s.tickets := by
  simp [State.enterBlocked]
@[simp] theorem State.enterBlocked_ticketCounter (s : State) (b : BayNo) : (s.enterBlocked b).ticketCounter = s.ticketCounter := by
  simp [State.enterBlocked]
@[simp] theorem State.enterBlocked_pools (s : State) (b : BayNo) : (s.enterBlocked b).pools = s.pools := by
  simp [State.enterBlocked]
@[simp] theorem State.enterBlocked_booking (s : State) (b : BayNo) : (s.enterBlocked b).booking = s.booking := by
  simp [State.enterBlocked]
@[simp] theorem State.enterBlocked_power (s : State) (b : BayNo) : (s.enterBlocked b).power = s.power := by
  simp [State.enterBlocked]
@[simp] theorem State.enterBlocked_bus (s : State) (b : BayNo) : (s.enterBlocked b).bus = s.bus := by
  simp [State.enterBlocked]
@[simp] theorem State.enterBlocked_ports (s : State) (b : BayNo) : (s.enterBlocked b).ports = s.ports := by
  simp [State.enterBlocked]
@[simp] theorem State.enterBlocked_pending (s : State) (b : BayNo) : (s.enterBlocked b).pending = s.pending := by
  simp [State.enterBlocked]

/-! ### pendBlock -/

@[simp] theorem State.pendBlock_opState (s : State) (b : BayNo) : (s.pendBlock b).opState = s.opState := by simp [State.pendBlock]
@[simp] theorem State.pendBlock_deviceSeconds (s : State) (b : BayNo) : (s.pendBlock b).deviceSeconds = s.deviceSeconds := by simp [State.pendBlock]
@[simp] theorem State.pendBlock_timers (s : State) (b : BayNo) : (s.pendBlock b).timers = s.timers := by simp [State.pendBlock]
@[simp] theorem State.pendBlock_admission (s : State) (b : BayNo) : (s.pendBlock b).admission = s.admission := by simp [State.pendBlock]
@[simp] theorem State.pendBlock_tickets (s : State) (b : BayNo) : (s.pendBlock b).tickets = s.tickets := by simp [State.pendBlock]
@[simp] theorem State.pendBlock_ticketCounter (s : State) (b : BayNo) : (s.pendBlock b).ticketCounter = s.ticketCounter := by simp [State.pendBlock]
@[simp] theorem State.pendBlock_pools (s : State) (b : BayNo) : (s.pendBlock b).pools = s.pools := by simp [State.pendBlock]
@[simp] theorem State.pendBlock_booking (s : State) (b : BayNo) : (s.pendBlock b).booking = s.booking := by simp [State.pendBlock]
@[simp] theorem State.pendBlock_power (s : State) (b : BayNo) : (s.pendBlock b).power = s.power := by simp [State.pendBlock]
@[simp] theorem State.pendBlock_bus (s : State) (b : BayNo) : (s.pendBlock b).bus = s.bus := by simp [State.pendBlock]
@[simp] theorem State.pendBlock_ports (s : State) (b : BayNo) : (s.pendBlock b).ports = s.ports := by simp [State.pendBlock]
@[simp] theorem State.pendBlock_queues (s : State) (b : BayNo) : (s.pendBlock b).queues = s.queues := by simp [State.pendBlock]
@[simp] theorem State.pendBlock_pending (s : State) (b : BayNo) : (s.pendBlock b).pending = s.pending := by simp [State.pendBlock]

/-! ### clearFaultAt -/

@[simp] theorem State.clearFaultAt_opState (s : State) (b : BayNo) : (s.clearFaultAt b).opState = s.opState := by
  simp [State.clearFaultAt]
@[simp] theorem State.clearFaultAt_deviceSeconds (s : State) (b : BayNo) : (s.clearFaultAt b).deviceSeconds = s.deviceSeconds := by
  simp [State.clearFaultAt]
@[simp] theorem State.clearFaultAt_timers (s : State) (b : BayNo) : (s.clearFaultAt b).timers = s.timers := by
  simp [State.clearFaultAt]
@[simp] theorem State.clearFaultAt_booking (s : State) (b : BayNo) : (s.clearFaultAt b).booking = s.booking := by
  simp [State.clearFaultAt]
@[simp] theorem State.clearFaultAt_bus (s : State) (b : BayNo) : (s.clearFaultAt b).bus = s.bus := by
  simp [State.clearFaultAt]
@[simp] theorem State.clearFaultAt_ports (s : State) (b : BayNo) : (s.clearFaultAt b).ports = s.ports := by
  simp [State.clearFaultAt]
@[simp] theorem State.clearFaultAt_pending (s : State) (b : BayNo) : (s.clearFaultAt b).pending = s.pending := by
  simp [State.clearFaultAt]

/-! ### setMask -/

@[simp] theorem State.setMask_opState (s : State) (q : PoolNo) (o : Bool) : (s.setMask q o).opState = s.opState := by simp [State.setMask]
@[simp] theorem State.setMask_deviceSeconds (s : State) (q : PoolNo) (o : Bool) : (s.setMask q o).deviceSeconds = s.deviceSeconds := by simp [State.setMask]
@[simp] theorem State.setMask_timers (s : State) (q : PoolNo) (o : Bool) : (s.setMask q o).timers = s.timers := by simp [State.setMask]
@[simp] theorem State.setMask_bays (s : State) (q : PoolNo) (o : Bool) : (s.setMask q o).bays = s.bays := by simp [State.setMask]
@[simp] theorem State.setMask_admission (s : State) (q : PoolNo) (o : Bool) : (s.setMask q o).admission = s.admission := by simp [State.setMask]
@[simp] theorem State.setMask_tickets (s : State) (q : PoolNo) (o : Bool) : (s.setMask q o).tickets = s.tickets := by simp [State.setMask]
@[simp] theorem State.setMask_ticketCounter (s : State) (q : PoolNo) (o : Bool) : (s.setMask q o).ticketCounter = s.ticketCounter := by simp [State.setMask]
@[simp] theorem State.setMask_booking (s : State) (q : PoolNo) (o : Bool) : (s.setMask q o).booking = s.booking := by simp [State.setMask]
@[simp] theorem State.setMask_power (s : State) (q : PoolNo) (o : Bool) : (s.setMask q o).power = s.power := by simp [State.setMask]
@[simp] theorem State.setMask_bus (s : State) (q : PoolNo) (o : Bool) : (s.setMask q o).bus = s.bus := by simp [State.setMask]
@[simp] theorem State.setMask_ports (s : State) (q : PoolNo) (o : Bool) : (s.setMask q o).ports = s.ports := by simp [State.setMask]
@[simp] theorem State.setMask_queues (s : State) (q : PoolNo) (o : Bool) : (s.setMask q o).queues = s.queues := by simp [State.setMask]
@[simp] theorem State.setMask_pending (s : State) (q : PoolNo) (o : Bool) : (s.setMask q o).pending = s.pending := by simp [State.setMask]

/-! ### placeBooking -/

@[simp] theorem State.placeBooking_opState (s : State) (b : BayNo) (k : Booking) : (s.placeBooking b k).opState = s.opState := by simp [State.placeBooking]
@[simp] theorem State.placeBooking_deviceSeconds (s : State) (b : BayNo) (k : Booking) : (s.placeBooking b k).deviceSeconds = s.deviceSeconds := by simp [State.placeBooking]
@[simp] theorem State.placeBooking_timers (s : State) (b : BayNo) (k : Booking) : (s.placeBooking b k).timers = s.timers := by simp [State.placeBooking]
@[simp] theorem State.placeBooking_bays (s : State) (b : BayNo) (k : Booking) : (s.placeBooking b k).bays = s.bays := by simp [State.placeBooking]
@[simp] theorem State.placeBooking_admission (s : State) (b : BayNo) (k : Booking) : (s.placeBooking b k).admission = s.admission := by simp [State.placeBooking]
@[simp] theorem State.placeBooking_tickets (s : State) (b : BayNo) (k : Booking) : (s.placeBooking b k).tickets = s.tickets := by simp [State.placeBooking]
@[simp] theorem State.placeBooking_ticketCounter (s : State) (b : BayNo) (k : Booking) : (s.placeBooking b k).ticketCounter = s.ticketCounter := by simp [State.placeBooking]
@[simp] theorem State.placeBooking_pools (s : State) (b : BayNo) (k : Booking) : (s.placeBooking b k).pools = s.pools := by simp [State.placeBooking]
@[simp] theorem State.placeBooking_power (s : State) (b : BayNo) (k : Booking) : (s.placeBooking b k).power = s.power := by simp [State.placeBooking]
@[simp] theorem State.placeBooking_bus (s : State) (b : BayNo) (k : Booking) : (s.placeBooking b k).bus = s.bus := by simp [State.placeBooking]
@[simp] theorem State.placeBooking_ports (s : State) (b : BayNo) (k : Booking) : (s.placeBooking b k).ports = s.ports := by simp [State.placeBooking]
@[simp] theorem State.placeBooking_queues (s : State) (b : BayNo) (k : Booking) : (s.placeBooking b k).queues = s.queues := by simp [State.placeBooking]
@[simp] theorem State.placeBooking_pending (s : State) (b : BayNo) (k : Booking) : (s.placeBooking b k).pending = s.pending := by simp [State.placeBooking]

/-! ### setClock -/

@[simp] theorem State.setClock_opState (s : State) (n : SlotNo) (x : Nat) : (s.setClock n x).opState = s.opState := by simp [State.setClock]
@[simp] theorem State.setClock_deviceSeconds (s : State) (n : SlotNo) (x : Nat) : (s.setClock n x).deviceSeconds = s.deviceSeconds := by simp [State.setClock]
@[simp] theorem State.setClock_timers (s : State) (n : SlotNo) (x : Nat) : (s.setClock n x).timers = s.timers := by simp [State.setClock]
@[simp] theorem State.setClock_bays (s : State) (n : SlotNo) (x : Nat) : (s.setClock n x).bays = s.bays := by simp [State.setClock]
@[simp] theorem State.setClock_admission (s : State) (n : SlotNo) (x : Nat) : (s.setClock n x).admission = s.admission := by simp [State.setClock]
@[simp] theorem State.setClock_tickets (s : State) (n : SlotNo) (x : Nat) : (s.setClock n x).tickets = s.tickets := by simp [State.setClock]
@[simp] theorem State.setClock_ticketCounter (s : State) (n : SlotNo) (x : Nat) : (s.setClock n x).ticketCounter = s.ticketCounter := by simp [State.setClock]
@[simp] theorem State.setClock_pools (s : State) (n : SlotNo) (x : Nat) : (s.setClock n x).pools = s.pools := by simp [State.setClock]
@[simp] theorem State.setClock_power (s : State) (n : SlotNo) (x : Nat) : (s.setClock n x).power = s.power := by simp [State.setClock]
@[simp] theorem State.setClock_bus (s : State) (n : SlotNo) (x : Nat) : (s.setClock n x).bus = s.bus := by simp [State.setClock]
@[simp] theorem State.setClock_ports (s : State) (n : SlotNo) (x : Nat) : (s.setClock n x).ports = s.ports := by simp [State.setClock]
@[simp] theorem State.setClock_queues (s : State) (n : SlotNo) (x : Nat) : (s.setClock n x).queues = s.queues := by simp [State.setClock]
@[simp] theorem State.setClock_pending (s : State) (n : SlotNo) (x : Nat) : (s.setClock n x).pending = s.pending := by simp [State.setClock]

/-! ### setWindow -/

@[simp] theorem State.setWindow_opState (s : State) (p : Port) (w : Window) : (s.setWindow p w).opState = s.opState := by simp [State.setWindow]
@[simp] theorem State.setWindow_deviceSeconds (s : State) (p : Port) (w : Window) : (s.setWindow p w).deviceSeconds = s.deviceSeconds := by simp [State.setWindow]
@[simp] theorem State.setWindow_timers (s : State) (p : Port) (w : Window) : (s.setWindow p w).timers = s.timers := by simp [State.setWindow]
@[simp] theorem State.setWindow_bays (s : State) (p : Port) (w : Window) : (s.setWindow p w).bays = s.bays := by simp [State.setWindow]
@[simp] theorem State.setWindow_admission (s : State) (p : Port) (w : Window) : (s.setWindow p w).admission = s.admission := by simp [State.setWindow]
@[simp] theorem State.setWindow_tickets (s : State) (p : Port) (w : Window) : (s.setWindow p w).tickets = s.tickets := by simp [State.setWindow]
@[simp] theorem State.setWindow_ticketCounter (s : State) (p : Port) (w : Window) : (s.setWindow p w).ticketCounter = s.ticketCounter := by simp [State.setWindow]
@[simp] theorem State.setWindow_pools (s : State) (p : Port) (w : Window) : (s.setWindow p w).pools = s.pools := by simp [State.setWindow]
@[simp] theorem State.setWindow_booking (s : State) (p : Port) (w : Window) : (s.setWindow p w).booking = s.booking := by simp [State.setWindow]
@[simp] theorem State.setWindow_power (s : State) (p : Port) (w : Window) : (s.setWindow p w).power = s.power := by simp [State.setWindow]
@[simp] theorem State.setWindow_bus (s : State) (p : Port) (w : Window) : (s.setWindow p w).bus = s.bus := by simp [State.setWindow]
@[simp] theorem State.setWindow_queues (s : State) (p : Port) (w : Window) : (s.setWindow p w).queues = s.queues := by simp [State.setWindow]
@[simp] theorem State.setWindow_pending (s : State) (p : Port) (w : Window) : (s.setWindow p w).pending = s.pending := by simp [State.setWindow]

/-! ### clearBays -/

@[simp] theorem State.clearBays_opState (s : State) : s.clearBays.opState = s.opState := by simp [State.clearBays]
@[simp] theorem State.clearBays_deviceSeconds (s : State) : s.clearBays.deviceSeconds = s.deviceSeconds := by simp [State.clearBays]
@[simp] theorem State.clearBays_timers (s : State) : s.clearBays.timers = s.timers := by simp [State.clearBays]
@[simp] theorem State.clearBays_tickets (s : State) : s.clearBays.tickets = s.tickets := by simp [State.clearBays]
@[simp] theorem State.clearBays_ticketCounter (s : State) : s.clearBays.ticketCounter = s.ticketCounter := by simp [State.clearBays]
@[simp] theorem State.clearBays_pools (s : State) : s.clearBays.pools = s.pools := by simp [State.clearBays]
@[simp] theorem State.clearBays_booking (s : State) : s.clearBays.booking = s.booking := by simp [State.clearBays]
@[simp] theorem State.clearBays_power (s : State) : s.clearBays.power = s.power := by simp [State.clearBays]
@[simp] theorem State.clearBays_bus (s : State) : s.clearBays.bus = s.bus := by simp [State.clearBays]
@[simp] theorem State.clearBays_ports (s : State) : s.clearBays.ports = s.ports := by simp [State.clearBays]
@[simp] theorem State.clearBays_queues (s : State) : s.clearBays.queues = s.queues := by simp [State.clearBays]
@[simp] theorem State.clearBays_pending (s : State) : s.clearBays.pending = s.pending := by simp [State.clearBays]

/-! ### clearPools -/

@[simp] theorem State.clearPools_opState (s : State) : s.clearPools.opState = s.opState := by simp [State.clearPools]
@[simp] theorem State.clearPools_deviceSeconds (s : State) : s.clearPools.deviceSeconds = s.deviceSeconds := by simp [State.clearPools]
@[simp] theorem State.clearPools_timers (s : State) : s.clearPools.timers = s.timers := by simp [State.clearPools]
@[simp] theorem State.clearPools_bays (s : State) : s.clearPools.bays = s.bays := by simp [State.clearPools]
@[simp] theorem State.clearPools_admission (s : State) : s.clearPools.admission = s.admission := by simp [State.clearPools]
@[simp] theorem State.clearPools_tickets (s : State) : s.clearPools.tickets = s.tickets := by simp [State.clearPools]
@[simp] theorem State.clearPools_ticketCounter (s : State) : s.clearPools.ticketCounter = s.ticketCounter := by simp [State.clearPools]
@[simp] theorem State.clearPools_booking (s : State) : s.clearPools.booking = s.booking := by simp [State.clearPools]
@[simp] theorem State.clearPools_power (s : State) : s.clearPools.power = s.power := by simp [State.clearPools]
@[simp] theorem State.clearPools_bus (s : State) : s.clearPools.bus = s.bus := by simp [State.clearPools]
@[simp] theorem State.clearPools_ports (s : State) : s.clearPools.ports = s.ports := by simp [State.clearPools]
@[simp] theorem State.clearPools_queues (s : State) : s.clearPools.queues = s.queues := by simp [State.clearPools]
@[simp] theorem State.clearPools_pending (s : State) : s.clearPools.pending = s.pending := by simp [State.clearPools]

/-! ### clearSetpoints -/

@[simp] theorem State.clearSetpoints_opState (s : State) : s.clearSetpoints.opState = s.opState := by simp [State.clearSetpoints]
@[simp] theorem State.clearSetpoints_deviceSeconds (s : State) : s.clearSetpoints.deviceSeconds = s.deviceSeconds := by simp [State.clearSetpoints]
@[simp] theorem State.clearSetpoints_timers (s : State) : s.clearSetpoints.timers = s.timers := by simp [State.clearSetpoints]
@[simp] theorem State.clearSetpoints_bays (s : State) : s.clearSetpoints.bays = s.bays := by simp [State.clearSetpoints]
@[simp] theorem State.clearSetpoints_admission (s : State) : s.clearSetpoints.admission = s.admission := by simp [State.clearSetpoints]
@[simp] theorem State.clearSetpoints_tickets (s : State) : s.clearSetpoints.tickets = s.tickets := by simp [State.clearSetpoints]
@[simp] theorem State.clearSetpoints_ticketCounter (s : State) : s.clearSetpoints.ticketCounter = s.ticketCounter := by simp [State.clearSetpoints]
@[simp] theorem State.clearSetpoints_pools (s : State) : s.clearSetpoints.pools = s.pools := by simp [State.clearSetpoints]
@[simp] theorem State.clearSetpoints_booking (s : State) : s.clearSetpoints.booking = s.booking := by simp [State.clearSetpoints]
@[simp] theorem State.clearSetpoints_bus (s : State) : s.clearSetpoints.bus = s.bus := by simp [State.clearSetpoints]
@[simp] theorem State.clearSetpoints_ports (s : State) : s.clearSetpoints.ports = s.ports := by simp [State.clearSetpoints]
@[simp] theorem State.clearSetpoints_queues (s : State) : s.clearSetpoints.queues = s.queues := by simp [State.clearSetpoints]
@[simp] theorem State.clearSetpoints_pending (s : State) : s.clearSetpoints.pending = s.pending := by simp [State.clearSetpoints]

/-! ### dropUnenrolled -/

@[simp] theorem State.dropUnenrolled_opState (s : State) (b : BayNo) : (s.dropUnenrolled b).opState = s.opState := by
  unfold State.dropUnenrolled; split
  · rfl
  · exact foldl_frame (·.opState) _ (by simp) _ _
@[simp] theorem State.dropUnenrolled_deviceSeconds (s : State) (b : BayNo) : (s.dropUnenrolled b).deviceSeconds = s.deviceSeconds := by
  unfold State.dropUnenrolled; split
  · rfl
  · exact foldl_frame (·.deviceSeconds) _ (by simp) _ _
@[simp] theorem State.dropUnenrolled_timers (s : State) (b : BayNo) : (s.dropUnenrolled b).timers = s.timers := by
  unfold State.dropUnenrolled; split
  · rfl
  · exact foldl_frame (·.timers) _ (by simp) _ _
@[simp] theorem State.dropUnenrolled_bays (s : State) (b : BayNo) : (s.dropUnenrolled b).bays = s.bays := by
  unfold State.dropUnenrolled; split
  · rfl
  · exact foldl_frame (·.bays) _ (by simp) _ _
@[simp] theorem State.dropUnenrolled_admission (s : State) (b : BayNo) : (s.dropUnenrolled b).admission = s.admission := by
  unfold State.dropUnenrolled; split
  · rfl
  · exact foldl_frame (·.admission) _ (by simp) _ _
@[simp] theorem State.dropUnenrolled_tickets (s : State) (b : BayNo) : (s.dropUnenrolled b).tickets = s.tickets := by
  unfold State.dropUnenrolled; split
  · rfl
  · exact foldl_frame (·.tickets) _ (by simp) _ _
@[simp] theorem State.dropUnenrolled_ticketCounter (s : State) (b : BayNo) : (s.dropUnenrolled b).ticketCounter = s.ticketCounter := by
  unfold State.dropUnenrolled; split
  · rfl
  · exact foldl_frame (·.ticketCounter) _ (by simp) _ _
@[simp] theorem State.dropUnenrolled_pools (s : State) (b : BayNo) : (s.dropUnenrolled b).pools = s.pools := by
  unfold State.dropUnenrolled; split
  · rfl
  · exact foldl_frame (·.pools) _ (by simp) _ _
@[simp] theorem State.dropUnenrolled_power (s : State) (b : BayNo) : (s.dropUnenrolled b).power = s.power := by
  unfold State.dropUnenrolled; split
  · rfl
  · exact foldl_frame (·.power) _ (by simp) _ _
@[simp] theorem State.dropUnenrolled_bus (s : State) (b : BayNo) : (s.dropUnenrolled b).bus = s.bus := by
  unfold State.dropUnenrolled; split
  · rfl
  · exact foldl_frame (·.bus) _ (by simp) _ _
@[simp] theorem State.dropUnenrolled_ports (s : State) (b : BayNo) : (s.dropUnenrolled b).ports = s.ports := by
  unfold State.dropUnenrolled; split
  · rfl
  · exact foldl_frame (·.ports) _ (by simp) _ _
@[simp] theorem State.dropUnenrolled_pending (s : State) (b : BayNo) : (s.dropUnenrolled b).pending = s.pending := by
  unfold State.dropUnenrolled; split
  · rfl
  · exact foldl_frame (·.pending) _ (by simp) _ _

/-! ### respond -/

@[simp] theorem State.respond_opState (s : State) (p : Port) (r : Reply) : (s.respond p r).opState = s.opState := by simp [State.respond]
@[simp] theorem State.respond_deviceSeconds (s : State) (p : Port) (r : Reply) : (s.respond p r).deviceSeconds = s.deviceSeconds := by simp [State.respond]
@[simp] theorem State.respond_timers (s : State) (p : Port) (r : Reply) : (s.respond p r).timers = s.timers := by simp [State.respond]
@[simp] theorem State.respond_bays (s : State) (p : Port) (r : Reply) : (s.respond p r).bays = s.bays := by simp [State.respond]
@[simp] theorem State.respond_admission (s : State) (p : Port) (r : Reply) : (s.respond p r).admission = s.admission := by simp [State.respond]
@[simp] theorem State.respond_tickets (s : State) (p : Port) (r : Reply) : (s.respond p r).tickets = s.tickets := by simp [State.respond]
@[simp] theorem State.respond_ticketCounter (s : State) (p : Port) (r : Reply) : (s.respond p r).ticketCounter = s.ticketCounter := by simp [State.respond]
@[simp] theorem State.respond_pools (s : State) (p : Port) (r : Reply) : (s.respond p r).pools = s.pools := by simp [State.respond]
@[simp] theorem State.respond_booking (s : State) (p : Port) (r : Reply) : (s.respond p r).booking = s.booking := by simp [State.respond]
@[simp] theorem State.respond_power (s : State) (p : Port) (r : Reply) : (s.respond p r).power = s.power := by simp [State.respond]
@[simp] theorem State.respond_bus (s : State) (p : Port) (r : Reply) : (s.respond p r).bus = s.bus := by simp [State.respond]
@[simp] theorem State.respond_queues (s : State) (p : Port) (r : Reply) : (s.respond p r).queues = s.queues := by simp [State.respond]
@[simp] theorem State.respond_pending (s : State) (p : Port) (r : Reply) : (s.respond p r).pending = s.pending := by simp [State.respond]

/-! ### afterResponse -/

@[simp] theorem State.afterResponse_opState (s : State) (p : Port) (r : Reply) : (s.afterResponse p r).opState = s.opState := by
  simp only [State.afterResponse]; repeat' split
  all_goals simp
@[simp] theorem State.afterResponse_deviceSeconds (s : State) (p : Port) (r : Reply) : (s.afterResponse p r).deviceSeconds = s.deviceSeconds := by
  simp only [State.afterResponse]; repeat' split
  all_goals simp
@[simp] theorem State.afterResponse_timers (s : State) (p : Port) (r : Reply) : (s.afterResponse p r).timers = s.timers := by
  simp only [State.afterResponse]; repeat' split
  all_goals simp
@[simp] theorem State.afterResponse_bays (s : State) (p : Port) (r : Reply) : (s.afterResponse p r).bays = s.bays := by
  simp only [State.afterResponse]; repeat' split
  all_goals simp
@[simp] theorem State.afterResponse_admission (s : State) (p : Port) (r : Reply) : (s.afterResponse p r).admission = s.admission := by
  simp only [State.afterResponse]; repeat' split
  all_goals simp
@[simp] theorem State.afterResponse_tickets (s : State) (p : Port) (r : Reply) : (s.afterResponse p r).tickets = s.tickets := by
  simp only [State.afterResponse]; repeat' split
  all_goals simp
@[simp] theorem State.afterResponse_ticketCounter (s : State) (p : Port) (r : Reply) : (s.afterResponse p r).ticketCounter = s.ticketCounter := by
  simp only [State.afterResponse]; repeat' split
  all_goals simp
@[simp] theorem State.afterResponse_pools (s : State) (p : Port) (r : Reply) : (s.afterResponse p r).pools = s.pools := by
  simp only [State.afterResponse]; repeat' split
  all_goals simp
@[simp] theorem State.afterResponse_booking (s : State) (p : Port) (r : Reply) : (s.afterResponse p r).booking = s.booking := by
  simp only [State.afterResponse]; repeat' split
  all_goals simp
@[simp] theorem State.afterResponse_power (s : State) (p : Port) (r : Reply) : (s.afterResponse p r).power = s.power := by
  simp only [State.afterResponse]; repeat' split
  all_goals simp
@[simp] theorem State.afterResponse_bus (s : State) (p : Port) (r : Reply) : (s.afterResponse p r).bus = s.bus := by
  simp only [State.afterResponse]; repeat' split
  all_goals simp
@[simp] theorem State.afterResponse_ports (s : State) (p : Port) (r : Reply) : (s.afterResponse p r).ports = s.ports := by
  simp only [State.afterResponse]; repeat' split
  all_goals simp
@[simp] theorem State.afterResponse_pending (s : State) (p : Port) (r : Reply) : (s.afterResponse p r).pending = s.pending := by
  simp only [State.afterResponse]; repeat' split
  all_goals simp

/-! ### answer -/

@[simp] theorem State.answer_opState (s : State) (p : Port) (r : Reply) : (s.answer p r).opState = s.opState := by
  simp [State.answer]
@[simp] theorem State.answer_deviceSeconds (s : State) (p : Port) (r : Reply) : (s.answer p r).deviceSeconds = s.deviceSeconds := by
  simp [State.answer]
@[simp] theorem State.answer_timers (s : State) (p : Port) (r : Reply) : (s.answer p r).timers = s.timers := by
  simp [State.answer]
@[simp] theorem State.answer_bays (s : State) (p : Port) (r : Reply) : (s.answer p r).bays = s.bays := by
  simp [State.answer]
@[simp] theorem State.answer_admission (s : State) (p : Port) (r : Reply) : (s.answer p r).admission = s.admission := by
  simp [State.answer]
@[simp] theorem State.answer_tickets (s : State) (p : Port) (r : Reply) : (s.answer p r).tickets = s.tickets := by
  simp [State.answer]
@[simp] theorem State.answer_ticketCounter (s : State) (p : Port) (r : Reply) : (s.answer p r).ticketCounter = s.ticketCounter := by
  simp [State.answer]
@[simp] theorem State.answer_pools (s : State) (p : Port) (r : Reply) : (s.answer p r).pools = s.pools := by
  simp [State.answer]
@[simp] theorem State.answer_booking (s : State) (p : Port) (r : Reply) : (s.answer p r).booking = s.booking := by
  simp [State.answer]
@[simp] theorem State.answer_power (s : State) (p : Port) (r : Reply) : (s.answer p r).power = s.power := by
  simp [State.answer]
@[simp] theorem State.answer_bus (s : State) (p : Port) (r : Reply) : (s.answer p r).bus = s.bus := by
  simp [State.answer]
@[simp] theorem State.answer_pending (s : State) (p : Port) (r : Reply) : (s.answer p r).pending = s.pending := by
  simp [State.answer]

/-! ### startTaking -/

@[simp] theorem State.startTaking_opState (s : State) (p : Port) : (s.startTaking p).opState = s.opState := by simp [State.startTaking]
@[simp] theorem State.startTaking_deviceSeconds (s : State) (p : Port) : (s.startTaking p).deviceSeconds = s.deviceSeconds := by simp [State.startTaking]
@[simp] theorem State.startTaking_timers (s : State) (p : Port) : (s.startTaking p).timers = s.timers := by simp [State.startTaking]
@[simp] theorem State.startTaking_bays (s : State) (p : Port) : (s.startTaking p).bays = s.bays := by simp [State.startTaking]
@[simp] theorem State.startTaking_admission (s : State) (p : Port) : (s.startTaking p).admission = s.admission := by simp [State.startTaking]
@[simp] theorem State.startTaking_tickets (s : State) (p : Port) : (s.startTaking p).tickets = s.tickets := by simp [State.startTaking]
@[simp] theorem State.startTaking_ticketCounter (s : State) (p : Port) : (s.startTaking p).ticketCounter = s.ticketCounter := by simp [State.startTaking]
@[simp] theorem State.startTaking_pools (s : State) (p : Port) : (s.startTaking p).pools = s.pools := by simp [State.startTaking]
@[simp] theorem State.startTaking_booking (s : State) (p : Port) : (s.startTaking p).booking = s.booking := by simp [State.startTaking]
@[simp] theorem State.startTaking_power (s : State) (p : Port) : (s.startTaking p).power = s.power := by simp [State.startTaking]
@[simp] theorem State.startTaking_bus (s : State) (p : Port) : (s.startTaking p).bus = s.bus := by simp [State.startTaking]
@[simp] theorem State.startTaking_queues (s : State) (p : Port) : (s.startTaking p).queues = s.queues := by simp [State.startTaking]
@[simp] theorem State.startTaking_pending (s : State) (p : Port) : (s.startTaking p).pending = s.pending := by simp [State.startTaking]

/-! ### takeUnknown -/

@[simp] theorem State.takeUnknown_opState (s : State) (p : Port) (c : Byte) : (s.takeUnknown p c).opState = s.opState := by
  simp [State.takeUnknown]
@[simp] theorem State.takeUnknown_deviceSeconds (s : State) (p : Port) (c : Byte) : (s.takeUnknown p c).deviceSeconds = s.deviceSeconds := by
  simp [State.takeUnknown]
@[simp] theorem State.takeUnknown_timers (s : State) (p : Port) (c : Byte) : (s.takeUnknown p c).timers = s.timers := by
  simp [State.takeUnknown]
@[simp] theorem State.takeUnknown_bays (s : State) (p : Port) (c : Byte) : (s.takeUnknown p c).bays = s.bays := by
  simp [State.takeUnknown]
@[simp] theorem State.takeUnknown_admission (s : State) (p : Port) (c : Byte) : (s.takeUnknown p c).admission = s.admission := by
  simp [State.takeUnknown]
@[simp] theorem State.takeUnknown_tickets (s : State) (p : Port) (c : Byte) : (s.takeUnknown p c).tickets = s.tickets := by
  simp [State.takeUnknown]
@[simp] theorem State.takeUnknown_ticketCounter (s : State) (p : Port) (c : Byte) : (s.takeUnknown p c).ticketCounter = s.ticketCounter := by
  simp [State.takeUnknown]
@[simp] theorem State.takeUnknown_pools (s : State) (p : Port) (c : Byte) : (s.takeUnknown p c).pools = s.pools := by
  simp [State.takeUnknown]
@[simp] theorem State.takeUnknown_booking (s : State) (p : Port) (c : Byte) : (s.takeUnknown p c).booking = s.booking := by
  simp [State.takeUnknown]
@[simp] theorem State.takeUnknown_power (s : State) (p : Port) (c : Byte) : (s.takeUnknown p c).power = s.power := by
  simp [State.takeUnknown]
@[simp] theorem State.takeUnknown_bus (s : State) (p : Port) (c : Byte) : (s.takeUnknown p c).bus = s.bus := by
  simp [State.takeUnknown]
@[simp] theorem State.takeUnknown_pending (s : State) (p : Port) (c : Byte) : (s.takeUnknown p c).pending = s.pending := by
  simp [State.takeUnknown]

/-! ### takeBadFrame -/

@[simp] theorem State.takeBadFrame_opState (s : State) (p : Port) : (s.takeBadFrame p).opState = s.opState := by
  simp [State.takeBadFrame]
@[simp] theorem State.takeBadFrame_deviceSeconds (s : State) (p : Port) : (s.takeBadFrame p).deviceSeconds = s.deviceSeconds := by
  simp [State.takeBadFrame]
@[simp] theorem State.takeBadFrame_timers (s : State) (p : Port) : (s.takeBadFrame p).timers = s.timers := by
  simp [State.takeBadFrame]
@[simp] theorem State.takeBadFrame_bays (s : State) (p : Port) : (s.takeBadFrame p).bays = s.bays := by
  simp [State.takeBadFrame]
@[simp] theorem State.takeBadFrame_admission (s : State) (p : Port) : (s.takeBadFrame p).admission = s.admission := by
  simp [State.takeBadFrame]
@[simp] theorem State.takeBadFrame_tickets (s : State) (p : Port) : (s.takeBadFrame p).tickets = s.tickets := by
  simp [State.takeBadFrame]
@[simp] theorem State.takeBadFrame_ticketCounter (s : State) (p : Port) : (s.takeBadFrame p).ticketCounter = s.ticketCounter := by
  simp [State.takeBadFrame]
@[simp] theorem State.takeBadFrame_pools (s : State) (p : Port) : (s.takeBadFrame p).pools = s.pools := by
  simp [State.takeBadFrame]
@[simp] theorem State.takeBadFrame_booking (s : State) (p : Port) : (s.takeBadFrame p).booking = s.booking := by
  simp [State.takeBadFrame]
@[simp] theorem State.takeBadFrame_power (s : State) (p : Port) : (s.takeBadFrame p).power = s.power := by
  simp [State.takeBadFrame]
@[simp] theorem State.takeBadFrame_bus (s : State) (p : Port) : (s.takeBadFrame p).bus = s.bus := by
  simp [State.takeBadFrame]
@[simp] theorem State.takeBadFrame_pending (s : State) (p : Port) : (s.takeBadFrame p).pending = s.pending := by
  simp [State.takeBadFrame]

/-! ### dropFrame -/

@[simp] theorem State.dropFrame_opState (s : State) (p : Port) : (s.dropFrame p).opState = s.opState := by simp [State.dropFrame]
@[simp] theorem State.dropFrame_deviceSeconds (s : State) (p : Port) : (s.dropFrame p).deviceSeconds = s.deviceSeconds := by simp [State.dropFrame]
@[simp] theorem State.dropFrame_timers (s : State) (p : Port) : (s.dropFrame p).timers = s.timers := by simp [State.dropFrame]
@[simp] theorem State.dropFrame_bays (s : State) (p : Port) : (s.dropFrame p).bays = s.bays := by simp [State.dropFrame]
@[simp] theorem State.dropFrame_admission (s : State) (p : Port) : (s.dropFrame p).admission = s.admission := by simp [State.dropFrame]
@[simp] theorem State.dropFrame_tickets (s : State) (p : Port) : (s.dropFrame p).tickets = s.tickets := by simp [State.dropFrame]
@[simp] theorem State.dropFrame_ticketCounter (s : State) (p : Port) : (s.dropFrame p).ticketCounter = s.ticketCounter := by simp [State.dropFrame]
@[simp] theorem State.dropFrame_pools (s : State) (p : Port) : (s.dropFrame p).pools = s.pools := by simp [State.dropFrame]
@[simp] theorem State.dropFrame_booking (s : State) (p : Port) : (s.dropFrame p).booking = s.booking := by simp [State.dropFrame]
@[simp] theorem State.dropFrame_power (s : State) (p : Port) : (s.dropFrame p).power = s.power := by simp [State.dropFrame]
@[simp] theorem State.dropFrame_bus (s : State) (p : Port) : (s.dropFrame p).bus = s.bus := by simp [State.dropFrame]
@[simp] theorem State.dropFrame_queues (s : State) (p : Port) : (s.dropFrame p).queues = s.queues := by simp [State.dropFrame]
@[simp] theorem State.dropFrame_pending (s : State) (p : Port) : (s.dropFrame p).pending = s.pending := by simp [State.dropFrame]

/-! ### storeFrame -/

@[simp] theorem State.storeFrame_opState (s : State) (p : Port) (f : List Byte) : (s.storeFrame p f).opState = s.opState := by simp [State.storeFrame]
@[simp] theorem State.storeFrame_deviceSeconds (s : State) (p : Port) (f : List Byte) : (s.storeFrame p f).deviceSeconds = s.deviceSeconds := by simp [State.storeFrame]
@[simp] theorem State.storeFrame_timers (s : State) (p : Port) (f : List Byte) : (s.storeFrame p f).timers = s.timers := by simp [State.storeFrame]
@[simp] theorem State.storeFrame_bays (s : State) (p : Port) (f : List Byte) : (s.storeFrame p f).bays = s.bays := by simp [State.storeFrame]
@[simp] theorem State.storeFrame_admission (s : State) (p : Port) (f : List Byte) : (s.storeFrame p f).admission = s.admission := by simp [State.storeFrame]
@[simp] theorem State.storeFrame_tickets (s : State) (p : Port) (f : List Byte) : (s.storeFrame p f).tickets = s.tickets := by simp [State.storeFrame]
@[simp] theorem State.storeFrame_ticketCounter (s : State) (p : Port) (f : List Byte) : (s.storeFrame p f).ticketCounter = s.ticketCounter := by simp [State.storeFrame]
@[simp] theorem State.storeFrame_pools (s : State) (p : Port) (f : List Byte) : (s.storeFrame p f).pools = s.pools := by simp [State.storeFrame]
@[simp] theorem State.storeFrame_booking (s : State) (p : Port) (f : List Byte) : (s.storeFrame p f).booking = s.booking := by simp [State.storeFrame]
@[simp] theorem State.storeFrame_power (s : State) (p : Port) (f : List Byte) : (s.storeFrame p f).power = s.power := by simp [State.storeFrame]
@[simp] theorem State.storeFrame_bus (s : State) (p : Port) (f : List Byte) : (s.storeFrame p f).bus = s.bus := by simp [State.storeFrame]
@[simp] theorem State.storeFrame_queues (s : State) (p : Port) (f : List Byte) : (s.storeFrame p f).queues = s.queues := by simp [State.storeFrame]
@[simp] theorem State.storeFrame_pending (s : State) (p : Port) (f : List Byte) : (s.storeFrame p f).pending = s.pending := by simp [State.storeFrame]

/-! ### discardBusy -/

@[simp] theorem State.discardBusy_opState (s : State) (p : Port) : (s.discardBusy p).opState = s.opState := by simp [State.discardBusy]
@[simp] theorem State.discardBusy_deviceSeconds (s : State) (p : Port) : (s.discardBusy p).deviceSeconds = s.deviceSeconds := by simp [State.discardBusy]
@[simp] theorem State.discardBusy_timers (s : State) (p : Port) : (s.discardBusy p).timers = s.timers := by simp [State.discardBusy]
@[simp] theorem State.discardBusy_bays (s : State) (p : Port) : (s.discardBusy p).bays = s.bays := by simp [State.discardBusy]
@[simp] theorem State.discardBusy_admission (s : State) (p : Port) : (s.discardBusy p).admission = s.admission := by simp [State.discardBusy]
@[simp] theorem State.discardBusy_tickets (s : State) (p : Port) : (s.discardBusy p).tickets = s.tickets := by simp [State.discardBusy]
@[simp] theorem State.discardBusy_ticketCounter (s : State) (p : Port) : (s.discardBusy p).ticketCounter = s.ticketCounter := by simp [State.discardBusy]
@[simp] theorem State.discardBusy_pools (s : State) (p : Port) : (s.discardBusy p).pools = s.pools := by simp [State.discardBusy]
@[simp] theorem State.discardBusy_booking (s : State) (p : Port) : (s.discardBusy p).booking = s.booking := by simp [State.discardBusy]
@[simp] theorem State.discardBusy_power (s : State) (p : Port) : (s.discardBusy p).power = s.power := by simp [State.discardBusy]
@[simp] theorem State.discardBusy_bus (s : State) (p : Port) : (s.discardBusy p).bus = s.bus := by simp [State.discardBusy]
@[simp] theorem State.discardBusy_queues (s : State) (p : Port) : (s.discardBusy p).queues = s.queues := by simp [State.discardBusy]
@[simp] theorem State.discardBusy_pending (s : State) (p : Port) : (s.discardBusy p).pending = s.pending := by simp [State.discardBusy]

/-! ### discardFlush -/

@[simp] theorem State.discardFlush_opState (s : State) (p : Port) : (s.discardFlush p).opState = s.opState := by simp [State.discardFlush]
@[simp] theorem State.discardFlush_deviceSeconds (s : State) (p : Port) : (s.discardFlush p).deviceSeconds = s.deviceSeconds := by simp [State.discardFlush]
@[simp] theorem State.discardFlush_timers (s : State) (p : Port) : (s.discardFlush p).timers = s.timers := by simp [State.discardFlush]
@[simp] theorem State.discardFlush_bays (s : State) (p : Port) : (s.discardFlush p).bays = s.bays := by simp [State.discardFlush]
@[simp] theorem State.discardFlush_admission (s : State) (p : Port) : (s.discardFlush p).admission = s.admission := by simp [State.discardFlush]
@[simp] theorem State.discardFlush_tickets (s : State) (p : Port) : (s.discardFlush p).tickets = s.tickets := by simp [State.discardFlush]
@[simp] theorem State.discardFlush_ticketCounter (s : State) (p : Port) : (s.discardFlush p).ticketCounter = s.ticketCounter := by simp [State.discardFlush]
@[simp] theorem State.discardFlush_pools (s : State) (p : Port) : (s.discardFlush p).pools = s.pools := by simp [State.discardFlush]
@[simp] theorem State.discardFlush_booking (s : State) (p : Port) : (s.discardFlush p).booking = s.booking := by simp [State.discardFlush]
@[simp] theorem State.discardFlush_power (s : State) (p : Port) : (s.discardFlush p).power = s.power := by simp [State.discardFlush]
@[simp] theorem State.discardFlush_bus (s : State) (p : Port) : (s.discardFlush p).bus = s.bus := by simp [State.discardFlush]
@[simp] theorem State.discardFlush_queues (s : State) (p : Port) : (s.discardFlush p).queues = s.queues := by simp [State.discardFlush]
@[simp] theorem State.discardFlush_pending (s : State) (p : Port) : (s.discardFlush p).pending = s.pending := by simp [State.discardFlush]

/-! ### timerOut -/

@[simp] theorem State.timerOut_opState (s : State) (p : Port) : (s.timerOut p).opState = s.opState := by
  simp only [State.timerOut]; repeat' split
  all_goals simp
@[simp] theorem State.timerOut_deviceSeconds (s : State) (p : Port) : (s.timerOut p).deviceSeconds = s.deviceSeconds := by
  simp only [State.timerOut]; repeat' split
  all_goals simp
@[simp] theorem State.timerOut_timers (s : State) (p : Port) : (s.timerOut p).timers = s.timers := by
  simp only [State.timerOut]; repeat' split
  all_goals simp
@[simp] theorem State.timerOut_bays (s : State) (p : Port) : (s.timerOut p).bays = s.bays := by
  simp only [State.timerOut]; repeat' split
  all_goals simp
@[simp] theorem State.timerOut_admission (s : State) (p : Port) : (s.timerOut p).admission = s.admission := by
  simp only [State.timerOut]; repeat' split
  all_goals simp
@[simp] theorem State.timerOut_tickets (s : State) (p : Port) : (s.timerOut p).tickets = s.tickets := by
  simp only [State.timerOut]; repeat' split
  all_goals simp
@[simp] theorem State.timerOut_ticketCounter (s : State) (p : Port) : (s.timerOut p).ticketCounter = s.ticketCounter := by
  simp only [State.timerOut]; repeat' split
  all_goals simp
@[simp] theorem State.timerOut_pools (s : State) (p : Port) : (s.timerOut p).pools = s.pools := by
  simp only [State.timerOut]; repeat' split
  all_goals simp
@[simp] theorem State.timerOut_booking (s : State) (p : Port) : (s.timerOut p).booking = s.booking := by
  simp only [State.timerOut]; repeat' split
  all_goals simp
@[simp] theorem State.timerOut_power (s : State) (p : Port) : (s.timerOut p).power = s.power := by
  simp only [State.timerOut]; repeat' split
  all_goals simp
@[simp] theorem State.timerOut_bus (s : State) (p : Port) : (s.timerOut p).bus = s.bus := by
  simp only [State.timerOut]; repeat' split
  all_goals simp
@[simp] theorem State.timerOut_queues (s : State) (p : Port) : (s.timerOut p).queues = s.queues := by
  simp only [State.timerOut]; repeat' split
  all_goals simp
@[simp] theorem State.timerOut_pending (s : State) (p : Port) : (s.timerOut p).pending = s.pending := by
  simp only [State.timerOut]; repeat' split
  all_goals simp

/-! ### responseLeft -/

@[simp] theorem State.responseLeft_opState (s : State) (p : Port) : (s.responseLeft p).opState = s.opState := by
  simp only [State.responseLeft]; repeat' split
  all_goals simp
@[simp] theorem State.responseLeft_deviceSeconds (s : State) (p : Port) : (s.responseLeft p).deviceSeconds = s.deviceSeconds := by
  simp only [State.responseLeft]; repeat' split
  all_goals simp
@[simp] theorem State.responseLeft_timers (s : State) (p : Port) : (s.responseLeft p).timers = s.timers := by
  simp only [State.responseLeft]; repeat' split
  all_goals simp
@[simp] theorem State.responseLeft_bays (s : State) (p : Port) : (s.responseLeft p).bays = s.bays := by
  simp only [State.responseLeft]; repeat' split
  all_goals simp
@[simp] theorem State.responseLeft_admission (s : State) (p : Port) : (s.responseLeft p).admission = s.admission := by
  simp only [State.responseLeft]; repeat' split
  all_goals simp
@[simp] theorem State.responseLeft_tickets (s : State) (p : Port) : (s.responseLeft p).tickets = s.tickets := by
  simp only [State.responseLeft]; repeat' split
  all_goals simp
@[simp] theorem State.responseLeft_ticketCounter (s : State) (p : Port) : (s.responseLeft p).ticketCounter = s.ticketCounter := by
  simp only [State.responseLeft]; repeat' split
  all_goals simp
@[simp] theorem State.responseLeft_pools (s : State) (p : Port) : (s.responseLeft p).pools = s.pools := by
  simp only [State.responseLeft]; repeat' split
  all_goals simp
@[simp] theorem State.responseLeft_booking (s : State) (p : Port) : (s.responseLeft p).booking = s.booking := by
  simp only [State.responseLeft]; repeat' split
  all_goals simp
@[simp] theorem State.responseLeft_power (s : State) (p : Port) : (s.responseLeft p).power = s.power := by
  simp only [State.responseLeft]; repeat' split
  all_goals simp
@[simp] theorem State.responseLeft_bus (s : State) (p : Port) : (s.responseLeft p).bus = s.bus := by
  simp only [State.responseLeft]; repeat' split
  all_goals simp
@[simp] theorem State.responseLeft_queues (s : State) (p : Port) : (s.responseLeft p).queues = s.queues := by
  simp only [State.responseLeft]; repeat' split
  all_goals simp
@[simp] theorem State.responseLeft_pending (s : State) (p : Port) : (s.responseLeft p).pending = s.pending := by
  simp only [State.responseLeft]; repeat' split
  all_goals simp

/-! ### receiveBroken -/

@[simp] theorem State.receiveBroken_opState (s : State) (p : Port) : (s.receiveBroken p).opState = s.opState := by
  simp only [State.receiveBroken]; repeat' split
  all_goals simp
@[simp] theorem State.receiveBroken_deviceSeconds (s : State) (p : Port) : (s.receiveBroken p).deviceSeconds = s.deviceSeconds := by
  simp only [State.receiveBroken]; repeat' split
  all_goals simp
@[simp] theorem State.receiveBroken_timers (s : State) (p : Port) : (s.receiveBroken p).timers = s.timers := by
  simp only [State.receiveBroken]; repeat' split
  all_goals simp
@[simp] theorem State.receiveBroken_bays (s : State) (p : Port) : (s.receiveBroken p).bays = s.bays := by
  simp only [State.receiveBroken]; repeat' split
  all_goals simp
@[simp] theorem State.receiveBroken_admission (s : State) (p : Port) : (s.receiveBroken p).admission = s.admission := by
  simp only [State.receiveBroken]; repeat' split
  all_goals simp
@[simp] theorem State.receiveBroken_tickets (s : State) (p : Port) : (s.receiveBroken p).tickets = s.tickets := by
  simp only [State.receiveBroken]; repeat' split
  all_goals simp
@[simp] theorem State.receiveBroken_ticketCounter (s : State) (p : Port) : (s.receiveBroken p).ticketCounter = s.ticketCounter := by
  simp only [State.receiveBroken]; repeat' split
  all_goals simp
@[simp] theorem State.receiveBroken_pools (s : State) (p : Port) : (s.receiveBroken p).pools = s.pools := by
  simp only [State.receiveBroken]; repeat' split
  all_goals simp
@[simp] theorem State.receiveBroken_booking (s : State) (p : Port) : (s.receiveBroken p).booking = s.booking := by
  simp only [State.receiveBroken]; repeat' split
  all_goals simp
@[simp] theorem State.receiveBroken_power (s : State) (p : Port) : (s.receiveBroken p).power = s.power := by
  simp only [State.receiveBroken]; repeat' split
  all_goals simp
@[simp] theorem State.receiveBroken_bus (s : State) (p : Port) : (s.receiveBroken p).bus = s.bus := by
  simp only [State.receiveBroken]; repeat' split
  all_goals simp
@[simp] theorem State.receiveBroken_queues (s : State) (p : Port) : (s.receiveBroken p).queues = s.queues := by
  simp only [State.receiveBroken]; repeat' split
  all_goals simp
@[simp] theorem State.receiveBroken_pending (s : State) (p : Port) : (s.receiveBroken p).pending = s.pending := by
  simp only [State.receiveBroken]; repeat' split
  all_goals simp

/-! ### feedCodeIs -/

@[simp] theorem State.feedCodeIs_opState (s : State) (c : BitVec 2) : (s.feedCodeIs c).opState = s.opState := by
  simp only [State.feedCodeIs]; repeat' split
  all_goals simp
@[simp] theorem State.feedCodeIs_deviceSeconds (s : State) (c : BitVec 2) : (s.feedCodeIs c).deviceSeconds = s.deviceSeconds := by
  simp only [State.feedCodeIs]; repeat' split
  all_goals simp
@[simp] theorem State.feedCodeIs_timers (s : State) (c : BitVec 2) : (s.feedCodeIs c).timers = s.timers := by
  simp only [State.feedCodeIs]; repeat' split
  all_goals simp
@[simp] theorem State.feedCodeIs_bays (s : State) (c : BitVec 2) : (s.feedCodeIs c).bays = s.bays := by
  simp only [State.feedCodeIs]; repeat' split
  all_goals simp
@[simp] theorem State.feedCodeIs_admission (s : State) (c : BitVec 2) : (s.feedCodeIs c).admission = s.admission := by
  simp only [State.feedCodeIs]; repeat' split
  all_goals simp
@[simp] theorem State.feedCodeIs_tickets (s : State) (c : BitVec 2) : (s.feedCodeIs c).tickets = s.tickets := by
  simp only [State.feedCodeIs]; repeat' split
  all_goals simp
@[simp] theorem State.feedCodeIs_ticketCounter (s : State) (c : BitVec 2) : (s.feedCodeIs c).ticketCounter = s.ticketCounter := by
  simp only [State.feedCodeIs]; repeat' split
  all_goals simp
@[simp] theorem State.feedCodeIs_pools (s : State) (c : BitVec 2) : (s.feedCodeIs c).pools = s.pools := by
  simp only [State.feedCodeIs]; repeat' split
  all_goals simp
@[simp] theorem State.feedCodeIs_booking (s : State) (c : BitVec 2) : (s.feedCodeIs c).booking = s.booking := by
  simp only [State.feedCodeIs]; repeat' split
  all_goals simp
@[simp] theorem State.feedCodeIs_bus (s : State) (c : BitVec 2) : (s.feedCodeIs c).bus = s.bus := by
  simp only [State.feedCodeIs]; repeat' split
  all_goals simp
@[simp] theorem State.feedCodeIs_ports (s : State) (c : BitVec 2) : (s.feedCodeIs c).ports = s.ports := by
  simp only [State.feedCodeIs]; repeat' split
  all_goals simp
@[simp] theorem State.feedCodeIs_queues (s : State) (c : BitVec 2) : (s.feedCodeIs c).queues = s.queues := by
  simp only [State.feedCodeIs]; repeat' split
  all_goals simp
@[simp] theorem State.feedCodeIs_pending (s : State) (c : BitVec 2) : (s.feedCodeIs c).pending = s.pending := by
  simp only [State.feedCodeIs]; repeat' split
  all_goals simp

end Sys2Proof.Machine
end

