-- ==== Sys2Proof/Laws/Ops.lean ====
section
/-! SUPPORT. What the shared operations can do: for each, one lemma that says it of every state, so that proofs about
commands cite it in place of the operation's definition. -/

namespace Sys2Proof.Machine

/-! ### Timers (R178) -/

/-- A timer that is stopped does not run out (R178). -/
@[simp] theorem State.isDue_none (s : State) : s.isDue none = false := rfl

/-- A timer that runs has run out where the count has reached its deadline (R178). -/
@[simp] theorem State.isDue_some (s : State) (d : Seconds) : s.isDue (some d) = s.reached d := rfl

/-! ### Notices (R158, R159) -/

/-- A raised notice writes the queue of its port and nothing else. -/
theorem State.raise_eq (s : State) (p : Port) (n : Notice) : s.raise p n = { s with
    queues := s.queues.set p (if p = .s then (s.queue p).coalesce n else (s.queue p).append n) } := rfl

/-- Another port's queue is as it was. -/
theorem State.raise_queue_of_ne (s : State) {p q : Port} (h : q ≠ p) (n : Notice) : (s.raise p n).queue q = s.queue q :=
  PerPort.get_set_of_ne _ h _

/-- No notice has been raised. -/
@[simp] theorem State.queueAfter_nil (s : State) (p : Port) : s.queueAfter p [] = s.queue p := rfl

/-- The first notice is raised, then the others. -/
@[simp] theorem State.queueAfter_cons (s : State) (p : Port) (n : Notice) (l : List Notice) :
    s.queueAfter p (n :: l) = (s.raise p n).queueAfter p l := rfl

/-- Notices raised in two runs are raised one after another. -/
theorem State.queueAfter_append (s : State) (p : Port) (l m : List Notice) :
    s.queueAfter p (l ++ m) = (l.foldl (fun r n => r.raise p n) s).queueAfter p m := by
  simp [State.queueAfter]

/-- A queue grows by one notice at most. -/
theorem NoticeQueue.append_length (q : NoticeQueue) (n : Notice) (h : q.notices.length ≤ 24) :
    (q.append n).notices.length ≤ 24 := by
  unfold NoticeQueue.append
  split
  · simpa using ‹_›
  · exact h

/-- Coalescing keeps the length of a queue or appends. -/
theorem NoticeQueue.coalesce_length (q : NoticeQueue) (n : Notice) (h : q.notices.length ≤ 24) :
    (q.coalesce n).notices.length ≤ 24 := by
  unfold NoticeQueue.coalesce
  split
  · simpa using h
  · exact q.append_length n h

/-! ### Bay records (R7) -/

/-- A change of a bay record writes the bay table and the notice queues, and nothing else. -/
theorem State.changeBay_eq (s : State) (b : BayNo) (f : Bay → Bay) : s.changeBay b f = { s with
    bays := s.bays.set b (f (s.bay b)), queues := (s.changeBay b f).queues } := by
  unfold State.changeBay
  split <;> rfl

/-- A change of a bay record changes that record alone. -/
theorem State.changeBay_bay (s : State) (b c : BayNo) (f : Bay → Bay) :
    (s.changeBay b f).bay c = if c = b then f (s.bay b) else s.bay c := by
  rw [State.changeBay_eq]
  exact State.setBay_bay s b c _

/-- A change that neither the state nor the fault code of the bay shows raises no notice. -/
theorem State.changeBay_of_hidden (s : State) (b : BayNo) (f : Bay → Bay)
    (h : (s.bay b).shows (f (s.bay b)) = false) : s.changeBay b f = s.setBay b (f (s.bay b)) := by
  simp [State.changeBay, h]

/-- A change of the bay's state raises one BAY_STATE to S. -/
theorem State.changeBay_of_shows (s : State) (b : BayNo) (f : Bay → Bay)
    (h : (s.bay b).shows (f (s.bay b)) = true) :
    s.changeBay b f = (s.setBay b (f (s.bay b))).raise .s ((s.setBay b (f (s.bay b))).bayNotice b) := by
  simp [State.changeBay, h]

/-! ### Ticket entries (R26, R40) -/

/-- A change of a ticket's entry that keeps its number is what the table then finds. -/
theorem State.modTicket_ticket_find (s : State) (n m : Nat) (f : Ticket → Ticket)
    (h : ∀ t, (f t).number = t.number) :
    (s.modTicket n f).ticket? m = (s.ticket? m).map (fun t => if m = n then f t else t) := by
  unfold State.modTicket State.ticket?
  induction s.tickets with
  | nil => rfl
  | cons t l ih =>
    by_cases e : t.number = m
    · by_cases e' : m = n
      · subst e'
        simp [e, h]
      · have e2 : t.number ≠ n := by omega
        simp [e, e']
    · have e1 : (if t.number = n then f t else t).number ≠ m := by split <;> simp [h, e]
      simp only [List.map_cons, List.find?_cons]
      rw [show ((if t.number = n then f t else t).number == m) = false from by simpa using e1,
        show (t.number == m) = false from by simpa using e]
      exact ih

/-- A ticket that is freed is live no more, and every other ticket is as it was (R40). -/
theorem State.freeTicket_ticket_find (s : State) (n m : Nat) :
    (s.freeTicket n).ticket? m = if m = n then none else s.ticket? m := by
  have key : ∀ l : List Ticket, (l.filter (fun t => t.number != n)).find? (fun t => t.number == m) =
      if m = n then none else l.find? (fun t => t.number == m) := by
    intro l
    induction l with
    | nil => simp
    | cons t l ih =>
      by_cases e : t.number = n
      · rw [List.filter_cons_of_neg (by simp [e]), ih]
        by_cases e' : m = n
        · simp [e']
        · have e2 : ¬t.number = m := by omega
          simp [e', e2]
      · rw [List.filter_cons_of_pos (by simpa using e)]
        by_cases e1 : t.number = m
        · have e2 : ¬m = n := by omega
          simp [e1, e2]
        · by_cases e' : m = n <;> simp_all
  unfold State.freeTicket
  cases h : s.ticket? n with
  | none =>
    by_cases e : m = n
    · simp [e, h]
    · simp [e]
  | some t =>
    have e : ∀ b : Option BayNo, ∀ s1 : State, s1.tickets = s.tickets →
        (match b with | some b => s1.unname b n | none => s1).tickets = s.tickets := by
      intro b s1 h1
      cases b <;> simp [h1]
    have e' := e t.bay (if t.state = .waiting ∨ t.state = .offered then s.leaveQueue t.pool n else s)
      (by split <;> simp)
    exact (congrArg (fun l => (l.filter (fun t => t.number != n)).find? (fun t => t.number == m)) e').trans
      (key s.tickets)

/-! ### Wait queues (R46, R47) -/

/-- A ticket that joins stands behind a first part whose ranks are no higher, and the first behind it ranks higher. -/
theorem joinAt_split (rank : Nat → Nat) (n r : Nat) (q : List Nat) : ∃ front back, q = front ++ back ∧
    joinAt rank n r q = front ++ n :: back ∧ (∀ m ∈ front, rank m ≤ r) ∧ ∀ m ∈ back.head?, r < rank m := by
  induction q with
  | nil => exact ⟨[], [], rfl, rfl, by simp, by simp⟩
  | cons m q ih =>
    by_cases h : rank m ≤ r
    · obtain ⟨front, back, e, j, hf, hb⟩ := ih
      refine ⟨m :: front, back, by simp [e], by simp [joinAt, h, j], ?_, hb⟩
      simpa [h] using hf
    · exact ⟨[], m :: q, rfl, by simp [joinAt, h], by simp, by simpa using h⟩

/-- In a queue that stands in the order of the ranks, every ticket behind the one that joins ranks higher. -/
theorem joinAt_sorted_split (rank : Nat → Nat) (n r : Nat) (q : List Nat)
    (h : q.Pairwise (fun a b => rank a ≤ rank b)) : ∃ front back, q = front ++ back ∧
    joinAt rank n r q = front ++ n :: back ∧ (∀ m ∈ front, rank m ≤ r) ∧ ∀ m ∈ back, r < rank m := by
  obtain ⟨front, back, e, j, hf, hb⟩ := joinAt_split rank n r q
  refine ⟨front, back, e, j, hf, ?_⟩
  cases back with
  | nil => simp
  | cons x back =>
    have hx : r < rank x := hb x (by simp)
    subst e
    have hp := (List.pairwise_append.mp h).2.1
    intro m hm
    rcases List.mem_cons.mp hm with rfl | hm
    · exact hx
    · have := (List.pairwise_cons.mp hp).1 m hm
      omega

/-- The bays of a pool in rotation order are the bays of the pool (R43, R51). -/
theorem State.mem_rotation (s : State) (q : PoolNo) (b : BayNo) :
    b ∈ s.rotation q ↔ (s.bay b).enrolled = true ∧ (s.bay b).pool = q := by
  have hp : b ∈ s.poolBays q ↔ (s.bay b).enrolled = true ∧ (s.bay b).pool = q := by
    simp [State.poolBays, allBays]
  unfold State.rotation
  split
  · rename_i r _
    rw [List.mem_append, List.mem_filter, List.mem_filter, hp]
    rcases lt_or_ge r b with h | h <;> simp [h]
  · exact hp

/-- The ticket that a bay is offered to is a WAITING ticket of the queue for which the bay is eligible (R54). -/
theorem State.firstEligible_spec {s : State} {b : BayNo} {q : List Nat} {t : Ticket}
    (h : s.firstEligible b q = some t) :
    t.state = .waiting ∧ s.eligible b t = true ∧ ∃ n ∈ q, s.ticket? n = some t := by
  unfold State.firstEligible at h
  obtain ⟨n, hn, e⟩ := List.exists_of_findSome?_eq_some h
  revert e
  cases ht : s.ticket? n with
  | none => simp
  | some u =>
    intro e
    by_cases hc : u.state = .waiting ∧ s.eligible b u = true
    · simp only [hc, and_self, if_true, Option.some.injEq] at e
      subst e
      exact ⟨hc.1, hc.2, n, hn, ht⟩
    · simp [hc] at e

/-- One bay of a matching run is as it was, or was FREE and has been offered (R54, R55). -/
theorem State.matchBay_bay (s : State) (q : PoolNo) (b c : BayNo) :
    (s.bay c).keptOrOffered ((s.matchBay q b).bay c) := by
  unfold State.matchBay
  split
  · rename_i t h
    obtain ⟨_, he, _⟩ := State.firstEligible_spec h
    have hf : (s.bay b).state = .free := by
      simp [State.eligible] at he
      exact he.1.1.1.1.1.1
    have e : (s.offerBay q b t).bay c =
        if c = b then { s.bay b with state := .offered, ticket := some t.number } else s.bay c := by
      have e1 : (s.offerBay q b t).bay c =
          (s.changeBay b (fun x => { x with state := .offered, ticket := some t.number })).bay c := by
        simp [State.offerBay, State.bay]
      rw [e1, State.changeBay_bay]
    rw [e]
    split
    · subst c
      exact .inr ⟨hf, _, rfl⟩
    · exact .inl rfl
  · exact .inl rfl

/-! ### Bookings (R69) -/

/-- A booking joins its bay's list behind the earlier starts and ahead of the others. -/
theorem insertBooking_split (offset : Booking → Int) (k : Booking) (l : List Booking) : ∃ front back,
    l = front ++ back ∧ insertBooking offset k l = front ++ k :: back ∧ (∀ m ∈ front, offset m < offset k) ∧
    ∀ m ∈ back.head?, offset k ≤ offset m := by
  induction l with
  | nil => exact ⟨[], [], rfl, rfl, by simp, by simp⟩
  | cons m l ih =>
    by_cases h : offset m < offset k
    · obtain ⟨front, back, e, j, hf, hb⟩ := ih
      refine ⟨m :: front, back, by simp [e], by simp [insertBooking, h, j], ?_, hb⟩
      simpa [h] using hf
    · exact ⟨[], m :: l, rfl, by simp [insertBooking, h], by simp, by simpa using h⟩

/-! ### Setpoints (R117) -/

/-- An issue sets the issued value and steps the sequence exactly where the value changes. -/
theorem Setpoint.issue_spec (x : Setpoint) (v : Nat) : x.issue v = { x with
    issued := v, seq := if v = x.issued then x.seq else (x.seq + 1) % 16 } := by
  unfold Setpoint.issue
  split
  · subst v
    rfl
  · rfl

/-! ### Placement (R5, R6) -/

/-- Placement by last report gives the bay record that R6 names. -/
theorem State.placeAt_bay (s : State) (b : BayNo) : (s.placeAt b).bay b = (s.bay b).placed (s.linkLost b) := by
  unfold State.placeAt Bay.placed State.settleFree
  cases hp : (s.bay b).presence <;> cases hb : (s.bay b).blockPending <;> simp [State.changeBay_bay, hp, hb]
  split <;> simp_all [State.changeBay_bay]

end Sys2Proof.Machine
end

