-- ==== Sys2Proof/Laws/Ports.lean ====
section
/-! SUPPORT. No operation of the blocks reads a port unit: each commutes with a write of the three port units, and
so does the work of every owner but those that open, read or empty a window (R151). A request's owner runs after
its port has entered TAKING; by these lemmas its effect is that on the state the request finds. -/

namespace Sys2Proof.Machine

/-- The state with other port units. -/
def State.withPorts (s : State) (P : PerPort PortUnit) : State := { s with ports := P }

@[simp] theorem State.withPorts_opState (s : State) (P : PerPort PortUnit) : (s.withPorts P).opState = s.opState := rfl
@[simp] theorem State.withPorts_deviceSeconds (s : State) (P : PerPort PortUnit) : (s.withPorts P).deviceSeconds = s.deviceSeconds := rfl
@[simp] theorem State.withPorts_timers (s : State) (P : PerPort PortUnit) : (s.withPorts P).timers = s.timers := rfl
@[simp] theorem State.withPorts_bays (s : State) (P : PerPort PortUnit) : (s.withPorts P).bays = s.bays := rfl
@[simp] theorem State.withPorts_admission (s : State) (P : PerPort PortUnit) : (s.withPorts P).admission = s.admission := rfl
@[simp] theorem State.withPorts_tickets (s : State) (P : PerPort PortUnit) : (s.withPorts P).tickets = s.tickets := rfl
@[simp] theorem State.withPorts_ticketCounter (s : State) (P : PerPort PortUnit) : (s.withPorts P).ticketCounter = s.ticketCounter := rfl
@[simp] theorem State.withPorts_pools (s : State) (P : PerPort PortUnit) : (s.withPorts P).pools = s.pools := rfl
@[simp] theorem State.withPorts_booking (s : State) (P : PerPort PortUnit) : (s.withPorts P).booking = s.booking := rfl
@[simp] theorem State.withPorts_power (s : State) (P : PerPort PortUnit) : (s.withPorts P).power = s.power := rfl
@[simp] theorem State.withPorts_bus (s : State) (P : PerPort PortUnit) : (s.withPorts P).bus = s.bus := rfl
@[simp] theorem State.withPorts_ports (s : State) (P : PerPort PortUnit) : (s.withPorts P).ports = P := rfl
@[simp] theorem State.withPorts_queues (s : State) (P : PerPort PortUnit) : (s.withPorts P).queues = s.queues := rfl
@[simp] theorem State.withPorts_pending (s : State) (P : PerPort PortUnit) : (s.withPorts P).pending = s.pending := rfl
@[simp] theorem State.withPorts_bay (s : State) (P : PerPort PortUnit) (b : BayNo) : (s.withPorts P).bay b = s.bay b := rfl
@[simp] theorem State.withPorts_pool (s : State) (P : PerPort PortUnit) (q : PoolNo) : (s.withPorts P).pool q = s.pool q := rfl
@[simp] theorem State.withPorts_bookings (s : State) (P : PerPort PortUnit) (b : BayNo) : (s.withPorts P).bookings b = s.bookings b := rfl
@[simp] theorem State.withPorts_setpoint (s : State) (P : PerPort PortUnit) (b : BayNo) : (s.withPorts P).setpoint b = s.setpoint b := rfl
@[simp] theorem State.withPorts_link (s : State) (P : PerPort PortUnit) (b : BayNo) : (s.withPorts P).link b = s.link b := rfl
@[simp] theorem State.withPorts_queue (s : State) (P : PerPort PortUnit) (p : Port) : (s.withPorts P).queue p = s.queue p := rfl
@[simp] theorem State.withPorts_ticket_find (s : State) (P : PerPort PortUnit) (n : Nat) : (s.withPorts P).ticket? n = s.ticket? n := rfl
@[simp] theorem State.withPorts_rankOf (s : State) (P : PerPort PortUnit) (n : Nat) : (s.withPorts P).rankOf n = s.rankOf n := rfl
@[simp] theorem State.withPorts_eligible (s : State) (P : PerPort PortUnit) (b : BayNo) (t : Ticket) : (s.withPorts P).eligible b t = s.eligible b t := rfl
@[simp] theorem State.withPorts_rotation (s : State) (P : PerPort PortUnit) (q : PoolNo) : (s.withPorts P).rotation q = s.rotation q := rfl
@[simp] theorem State.withPorts_poolBays (s : State) (P : PerPort PortUnit) (q : PoolNo) : (s.withPorts P).poolBays q = s.poolBays q := rfl
@[simp] theorem State.withPorts_linkLost (s : State) (P : PerPort PortUnit) (b : BayNo) : (s.withPorts P).linkLost b = s.linkLost b := rfl
@[simp] theorem State.withPorts_deadline (s : State) (P : PerPort PortUnit) (n : Nat) : (s.withPorts P).deadline n = s.deadline n := rfl
@[simp] theorem State.withPorts_reached (s : State) (P : PerPort PortUnit) (d : Seconds) : (s.withPorts P).reached d = s.reached d := rfl
@[simp] theorem State.isDue_withPorts (s : State) (P : PerPort PortUnit) (d : Option Seconds) :
    (s.withPorts P).isDue d = s.isDue d := by
  cases d <;> rfl
@[simp] theorem State.withPorts_offset (s : State) (P : PerPort PortUnit) (k : Booking) : (s.withPorts P).offset k = s.offset k := rfl
@[simp] theorem State.withPorts_nextTicket (s : State) (P : PerPort PortUnit)  : (s.withPorts P).nextTicket  = s.nextTicket  := rfl
@[simp] theorem State.withPorts_tableRoom (s : State) (P : PerPort PortUnit)  : (s.withPorts P).tableRoom  = s.tableRoom  := rfl
@[simp] theorem State.withPorts_queueRoom (s : State) (P : PerPort PortUnit) (q : PoolNo) : (s.withPorts P).queueRoom q = s.queueRoom q := rfl
@[simp] theorem State.withPorts_firstEligible (s : State) (P : PerPort PortUnit) (b : BayNo) (l : List Nat) : (s.withPorts P).firstEligible b l = s.firstEligible b l := rfl
@[simp] theorem State.withPorts_claimPool (s : State) (P : PerPort PortUnit) (b : BayNo) : (s.withPorts P).claimPool b = s.claimPool b := rfl
@[simp] theorem State.withPorts_requeueRoom (s : State) (P : PerPort PortUnit) (b : BayNo) : (s.withPorts P).requeueRoom b = s.requeueRoom b := rfl
@[simp] theorem State.withPorts_bayNotice (s : State) (P : PerPort PortUnit) (b : BayNo) : (s.withPorts P).bayNotice b = s.bayNotice b := rfl
@[simp] theorem State.withPorts_sessionClass (s : State) (P : PerPort PortUnit) (n : Nat) : (s.withPorts P).sessionClass n = s.sessionClass n := rfl
@[simp] theorem State.withPorts_openedBay (s : State) (P : PerPort PortUnit) (b : BayNo) (n : Nat) : (s.withPorts P).openedBay b n = s.openedBay b n := rfl
@[simp] theorem State.withPorts_autoTicket (s : State) (P : PerPort PortUnit) (b : BayNo) : (s.withPorts P).autoTicket b = s.autoTicket b := rfl
@[simp] theorem State.withPorts_duration (s : State) (P : PerPort PortUnit) (k : Session) : (s.withPorts P).duration k = s.duration k := rfl
@[simp] theorem State.withPorts_position (s : State) (P : PerPort PortUnit) (q : PoolNo) (n : Nat) : (s.withPorts P).position q n = s.position q n := rfl
@[simp] theorem State.withPorts_participants (s : State) (P : PerPort PortUnit)  : (s.withPorts P).participants  = s.participants  := rfl
@[simp] theorem State.withPorts_targets (s : State) (P : PerPort PortUnit)  : (s.withPorts P).targets  = s.targets  := rfl
@[simp] theorem State.withPorts_due (s : State) (P : PerPort PortUnit) (b : BayNo) : (s.withPorts P).due b = s.due b := rfl
@[simp] theorem State.withPorts_bookedTicket (s : State) (P : PerPort PortUnit) (b : BayNo) (k : Booking) : (s.withPorts P).bookedTicket b k = s.bookedTicket b k := rfl
@[simp] theorem State.withPorts_grantBay (s : State) (P : PerPort PortUnit) (t : Ticket) : (s.withPorts P).grantBay t = s.grantBay t := rfl
@[simp] theorem State.withPorts_heldElsewhere (s : State) (P : PerPort PortUnit) (b : BayNo) (n : Nat) : (s.withPorts P).heldElsewhere b n = s.heldElsewhere b n := rfl
@[simp] theorem State.withPorts_earlyBooking (s : State) (P : PerPort PortUnit) (b : BayNo) (n : Nat) : (s.withPorts P).earlyBooking b n = s.earlyBooking b n := rfl
@[simp] theorem State.withPorts_lamp (s : State) (P : PerPort PortUnit) (b : BayNo) : (s.withPorts P).lamp b = s.lamp b := rfl
@[simp] theorem State.withPorts_listenDue (s : State) (P : PerPort PortUnit)  : (s.withPorts P).listenDue  = s.listenDue  := rfl
@[simp] theorem State.withPorts_listening (s : State) (P : PerPort PortUnit)  : (s.withPorts P).listening  = s.listening  := rfl
@[simp] theorem State.withPorts_closeKind (s : State) (P : PerPort PortUnit)  : (s.withPorts P).closeKind  = s.closeKind  := rfl
@[simp] theorem State.withPorts_slotCommand (s : State) (P : PerPort PortUnit) (b : BayNo) : (s.withPorts P).slotCommand b = s.slotCommand b := rfl
@[simp] theorem State.withPorts_enrolledBay (s : State) (P : PerPort PortUnit) (x : Byte) : (s.withPorts P).enrolledBay x = s.enrolledBay x := rfl
@[simp] theorem State.withPorts_configuredPool (s : State) (P : PerPort PortUnit) (x : Byte) : (s.withPorts P).configuredPool x = s.configuredPool x := rfl
@[simp] theorem State.withPorts_ownTicket (s : State) (P : PerPort PortUnit) (p : Port) (n : Nat) : (s.withPorts P).ownTicket p n = s.ownTicket p n := rfl
@[simp] theorem State.withPorts_walkIn (s : State) (P : PerPort PortUnit) (p : Port) (q : PoolNo) (n : Nat) (c : Priority) : (s.withPorts P).walkIn p q n c = s.walkIn p q n c := rfl
@[simp] theorem State.withPorts_openOffer (s : State) (P : PerPort PortUnit) (p : Port) (n : Nat) (x : Byte) : (s.withPorts P).openOffer p n x = s.openOffer p n x := rfl
@[simp] theorem State.withPorts_ownBooking (s : State) (P : PerPort PortUnit) (p : Port) (n : Nat) : (s.withPorts P).ownBooking p n = s.ownBooking p n := rfl
@[simp] theorem State.withPorts_bookRefusal (s : State) (P : PerPort PortUnit) (p : Port) (b : BayNo) (x : SlotNo) (n : Nat) : (s.withPorts P).bookRefusal p b x n = s.bookRefusal p b x n := rfl
@[simp] theorem State.withPorts_newBooking (s : State) (P : PerPort PortUnit) (p : Port) (x : SlotNo) (n : Nat) (c : Priority) : (s.withPorts P).newBooking p x n c = s.newBooking p x n c := rfl
@[simp] theorem State.withPorts_firstOutside (s : State) (P : PerPort PortUnit) (x : SlotNo) : (s.withPorts P).firstOutside x = s.firstOutside x := rfl
@[simp] theorem State.withPorts_offending (s : State) (P : PerPort PortUnit)  : (s.withPorts P).offending  = s.offending  := rfl
@[simp] theorem State.withPorts_bayFields (s : State) (P : PerPort PortUnit) (b : BayNo) : (s.withPorts P).bayFields b = s.bayFields b := rfl
@[simp] theorem State.withPorts_ticketFields (s : State) (P : PerPort PortUnit) (t : Ticket) : (s.withPorts P).ticketFields t = s.ticketFields t := rfl
@[simp] theorem State.withPorts_poolFields (s : State) (P : PerPort PortUnit) (q : PoolNo) : (s.withPorts P).poolFields q = s.poolFields q := rfl
@[simp] theorem State.withPorts_listedFields (s : State) (P : PerPort PortUnit) (k : Booking) : (s.withPorts P).listedFields k = s.listedFields k := rfl
@[simp] theorem State.withPorts_bookingFields (s : State) (P : PerPort PortUnit) (b : BayNo) (k : Booking) : (s.withPorts P).bookingFields b k = s.bookingFields b k := rfl
@[simp] theorem State.withPorts_powerFields (s : State) (P : PerPort PortUnit)  : (s.withPorts P).powerFields  = s.powerFields  := rfl
@[simp] theorem State.withPorts_setpointFields (s : State) (P : PerPort PortUnit) (b : BayNo) : (s.withPorts P).setpointFields b = s.setpointFields b := rfl
@[simp] theorem State.withPorts_generalFields (s : State) (P : PerPort PortUnit)  : (s.withPorts P).generalFields  = s.generalFields  := rfl
@[simp] theorem State.withPorts_bookSize (s : State) (P : PerPort PortUnit)  : (s.withPorts P).bookSize  = s.bookSize  := rfl
@[simp] theorem State.withPorts_enrolledBays (s : State) (P : PerPort PortUnit)  : (s.withPorts P).enrolledBays  = s.enrolledBays  := rfl
@[simp] theorem State.withPorts_summary (s : State) (P : PerPort PortUnit) (b : BayNo) (w : Bool) : (s.withPorts P).summary b w = s.summary b w := rfl
@[simp] theorem State.setBay_withPorts (s : State) (P : PerPort PortUnit) (b : BayNo) (x : Bay) : (s.withPorts P).setBay b x = (s.setBay b x).withPorts P := rfl
@[simp] theorem State.setPool_withPorts (s : State) (P : PerPort PortUnit) (q : PoolNo) (x : Pool) : (s.withPorts P).setPool q x = (s.setPool q x).withPorts P := rfl
@[simp] theorem State.setBookings_withPorts (s : State) (P : PerPort PortUnit) (b : BayNo) (l : List Booking) : (s.withPorts P).setBookings b l = (s.setBookings b l).withPorts P := rfl
@[simp] theorem State.setSetpoint_withPorts (s : State) (P : PerPort PortUnit) (b : BayNo) (x : Setpoint) : (s.withPorts P).setSetpoint b x = (s.setSetpoint b x).withPorts P := rfl
@[simp] theorem State.setLink_withPorts (s : State) (P : PerPort PortUnit) (b : BayNo) (x : LinkRecord) : (s.withPorts P).setLink b x = (s.setLink b x).withPorts P := rfl
@[simp] theorem State.setQueue_withPorts (s : State) (P : PerPort PortUnit) (p : Port) (x : NoticeQueue) : (s.withPorts P).setQueue p x = (s.setQueue p x).withPorts P := rfl
@[simp] theorem State.modTicket_withPorts (s : State) (P : PerPort PortUnit) (n : Nat) (f : Ticket → Ticket) : (s.withPorts P).modTicket n f = (s.modTicket n f).withPorts P := rfl

/-- A fold of an operation that commutes with a write of the port units commutes with it. -/
theorem foldl_withPorts {α : Type} (f : State → α → State) (P : PerPort PortUnit)
    (h : ∀ s a, f (s.withPorts P) a = (f s a).withPorts P) (l : List α) (s : State) :
    l.foldl f (s.withPorts P) = (l.foldl f s).withPorts P := by
  induction l generalizing s with
  | nil => rfl
  | cons a l ih => rw [List.foldl_cons, List.foldl_cons, h, ih]

@[simp] theorem State.raise_withPorts (s : State) (P : PerPort PortUnit) (p : Port) (n : Notice) :
    (s.withPorts P).raise p n = (s.raise p n).withPorts P := by
  rfl
@[simp] theorem State.raiseBoth_withPorts (s : State) (P : PerPort PortUnit) (p : Port) (n : Notice) :
    (s.withPorts P).raiseBoth p n = (s.raiseBoth p n).withPorts P := by
  simp only [State.raiseBoth]
  (repeat' split) <;> simp_all
@[simp] theorem State.raiseTo_withPorts (s : State) (P : PerPort PortUnit) (k : Nat) (n : Notice) :
    (s.withPorts P).raiseTo k n = (s.raiseTo k n).withPorts P := by
  simp only [State.raiseTo]
  (repeat' split) <;> simp_all
@[simp] theorem State.changeBay_withPorts (s : State) (P : PerPort PortUnit) (b : BayNo) (f : Bay → Bay) :
    (s.withPorts P).changeBay b f = (s.changeBay b f).withPorts P := by
  simp only [State.changeBay]
  (repeat' split) <;> simp_all
@[simp] theorem State.retarget_withPorts (s : State) (P : PerPort PortUnit)  :
    (s.withPorts P).retarget  = (s.retarget ).withPorts P := by
  rfl
@[simp] theorem State.decreaseStep_withPorts (s : State) (P : PerPort PortUnit)  :
    (s.withPorts P).decreaseStep  = (s.decreaseStep ).withPorts P := by
  rfl
@[simp] theorem State.raiseStep_withPorts (s : State) (P : PerPort PortUnit)  :
    (s.withPorts P).raiseStep  = (s.raiseStep ).withPorts P := by
  rfl
theorem State.throttleNotice_withPorts (r s : State) (P : PerPort PortUnit) (b : BayNo) :
    State.throttleNotice r (s.withPorts P) b = (State.throttleNotice r s b).withPorts P := by
  cases h : (s.bay b).ticket <;>
    simp only [State.throttleNotice, State.withPorts_bay, State.withPorts_setpoint, h] <;> (repeat' split) <;>
    simp_all
theorem State.throttleNotice_before_withPorts (r s : State) (P : PerPort PortUnit) (b : BayNo) :
    State.throttleNotice (r.withPorts P) s b = State.throttleNotice r s b := rfl
@[simp] theorem State.recompute_withPorts (s : State) (P : PerPort PortUnit) :
    (s.withPorts P).recompute = s.recompute.withPorts P := by
  simp only [State.recompute, State.withPorts_admission, State.retarget_withPorts, State.decreaseStep_withPorts,
    State.raiseStep_withPorts, State.throttleNotice_before_withPorts]
  exact foldl_withPorts _ P (fun r b => State.throttleNotice_withPorts s r P b) _ _
@[simp] theorem State.recomputeInRun_withPorts (s : State) (P : PerPort PortUnit)  :
    (s.withPorts P).recomputeInRun  = (s.recomputeInRun ).withPorts P := by
  simp only [State.recomputeInRun]
  (repeat' split) <;> simp_all
@[simp] theorem State.takeEcho_withPorts (s : State) (P : PerPort PortUnit) (b : BayNo) (e : Nat) :
    (s.withPorts P).takeEcho b e = (s.takeEcho b e).withPorts P := by
  simp only [State.takeEcho]
  (repeat' split) <;> simp_all
@[simp] theorem State.issue_withPorts (s : State) (P : PerPort PortUnit) (t : Ticket) :
    (s.withPorts P).issue t = (s.issue t).withPorts P := by
  rfl
@[simp] theorem State.leaveQueue_withPorts (s : State) (P : PerPort PortUnit) (q : PoolNo) (n : Nat) :
    (s.withPorts P).leaveQueue q n = (s.leaveQueue q n).withPorts P := by
  rfl
@[simp] theorem State.unname_withPorts (s : State) (P : PerPort PortUnit) (b : BayNo) (n : Nat) :
    (s.withPorts P).unname b n = (s.unname b n).withPorts P := by
  simp only [State.unname]
  (repeat' split) <;> simp_all
@[simp] theorem State.freeTicket_withPorts (s : State) (P : PerPort PortUnit) (n : Nat) :
    (s.withPorts P).freeTicket n = (s.freeTicket n).withPorts P := by
  simp only [State.freeTicket]
  (repeat' split) <;> first | (simp_all; done) | (simp_all; rfl)
@[simp] theorem State.holdAt_withPorts (s : State) (P : PerPort PortUnit) (n : Nat) (b : BayNo) :
    (s.withPorts P).holdAt n b = (s.holdAt n b).withPorts P := by
  simp [State.holdAt]
@[simp] theorem State.arrive_withPorts (s : State) (P : PerPort PortUnit) (n : Nat) (b : BayNo) :
    (s.withPorts P).arrive n b = (s.arrive n b).withPorts P := by
  simp [State.arrive]
@[simp] theorem State.joinQueue_withPorts (s : State) (P : PerPort PortUnit) (q : PoolNo) (n : Nat) :
    (s.withPorts P).joinQueue q n = (s.joinQueue q n).withPorts P := by
  rfl
@[simp] theorem State.toBack_withPorts (s : State) (P : PerPort PortUnit) (q : PoolNo) (n : Nat) :
    (s.withPorts P).toBack q n = (s.toBack q n).withPorts P := by
  rfl
@[simp] theorem State.pointTo_withPorts (s : State) (P : PerPort PortUnit) (q : PoolNo) (b : BayNo) :
    (s.withPorts P).pointTo q b = (s.pointTo q b).withPorts P := by
  rfl
@[simp] theorem State.offerBay_withPorts (s : State) (P : PerPort PortUnit) (q : PoolNo) (b : BayNo) (t : Ticket) :
    (s.withPorts P).offerBay q b t = (s.offerBay q b t).withPorts P := by
  simp [State.offerBay]
@[simp] theorem State.matchBay_withPorts (s : State) (P : PerPort PortUnit) (q : PoolNo) (b : BayNo) :
    (s.withPorts P).matchBay q b = (s.matchBay q b).withPorts P := by
  simp only [State.matchBay]
  (repeat' split) <;> simp_all
@[simp] theorem State.matchRun_withPorts (s : State) (P : PerPort PortUnit) (q : PoolNo) :
    (s.withPorts P).matchRun q = (s.matchRun q).withPorts P := by
  simp only [State.matchRun, State.withPorts_rotation]
  exact foldl_withPorts _ P (fun r b => State.matchBay_withPorts r P q b) _ _
@[simp] theorem State.matchIn_withPorts (s : State) (P : PerPort PortUnit) (q : Option PoolNo) :
    (s.withPorts P).matchIn q = (s.matchIn q).withPorts P := by
  simp only [State.matchIn]
  (repeat' split) <;> simp_all
@[simp] theorem State.withdraw_withPorts (s : State) (P : PerPort PortUnit) (b : BayNo) (w : WithdrawReason) :
    (s.withPorts P).withdraw b w = (s.withdraw b w).withPorts P := by
  simp only [State.withdraw]
  (repeat' split) <;> simp_all
@[simp] theorem State.requeue_withPorts (s : State) (P : PerPort PortUnit) (n : Nat) (b : BayNo) :
    (s.withPorts P).requeue n b = (s.requeue n b).withPorts P := by
  simp only [State.requeue]
  (repeat' split) <;> simp_all
@[simp] theorem State.settleFree_withPorts (s : State) (P : PerPort PortUnit) (b : BayNo) :
    (s.withPorts P).settleFree b = (s.settleFree b).withPorts P := by
  simp only [State.settleFree]
  (repeat' split) <;> simp_all
@[simp] theorem State.matchIfFree_withPorts (s : State) (P : PerPort PortUnit) (b : BayNo) :
    (s.withPorts P).matchIfFree b = (s.matchIfFree b).withPorts P := by
  simp only [State.matchIfFree]
  (repeat' split) <;> simp_all
@[simp] theorem State.enterFree_withPorts (s : State) (P : PerPort PortUnit) (b : BayNo) :
    (s.withPorts P).enterFree b = (s.enterFree b).withPorts P := by
  simp [State.enterFree]
@[simp] theorem State.openSession_withPorts (s : State) (P : PerPort PortUnit) (b : BayNo) (n : Nat) :
    (s.withPorts P).openSession b n = (s.openSession b n).withPorts P := by
  have h : ∀ x : State,
      let f := fun y : State =>
        let y1 := (y.modTicket n (fun t => { t with state := .charging, bay := some b })).raiseTo n
          (.sessionOpened n b (nextTag (s.bay b).tagCounter))
        let y2 := y1.raise .s (y1.bayNotice b)
        (y2.setSetpoint b (y2.setpoint b).started).recompute
      f (x.withPorts P) = (f x).withPorts P := fun x => by simp
  exact h { s.setBay b (s.openedBay b n) with admission := s.admission ++ [b] }
@[simp] theorem State.plugIn_withPorts (s : State) (P : PerPort PortUnit) (b : BayNo) :
    (s.withPorts P).plugIn b = (s.plugIn b).withPorts P := by
  simp only [State.plugIn]
  (repeat' split) <;> simp_all
@[simp] theorem State.plugInIfPlugged_withPorts (s : State) (P : PerPort PortUnit) (b : BayNo) :
    (s.withPorts P).plugInIfPlugged b = (s.plugInIfPlugged b).withPorts P := by
  simp only [State.plugInIfPlugged]
  (repeat' split) <;> simp_all
@[simp] theorem State.placeAt_withPorts (s : State) (P : PerPort PortUnit) (b : BayNo) :
    (s.withPorts P).placeAt b = (s.placeAt b).withPorts P := by
  simp only [State.placeAt]
  (repeat' split) <;> simp_all
@[simp] theorem State.place_withPorts (s : State) (P : PerPort PortUnit) (b : BayNo) :
    (s.withPorts P).place b = (s.place b).withPorts P := by
  simp [State.place]
@[simp] theorem State.placeClosed_withPorts (s : State) (P : PerPort PortUnit) (b : BayNo) :
    (s.withPorts P).placeClosed b = (s.placeClosed b).withPorts P := by
  simp [State.placeClosed]
@[simp] theorem State.placeUnmatched_withPorts (s : State) (P : PerPort PortUnit) (b : BayNo) :
    (s.withPorts P).placeUnmatched b = (s.placeUnmatched b).withPorts P := by
  simp [State.placeUnmatched]
@[simp] theorem State.suspend_withPorts (s : State) (P : PerPort PortUnit) (b : BayNo) :
    (s.withPorts P).suspend b = (s.suspend b).withPorts P := by
  simp [State.suspend]
@[simp] theorem State.resume_withPorts (s : State) (P : PerPort PortUnit) (b : BayNo) :
    (s.withPorts P).resume b = (s.resume b).withPorts P := by
  simp [State.resume]
@[simp] theorem State.noticeClosed_withPorts (s : State) (P : PerPort PortUnit) (b : BayNo) (k : Session) (w : CloseReason) :
    (s.withPorts P).noticeClosed b k w = (s.noticeClosed b k w).withPorts P := by
  simp only [State.noticeClosed]
  (repeat' split) <;> simp_all
@[simp] theorem State.endSession_withPorts (s : State) (P : PerPort PortUnit) (b : BayNo) (k : Session)
    (w : CloseReason) : (s.withPorts P).endSession b k w = (s.endSession b k w).withPorts P := by
  have h : ∀ x : State,
      let f := fun y : State =>
        let y1 := (y.setBay b { y.bay b with session := none }).freeTicket k.ticket
        let y2 := y1.setBay b { y1.bay b with ticket := none }
        y2.setSetpoint b (y2.setpoint b).ended
      f (x.withPorts P) = (f x).withPorts P := fun x => by simp
  simp only [State.endSession, State.noticeClosed_withPorts]
  exact h { s.noticeClosed b k w with admission := (s.noticeClosed b k w).admission.filter (fun c => c != b) }
@[simp] theorem State.closePlaced_withPorts (s : State) (P : PerPort PortUnit) (b : BayNo) (w : CloseReason) :
    (s.withPorts P).closePlaced b w = (s.closePlaced b w).withPorts P := by
  simp only [State.closePlaced]
  (repeat' split) <;> simp_all
@[simp] theorem State.closeLost_withPorts (s : State) (P : PerPort PortUnit) (b : BayNo) :
    (s.withPorts P).closeLost b = (s.closeLost b).withPorts P := by
  simp only [State.closeLost]
  (repeat' split) <;> simp_all
@[simp] theorem State.enterFaulted_withPorts (s : State) (P : PerPort PortUnit) (b : BayNo) (c : FaultCode) :
    (s.withPorts P).enterFaulted b c = (s.enterFaulted b c).withPorts P := by
  simp [State.enterFaulted]
@[simp] theorem State.freeWith_withPorts (s : State) (P : PerPort PortUnit) (n : Nat) (m : Notice) :
    (s.withPorts P).freeWith n m = (s.freeWith n m).withPorts P := by
  simp [State.freeWith]
@[simp] theorem State.headFault_withPorts (s : State) (P : PerPort PortUnit) (b : BayNo) (c : FaultCode) :
    (s.withPorts P).headFault b c = (s.headFault b c).withPorts P := by
  simp only [State.headFault]
  (repeat' split) <;> simp_all
@[simp] theorem State.loseHead_withPorts (s : State) (P : PerPort PortUnit) (b : BayNo) :
    (s.withPorts P).loseHead b = (s.loseHead b).withPorts P := by
  simp only [State.loseHead]
  (repeat' split) <;> simp_all
@[simp] theorem State.dropBooking_withPorts (s : State) (P : PerPort PortUnit) (b : BayNo) (n : Nat) :
    (s.withPorts P).dropBooking b n = (s.dropBooking b n).withPorts P := by
  rfl
@[simp] theorem State.noticeDropped_withPorts (s : State) (P : PerPort PortUnit) (k : Booking) (w : DropReason) :
    (s.withPorts P).noticeDropped k w = (s.noticeDropped k w).withPorts P := by
  simp [State.noticeDropped]
@[simp] theorem State.displace_withPorts (s : State) (P : PerPort PortUnit) (b : BayNo) (k : Booking) :
    (s.withPorts P).displace b k = (s.displace b k).withPorts P := by
  simp only [State.displace]
  (repeat' split) <;> simp_all
@[simp] theorem State.holdBooked_withPorts (s : State) (P : PerPort PortUnit) (b : BayNo) (k : Booking) :
    (s.withPorts P).holdBooked b k = (s.holdBooked b k).withPorts P := by
  simp [State.holdBooked]
@[simp] theorem State.activate_withPorts (s : State) (P : PerPort PortUnit) (b : BayNo) (k : Booking) :
    (s.withPorts P).activate b k = (s.activate b k).withPorts P := by
  simp only [State.activate]
  (repeat' split) <;> simp_all
@[simp] theorem State.activateEarly_withPorts (s : State) (P : PerPort PortUnit) (b : BayNo) (k : Booking) :
    (s.withPorts P).activateEarly b k = (s.activateEarly b k).withPorts P := by
  simp only [State.activateEarly]
  (repeat' split) <;> simp_all
@[simp] theorem State.stepSlot_withPorts (s : State) (P : PerPort PortUnit)  :
    (s.withPorts P).stepSlot  = (s.stepSlot ).withPorts P := by
  rfl
@[simp] theorem State.activateDue_withPorts (s : State) (P : PerPort PortUnit) (b : BayNo) :
    (s.withPorts P).activateDue b = (s.activateDue b).withPorts P := by
  simp only [State.activateDue]
  (repeat' split) <;> simp_all
@[simp] theorem State.dropDue_withPorts (s : State) (P : PerPort PortUnit) (b : BayNo) :
    (s.withPorts P).dropDue b = (s.dropDue b).withPorts P := by
  simp only [State.dropDue]
  (repeat' split) <;> simp_all
@[simp] theorem State.matchConfigured_withPorts (s : State) (P : PerPort PortUnit) (q : PoolNo) :
    (s.withPorts P).matchConfigured q = (s.matchConfigured q).withPorts P := by
  simp only [State.matchConfigured]
  (repeat' split) <;> simp_all
@[simp] theorem State.expireSlot_withPorts (s : State) (P : PerPort PortUnit) :
    (s.withPorts P).expireSlot = s.expireSlot.withPorts P := by
  simp only [State.expireSlot, State.withPorts_opState, State.stepSlot_withPorts]
  split
  · rw [foldl_withPorts _ P (fun r b => State.activateDue_withPorts r P b),
      foldl_withPorts _ P (fun r b => State.matchConfigured_withPorts r P b)]
  · rw [foldl_withPorts _ P (fun r b => State.dropDue_withPorts r P b)]
@[simp] theorem State.tick_withPorts (s : State) (P : PerPort PortUnit)  :
    (s.withPorts P).tick  = (s.tick ).withPorts P := by
  simp only [State.tick]
  (repeat' split) <;> first | rfl | simp_all
@[simp] theorem State.giveUpOffer_withPorts (s : State) (P : PerPort PortUnit) (t : Ticket) (b : BayNo) (l : Bool) :
    (s.withPorts P).giveUpOffer t b l = (s.giveUpOffer t b l).withPorts P := by
  simp only [State.giveUpOffer]
  (repeat' split) <;> simp_all
@[simp] theorem State.expireHold_withPorts (s : State) (P : PerPort PortUnit) (n : Nat) (b : BayNo) :
    (s.withPorts P).expireHold n b = (s.expireHold n b).withPorts P := by
  simp [State.expireHold]
@[simp] theorem State.cancel_withPorts (s : State) (P : PerPort PortUnit) (t : Ticket) :
    (s.withPorts P).cancel t = (s.cancel t).withPorts P := by
  simp only [State.cancel]
  (repeat' split) <;> simp_all
@[simp] theorem State.holdQueued_withPorts (s : State) (P : PerPort PortUnit) (t : Ticket) (b : BayNo) :
    (s.withPorts P).holdQueued t b = (s.holdQueued t b).withPorts P := by
  simp [State.holdQueued]
@[simp] theorem State.plugStep_withPorts (s : State) (P : PerPort PortUnit) (b : BayNo) (g : Plug) (e : Nat) :
    (s.withPorts P).plugStep b g e = (s.plugStep b g e).withPorts P := by
  simp only [State.plugStep]
  (repeat' split) <;> simp_all
@[simp] theorem State.depart_withPorts (s : State) (P : PerPort PortUnit) (b : BayNo) :
    (s.withPorts P).depart b = (s.depart b).withPorts P := by
  simp only [State.depart]
  (repeat' split) <;> simp_all
@[simp] theorem State.presenceStep_withPorts (s : State) (P : PerPort PortUnit) (b : BayNo) (p : Presence) :
    (s.withPorts P).presenceStep b p = (s.presenceStep b p).withPorts P := by
  simp only [State.presenceStep]
  (repeat' split) <;> simp_all
@[simp] theorem State.presentCode_withPorts (s : State) (P : PerPort PortUnit) (b : BayNo) (c : Nat) :
    (s.withPorts P).presentCode b c = (s.presentCode b c).withPorts P := by
  simp only [State.presentCode]
  (repeat' split) <;> simp_all
@[simp] theorem State.codeStep_withPorts (s : State) (P : PerPort PortUnit) (b : BayNo) (c : Nat) :
    (s.withPorts P).codeStep b c = (s.codeStep b c).withPorts P := by
  simp only [State.codeStep]
  (repeat' split) <;> simp_all
@[simp] theorem State.demandStep_withPorts (s : State) (P : PerPort PortUnit) (b : BayNo) (d : Nat) :
    (s.withPorts P).demandStep b d = (s.demandStep b d).withPorts P := by
  simp only [State.demandStep]
  (repeat' split) <;> simp_all
@[simp] theorem State.energyStep_withPorts (s : State) (P : PerPort PortUnit) (b : BayNo) (i e : Nat) :
    (s.withPorts P).energyStep b i e = (s.energyStep b i e).withPorts P := by
  simp only [State.energyStep]
  (repeat' split) <;> simp_all
@[simp] theorem State.takeReport_withPorts (s : State) (P : PerPort PortUnit) (b : BayNo) (r : Report) :
    (s.withPorts P).takeReport b r = (s.takeReport b r).withPorts P := by
  simp only [State.takeReport]
  (repeat' split) <;> simp_all
@[simp] theorem State.openWith_withPorts (s : State) (P : PerPort PortUnit) (f : BusFrame) :
    (s.withPorts P).openWith f = (s.openWith f).withPorts P := by
  rfl
@[simp] theorem State.completePull_withPorts (s : State) (P : PerPort PortUnit)  :
    (s.withPorts P).completePull  = (s.completePull ).withPorts P := by
  rfl
@[simp] theorem State.openSweep_withPorts (s : State) (P : PerPort PortUnit)  :
    (s.withPorts P).openSweep  = (s.openSweep ).withPorts P := by
  rfl
@[simp] theorem State.enterSlot_withPorts (s : State) (P : PerPort PortUnit) (b : BayNo) :
    (s.withPorts P).enterSlot b = (s.enterSlot b).withPorts P := by
  rfl
@[simp] theorem State.enterClosing_withPorts (s : State) (P : PerPort PortUnit)  :
    (s.withPorts P).enterClosing  = (s.enterClosing ).withPorts P := by
  rfl
@[simp] theorem State.enterNext_withPorts (s : State) (P : PerPort PortUnit) (l : List BayNo) :
    (s.withPorts P).enterNext l = (s.enterNext l).withPorts P := by
  simp only [State.enterNext]
  (repeat' split) <;> simp_all
@[simp] theorem State.firstSlot_withPorts (s : State) (P : PerPort PortUnit)  :
    (s.withPorts P).firstSlot  = (s.firstSlot ).withPorts P := by
  simp [State.firstSlot]
@[simp] theorem State.afterSlot_withPorts (s : State) (P : PerPort PortUnit) (b : BayNo) :
    (s.withPorts P).afterSlot b = (s.afterSlot b).withPorts P := by
  simp [State.afterSlot]
@[simp] theorem State.changeLink_withPorts (s : State) (P : PerPort PortUnit) (b : BayNo) (x : LinkRecord) :
    (s.withPorts P).changeLink b x = (s.changeLink b x).withPorts P := by
  simp only [State.changeLink]
  (repeat' split) <;> simp_all
@[simp] theorem State.linkOnline_withPorts (s : State) (P : PerPort PortUnit) (b : BayNo) :
    (s.withPorts P).linkOnline b = (s.linkOnline b).withPorts P := by
  simp [State.linkOnline]
@[simp] theorem State.takeSilence_withPorts (s : State) (P : PerPort PortUnit) (b : BayNo) :
    (s.withPorts P).takeSilence b = (s.takeSilence b).withPorts P := by
  simp only [State.takeSilence]
  (repeat' split) <;> simp_all
@[simp] theorem State.takeBusy_withPorts (s : State) (P : PerPort PortUnit) (b : BayNo) :
    (s.withPorts P).takeBusy b = (s.takeBusy b).withPorts P := by
  simp only [State.takeBusy]
  (repeat' split) <;> simp_all
@[simp] theorem State.takeReply_withPorts (s : State) (P : PerPort PortUnit) (b : BayNo) (r : Report) :
    (s.withPorts P).takeReply b r = (s.takeReply b r).withPorts P := by
  simp [State.takeReply]
@[simp] theorem State.takeReportReply_withPorts (s : State) (P : PerPort PortUnit) (b : BayNo) (r : Report) :
    (s.withPorts P).takeReportReply b r = (s.takeReportReply b r).withPorts P := by
  simp only [State.takeReportReply]
  (repeat' split) <;> simp_all
@[simp] theorem State.takeReplyBytes_withPorts (s : State) (P : PerPort PortUnit) (b : BayNo) (l : List Byte) :
    (s.withPorts P).takeReplyBytes b l = (s.takeReplyBytes b l).withPorts P := by
  simp only [State.takeReplyBytes]
  (repeat' split) <;> simp_all
@[simp] theorem State.settleBus_withPorts (s : State) (P : PerPort PortUnit)  :
    (s.withPorts P).settleBus  = (s.settleBus ).withPorts P := by
  simp only [State.settleBus]
  (repeat' split) <;> simp_all
@[simp] theorem State.closeSent_withPorts (s : State) (P : PerPort PortUnit) (k : CloseKind) :
    (s.withPorts P).closeSent k = (s.closeSent k).withPorts P := by
  cases k with
  | long =>
    cases h : s.bus.sweepTimer <;> simp only [State.closeSent, State.withPorts_bus, h] <;> rfl
  | short =>
    exact State.settleBus_withPorts
      { s with bus := { s.bus with sweep := .idle, mode := .listen, keepAlive := some (s.deadline 10) } } P
@[simp] theorem State.sweepPeriodOut_withPorts (s : State) (P : PerPort PortUnit)  :
    (s.withPorts P).sweepPeriodOut  = (s.sweepPeriodOut ).withPorts P := by
  simp only [State.sweepPeriodOut, State.isDue_withPorts]
  (repeat' split) <;> first | rfl | simp_all
@[simp] theorem State.keepAliveOut_withPorts (s : State) (P : PerPort PortUnit)  :
    (s.withPorts P).keepAliveOut  = (s.keepAliveOut ).withPorts P := by
  simp only [State.keepAliveOut, State.isDue_withPorts]
  (repeat' split) <;> first | rfl | simp_all
@[simp] theorem State.clearBus_withPorts (s : State) (P : PerPort PortUnit)  :
    (s.withPorts P).clearBus  = (s.clearBus ).withPorts P := by
  rfl
@[simp] theorem State.enterBlocked_withPorts (s : State) (P : PerPort PortUnit) (b : BayNo) :
    (s.withPorts P).enterBlocked b = (s.enterBlocked b).withPorts P := by
  simp [State.enterBlocked]
@[simp] theorem State.pendBlock_withPorts (s : State) (P : PerPort PortUnit) (b : BayNo) :
    (s.withPorts P).pendBlock b = (s.pendBlock b).withPorts P := by
  rfl
@[simp] theorem State.clearFaultAt_withPorts (s : State) (P : PerPort PortUnit) (b : BayNo) :
    (s.withPorts P).clearFaultAt b = (s.clearFaultAt b).withPorts P := by
  simp [State.clearFaultAt]
@[simp] theorem State.setMask_withPorts (s : State) (P : PerPort PortUnit) (q : PoolNo) (o : Bool) :
    (s.withPorts P).setMask q o = (s.setMask q o).withPorts P := by
  rfl
@[simp] theorem State.placeBooking_withPorts (s : State) (P : PerPort PortUnit) (b : BayNo) (k : Booking) :
    (s.withPorts P).placeBooking b k = (s.placeBooking b k).withPorts P := by
  rfl
@[simp] theorem State.setClock_withPorts (s : State) (P : PerPort PortUnit) (n : SlotNo) (x : Nat) :
    (s.withPorts P).setClock n x = (s.setClock n x).withPorts P := by
  rfl
@[simp] theorem State.clearBays_withPorts (s : State) (P : PerPort PortUnit)  :
    (s.withPorts P).clearBays  = (s.clearBays ).withPorts P := by
  rfl
@[simp] theorem State.clearPools_withPorts (s : State) (P : PerPort PortUnit)  :
    (s.withPorts P).clearPools  = (s.clearPools ).withPorts P := by
  rfl
@[simp] theorem State.clearSetpoints_withPorts (s : State) (P : PerPort PortUnit)  :
    (s.withPorts P).clearSetpoints  = (s.clearSetpoints ).withPorts P := by
  rfl
@[simp] theorem State.dropUnenrolled_withPorts (s : State) (P : PerPort PortUnit) (b : BayNo) :
    (s.withPorts P).dropUnenrolled b = (s.dropUnenrolled b).withPorts P := by
  cases h : (s.bay b).enrolled
  · simp [State.dropUnenrolled, h]
    exact foldl_withPorts _ P (fun r k => by simp) _ _
  · simp [State.dropUnenrolled, h]
@[simp] theorem State.feedCodeIs_withPorts (s : State) (P : PerPort PortUnit) (c : BitVec 2) :
    (s.withPorts P).feedCodeIs c = (s.feedCodeIs c).withPorts P := by
  simp only [State.feedCodeIs]
  (repeat' split) <;> first | rfl | simp_all

/-! ### Commands -/

/-- The outcome of an owner's work, with other port units. -/
def outWithPorts (r : State × Reply) (P : PerPort PortUnit) : State × Reply := (r.1.withPorts P, r.2)

@[simp] theorem outWithPorts_mk (s : State) (r : Reply) (P : PerPort PortUnit) :
    outWithPorts (s, r) P = (s.withPorts P, r) := rfl

@[simp] theorem State.refall_withPorts (s : State) (P : PerPort PortUnit)  :
    (s.withPorts P).refall  = (s.refall ).withPorts P := by
  rfl
theorem State.raiseFeed_withPorts (r s : State) (P : PerPort PortUnit) :
    State.raiseFeed r (s.withPorts P) = (State.raiseFeed r s).withPorts P := by
  simp only [State.raiseFeed, State.withPorts_power]
  (repeat' split) <;> simp_all
theorem State.raiseFeed_before_withPorts (r s : State) (P : PerPort PortUnit) :
    State.raiseFeed (r.withPorts P) s = State.raiseFeed r s := rfl
theorem State.feedRecompute_withPorts (r x : State) (P : PerPort PortUnit) :
    (State.raiseFeed r (x.withPorts P)).recomputeInRun = (State.raiseFeed r x).recomputeInRun.withPorts P := by
  rw [State.raiseFeed_withPorts, State.recomputeInRun_withPorts]
@[simp] theorem State.setCapTo_withPorts (s : State) (P : PerPort PortUnit) (k : Nat) :
    (s.withPorts P).setCapTo k = (s.setCapTo k).withPorts P :=
  State.feedRecompute_withPorts s { s with power := { s.power with cap := k } } P
@[simp] theorem State.setLevelTo_withPorts (s : State) (P : PerPort PortUnit) (c b f : Nat) :
    (s.withPorts P).setLevelTo c b f = (s.setLevelTo c b f).withPorts P := by
  have h : ∀ (d : Prop) [Decidable d] (x : State),
      (if d then (x.withPorts P).refall else x.withPorts P) = (if d then x.refall else x).withPorts P := by
    intro d _ x
    split <;> simp
  have g := h (s.opState = .run ∧ f ≠ s.power.fallback)
    { s with power := { s.power with rating := c, base := b, fallback := f } }
  have k := State.feedRecompute_withPorts s (if s.opState = .run ∧ f ≠ s.power.fallback then
    ({ s with power := { s.power with rating := c, base := b, fallback := f } } : State).refall
    else { s with power := { s.power with rating := c, base := b, fallback := f } }) P
  rw [← g] at k
  exact k
@[simp] theorem State.takeCandidate_withPorts (s : State) (P : PerPort PortUnit) :
    (s.withPorts P).takeCandidate = s.takeCandidate.withPorts P := by
  by_cases e : tierOf s.power.candidate = s.power.tier
  · simp only [State.takeCandidate, State.withPorts_power, e, if_true]
    rfl
  · simp only [State.takeCandidate, State.withPorts_power, e, if_false]
    exact State.feedRecompute_withPorts s
      { s with power := { s.power with debounce := none, tier := tierOf s.power.candidate } } P
@[simp] theorem State.startUp_withPorts (s : State) (P : PerPort PortUnit) :
    (s.withPorts P).startUp = s.startUp.withPorts P := by
  have h := foldl_withPorts _ P (fun r b => State.dropUnenrolled_withPorts r P b) allBays s
  have g : ∀ x : State,
      let f := fun y : State =>
        ({ y.clearBays.clearPools.clearSetpoints.clearBus with opState := .run } : State).openSweep
      f (x.withPorts P) = (f x).withPorts P := fun _ => rfl
  simp only [State.startUp, h]
  exact g _
@[simp] theorem State.reconfigured_withPorts (s : State) (P : PerPort PortUnit)  :
    (s.withPorts P).reconfigured  = (s.reconfigured ).withPorts P := by
  rfl
@[simp] theorem State.grant_withPorts (s : State) (P : PerPort PortUnit) (t : Ticket) (c : Bool) :
    (s.withPorts P).grant t c = outWithPorts (s.grant t c) P := by
  simp only [State.grant]
  (repeat' split) <;> simp_all
@[simp] theorem State.blockBay_withPorts (s : State) (P : PerPort PortUnit) (b : BayNo) :
    (s.withPorts P).blockBay b = outWithPorts (s.blockBay b) P := by
  simp only [State.blockBay]
  (repeat' split) <;> simp_all
@[simp] theorem State.adopt_withPorts (s : State) (P : PerPort PortUnit) (p : Port) (b : BayNo) (n : Nat) (c : Priority) :
    (s.withPorts P).adopt p b n c = ((s.adopt p b n c).1.withPorts P, (s.adopt p b n c).2) := by
  simp [State.adopt]
@[simp] theorem ownQueryBay_withPorts (s : State) (P : PerPort PortUnit) (p : Port) (pl : List Byte) :
    ownQueryBay p pl (s.withPorts P) = outWithPorts (ownQueryBay p pl s) P := by
  simp only [ownQueryBay]
  (repeat' split) <;> simp_all
@[simp] theorem ownBlockBay_withPorts (s : State) (P : PerPort PortUnit) (p : Port) (pl : List Byte) :
    ownBlockBay p pl (s.withPorts P) = outWithPorts (ownBlockBay p pl s) P := by
  simp only [ownBlockBay]
  (repeat' split) <;> simp_all
@[simp] theorem ownUnblockBay_withPorts (s : State) (P : PerPort PortUnit) (p : Port) (pl : List Byte) :
    ownUnblockBay p pl (s.withPorts P) = outWithPorts (ownUnblockBay p pl s) P := by
  simp only [ownUnblockBay]
  (repeat' split) <;> simp_all
@[simp] theorem ownClearFault_withPorts (s : State) (P : PerPort PortUnit) (p : Port) (pl : List Byte) :
    ownClearFault p pl (s.withPorts P) = outWithPorts (ownClearFault p pl s) P := by
  simp only [ownClearFault]
  (repeat' split) <;> simp_all
@[simp] theorem ownRequestBay_withPorts (s : State) (P : PerPort PortUnit) (p : Port) (pl : List Byte) :
    ownRequestBay p pl (s.withPorts P) = outWithPorts (ownRequestBay p pl s) P := by
  simp only [ownRequestBay]
  (repeat' split) <;> simp_all
@[simp] theorem ownAdoptBay_withPorts (s : State) (P : PerPort PortUnit) (p : Port) (pl : List Byte) :
    ownAdoptBay p pl (s.withPorts P) = outWithPorts (ownAdoptBay p pl s) P := by
  simp only [ownAdoptBay]
  (repeat' split) <;> simp_all
@[simp] theorem ownAssignBay_withPorts (s : State) (P : PerPort PortUnit) (p : Port) (pl : List Byte) :
    ownAssignBay p pl (s.withPorts P) = outWithPorts (ownAssignBay p pl s) P := by
  simp only [ownAssignBay]
  (repeat' split) <;> simp_all
@[simp] theorem ownCancelTicket_withPorts (s : State) (P : PerPort PortUnit) (p : Port) (pl : List Byte) :
    ownCancelTicket p pl (s.withPorts P) = outWithPorts (ownCancelTicket p pl s) P := by
  simp only [ownCancelTicket]
  (repeat' split) <;> simp_all
@[simp] theorem ownQueryTicket_withPorts (s : State) (P : PerPort PortUnit) (p : Port) (pl : List Byte) :
    ownQueryTicket p pl (s.withPorts P) = outWithPorts (ownQueryTicket p pl s) P := by
  simp only [ownQueryTicket]
  (repeat' split) <;> simp_all
@[simp] theorem ownAcceptOffer_withPorts (s : State) (P : PerPort PortUnit) (p : Port) (pl : List Byte) :
    ownAcceptOffer p pl (s.withPorts P) = outWithPorts (ownAcceptOffer p pl s) P := by
  simp only [ownAcceptOffer]
  (repeat' split) <;> simp_all
@[simp] theorem ownDeclineOffer_withPorts (s : State) (P : PerPort PortUnit) (p : Port) (pl : List Byte) :
    ownDeclineOffer p pl (s.withPorts P) = outWithPorts (ownDeclineOffer p pl s) P := by
  simp only [ownDeclineOffer]
  (repeat' split) <;> simp_all
@[simp] theorem ownMaskPool_withPorts (s : State) (P : PerPort PortUnit) (p : Port) (pl : List Byte) :
    ownMaskPool p pl (s.withPorts P) = outWithPorts (ownMaskPool p pl s) P := by
  simp only [ownMaskPool]
  (repeat' split) <;> simp_all
@[simp] theorem ownUnmaskPool_withPorts (s : State) (P : PerPort PortUnit) (p : Port) (pl : List Byte) :
    ownUnmaskPool p pl (s.withPorts P) = outWithPorts (ownUnmaskPool p pl s) P := by
  simp only [ownUnmaskPool]
  (repeat' split) <;> simp_all
@[simp] theorem ownQueryPool_withPorts (s : State) (P : PerPort PortUnit) (p : Port) (pl : List Byte) :
    ownQueryPool p pl (s.withPorts P) = outWithPorts (ownQueryPool p pl s) P := by
  simp only [ownQueryPool]
  (repeat' split) <;> simp_all
@[simp] theorem ownBook_withPorts (s : State) (P : PerPort PortUnit) (p : Port) (pl : List Byte) :
    ownBook p pl (s.withPorts P) = outWithPorts (ownBook p pl s) P := by
  simp only [ownBook]
  (repeat' split) <;> simp_all
@[simp] theorem ownCancelBooking_withPorts (s : State) (P : PerPort PortUnit) (p : Port) (pl : List Byte) :
    ownCancelBooking p pl (s.withPorts P) = outWithPorts (ownCancelBooking p pl s) P := by
  simp only [ownCancelBooking]
  (repeat' split) <;> simp_all
@[simp] theorem ownQueryBookings_withPorts (s : State) (P : PerPort PortUnit) (p : Port) (pl : List Byte) :
    ownQueryBookings p pl (s.withPorts P) = outWithPorts (ownQueryBookings p pl s) P := by
  simp only [ownQueryBookings]
  (repeat' split) <;> first | (simp_all; done) | (simp_all; rfl)
@[simp] theorem ownQueryBooking_withPorts (s : State) (P : PerPort PortUnit) (p : Port) (pl : List Byte) :
    ownQueryBooking p pl (s.withPorts P) = outWithPorts (ownQueryBooking p pl s) P := by
  simp only [ownQueryBooking]
  (repeat' split) <;> simp_all
@[simp] theorem ownSetSlotClock_withPorts (s : State) (P : PerPort PortUnit) (p : Port) (pl : List Byte) :
    ownSetSlotClock p pl (s.withPorts P) = outWithPorts (ownSetSlotClock p pl s) P := by
  simp only [ownSetSlotClock]
  (repeat' split) <;> simp_all
@[simp] theorem ownSetBands_withPorts (s : State) (P : PerPort PortUnit) (p : Port) (pl : List Byte) :
    ownSetBands p pl (s.withPorts P) = outWithPorts (ownSetBands p pl s) P := by
  simp only [ownSetBands]
  (repeat' split) <;> first | rfl | simp_all
@[simp] theorem ownForceClose_withPorts (s : State) (P : PerPort PortUnit) (p : Port) (pl : List Byte) :
    ownForceClose p pl (s.withPorts P) = outWithPorts (ownForceClose p pl s) P := by
  simp only [ownForceClose]
  (repeat' split) <;> simp_all
@[simp] theorem ownSetCap_withPorts (s : State) (P : PerPort PortUnit) (p : Port) (pl : List Byte) :
    ownSetCap p pl (s.withPorts P) = outWithPorts (ownSetCap p pl s) P := by
  simp only [ownSetCap]
  (repeat' split) <;> simp_all
@[simp] theorem ownQueryPower_withPorts (s : State) (P : PerPort PortUnit) (p : Port) (pl : List Byte) :
    ownQueryPower p pl (s.withPorts P) = outWithPorts (ownQueryPower p pl s) P := by
  simp only [ownQueryPower]
  (repeat' split) <;> simp_all
@[simp] theorem ownReadNotices_withPorts (s : State) (P : PerPort PortUnit) (p : Port) (pl : List Byte) :
    ownReadNotices p pl (s.withPorts P) = outWithPorts (ownReadNotices p pl s) P := by
  simp only [ownReadNotices]
  (repeat' split) <;> simp_all
@[simp] theorem ownSetLevel_withPorts (s : State) (P : PerPort PortUnit) (p : Port) (pl : List Byte) :
    ownSetLevel p pl (s.withPorts P) = outWithPorts (ownSetLevel p pl s) P := by
  simp only [ownSetLevel]
  (repeat' split) <;> simp_all
@[simp] theorem ownSetBay_withPorts (s : State) (P : PerPort PortUnit) (p : Port) (pl : List Byte) :
    ownSetBay p pl (s.withPorts P) = outWithPorts (ownSetBay p pl s) P := by
  simp only [ownSetBay]
  (repeat' split) <;> simp_all
@[simp] theorem ownSetPool_withPorts (s : State) (P : PerPort PortUnit) (p : Port) (pl : List Byte) :
    ownSetPool p pl (s.withPorts P) = outWithPorts (ownSetPool p pl s) P := by
  simp only [ownSetPool]
  (repeat' split) <;> simp_all
@[simp] theorem ownSetTimers_withPorts (s : State) (P : PerPort PortUnit) (p : Port) (pl : List Byte) :
    ownSetTimers p pl (s.withPorts P) = outWithPorts (ownSetTimers p pl s) P := by
  simp only [ownSetTimers]
  (repeat' split) <;> first | rfl | simp_all
@[simp] theorem ownQueryConfig_withPorts (s : State) (P : PerPort PortUnit) (p : Port) (pl : List Byte) :
    ownQueryConfig p pl (s.withPorts P) = outWithPorts (ownQueryConfig p pl s) P := by
  simp only [ownQueryConfig]
  (repeat' split) <;> simp_all
@[simp] theorem ownStart_withPorts (s : State) (P : PerPort PortUnit) (p : Port) (pl : List Byte) :
    ownStart p pl (s.withPorts P) = outWithPorts (ownStart p pl s) P := by
  simp only [ownStart]
  (repeat' split) <;> simp_all
@[simp] theorem ownReconfigure_withPorts (s : State) (P : PerPort PortUnit) (p : Port) (pl : List Byte) :
    ownReconfigure p pl (s.withPorts P) = outWithPorts (ownReconfigure p pl s) P := by
  simp only [ownReconfigure]
  (repeat' split) <;> simp_all

end Sys2Proof.Machine
end

