-- ==== Sys2Proof/Laws/Requests.lean ====
section
/-! SUPPORT. What a request does at a port that is ready: one lemma for each way it can end, at the port unit or at
its owner. -/

namespace Sys2Proof.Machine

/-- A request frame is five bytes longer than its payload (R175). -/
theorem requestFrame_length (c : Byte) (pl : List Byte) : (requestFrame c pl).length = pl.length + 5 := by
  simp [requestFrame, checkedFrame, requestBody, crcBytes]

/-- The bytes of a whole request frame that its CRC covers (section 8.2). -/
theorem frameBody_requestFrame (c : Byte) (pl : List Byte) : frameBody (requestFrame c pl) = requestBody c pl := by
  simp [frameBody, requestFrame, checkedFrame, requestBody, crcBytes]

/-- The CRC bytes of a whole request frame (R174). -/
theorem frameCheck_requestFrame (c : Byte) (pl : List Byte) :
    frameCheck (requestFrame c pl) = crcBytes (crc (requestBody c pl)) := by
  simp [frameCheck, requestFrame, checkedFrame, requestBody, crcBytes]

/-- At a ready port a frame of legal length is taken. -/
theorem State.deliver_ready {s : State} {p : Port} {frame : List Byte} (taken : State → State) (h : s.ready p)
    (hl : frame.length ≤ 53) : s.deliver p frame taken = taken s := by
  have h' : (s.port p).recv = .idle := h
  simp [State.deliver, State.awaits, h', hl]

/-- At a ready port a request is taken (R148, R151). -/
theorem State.request_ready {s : State} {p : Port} {pl : List Byte} (i : CommandInfo) (own : Owner) (h : s.ready p)
    (hl : pl.length ≤ 48) : s.request p i own pl = s.takeRequest p i own pl :=
  State.deliver_ready _ h (by rw [requestFrame_length]; omega)

/-- A port that starts TAKING is a write of the port units. -/
theorem State.startTaking_eq (s : State) (p : Port) : s.startTaking p = s.withPorts
    (s.ports.set p { s.port p with recv := .taking, frame := [], timer := false, discarded := false }) := rfl

@[simp] theorem State.startTaking_port (s : State) (p : Port) : (s.startTaking p).port p =
    { s.port p with recv := .taking, frame := [], timer := false, discarded := false } := by
  simp [State.startTaking]

/-- The checks of the port unit read only the operating state (R148). -/
theorem State.startTaking_portRefusal (s : State) (p : Port) (i : CommandInfo) (pl : List Byte) :
    (s.startTaking p).portRefusal p i pl = s.portRefusal p i pl := rfl

/-- A test of the bus that finds no sweep due changes nothing (R136). -/
theorem State.settleBus_of_quiet {s : State} (h : s.listening = true → s.listenDue = false) : s.settleBus = s := by
  unfold State.settleBus
  cases hl : s.listening <;> simp_all

/-- A test of the bus that finds a sweep due opens it and changes nothing else (R136). -/
theorem State.settleBus_of_due {s : State} (h : s.listening = true) (hd : s.listenDue = true) :
    s.settleBus = { s with bus := s.bus.opened s.deviceSeconds .opening } := by
  simp [State.settleBus, h, hd, State.openSweep, State.openWith, State.deadline, HeadBus.opened]

/-- The port units after a request has been answered: the port is RESPONDING with a response whose flags are those
of the queue as the work left it, and the other two ports are as they were (R147, R152, R153). -/
theorem State.respond_taking (s u : State) (p : Port) (r : Reply) (h : u.ports = (s.startTaking p).ports)
    (hc : r.clearsOverrun = false) :
    s.answers (u.answer p r) p r.status r.payload (r.clamped && r.status.carriedOut) ∧
      u.answer p r = { u with ports := (u.answer p r).ports } := by
  have hp : u.port p = (s.startTaking p).port p := by simp only [State.port, h]
  have hq : ∀ q, q ≠ p → u.ports.get q = s.ports.get q := by
    intro q hq
    rw [h]
    exact PerPort.get_set_of_ne _ hq _
  have ha : u.answer p r = u.respond p r := by simp [State.answer, State.afterResponse, hc]
  refine ⟨⟨?_, ?_⟩, ?_⟩
  · rw [ha]
    simp [State.respond, hp, PortUnit.answering, State.responseFlags, State.attention]
  · intro q hne
    rw [ha]
    simp only [State.respond, State.port, State.setPort]
    rw [PerPort.get_set_of_ne _ hne, hq q hne]
  · rw [ha]
    rfl

/-- A request that the port unit refuses is answered with the refusal, and nothing but the port changes (R148). -/
theorem State.request_turnedAway {s : State} {c : Instr} {p : Port} {i : CommandInfo} {own : Owner}
    {pl : List Byte} {st : Status} (he : exec c s = .next (s.request p i own pl)) (h : s.ready p)
    (hl : pl.length ≤ 48) (hr : s.portRefusal p i pl = some st) : s.turnedAway c p st := by
  have e : s.request p i own pl = (s.startTaking p).answer p (.refuse st) := by
    rw [State.request_ready i own h hl]
    simp [State.takeRequest, State.startTaking_portRefusal, hr]
  obtain ⟨a, b⟩ := State.respond_taking s (s.startTaking p) p (.refuse st) rfl rfl
  refine ⟨_, he, ?_, ?_⟩
  · rw [e]
    simpa [Reply.refuse] using a
  · rw [e, b]
    rfl

/-- A request that reaches an owner which reads no port unit and leaves the bus alone is answered as the owner
replies, and its effect is the owner's on the state the request finds (R136, R151 to R153). -/
theorem State.request_answered {s u : State} {p : Port} {i : CommandInfo} {own : Owner} {pl : List Byte} {r : Reply}
    (hown : ∀ (t : State) (P : PerPort PortUnit), own p pl (t.withPorts P) = outWithPorts (own p pl t) P)
    (h : s.ready p) (hl : pl.length ≤ 48) (hr : s.portRefusal p i pl = none) (hi : i.quiet = false)
    (e : own p pl s = (u, r)) (hc : r.clearsOverrun = false) (hb : u.bus = s.bus) :
    s.answeredWith u (s.request p i own pl) p r.status r.payload (r.clamped && r.status.carriedOut) := by
  have e1 : s.request p i own pl = ((u.withPorts (s.startTaking p).ports).answer p r).settleBus := by
    have o : own p pl (s.startTaking p) = (u.withPorts (s.startTaking p).ports, r) := by
      have o' := hown s (s.startTaking p).ports
      rw [e] at o'
      exact o'
    rw [State.request_ready i own h hl]
    simp [State.takeRequest, State.startTaking_portRefusal, hr, State.handOver, hi, o]
  obtain ⟨⟨a, b⟩, d⟩ := State.respond_taking s (u.withPorts (s.startTaking p).ports) p r rfl hc
  have hport : ∀ q, (((u.withPorts (s.startTaking p).ports).answer p r).settleBus).port q =
      ((u.withPorts (s.startTaking p).ports).answer p r).port q := fun q => by simp [State.port]
  have hqueue : ∀ q, (((u.withPorts (s.startTaking p).ports).answer p r).settleBus).queue q =
      ((u.withPorts (s.startTaking p).ports).answer p r).queue q := fun q => by simp [State.queue]
  have hbus : ((u.withPorts (s.startTaking p).ports).answer p r).bus = s.bus := by rw [d]; exact hb
  refine ⟨⟨?_, ?_⟩, ?_, ?_⟩
  · rw [e1, hport, hqueue]
    exact a
  · intro q hq
    rw [e1, hport]
    exact b q hq
  · rw [e1]
    unfold State.busSettled
    congr 1
    rw [← hbus]
    simp only [State.settleBus]
    split <;> rfl
  · rw [e1, d]
    simp only [State.settleBus]
    split <;> rfl

end Sys2Proof.Machine
end

