-- ==== Sys2Proof/WellFormed.lean ====
section
/-! DEFINITION. Well-formed commands: the operands the event of the row can have. A meaning does not rest on
these checks; each is total on every operand. -/

namespace Sys2Proof

open Sys2Proof.Machine

/-- A payload a request frame can carry: 0 to 48 bytes (section 8.2, R175). -/
def payloadFits (payload : List Byte) : Bool := decide (payload.length ≤ 48)

/-- The operands of a command are those its row's event can have. -/
def Instr.wf : Instr → Bool
  | .powerReset _ => true
  | .deviceSeconds => true
  | .receiveByte _ _ _ => true
  | .interByteTimer _ => true
  | .frameError _ c pl h l => payloadFits pl && decide ([h, l] ≠ crcBytes (crc (requestBody c pl)))
  | .unknownCommand _ c pl => payloadFits pl && !commandKnown c
  | .responseDeparture _ => true
  | .queryBay _ pl => payloadFits pl
  | .blockBay _ pl => payloadFits pl
  | .unblockBay _ pl => payloadFits pl
  | .clearFault _ pl => payloadFits pl
  | .requestBay _ pl => payloadFits pl
  | .adoptBay _ pl => payloadFits pl
  | .assignBay _ pl => payloadFits pl
  | .cancelTicket _ pl => payloadFits pl
  | .queryTicket _ pl => payloadFits pl
  | .acceptOffer _ pl => payloadFits pl
  | .declineOffer _ pl => payloadFits pl
  | .maskPool _ pl => payloadFits pl
  | .unmaskPool _ pl => payloadFits pl
  | .queryPool _ pl => payloadFits pl
  | .book _ pl => payloadFits pl
  | .cancelBooking _ pl => payloadFits pl
  | .queryBookings _ pl => payloadFits pl
  | .queryBooking _ pl => payloadFits pl
  | .setSlotClock _ pl => payloadFits pl
  | .setBands _ pl => payloadFits pl
  | .forceClose _ pl => payloadFits pl
  | .setCap _ pl => payloadFits pl
  | .queryPower _ pl => payloadFits pl
  | .readNotices _ pl => payloadFits pl
  | .openWindow _ pl => payloadFits pl
  | .readWindow _ pl => payloadFits pl
  | .setLevel _ pl => payloadFits pl
  | .setBay _ pl => payloadFits pl
  | .setPool _ pl => payloadFits pl
  | .setTimers _ pl => payloadFits pl
  | .queryConfig _ pl => payloadFits pl
  | .start _ pl => payloadFits pl
  | .reconfigure _ pl => payloadFits pl
  | .restart _ pl => payloadFits pl
  | .feedCodeChange _ => true
  | .debounceExpiry => true
  | .holdExpiry t => decide (1 ≤ t ∧ t ≤ 65535)
  | .lapse t => decide (1 ≤ t ∧ t ≤ 65535)
  | .reconnectExpiry _ => true
  | .slotExpiry => true
  | .sweepPeriodExpiry => true
  | .keepAliveExpiry => true
  | .pull => true
  | .openSent => true
  | .report r => reportDefined r
  | .busy => true
  | .silence => true
  | .corrupt reply => decide (parseReply reply = .corrupt)
  | .closeSent => true

end Sys2Proof
end

