-- ==== Sys2Proof/Tests/Slice0.lean ====
section
/-! SUPPORT. Tests: the checks of WellFormed each refuse an ill-formed command; figures of the manual; one small
step for each family; and for every statement with hypotheses a witness, a concrete state and operands that meet
them, one for each clause. -/

namespace Sys2Proof.Tests

open Sys2Proof Sys2Proof.Machine

set_option Elab.async false

/-! ### WellFormed refuses ill-formed commands -/

/-- A payload of 48 bytes fits a request frame and one of 49 does not (R175). -/
theorem test_wf_payload : (Instr.queryBay .s (List.replicate 48 0#8)).wf = true ∧
    (Instr.queryBay .s (List.replicate 49 0#8)).wf = false := by decide +kernel

/-- A frame in error has a CRC that fails (R146). -/
theorem test_wf_frame_error : (Instr.frameError .k 0x10#8 [3#8] 0#8 0#8).wf = true ∧
    (Instr.frameError .k 0x10#8 [3#8] ((crc (requestBody 0x10#8 [3#8])).extractLsb' 8 8)
      ((crc (requestBody 0x10#8 [3#8])).extractLsb' 0 8)).wf = false := by decide +kernel

/-- An unknown command has a value outside 0x10 to 0x31 (R175). -/
theorem test_wf_unknown_command : (Instr.unknownCommand .n 0x32#8 []).wf = true ∧
    (Instr.unknownCommand .n 0x0F#8 []).wf = true ∧ (Instr.unknownCommand .n 0x31#8 []).wf = false ∧
    (Instr.unknownCommand .n 0x10#8 []).wf = false := by decide +kernel

/-- A timer of a ticket names a ticket number, 1 to 65535 (R26). -/
theorem test_wf_timers : (Instr.holdExpiry 65535).wf = true ∧ (Instr.holdExpiry 0).wf = false ∧
    (Instr.holdExpiry 65536).wf = false ∧ (Instr.lapse 1).wf = true ∧ (Instr.lapse 0).wf = false ∧
    (Instr.lapse 65536).wf = false := by decide

/-- A REPORT that every check passes: presence EMPTY, plug UNPLUGGED, all else 0. -/
def plainReport : Report :=
  { presence := 1#8, plug := 1#8, demand := 0#8, energy := 0#16, status := 0#8, faultCode := 0#8, echo := 0#8,
    tagEcho := 0#8, code := 0#16 }

/-- A REPORT holds a defined encoding in every field (R126, R176). -/
theorem test_wf_report : (Instr.report plainReport).wf = true ∧
    (Instr.report { plainReport with presence := 0#8 }).wf = false ∧
    (Instr.report { plainReport with plug := 3#8 }).wf = false ∧
    (Instr.report { plainReport with status := 2#8 }).wf = false ∧
    (Instr.report { plainReport with status := 1#8 }).wf = false ∧
    (Instr.report { plainReport with echo := 16#8 }).wf = false := by decide

/-- A corrupt reply is one the bus controller cannot read (R126). -/
theorem test_wf_corrupt : (Instr.corrupt [0x5A#8, 0x04#8, 0#8, 0#8]).wf = true ∧
    (Instr.corrupt busyFrame).wf = false := by decide +kernel

/-- No row of the table has bits, so no word spells a command. -/
theorem test_no_word_spells_a_command : decodeTableWord 16 0x1234 = none := rfl

/-! ### Figures of the manual -/

/-- The check over the digits 1 to 9 (R174). -/
theorem test_crc_digits :
    crc [0x31#8, 0x32#8, 0x33#8, 0x34#8, 0x35#8, 0x36#8, 0x37#8, 0x38#8, 0x39#8] = 0x29B1#16 := by decide +kernel

/-- The targets after the feed drop, and after the plug-in at bay 30 (section 12.1); with bay 17 lost (section
12.2). -/
theorem test_shares_evening : shares 80 [22, 32, 16, 22, 10] = [18, 25, 12, 17, 8] ∧
    shares 80 [22, 32, 16, 22, 10, 16] = [15, 20, 12, 14, 8, 11] ∧
    shares 74 [22, 32, 16, 10, 16] = [17, 24, 13, 8, 12] := by decide +kernel

/-- The budgets of section 12.1: A is 110 at NORMAL and 80 at REDUCED, with C at 120 A and B at 10 A (R111). -/
theorem test_budget_evening :
    ({ PowerUnit.powerOn 0#2 with rating := 120, base := 10 } : PowerUnit).budget = 110 ∧
    ({ PowerUnit.powerOn 0#2 with rating := 120, base := 10, tier := .reduced } : PowerUnit).budget = 80 := by
  decide +kernel

/-- The orders of the window of aisles 1 to 2 and positions 6 to 7 (R164). -/
theorem test_window_orders :
    let w : Window := ⟨1, 2, 6, 7, .aisleFirst, false, false, 14, true⟩;
    windowBays w = [14, 15, 22, 23] ∧ windowBays { w with revAisle := true } = [22, 23, 14, 15] ∧
    windowBays { w with revPos := true } = [15, 14, 23, 22] ∧
    windowBays { w with order := .positionFirst, revAisle := true } = [22, 14, 23, 15] ∧
    windowBays { w with order := .positionFirst, revAisle := true, revPos := true } = [23, 15, 22, 14] := by
  decide +kernel

/-- The bands with the power-reset sizes (R73). -/
theorem test_bands : let p := BookingUnit.powerOn.bands
    p.bandOf 1 = some .frozen ∧ p.bandOf 2 = some .opened ∧ p.bandOf 71 = some .opened ∧ p.bandOf 72 = some .far ∧
    p.bandOf 95 = some .far ∧ p.bandOf 96 = none := by decide

/-- The COMMAND codes of the first and the last commands and of one between (R175): QUERY BAY is 0x10, START 0x2F,
RECONFIGURE 0x30, RESTART 0x31. -/
theorem test_command_codes : infoQueryBay.code = 0x10#8 ∧ infoBlockBay.code = 0x11#8 ∧ infoStart.code = 0x2F#8 ∧
    infoReconfigure.code = 0x30#8 ∧ infoRestart.code = 0x31#8 := by decide

/-! ### Small states

A level in RUN with bays 3 and 4 enrolled in pool 1, both FREE with their heads ONLINE; and that level with one claim
or one condition at bay 3. -/

/-- A FREE bay of pool 1. -/
def freeBay : Bay :=
  { Bay.powerOn with enrolled := true, pool := 1, state := .free, presence := .empty, plug := .unplugged }

/-- The level in RUN. -/
def level : State :=
  { State.reset with
    opState := .run, bays := (State.reset.bays.set 3 freeBay).set 4 freeBay,
    pools := State.reset.pools.set 1 { Pool.powerOn with configured := true },
    bus := { HeadBus.powerOn with
      links := (HeadBus.powerOn.links.set 3 ⟨.online, 0, 0, .off⟩).set 4 ⟨.online, 0, 0, .off⟩ } }

/-- The level with this record at bay 3. -/
def withBay (x : Bay) : State := level.setBay 3 x

/-- A ticket of the kiosk that waits in pool 1. -/
def waits (n : Nat) : Ticket :=
  { number := n, origin := .k, kind := .walkIn, cls := .standard, pool := 1, stay := 4, state := .waiting,
    bay := none, offerDeadline := none, holdDeadline := none, lastDeclined := none, booking := none }

/-- The level with these tickets, this queue of pool 1 and this record at bay 3. -/
def claimed (x : Bay) (tickets : List Ticket) (queue : List Nat) : State :=
  { withBay x with
    tickets := tickets, pools := level.pools.set 1 { Pool.powerOn with configured := true, queue := queue } }

/-- Ticket 1 waits. -/
def waiting : State := claimed freeBay [waits 1] [1]

/-- Bay 3 is OFFERED to ticket 1. -/
def offered : State :=
  claimed { freeBay with state := .offered, ticket := some 1 }
    [{ waits 1 with state := .offered, bay := some 3, offerDeadline := some 0#32 }] [1]

/-- Ticket 1 while it holds bay 3. -/
def holder : Ticket := { waits 1 with state := .held, bay := some 3, holdDeadline := some 0#32 }

/-- Bay 3 while it is HELD for ticket 1. -/
def heldBay : Bay := { freeBay with state := .held, ticket := some 1 }

/-- Bay 3 is HELD for ticket 1. -/
def held : State := claimed heldBay [holder] []

/-- Twelve tickets, 2 to 13. -/
def dozen : List Nat := [2, 3, 4, 5, 6, 7, 8, 9, 10, 11, 12, 13]

/-- Bay 3 is HELD for ticket 1 and the queue of pool 1 holds 12 tickets. -/
def heldFull : State := claimed heldBay (holder :: dozen.map waits) dozen

/-- A bay with a vehicle that is not plugged. -/
def parkedBay : Bay := { freeBay with state := .occupied, presence := .present }

/-- Bay 3 is OCCUPIED and bound to ticket 1. -/
def arrived : State :=
  claimed { parkedBay with ticket := some 1 } [{ waits 1 with state := .arrived, bay := some 3 }] []

/-- Bay 3 is OCCUPIED and unbound. -/
def unbound : State := withBay parkedBay

/-- Bay 3 is OCCUPIED and unbound with its vehicle plugged. -/
def unboundPlugged : State := withBay { parkedBay with plug := .plugged }

/-- A session for ticket 1. -/
def session : Session :=
  { tag := 1, ticket := 1, cls := .standard, opened := 0#32, energy := 0, demand := 0, reconnect := none }

/-- Bay 3 while its session is ACTIVE. -/
def activeBay : Bay :=
  { parkedBay with state := .active, plug := .plugged, ticket := some 1, tagCounter := 1, session := some session }

/-- The level with a session at bay 3. -/
def charging (x : Bay) : State :=
  { claimed x [{ waits 1 with state := .charging, bay := some 3 }] [] with admission := [3] }

/-- Bay 3 is ACTIVE. -/
def active : State := charging activeBay

/-- Bay 3 is SUSPENDED. -/
def suspended : State :=
  charging { activeBay with state := .suspended, session := some { session with reconnect := some 0#32 } }

/-- Bay 3 is OFFLINE. -/
def offline : State := withBay { freeBay with state := .offline, presence := .unknown, plug := .unknown }

/-- Bay 3 is BLOCKED. -/
def blocked : State := withBay { freeBay with state := .blocked }

/-- Bay 3 is FAULTED. -/
def faulted : State := withBay { freeBay with state := .faulted, fault := some .headStall }

/-- A state in the slot exchange of bay 3. -/
def inSlot3 (s : State) : State := { s with bus := { s.bus with sweep := .slot 3 } }

/-- A state with this link record at bay 3. -/
def linked (s : State) (x : LinkRecord) : State := s.setLink 3 x

/-- A state with this port unit at K. -/
def atK (u : PortUnit) : State := level.setPort .k u

/-- 64 tickets, 1 to 64, twelve to a pool. -/
def crowd : List Ticket :=
  (List.range 64).map (fun i => { waits (i + 1) with pool := Fin.ofNat 8 (i / 12) })

/-- Bay 3 is OCCUPIED and unbound, and the ticket table is full. -/
def crowded : State :=
  { unbound with
    tickets := crowd,
    pools := Vector.ofFn (fun q : PoolNo => { Pool.powerOn with
      configured := true, queue := (crowd.filter (fun t => decide (t.pool = q))).map (fun t => t.number) }) }

/-- A booking of the kiosk for slots 10 and 11. -/
def booking : Booking := { number := 1, origin := .k, start := 10#32, length := 2, cls := .standard }

/-- The level with these bookings at bay 3. -/
def booked (l : List Booking) : State := level.setBookings 3 l

set_option synthInstance.maxSize 1000 in
/-- The tests of one ticket are decidable. -/
def ticketPlacedDec (s : State) (t : Ticket) : Decidable (s.ticketPlaced t) := inferInstance

set_option synthInstance.maxSize 1000 in
/-- The tests of one bay are decidable. -/
def bayPlacedDec (s : State) (b : BayNo) : Decidable (s.bayPlaced b) := inferInstance

/-- The agreement of the claims is decidable. -/
def claimsAgreeDec (s : State) : Decidable (ClaimsAgree s) :=
  have : ∀ t, Decidable (s.ticketPlaced t) := ticketPlacedDec s
  have : ∀ b, Decidable (s.bayPlaced b) := bayPlacedDec s
  have : Decidable (∀ b, b ∈ s.admission ↔ (s.bay b).state = .active ∨ (s.bay b).state = .suspended) := inferInstance
  inferInstanceAs (Decidable (_ ∧ _ ∧ _ ∧ _ ∧ _ ∧ _ ∧ _ ∧ _))

/-- The claims agree where the test says so. -/
theorem agree {s : State} (h : @decide (ClaimsAgree s) (claimsAgreeDec s) = true) : ClaimsAgree s :=
  @of_decide_eq_true _ (claimsAgreeDec s) h

/-! ### One step -/

/-- The state a command leaves. -/
def after (c : Instr) (s : State) : State :=
  match exec c s with
  | .next t => t
  | _ => s

/-- Status, payload and CLAMPED of the response that a command leaves on a port. -/
def answer (c : Instr) (s : State) (p : Port) : Option (Status × List Byte × Bool) :=
  ((after c s).port p).response.map (fun r => (r.status, r.payload, r.flags.clamped))

/-- A direct grant holds the first bay of the pool for 600 s and answers ticket, bay and deadline (R52, R35). -/
theorem test_request_bay_granted :
    answer (.requestBay .k [1#8, 20#8, 0#8]) level .k =
      some (.ok, [0#8, 1#8, 3#8, 0#8, 0#8, 2#8, 0x58#8], true) ∧
    (after (.requestBay .k [1#8, 20#8, 0#8]) level).ticket? 1 =
      some { waits 1 with stay := 16, state := .held, bay := some 3, holdDeadline := some 600#32 } := by
  decide +kernel

/-- N may not ask for class ACCESS (R31). -/
theorem test_request_bay_access_from_n :
    answer (.requestBay .n [1#8, 4#8, 2#8]) level .n = some (.noRight, [], false) := by decide +kernel

/-- An acceptance of an offer that has ended is refused (R56, section 12.4). -/
theorem test_accept_offer_lapsed :
    answer (.acceptOffer .k [0#8, 1#8, 3#8]) waiting .k = some (.lapsed, [], false) := by decide +kernel

/-- A lapse sends the ticket behind its class and offers the bay to the next ticket (R58, section 12.4). -/
theorem test_lapse_passes_on :
    let s := { offered with
      tickets := offered.tickets ++ [waits 2],
      pools := offered.pools.set 1 { offered.pool 1 with queue := [1, 2] } };
    let t := after (.lapse 1) s;
    (t.pool 1).queue = [2, 1] ∧ (t.bay 3).ticket = some 2 ∧
      (t.ticket? 1).map (fun k => (k.state, k.bay, k.lastDeclined)) = some (.offered, some 4, some 3) := by
  decide +kernel

/-- BLOCK BAY at a HELD bay requeues the ticket, and is refused FULL where the queue is full (R21). -/
theorem test_block_bay_held : answer (.blockBay .s [3#8]) heldFull .s = some (.full, [], false) ∧
    ((after (.blockBay .s [3#8]) held).bay 3).state = .blocked ∧
    ((after (.blockBay .s [3#8]) held).queue .k).notices = [.requeued 1 1 1, .offer 1 4 60] := by decide +kernel

/-- Each timer is clamped into its range (R167). -/
theorem test_set_timers_clamps : answer (.setTimers .s [0#8, 0#8, 0#8, 200#8, 255#8, 255#8]) State.reset .s =
    some (.ok, [1#8, 44#8, 0#8, 180#8, 2#8, 0x58#8], true) := by decide +kernel

/-- A cap above 2000 A is taken as 2000 A (R110). -/
theorem test_set_cap_clamps : answer (.setCap .s [0xFF#8, 0xFF#8]) level .s =
    some (.ok, [0x07#8, 0xD0#8, 0#8, 0#8], true) := by decide +kernel

/-- The candidate code is taken with FEED (section 12.1), 2 s after the change at device second 64000 and no sooner
(R108). -/
theorem test_feed_drop :
    let s := { level with
      deviceSeconds := 64000#32, power := { level.power with rating := 120, base := 10, debounce := none } };
    let u := after (.feedCodeChange 1#2) s;
    let v := after .deviceSeconds u;
    let w := after .debounceExpiry (after .deviceSeconds v);
    after .debounceExpiry u = u ∧ after .debounceExpiry v = v ∧ w.power.tier = .reduced ∧
      (w.queue .s).notices = [.feed .reduced 80] ∧ after .debounceExpiry w = w := by decide +kernel

/-- A pull is completed with the three bytes that follow the head's SYNC (R176); the sweep period timer then runs out
1 s later (R135). -/
theorem test_pull :
    let s : State := { level with bus := { level.bus with mode := .listen } };
    let t := after .pull s;
    t.bus.sent.map BusFrame.bytes = some (0x01#8 :: crcBytes (crc [0x01#8])) ∧
      after .sweepPeriodExpiry t = t ∧
      (after .sweepPeriodExpiry (after .deviceSeconds t)).bus.sweepTimer = none := by decide +kernel

/-- A vehicle arrives, unplugged (R12), and drives away (R13). -/
theorem test_report_arrival_and_departure :
    ((after (.report { plainReport with presence := 2#8 }) (inSlot3 held)).bay 3).state = .occupied ∧
    ((after (.report { plainReport with presence := 2#8 }) (inSlot3 held)).queue .k).notices = [.arrived 1 3] ∧
    (after (.report plainReport) (inSlot3 arrived)).tickets = [] ∧
    ((after (.report plainReport) (inSlot3 arrived)).queue .k).notices = [.departed 1 3] := by decide +kernel

/-- A plug-in at an unbound bay opens a session for an AUTO ticket of the kiosk with tag 1, since the tag counter
stands at 255 (R33, R92). -/
theorem test_report_plug_in :
    ((after (.report { plainReport with presence := 2#8, plug := 2#8 }) (inSlot3 unbound)).queue .k).notices =
      [.sessionOpened 1 3 1] := by decide +kernel

/-- The tenth BUSY in a row is a HEAD_STALL (R132). -/
theorem test_busy_stalls : ((after .busy (linked (inSlot3 level) ⟨.online, 0, 9, .off⟩)).bay 3).fault =
    some .headStall := by decide +kernel

/-- The third silence loses the link and suspends the session at F (R131, R97, R122). -/
theorem test_silence_suspends :
    let t := after .silence (linked (inSlot3 active) ⟨.silent, 2, 0, .blue⟩);
    (t.link 3).link = .lost ∧ (t.bay 3).state = .suspended ∧ t.setpoint 3 = ⟨0, 6, 1, 6, false⟩ := by
  decide +kernel

/-- The counts wrap (R71, R178). -/
theorem test_counts_wrap :
    (after .deviceSeconds { level with deviceSeconds := 0xFFFFFFFF#32 }).deviceSeconds = 0#32 ∧
    (after .slotExpiry { level with
      booking := { level.booking with slotNow := 0xFFFFFFFF#32, slotDue := true } }).booking.slotNow = 0#32 := by
  decide +kernel

/-- START is refused with check 1 and 0xFF where no bay is enrolled (R170, R175). -/
theorem test_start_refused : answer (.start .s []) State.reset .s = some (.badConfig, [1#8, 0xFF#8], false) := by
  decide +kernel

/-- A read of an empty notice queue answers no notice, and a count of 0 is taken as 4 (R162). -/
theorem test_read_notices_empty : answer (.readNotices .n [0#8]) level .n = some (.ok, [0#8, 0#8], true) := by
  decide +kernel

/-- BOOK answers number, bay, start, offset and band (R76). -/
theorem test_book : answer (.book .n [3#8, 0#8, 0#8, 0#8, 71#8, 1#8, 0#8]) level .n =
    some (.ok, [0#8, 1#8, 3#8, 0#8, 0#8, 0#8, 71#8, 71#8, 1#8], false) ∧
    answer (.book .n [3#8, 0#8, 0#8, 0#8, 72#8, 1#8, 0#8]) level .n = some (.band, [], false) := by
  decide +kernel

/-- The bytes of a QUERY BAY frame, received one by one, are answered as its row is (R144, R175). -/
theorem test_frame_bytes :
    (level.receiveAll .k (requestFrame 0x10#8 [3#8])) = after (.queryBay .k [3#8]) level := by decide +kernel

/-! ### Witnesses: steps and ports -/

theorem witness_StepRunsFrontCommand :
    ({ level with pending := [.pull, .busy] } : State).pending = .pull :: [.busy] ∧ level.pending = [] := by decide

theorem witness_RequestRowIsItsFrame : level.ready .k ∧ (List.replicate 48 0#8).length ≤ 48 ∧
    requestOf (.queryBay .k (List.replicate 48 0#8)) = some (.k, infoQueryBay, List.replicate 48 0#8) ∧
    requestOf (.restart .k []) = some (.k, infoRestart, []) ∧ commandKnown 0x0F#8 = false ∧
    commandKnown 0x32#8 = false := by decide

theorem witness_PortRefusals : State.reset.ready .k ∧
    requestOf (.blockBay .k [3#8]) = some (.k, infoBlockBay, [3#8]) ∧ infoBlockBay.mayUse .k = false ∧
    requestOf (.requestBay .k [1#8, 0#8, 0#8]) = some (.k, infoRequestBay, [1#8, 0#8, 0#8]) ∧
    infoRequestBay.mayUse .k = true ∧ State.reset.opState = .config ∧ infoRequestBay.reading = false ∧
    requestOf (.queryBay .k []) = some (.k, infoQueryBay, []) ∧ infoQueryBay.mayUse .k = true ∧
    infoQueryBay.reading = true ∧ ([] : List Byte).length ∉ infoQueryBay.lengths ∧
    State.reset.ready .s ∧ requestOf (.blockBay .s [3#8]) = some (.s, infoBlockBay, [3#8]) := by decide

theorem witness_BadFramesAnswered : level.ready .n ∧ ([3#8] : List Byte).length ≤ 48 ∧
    [0#8, 0#8] ≠ crcBytes (crc (requestBody 0x10#8 [3#8])) ∧ commandKnown 0x32#8 = false := by decide +kernel

/-- A port unit that receives a frame. -/
def receiving (frame : List Byte) : PortUnit :=
  { PortUnit.powerOn with recv := .receiving, frame := frame, timer := true }

/-- A port unit that sends a response, with a byte discarded or without. -/
def responding (discarded : Bool) : PortUnit :=
  { PortUnit.powerOn with
    recv := .responding, discarded := discarded, response := some ⟨.ok, ⟨false, false, false, false⟩, []⟩ }

/-- A port unit that flushes. -/
def flushing : PortUnit := { PortUnit.powerOn with recv := .flushing, timer := true }

theorem witness_BytesReceivedByState : (level.port .k).recv = .idle ∧ portSync ≠ 0#8 ∧
    ((atK (receiving [portSync])).port .k).recv = .receiving ∧
    ((atK (receiving [portSync])).port .k).frame = [portSync] ∧
    ((0#8).toNat = 0 ∧ 49 < (50#8).toNat ∧ 1 ≤ (1#8).toNat ∧ (49#8).toNat ≤ 49) ∧
    ((atK (receiving [portSync, 1#8, 0x2F#8])).port .k).frame = portSync :: 1#8 :: [0x2F#8] ∧
    [0x2F#8].length + 1 ≠ (1#8).toNat + 2 ∧
    ((atK (receiving [portSync, 1#8, 0x2F#8, 0#8])).port .k).frame = portSync :: 1#8 :: [0x2F#8, 0#8] ∧
    [0x2F#8, 0#8].length + 1 = (1#8).toNat + 2 ∧
    ((atK (responding false)).port .k).recv = .responding ∧ ((atK flushing).port .k).recv = .flushing := by decide

theorem witness_BusyPortsFlush : ((atK (receiving [portSync])).port .k).timer = true ∧
    ((atK (receiving [portSync])).port .k).recv = .receiving ∧ ((atK flushing).port .k).timer = true ∧
    ((atK flushing).port .k).recv = .flushing ∧ ((atK (responding false)).port .k).recv = .responding ∧
    ((atK (responding false)).port .k).discarded = false ∧ ((atK (responding true)).port .k).recv = .responding ∧
    ((atK (responding true)).port .k).discarded = true ∧
    requestOf (.queryBay .k [3#8]) = some (.k, infoQueryBay, [3#8]) := by decide

theorem witness_QueriesAnswerAndChangeNothing :
    (waiting.ready .k ∧ of16 0#8 1#8 ≠ 0 ∧ waiting.ticket? (of16 0#8 1#8) = some (waits 1) ∧
      (waits 1).origin = .k) ∧
    ((booked [booking]).ready .s ∧ (47 : BayNo).val = (47#8).toNat ∧ (3 : BayNo).val = (3#8).toNat ∧
      ((booked [booking]).bay 3).enrolled = true ∧ (7 : PoolNo).val = (7#8).toNat ∧
      (booked [booking]).findBooking (of16 0#8 1#8) = some (3, booking)) ∧
    (((booked [booking]).bay 47).enrolled = false ∧ 48 ≤ (48#8).toNat ∧ 8 ≤ (8#8).toNat ∧
      (booked [booking]).ready .n ∧ booking.origin ≠ .n ∧ booking.origin = .k ∧ of16 0#8 0#8 = 0 ∧
      ∀ b, ∀ k ∈ (booked [booking]).bookings b, k.number ≠ of16 0#8 2#8) ∧
    ((1#8).toNat ≠ 0 ∧ (0#8).toNat ≠ 1 ∧ (0#8).toNat ≠ 2) := by decide +kernel

/-! ### Witnesses: bays -/

theorem witness_BlockBayByState : ∀ s ∈ [offline, level, unbound, active, suspended, faulted],
    s.ready .s ∧ s.opState = .run ∧ s.enrolledBay 3#8 = some 3 ∧ (s.bay 3).blockPending = false ∧
    (s.bay 3).state ∈
      [BayState.offline, .free, .occupied, .active, .suspended, .faulted] := by decide +kernel

/-- Ticket 1 while bay 3 is offered to it. -/
def offeredTicket : Ticket := { waits 1 with state := .offered, bay := some 3, offerDeadline := some 0#32 }

theorem witness_BlockClaimedBay :
    (ClaimsAgree offered ∧ offered.ready .s ∧ offered.opState = .run ∧ offered.enrolledBay 3#8 = some 3 ∧
      (offered.bay 3).blockPending = false ∧ (offered.bay 3).ticket = some offeredTicket.number ∧
      offered.ticket? offeredTicket.number = some offeredTicket ∧ (offered.bay 3).state = .offered ∧
      offeredTicket.origin ≠ .s ∧ (offered.queue .k).notices.length < 24) ∧
    (ClaimsAgree held ∧ held.enrolledBay 3#8 = some 3 ∧ (held.bay 3).blockPending = false ∧
      (held.bay 3).ticket = some holder.number ∧ held.ticket? holder.number = some holder ∧
      (held.bay 3).state = .held ∧ (held.pool holder.pool).queue.length < 12) ∧
    (ClaimsAgree heldFull ∧ heldFull.enrolledBay 3#8 = some 3 ∧ (heldFull.bay 3).ticket = some holder.number ∧
      heldFull.ticket? holder.number = some holder ∧ (heldFull.bay 3).state = .held ∧
      (heldFull.pool holder.pool).queue.length = 12) :=
  ⟨⟨agree (by decide +kernel), by decide +kernel⟩, ⟨agree (by decide +kernel), by decide +kernel⟩,
    agree (by decide +kernel), by decide +kernel⟩

/-- Bay 3 is OCCUPIED with a block pending. -/
def blockPending : State := withBay { parkedBay with blockPending := true }

theorem witness_OutOfServiceBaysArePlaced :
    (blocked.ready .s ∧ blocked.opState = .run ∧ blocked.enrolledBay 3#8 = some 3 ∧
      (blocked.bay 3).state = .blocked ∧ (blocked.bay 3).blockPending = false) ∧
    (faulted.enrolledBay 3#8 = some 3 ∧ (faulted.bay 3).state = .faulted) ∧
    (blockPending.enrolledBay 3#8 = some 3 ∧ (blockPending.bay 3).state ≠ .blocked ∧
      (blockPending.bay 3).blockPending = true) := by decide +kernel

theorem witness_BayCommandRefusals :
    (State.reset.ready .s ∧ State.reset.opState = .config) ∧
    (let s : State := { level with opState := .config };
      s.ready .s ∧ (s.bay 3).enrolled = true ∧ (s.bay 47).enrolled = false) ∧
    (level.ready .s ∧ level.opState = .run ∧ 48 ≤ (48#8).toNat) ∧
    ((47 : BayNo).val = (47#8).toNat ∧ (level.bay 47).enrolled = false) ∧
    ((3 : BayNo).val = (3#8).toNat ∧ (level.bay 3).enrolled = true ∧ (blocked.bay 3).state = .blocked ∧
      (blockPending.bay 3).blockPending = true ∧ (level.bay 3).state ≠ .blocked ∧
      (level.bay 3).blockPending = false ∧ (level.bay 3).state ≠ .faulted ∧ (level.bay 3).state ≠ .active ∧
      (level.bay 3).state ≠ .suspended) := by decide +kernel

/-- A state whose head at bay 3 is lost. -/
def lostAt3 (s : State) : State := s.setLink 3 ⟨.lost, 3, 0, .off⟩

theorem witness_PlugInOpensSession :
    (ClaimsAgree arrived ∧ (arrived.bay 3).state = .occupied ∧ (arrived.link 3).link ≠ .lost ∧
      ∃ k, (arrived.bay 3).ticket = some k.number ∧ arrived.ticket? k.number = some k) ∧
    (ClaimsAgree unbound ∧ (unbound.bay 3).state = .occupied ∧ (unbound.link 3).link ≠ .lost ∧
      (unbound.bay 3).ticket = none ∧ unbound.tickets.length < 64) ∧
    (ClaimsAgree crowded ∧ (crowded.bay 3).state = .occupied ∧ (crowded.link 3).link ≠ .lost ∧
      (crowded.bay 3).ticket = none ∧ crowded.tickets.length = 64) ∧
    (ClaimsAgree (lostAt3 unbound) ∧ ((lostAt3 unbound).bay 3).state = .occupied ∧
      ((lostAt3 unbound).link 3).link = .lost) :=
  ⟨⟨agree (by decide +kernel), by decide +kernel, by decide +kernel,
      { waits 1 with state := .arrived, bay := some 3 }, by decide +kernel⟩,
    ⟨agree (by decide +kernel), by decide +kernel⟩, ⟨agree (by decide +kernel), by decide +kernel⟩,
    agree (by decide +kernel), by decide +kernel⟩

theorem witness_ForceCloseEndsSession :
    (ClaimsAgree active ∧ active.ready .s ∧ active.opState = .run ∧ active.enrolledBay 3#8 = some 3 ∧
      (active.bay 3).session = some session ∧
      (active.ticket? session.ticket).map Ticket.origin = some .k ∧ (active.queue .s).notices.length < 23 ∧
      (active.queue .k).notices.length < 23) ∧
    (ClaimsAgree suspended ∧ suspended.ready .s ∧ suspended.opState = .run ∧ suspended.enrolledBay 3#8 = some 3 ∧
      (suspended.bay 3).session = some { session with reconnect := some 0#32 }) :=
  ⟨⟨agree (by decide +kernel), by decide +kernel⟩, agree (by decide +kernel), by decide +kernel⟩

/-! ### Witnesses: tickets and pools -/

/-- The level with pool 1 masked, and with this queue of it. -/
def masked (queue : List Nat) : State :=
  { level with
    tickets := queue.map waits,
    pools := level.pools.set 1 { Pool.powerOn with configured := true, masked := true, queue := queue } }

/-- Twelve tickets wait in pool 1, which is masked. -/
def maskedFull : State := masked dozen

/-- The ticket of each witness is ticket 1 of the kiosk, with a stay of 4. -/
theorem witness_RequestBayIsGranted : (∀ s ∈ [level, masked [], maskedFull],
      s.ready .k ∧ s.opState = .run ∧ priorityOf 0#8 = some .standard ∧ s.configuredPool 1#8 = some 1 ∧
      ¬((s.pool 1).kind = .restricted) ∧ s.tickets.length < 64 ∧ s.nextTicket = 1) ∧
    (ClaimsAgree level ∧ (level.rotation 1).find? (fun a => level.eligible a (waits 1)) = some 3) ∧
    (ClaimsAgree (masked []) ∧ (∀ b, (masked []).eligible b (waits 1) = false) ∧
      ((masked []).pool 1).queue.length < 12) ∧
    (ClaimsAgree maskedFull ∧ (∀ b, maskedFull.eligible b (waits 1) = false) ∧
      (maskedFull.pool 1).queue.length = 12) :=
  ⟨by decide +kernel, ⟨agree (by decide +kernel), by decide +kernel⟩,
    ⟨agree (by decide +kernel), by decide +kernel⟩, agree (by decide +kernel), by decide +kernel⟩

/-- Pool 1 is RESTRICTED. -/
def restricted : State :=
  { level with pools := level.pools.set 1 { Pool.powerOn with configured := true, kind := .restricted } }

theorem witness_RequestBayChecks :
    (State.reset.ready .s ∧ State.reset.opState = .config) ∧ (level.ready .n ∧ level.opState = .run) ∧
    ((1#8).toNat ≠ 0 ∧ (1#8).toNat ≠ 2 ∧ (3#8).toNat ≠ 0 ∧ (3#8).toNat ≠ 2) ∧ (2#8).toNat = 2 ∧
    (8 ≤ (8#8).toNat ∧ (7 : PoolNo).val = (7#8).toNat ∧ (level.pool 7).configured = false) ∧
    (restricted.ready .n ∧ (restricted.pool 1).configured = true ∧ (restricted.pool 1).kind = .restricted) ∧
    (crowded.ready .n ∧ crowded.opState = .run ∧ (crowded.pool 1).configured = true ∧
      (crowded.pool 1).kind ≠ .restricted ∧ 64 ≤ crowded.tickets.length) := by decide +kernel

theorem witness_NamedTicketChecks :
    (level.ready .n ∧ level.opState = .run ∧ of16 0#8 0#8 = 0 ∧ level.ticket? (of16 255#8 255#8) = none) ∧
    (waiting.ready .n ∧ waiting.opState = .run ∧ of16 0#8 1#8 ≠ 0 ∧
      waiting.ticket? (of16 0#8 1#8) = some (waits 1) ∧ (waits 1).origin ≠ .n) ∧
    ((waits 1).origin = .k ∧ waiting.enrolledBay 3#8 = some 3 ∧ (waits 1).state ≠ .offered) ∧
    (offered.ticket? (of16 0#8 1#8) = some offeredTicket ∧ offered.enrolledBay 4#8 = some 4 ∧
      offeredTicket.bay ≠ some 4) ∧
    (State.reset.ready .s ∧ State.reset.opState = .config) ∧
    (48 ≤ (48#8).toNat ∧ (47 : BayNo).val = (47#8).toNat ∧ (waiting.bay 47).enrolled = false) ∧
    ((3 : BayNo).val = (3#8).toNat ∧ (waiting.bay 3).enrolled = true ∧ (held.bay 3).state ≠ .free ∧
      held.ticket? 1 = some holder ∧ holder.state ≠ .waiting ∧ waiting.ready .s) := by decide +kernel

theorem witness_AdoptBayChecks :
    (State.reset.ready .s ∧ State.reset.opState = .config) ∧ (level.ready .k ∧ level.opState = .run) ∧
    ((1#8).toNat ≠ 0 ∧ (1#8).toNat ≠ 2 ∧ (2#8).toNat = 2) ∧
    (48 ≤ (48#8).toNat ∧ (47 : BayNo).val = (47#8).toNat ∧ (level.bay 47).enrolled = false) ∧
    ((3 : BayNo).val = (3#8).toNat ∧ (level.bay 3).enrolled = true ∧ (level.bay 3).state ≠ .occupied ∧
      (arrived.bay 3).state = .occupied ∧ (arrived.bay 3).ticket ≠ none ∧ arrived.ready .k) ∧
    (let s := restricted.setBay 3 parkedBay;
      s.ready .k ∧ s.opState = .run ∧ (s.bay 3).ticket = none ∧ (s.pool (s.bay 3).pool).kind = .restricted) ∧
    (crowded.ready .k ∧ crowded.opState = .run ∧ (crowded.bay 3).state = .occupied ∧ (crowded.bay 3).ticket = none ∧
      (crowded.pool (crowded.bay 3).pool).kind ≠ .restricted ∧ 64 ≤ crowded.tickets.length) := by decide +kernel

theorem witness_AdoptBayBinds :
    (ClaimsAgree unbound ∧ unbound.ready .k ∧ unbound.opState = .run ∧ priorityOf 0#8 = some .standard ∧
      unbound.enrolledBay 3#8 = some 3 ∧ (unbound.bay 3).state = .occupied ∧ (unbound.bay 3).ticket = none ∧
      (unbound.pool (unbound.bay 3).pool).kind ≠ .restricted ∧ unbound.tickets.length < 64 ∧
      (unbound.bay 3).plug ≠ .plugged) ∧
    (ClaimsAgree (lostAt3 unboundPlugged) ∧ (lostAt3 unboundPlugged).ready .k ∧
      ((lostAt3 unboundPlugged).bay 3).state = .occupied ∧ ((lostAt3 unboundPlugged).bay 3).ticket = none ∧
      ((lostAt3 unboundPlugged).bay 3).plug = .plugged ∧ ((lostAt3 unboundPlugged).link 3).link = .lost) ∧
    (ClaimsAgree unboundPlugged ∧ unboundPlugged.ready .s ∧ (unboundPlugged.bay 3).state = .occupied ∧
      (unboundPlugged.bay 3).ticket = none ∧ (unboundPlugged.bay 3).plug = .plugged ∧
      (unboundPlugged.link 3).link ≠ .lost) :=
  ⟨⟨agree (by decide +kernel), by decide +kernel⟩, ⟨agree (by decide +kernel), by decide +kernel⟩,
    agree (by decide +kernel), by decide +kernel⟩

theorem witness_HoldsBeginByCommand :
    (ClaimsAgree waiting ∧ waiting.ready .s ∧ waiting.opState = .run ∧ waiting.enrolledBay 3#8 = some 3 ∧
      (waits 1).number = of16 0#8 1#8 ∧ waiting.ticket? 1 = some (waits 1) ∧ (waits 1).state = .waiting ∧
      (waiting.bay 3).state = .free) ∧
    (ClaimsAgree offered ∧ offered.ready .k ∧ offered.opState = .run ∧ offered.enrolledBay 3#8 = some 3 ∧
      offeredTicket.number = of16 0#8 1#8 ∧ offered.ticket? 1 = some offeredTicket ∧ offeredTicket.origin = .k ∧
      offeredTicket.state = .offered ∧ offeredTicket.bay = some 3) :=
  ⟨⟨agree (by decide +kernel), by decide +kernel⟩, agree (by decide +kernel), by decide +kernel⟩

theorem witness_OffersGivenUp : ClaimsAgree offered ∧ offered.enrolledBay 3#8 = some 3 ∧
    offeredTicket.number = of16 0#8 1#8 ∧ offered.ticket? offeredTicket.number = some offeredTicket ∧
    offeredTicket.state = .offered ∧ offeredTicket.bay = some 3 ∧ offered.ready .k ∧ offered.opState = .run ∧
    offeredTicket.origin = .k ∧ offeredTicket.offerDeadline = some 0#32 ∧ offered.reached 0#32 = true :=
  ⟨agree (by decide +kernel), by decide +kernel⟩

/-- The offered bay 3 holds a plugged vehicle: its placement takes the plug-in. -/
theorem witness_OffersGivenUpAtPluggedBay :
    let s := offered.setBay 3 { offered.bay 3 with presence := .present, plug := .plugged };
    ClaimsAgree s ∧ s.enrolledBay 3#8 = some 3 ∧ s.ticket? 1 = some offeredTicket ∧
    ((s.bay 3).placed (s.linkLost 3)).state = .occupied ∧ ((s.bay 3).placed (s.linkLost 3)).plug = .plugged :=
  ⟨agree (by decide +kernel), by decide +kernel⟩

/-- Ticket 1, ARRIVED at bay 3. -/
def arrivedTicket : Ticket := { waits 1 with state := .arrived, bay := some 3 }

/-- Ticket 1, CHARGING at bay 3. -/
def chargingTicket : Ticket := { waits 1 with state := .charging, bay := some 3 }

theorem witness_ClaimsWithdrawn :
    (ClaimsAgree waiting ∧ waiting.ticket? 1 = some (waits 1) ∧ (waits 1).state = .waiting) ∧
    (ClaimsAgree offered ∧ offered.ticket? 1 = some offeredTicket ∧ offeredTicket.state = .offered ∧
      offeredTicket.bay = some 3) ∧
    (ClaimsAgree held ∧ held.ticket? 1 = some holder ∧ holder.state = .held ∧ holder.bay = some 3 ∧
      holder.holdDeadline = some 0#32 ∧ held.reached 0#32 = true) ∧
    (ClaimsAgree arrived ∧ arrived.ticket? 1 = some arrivedTicket ∧ arrivedTicket.state = .arrived ∧
      arrivedTicket.bay = some 3) ∧
    (ClaimsAgree active ∧ active.ticket? 1 = some chargingTicket ∧ chargingTicket.state = .charging) ∧
    (∀ s ∈ [waiting, offered, held, arrived, active], s.ready .k ∧ s.opState = .run) ∧
    (waits 1).number = of16 0#8 1#8 :=
  ⟨⟨agree (by decide +kernel), by decide +kernel⟩, ⟨agree (by decide +kernel), by decide +kernel⟩,
    ⟨agree (by decide +kernel), by decide +kernel⟩, ⟨agree (by decide +kernel), by decide +kernel⟩,
    ⟨agree (by decide +kernel), by decide +kernel⟩, by decide +kernel, by decide⟩

theorem witness_MaskAndUnmask :
    (State.reset.ready .s ∧ State.reset.ready .k ∧ State.reset.opState = .config) ∧
    (level.ready .s ∧ level.opState = .run ∧ 8 ≤ (8#8).toNat ∧ (7 : PoolNo).val = (7#8).toNat ∧
      (level.pool 7).configured = false ∧ (1 : PoolNo).val = (1#8).toNat ∧ (level.pool 1).configured = true ∧
      (level.pool 1).masked = false) ∧
    (maskedFull.ready .s ∧ maskedFull.opState = .run ∧ (maskedFull.pool 1).configured = true ∧
      (maskedFull.pool 1).masked = true) := by decide +kernel

/-- In the run of pool 1 bay 3 goes to ticket 1, and bay 4, which follows it in rotation order, stays. -/
theorem witness_MatchingRunPairs : ClaimsAgree waiting ∧ (waiting.bay 0).pool ≠ 1 ∧
    (waiting.bay 0).enrolled = false ∧ waiting.ticket? 1 = some (waits 1) ∧ (waits 1).pool ≠ 0 ∧
    (∃ k ∈ (waiting.matchRun 0).tickets, k.state = .waiting ∧ k.pool = 1) ∧
    (maskedFull.pool 1).masked = true ∧
    (waiting.rotation 1 = [] ++ 3 :: [4] ∧ (waiting.pool 1).queue = [] ++ 1 :: [] ∧
      (waits 1).state = .waiting ∧ (waiting.bay 3).state = .free ∧ (waiting.pool 1).masked = false ∧
      (waiting.pool 1).kind = .general ∧ (waits 1).lastDeclined ≠ some 3 ∧ waiting.bookings 3 = [] ∧
      (waiting.matchRun 1).bay 4 = waiting.bay 4) ∧
    ((waiting.matchRun 1).bay 3).ticket = some 1 ∧ ∀ b, (level.matchRun 1).bay b = level.bay b :=
  ⟨agree (by decide +kernel), by decide +kernel⟩

/-- The counters stand at a live number, 65535. -/
def countersAtEnd : State :=
  { booked [{ booking with number := 65535 }] with
    tickets := [waits 65535], ticketCounter := 65535,
    booking := { (booked [{ booking with number := 65535 }]).booking with counter := 65535 } }

theorem witness_NumbersAreTheFirstNotLive : TicketsFit countersAtEnd ∧ BookFits countersAtEnd ∧
    countersAtEnd.nextTicket = 1 ∧ countersAtEnd.nextBooking = 1 := by decide +kernel

/-! ### Witnesses: bookings and the slot clock -/

theorem witness_BookPlacesABooking : let s := booked [booking];
    BookOrdered s ∧ s.ready .n ∧ s.opState = .run ∧ priorityOf 0#8 = some .standard ∧
    s.enrolledBay 3#8 = some 3 ∧ (1 ≤ (1#8).toNat ∧ (16#8).toNat ≤ 16) ∧
    offsetFrom s.booking.slotNow (BitVec.ofNat 32 (of32 0#8 0#8 0#8 12#8)) = 12 ∧
    s.booking.bands.bandOf 12 = some .opened ∧ mayBook .n .opened = true ∧
    (∀ m ∈ s.bookings 3, 12 + (16 : Int) ≤ s.offset m ∨ s.offset m + (m.length : Int) ≤ 12) ∧
    (s.bookings 3).length < 6 ∧ s.bookSize < 160 := by decide +kernel

/-- Six bookings of bay 3, in slots 10 to 20. -/
def sixBookings : List Booking :=
  [10, 12, 14, 16, 18, 20].map (fun i => { booking with number := i, start := BitVec.ofNat 32 i, length := 1 })

theorem witness_BookChecks : let s := booked [booking];
    let o := fun (l : Byte) => offsetFrom s.booking.slotNow (BitVec.ofNat 32 (of32 0#8 0#8 0#8 l));
    (State.reset.ready .k ∧ State.reset.opState = .config) ∧ (s.ready .n ∧ s.ready .k ∧ s.opState = .run) ∧
    ((1#8).toNat ≠ 0 ∧ (1#8).toNat ≠ 2) ∧ s.enrolledBay 48#8 = none ∧ s.enrolledBay 3#8 = some 3 ∧
    (16 < (17#8).toNat ∧ (16#8).toNat ≤ 16) ∧ (o 0#8 = 0 ∧ o 95#8 = 95 ∧ o 96#8 = 96 ∧ o 1#8 = 1 ∧ o 72#8 = 72) ∧
    (s.booking.bands.frozen = 2 ∧ s.booking.bands.opened = 70) ∧
    (s.bookings 3 = [] ++ booking :: [] ∧ o 9#8 = 9 ∧ s.offset booking < 9 + 2 ∧
      9 < s.offset booking + (booking.length : Int)) ∧
    (6 ≤ ((booked sixBookings).bookings 3).length ∧
      ∀ a ∈ (booked sixBookings).bookings 3, 2 + (1 : Int) ≤ (booked sixBookings).offset a) := by decide +kernel

theorem witness_CancelBookingRemoves : let s := booked [booking];
    (State.reset.ready .k ∧ State.reset.opState = .config) ∧ (s.ready .n ∧ s.ready .k ∧ s.opState = .run) ∧
    (of16 0#8 0#8 = 0 ∧ ∀ b, ∀ k ∈ s.bookings b, k.number ≠ of16 0#8 2#8) ∧
    (booking ∈ s.bookings 3 ∧ BookFits s ∧ booking.number = of16 0#8 1#8 ∧ booking.origin ≠ .n ∧
      booking.origin = .k) ∧
    ∀ i ∈ [1, 2, 71, 72], let k : Booking := { booking with origin := .n, start := BitVec.ofNat 32 i };
      BookFits (booked [k]) ∧ (booked [k]).offset k = (i : Int) := by decide +kernel

/-- The level in CONFIG with these bookings at bay 3. -/
def config (l : List Booking) : State :=
  State.reset.setBookings 3 l

theorem witness_SetSlotClockSetsTheClock :
    (level.ready .s ∧ level.opState = .run) ∧
    (let s := config [booking];
      s.ready .s ∧ s.opState = .config ∧ (∀ a < (3 : BayNo), s.bookings a = []) ∧
      s.bookings 3 = [] ++ booking :: [] ∧
      offsetFrom (BitVec.ofNat 32 (of32 0#8 0#8 0#8 10#8)) booking.start = 0 ∧
      (∀ b, ∀ k ∈ s.bookings b, offsetFrom (BitVec.ofNat 32 (of32 0#8 0#8 0#8 9#8)) k.start = 1) ∧
      (899 < of16 3#8 0x84#8 ∧ of16 3#8 0x83#8 = 899)) := by decide +kernel

theorem witness_SetBandsTakesThePartition :
    (level.ready .s ∧ level.ready .k ∧ level.opState = .run) ∧
    (State.reset.ready .s ∧ State.reset.opState = .config) ∧
    ((8#8).toNat + (40#8).toNat + (48#8).toNat = 96 ∧ (1#8).toNat + (95#8).toNat + (0#8).toNat = 96) ∧
    (9#8).toNat + (40#8).toNat + (47#8).toNat = 96 := by decide

/-- The level with its slot expiry due. -/
def expiring (s : State) : State :=
  { s with booking := { s.booking with secondsIntoSlot := 899, slotDue := true } }

theorem witness_SecondsPass : level.booking.secondsIntoSlot < 899 ∧
    (expiring level).booking.secondsIntoSlot = 899 := by decide

/-- A booking at offset 1, due at the next expiry. -/
def dueBooking : Booking := { booking with start := 1#32 }

theorem witness_SlotExpiryInConfigDrops : let s := expiring (config [dueBooking]);
    BookFits s ∧ BookOrdered s ∧ s.opState = .config ∧ s.booking.slotDue = true ∧ dueBooking ∈ s.bookings 3 := by
  decide +kernel

theorem witness_SlotExpiryInRunActivates :
    ∀ x ∈ [freeBay, parkedBay], let s := expiring ((withBay x).setBookings 3 [dueBooking]);
      ClaimsAgree s ∧ BookFits s ∧ BookOrdered s ∧ s.opState = .run ∧ s.booking.slotDue = true ∧
      dueBooking ∈ s.bookings 3 ∧ s.tickets.length + 48 ≤ 64 ∧
      ((s.bay 3).state = .free ∨ (s.bay 3).state ≠ .offered) := by
  intro x hx
  rcases List.mem_cons.mp hx with rfl | hx
  · exact ⟨agree (by decide +kernel), by decide +kernel⟩
  · rcases List.mem_singleton.mp hx with rfl
    exact ⟨agree (by decide +kernel), by decide +kernel⟩

/-- The one due booking of each outcome of an activation: at a FREE bay, at an OFFERED one, displaced from an
OCCUPIED one, with the queue of its pool full, and with the ticket table full. -/
theorem witness_SlotExpiryInRunActivatesOne :
    ∀ x ∈ [level, offered, unbound, heldFull, crowded], let s := expiring (x.setBookings 3 [dueBooking]);
      ClaimsAgree s ∧ BookFits s ∧ BookOrdered s ∧ s.opState = .run ∧ s.booking.slotDue = true ∧
      s.bookings 3 = dueBooking :: [] ∧ (after .slotExpiry s).offset dueBooking = 0 ∧
      ∀ c : BayNo, c ≠ 3 → s.bookings c = [] := by
  intro x hx
  have h : ∀ y : State, @decide (ClaimsAgree y) (claimsAgreeDec y) = true → ClaimsAgree y := fun _ => agree
  simp only [List.mem_cons, List.not_mem_nil, or_false] at hx
  rcases hx with rfl | rfl | rfl | rfl | rfl <;> exact ⟨h _ (by decide +kernel), by decide +kernel⟩

/-- The states of those five bays, queues and tables. -/
theorem witness_SlotExpiryOutcomes : (level.bay 3).state = .free ∧
    ((offered.bay 3).state = .offered ∧ (offered.bay 3).ticket = some offeredTicket.number ∧
      offered.ticket? offeredTicket.number = some offeredTicket) ∧
    ((unbound.bay 3).state = .occupied ∧ (unbound.pool (unbound.bay 3).pool).queue.length < 12) ∧
    ((heldFull.bay 3).state = .held ∧ (heldFull.pool (heldFull.bay 3).pool).queue.length = 12 ∧
      heldFull.tickets.length < 64) ∧ crowded.tickets.length = 64 := by decide +kernel

/-! ### Witnesses: power -/

theorem witness_LevelSettingsTaken : level.ready .s ∧ State.reset.ready .s := by decide

theorem witness_FeedCodeIsDebounced : 1#2 ≠ level.power.lines ∧
    (level.power.debounce = some 2#32 ∧ level.reached 2#32 = false ∧
      ({ level with deviceSeconds := 2#32 } : State).reached 2#32 = true) ∧
    level.power.candidate = 0#2 ∧ level.power.tier = .normal ∧ ListenQuiet { level with deviceSeconds := 2#32 } ∧
    ({ level.power with tier := .shed } : PowerUnit).tier ≠ .normal := by decide +kernel

theorem witness_TargetsAreShared : (∀ c ∈ [22, 32, 16, 22, 10], 6 ≤ c) ∧ [6, 6].sum ≤ 12 ∧
    (80 < [22, 32, 16, 22, 10].sum ∧ 80 - 6 * 5 < ([22, 32, 16, 22, 10].map (fun c => c - 6)).sum) ∧
    (13 < [6, 6, 20].sum ∧ (([6, 6, 20].take 2).map (fun c => c - 6)).sum ≤ 13 - 6 * 2) := by decide

/-- Bay 3 is ACTIVE with a demand of 16 A, at a level with 10 A. -/
def drawing : State :=
  { charging { activeBay with session := some { session with demand := 16 } } with
    power := { level.power with rating := 10 } }

theorem witness_RecomputeSetsTargets :
    (drawing.admission.Nodup ∧ (drawing.bay 3).state = .active ∧ drawing.participants[0]? = some 3 ∧
      (drawing.bay 3).session.isSome = true) ∧
    (active.admission.Nodup ∧ (active.bay 3).state = .active ∧ 3 ∉ active.participants ∧
      (active.recompute.setpoint 3).target ≤ (active.setpoint 3).acked ∧ (active.bay 4).state ≠ .active) := by
  decide +kernel

theorem witness_RaisesStayWithinBudget : let t := drawing.recompute;
    drawing.admission.Nodup ∧ max (drawing.setpoint 3).issued (drawing.setpoint 3).acked <
      max (t.setpoint 3).issued (t.setpoint 3).acked ∧
    (drawing.setpoint 3).acked < (t.setpoint 3).target ∧ (drawing.setpoint 3).issued < (t.setpoint 3).issued ∧
    drawing.participants = [] ++ 3 :: [] := by
  decide +kernel

/-! ### Witnesses: notices and windows -/

/-- A queue of 24 notices, the first of them a BAY_STATE of bay 3. -/
def fullQueue : NoticeQueue :=
  { notices := .bayState 3 .free .online none :: List.replicate 23 (.noTicket 3), overrun := false }

theorem witness_NoticesAreTaken :
    (fullQueue.notices = [] ++ .bayState 3 .free .online none :: List.replicate 23 (.noTicket 3) ∧
      Notice.coalesces (.bayState 3 .held .online none) (.bayState 3 .free .online none) = true) ∧
    (∀ m ∈ fullQueue.notices, Notice.coalesces (.noTicket 3) m = false) ∧ 24 ≤ fullQueue.notices.length ∧
    (fullQueue.notices.drop 1).length < 24 := by decide

theorem witness_ReadNoticesDrains : level.ready .s ∧ level.ready .k ∧ level.ready .n := by decide

theorem witness_WindowsStepThroughTheirBays : (5 : Fin 6) ≤ 5 ∧ (0 : Fin 8) ≤ 7 ∧ level.ready .n ∧
    (4#8).toNat < (5#8).toNat ∧ 5 < (6#8).toNat ∧ 7 < (8#8).toNat ∧ 1 < (2#8).toNat ∧
    (level.port .n).window = none ∧
    (let w : Window := ⟨1, 2, 6, 7, .aisleFirst, false, false, 23, false⟩;
      ((level.setPort .n { PortUnit.powerOn with window := some w }).port .n).window = some w ∧
      (windowBays w)[3]? = some w.pointer) := by decide +kernel

/-! ### Witnesses: configuration and operating states -/

theorem witness_ConfigurationIsSet : (level.ready .s ∧ level.opState = .run) ∧
    (State.reset.ready .s ∧ State.reset.opState = .config) ∧ (47 : BayNo).val = (47#8).toNat ∧
    (7 : PoolNo).val = (7#8).toNat ∧ (1#8).toNat ≤ 1 ∧ (6 ≤ (6#8).toNat ∧ (63#8).toNat ≤ 63) ∧
    (48 ≤ (48#8).toNat ∧ 1 < (2#8).toNat ∧ 8 ≤ (8#8).toNat ∧ (5#8).toNat < 6 ∧ 63 < (64#8).toNat) := by decide

/-- The level, configured and not started. -/
def configured : State := { State.reset with bays := level.bays.map (fun x => { x with state := .offline }), pools := level.pools }

/-- In CONFIG: no bay enrolled; bay 3 enrolled in a pool that is not configured; pool 7 configured without a bay; and
a configuration that passes. -/
theorem witness_StartOpensTheLevel :
    (State.reset.ready .s ∧ State.reset.opState = .config ∧ ∀ b, (State.reset.bay b).enrolled = false) ∧
    (let s := { configured with pools := State.reset.pools };
      s.ready .s ∧ s.opState = .config ∧ (s.bay 3).enrolled = true ∧ (s.pool (s.bay 3).pool).configured = false ∧
      ∀ c : BayNo, c < 3 → (s.bay c).enrolled = false) ∧
    (let s := configured.setPool 7 { Pool.powerOn with configured := true };
      s.ready .s ∧ s.opState = .config ∧ (s.bay 3).enrolled = true ∧
      (∀ b, (s.bay b).enrolled = true → (s.pool (s.bay b).pool).configured = true) ∧
      (s.pool 7).configured = true ∧ (∀ b, (s.bay b).enrolled = true → (s.bay b).pool ≠ 7) ∧
      ∀ r : PoolNo, r < 7 → (s.pool r).configured = true →
        ∃ b, (s.bay b).enrolled = true ∧ (s.bay b).pool = r) ∧
    (configured.ready .s ∧ configured.opState = .config ∧ (configured.bay 3).enrolled = true ∧
      (∀ b, (configured.bay b).enrolled = true → (configured.pool (configured.bay b).pool).configured = true) ∧
      ∀ q, (configured.pool q).configured = true →
        ∃ b, (configured.bay b).enrolled = true ∧ (configured.bay b).pool = q) ∧
    (level.ready .s ∧ level.opState = .run) := by decide +kernel

theorem witness_ReconfigureClosesTheLevel :
    (State.reset.ready .s ∧ State.reset.opState = .config) ∧ (waiting.ready .s ∧ waiting.tickets ≠ []) ∧
    (level.ready .s ∧ level.opState = .run ∧ level.tickets = []) := by decide

theorem witness_RestartClearsClaims : level.ready .s ∧ State.reset.ready .s := by decide

/-! ### Witnesses: the head bus -/

/-- The level with this bus, its links kept. -/
def onBus (sweep : SweepState) (mode : BusMode) (sweepTimer keepAlive : Option Seconds) : State :=
  { level with bus := { level.bus with sweep := sweep, mode := mode, sweepTimer := sweepTimer, keepAlive := keepAlive } }

theorem witness_SweepsOpenAndClose :
    (let s := onBus .idle .timed (some 0#32) none;
      s.bus.sweepTimer = some 0#32 ∧ s.reached 0#32 = true ∧ s.opState = .run ∧ s.bus.sweep = .idle ∧
      s.bus.mode = .timed) ∧
    (let s := onBus .opening .timed (some 0#32) (some 0#32);
      s.bus.sweepTimer = some 0#32 ∧ s.bus.keepAlive = some 0#32 ∧ s.bus.sweep ≠ .idle ∧ s.bus.mode ≠ .listen) ∧
    (let s := onBus .idle .listen none (some 0#32);
      s.bus.keepAlive = some 0#32 ∧ s.bus.sweep = .idle ∧ s.bus.mode = .listen) ∧
    (let s := onBus .idle .timed (some 1#32) (some 1#32);
      s.bus.sweepTimer = some 1#32 ∧ s.bus.keepAlive = some 1#32 ∧ s.reached 1#32 = false) ∧
    ((onBus (.closing .long) .timed (some 1#32) none).bus.sweep = .closing .long ∧
      (onBus (.closing .long) .timed (some 1#32) none).bus.sweepTimer ≠ none ∧
      (onBus (.closing .long) .timed none none).bus.sweepTimer = none) ∧
    ((onBus (.closing .short) .timed none none).bus.sweep = .closing .short ∧
      ((level.bay 3).enrolled = true ∧
        lampOf (level.bay 3).state (level.setpoint 3).throttled ≠ (level.link 3).lastLamp)) ∧
    (({ onBus (.closing .short) .timed none none with opState := .config } : State).opState = .config) := by
  decide +kernel

theorem witness_NextFrameOfASweep :
    (onBus .opening .timed none none).bus.sweep = .opening ∧ (inSlot3 level).bus.sweep = .slot 3 ∧
    ((3 : BayNo) < 4 ∧ (level.bay 4).enrolled = true) ∧ (level.bay 3).enrolled = true ∧
    (∀ d : BayNo, d < 3 → (level.bay d).enrolled = false) ∧
    (({ level with bus := { level.bus with sweep := .slot 4 } } : State).bus.sweep = .slot 4 ∧
      ∀ d : BayNo, 4 < d → (level.bay d).enrolled = false) := by decide +kernel

/-- A link record with this silence count. -/
def silent (n : Nat) : LinkRecord := ⟨linkAt n, n, 0, .off⟩

theorem witness_LinkRecordsFollowReplies :
    (∀ n ∈ [0, 1, 2, 3], LinksAgree (linked (inSlot3 level) (silent n)) ∧
      ((linked (inSlot3 level) (silent n)).link 3).silence = n ∧
      (linked (inSlot3 level) (silent n)).bus.sweep = .slot 3) ∧ parseReply [] = .corrupt ∧
    ((linked (inSlot3 level) ⟨.online, 0, 9, .off⟩).link 3).busy = 9 ∧ reportDefined plainReport = true ∧
    ((level.bay 3).enrolled = true ∧ level.opState = .run ∧ (level.queue .s).notices.length < 24 ∧
      (level.bay 3).state = .free) ∧
    (offered.bay 3).state = .offered ∧
    (∀ s ∈ [held, unbound, offline, blocked, faulted], LinksAgree (linked (inSlot3 s) (silent 2))) := by
  decide +kernel

theorem witness_LostHeadAtOfferedBay : let s := linked (inSlot3 offered) (silent 2);
    ClaimsAgree s ∧ LinksAgree s ∧ (s.link 3).silence = 2 ∧ s.bus.sweep = .slot 3 ∧
    (s.bay 3).state = .offered ∧ (s.bay 3).ticket = some offeredTicket.number ∧
    s.ticket? offeredTicket.number = some offeredTicket :=
  ⟨agree (by decide +kernel), by decide +kernel⟩

theorem witness_SuspensionAndItsExpiry :
    (let s := linked (inSlot3 active) (silent 2);
      ClaimsAgree s ∧ (s.bay 3).session = some session ∧ s.bus.sweep = .slot 3 ∧ (s.link 3).silence = 2 ∧
      (s.bay 3).state = .active) ∧
    (ClaimsAgree suspended ∧ (suspended.bay 3).session = some { session with reconnect := some 0#32 } ∧
      (suspended.bay 3).state = .suspended ∧ suspended.reached 0#32 = true ∧
      suspended.ticket? 1 = some chargingTicket) :=
  ⟨⟨agree (by decide +kernel), by decide +kernel⟩, agree (by decide +kernel), by decide +kernel⟩

/-- A REPORT with head status FAULT and code 1. -/
def faultReport : Report := { plainReport with status := 1#8, faultCode := 1#8 }

theorem witness_HeadFaultTakesTheBay :
    (∀ s ∈ [inSlot3 level, inSlot3 blocked], s.bus.sweep = .slot 3) ∧
    (reportDefined faultReport = true ∧ faultReport.status = 1#8) ∧
    9 ≤ ((linked (inSlot3 level) ⟨.online, 0, 9, .off⟩).link 3).busy ∧
    (ClaimsAgree (inSlot3 active) ∧ chargingTicket.state = .charging ∧
      ((inSlot3 active).bay 3).ticket = some chargingTicket.number ∧
      ((inSlot3 active).bay 3).session = some session ∧ ((inSlot3 active).queue .s).notices.length < 23 ∧
      ((inSlot3 active).queue .k).notices.length < 23) ∧
    (ClaimsAgree (inSlot3 arrived) ∧ (inSlot3 arrived).ticket? 1 = some arrivedTicket) ∧
    (ClaimsAgree (inSlot3 offered) ∧ (inSlot3 offered).ticket? 1 = some offeredTicket) ∧
    (ClaimsAgree (inSlot3 held) ∧ (inSlot3 held).ticket? 1 = some holder ∧
      ((inSlot3 held).pool holder.pool).queue.length < 12) ∧
    (ClaimsAgree (inSlot3 heldFull) ∧ ((inSlot3 heldFull).pool holder.pool).queue.length = 12) :=
  ⟨by decide +kernel, by decide, by decide +kernel, ⟨agree (by decide +kernel), by decide +kernel⟩,
    ⟨agree (by decide +kernel), by decide +kernel⟩, ⟨agree (by decide +kernel), by decide +kernel⟩,
    ⟨agree (by decide +kernel), by decide +kernel⟩, agree (by decide +kernel), by decide +kernel⟩

/-- A REPORT of a plugged vehicle that draws 255 A, with its session's tag echoed. -/
def pluggedReport : Report := { plainReport with presence := 2#8, plug := 2#8, demand := 255#8, tagEcho := 1#8 }

theorem witness_ReportAtASession :
    (ClaimsAgree (inSlot3 active) ∧ (inSlot3 active).bus.sweep = .slot 3 ∧
      ((inSlot3 active).bay 3).session = some session ∧ ((inSlot3 active).bay 3).presence = .present ∧
      ((inSlot3 active).bay 3).state = .active ∧ (inSlot3 active).ticket? session.ticket = some chargingTicket ∧
      ((inSlot3 active).queue .s).notices.length < 23) ∧
    (ClaimsAgree (inSlot3 suspended) ∧ ((inSlot3 suspended).bay 3).presence = .present ∧
      ((inSlot3 suspended).bay 3).state = .suspended) ∧
    (∀ r ∈ [pluggedReport, plainReport, { pluggedReport with tagEcho := 0#8 }],
      reportDefined r = true ∧ r.status = 0#8 ∧ r.code = 0#16) ∧
    (pluggedReport.plug = 2#8 ∧ pluggedReport.tagEcho.toNat = session.tag ∧ plainReport.plug = 1#8 ∧
      (0#8 : Byte).toNat ≠ session.tag ∧ min (min (0#8 : Byte).toNat 63) 32 = min session.demand 32) :=
  ⟨⟨agree (by decide +kernel), by decide +kernel⟩, ⟨agree (by decide +kernel), by decide +kernel⟩,
    by decide, by decide⟩

theorem witness_ReportOfPresence :
    (∀ r ∈ [plainReport, pluggedReport, { plainReport with presence := 2#8 }],
      reportDefined r = true ∧ r.status = 0#8 ∧ r.code = 0#16) ∧
    (ClaimsAgree (inSlot3 offline) ∧ ((inSlot3 offline).bay 3).state = .offline) ∧
    (ClaimsAgree (inSlot3 level) ∧ ((inSlot3 level).bay 3).state = .free) ∧
    (ClaimsAgree (inSlot3 blocked) ∧ ((inSlot3 blocked).bay 3).state = .blocked) ∧
    (ClaimsAgree (inSlot3 held) ∧ ((inSlot3 held).bay 3).state = .held ∧
      ((inSlot3 held).bay 3).ticket = some holder.number ∧ (inSlot3 held).ticket? holder.number = some holder ∧
      holder.origin ≠ .s ∧ ((inSlot3 held).queue holder.origin).notices.length < 24) ∧
    (ClaimsAgree (inSlot3 arrived) ∧ ((inSlot3 arrived).bay 3).state = .occupied ∧
      ((inSlot3 arrived).bay 3).ticket = some 1) ∧
    (ClaimsAgree (inSlot3 unboundPlugged) ∧ ((inSlot3 unboundPlugged).bay 3).plug = .plugged) :=
  ⟨by decide, ⟨agree (by decide +kernel), by decide +kernel⟩, ⟨agree (by decide +kernel), by decide +kernel⟩,
    ⟨agree (by decide +kernel), by decide +kernel⟩, ⟨agree (by decide +kernel), by decide +kernel⟩,
    ⟨agree (by decide +kernel), by decide +kernel⟩, agree (by decide +kernel), by decide +kernel⟩

/-- A plug-in taken in a REPORT: at a bound and at an unbound OCCUPIED bay, with room in the table and without. -/
theorem witness_ReportOfPlugIn : pluggedReport.plug = 2#8 ∧
    (ClaimsAgree (inSlot3 arrived) ∧ ((inSlot3 arrived).bay 3).plug ≠ .plugged ∧
      ((inSlot3 arrived).bay 3).ticket = some arrivedTicket.number ∧
      (inSlot3 arrived).ticket? arrivedTicket.number = some arrivedTicket ∧
      ((inSlot3 arrived).queue arrivedTicket.origin).notices.length < 22) ∧
    (ClaimsAgree (inSlot3 unbound) ∧ ((inSlot3 unbound).bay 3).state = .occupied ∧
      ((inSlot3 unbound).bay 3).plug ≠ .plugged ∧ ((inSlot3 unbound).bay 3).ticket = none ∧
      (inSlot3 unbound).tickets.length < 64) ∧
    (ClaimsAgree (inSlot3 crowded) ∧ ((inSlot3 crowded).bay 3).state = .occupied ∧
      ((inSlot3 crowded).bay 3).plug ≠ .plugged ∧ ((inSlot3 crowded).bay 3).ticket = none ∧
      (inSlot3 crowded).tickets.length = 64 ∧ ((inSlot3 crowded).queue .s).notices.length < 22) :=
  ⟨by decide, ⟨agree (by decide +kernel), by decide +kernel⟩, ⟨agree (by decide +kernel), by decide +kernel⟩,
    agree (by decide +kernel), by decide +kernel⟩

theorem witness_PresentedCodesAreDispatched :
    (ClaimsAgree held ∧ BookFits held ∧ (held.bay 3).state = .held ∧ (held.bay 3).ticket = some 1 ∧
      (held.bay 3).plug ≠ .plugged ∧ held.ticket? 1 = some holder) ∧
    (ClaimsAgree arrived ∧ BookFits arrived ∧ (arrived.bay 3).state = .occupied ∧
      (arrived.bay 3).ticket = some 1) ∧
    (let s := crowded.setBookings 3 [dueBooking];
      ClaimsAgree s ∧ BookFits s ∧ s.bookings 3 = dueBooking :: [] ∧ s.offset dueBooking < 2 ∧
      s.booking.bands.frozen = 2 ∧ (s.bay 3).state = .occupied ∧ (s.bay 3).ticket = none ∧
      s.tickets.length = 64) ∧
    (let s := level.setBookings 3 [dueBooking];
      ClaimsAgree s ∧ BookFits s ∧ s.bookings 3 = dueBooking :: [] ∧ dueBooking.number = 1 ∧
      (s.bay 3).state = .free ∧ s.tickets.length < 64 ∧ (s.bay 3).plug ≠ .plugged) ∧
    ((held.bay 4).ticket ≠ some 1 ∧ held.bookings 4 = [] ∧ holder.state = .held ∧ holder.bay ≠ some 4) ∧
    (ClaimsAgree level ∧ BookFits level ∧ level.ticket? 9 = none ∧ level.bookings 3 = []) :=
  ⟨⟨agree (by decide +kernel), by decide +kernel⟩, ⟨agree (by decide +kernel), by decide +kernel⟩,
    ⟨agree (by decide +kernel), by decide +kernel⟩, ⟨agree (by decide +kernel), by decide +kernel⟩,
    by decide +kernel, agree (by decide +kernel), by decide +kernel⟩

/-- A REPORT with a code: at a bay that it leaves without a session, and at one whose session is ACTIVE. -/
theorem witness_ReportWithCode : let r := { pluggedReport with code := 9#16 };
    (inSlot3 blocked).bus.sweep = .slot 3 ∧ reportDefined r = true ∧ r.status = 0#8 ∧ r.code ≠ 0#16 ∧
    (let v := ((((inSlot3 blocked).linkOnline 3).plugStep 3 .plugged 1).presenceStep 3 .present).presentCode 3 9;
      ((inSlot3 blocked).bay 3).state = .blocked ∧ (v.bay 3).state ≠ .active) ∧
    (let v := ((((inSlot3 active).linkOnline 3).plugStep 3 .plugged 1).presenceStep 3 .present).presentCode 3 9;
      (v.bay 3).state = .active ∧ (v.bay 3).session = some session) := by decide +kernel

/-- A presented code at a bay that is PLUGGED: the held ticket, and the first booking of an unbound bay. -/
theorem witness_PresentedCodeAtPluggedBay :
    (let s := held.setBay 3 { heldBay with plug := .plugged };
      ClaimsAgree s ∧ BookFits s ∧ s.ticket? 1 = some holder ∧ (s.bay 3).plug = .plugged) ∧
    (let s := unboundPlugged.setBookings 3 [dueBooking];
      ClaimsAgree s ∧ BookFits s ∧ s.bookings 3 = dueBooking :: [] ∧ s.offset dueBooking < 2 ∧
      (s.bay 3).state = .occupied ∧ (s.bay 3).ticket = none ∧ s.tickets.length < 64 ∧
      (s.bay 3).plug = .plugged) :=
  ⟨⟨agree (by decide +kernel), by decide +kernel⟩, agree (by decide +kernel), by decide +kernel⟩

theorem witness_RepliesAreReadAsSent : reportDefined plainReport = true ∧
    reportDefined { plainReport with echo := 16#8 } = false ∧ [0#8, 0#8] ≠ crcBytes (crc [0x04#8]) := by
  decide +kernel

/-! ### Witnesses: invariants -/

/-- A session at bay 3, and a command that waits. -/
def running : State := { active with pending := [.pull] }

theorem witness_BusNoticesAndPortsKept : ListenQuiet running ∧ LinksAgree running ∧ NoticesFit running ∧
    (∀ p ∈ [Port.s, .k, .n], (running.port p).recv = .idle ∧ (running.port p).timer = false) ∧
    ∃ t, step running = .next t :=
  ⟨by decide +kernel, by decide +kernel, by decide +kernel, by decide +kernel, _, rfl⟩

theorem witness_BookKept : let s := { booked [booking] with pending := [.pull] };
    BookFits s ∧ BookOrdered s ∧ ∃ t, step s = .next t :=
  ⟨by decide +kernel, by decide +kernel, _, rfl⟩

theorem witness_RangesKept : SettingsInRange running ∧ SetpointsInRange running ∧ ∃ t, step running = .next t :=
  ⟨by decide +kernel, by decide +kernel, _, rfl⟩

theorem witness_ClaimsKept : ClaimsAgree running ∧ ∃ t, step running = .next t :=
  ⟨agree (by decide +kernel), _, rfl⟩

theorem witness_TargetsKeptWithinBudget : ClaimsAgree running ∧ SetpointsFollow running ∧ FlagsFollow running ∧
    TargetsFit running ∧ ∃ t, step running = .next t :=
  ⟨agree (by decide +kernel), by decide +kernel, by decide +kernel, by decide +kernel, _, rfl⟩

theorem witness_NoPairingIsMissed : let s := { maskedFull with pending := [.pull] };
    ConfigurationValid s ∧ ClaimsAgree s ∧ NoneMissed s ∧ ∃ t, step s = .next t :=
  ⟨by decide +kernel, agree (by decide +kernel), by decide +kernel, _, rfl⟩

end Sys2Proof.Tests
end

