-- ==== Sys2Proof/Proofs/Commands.lean ====
section
/-! SUPPORT. What a command can do to the state, said once: a predicate that the port units, the notice queues and the
waiting commands do not touch, and that every owner, timer and slot exchange keeps, is kept by every step. -/

namespace Sys2Proof.Machine

/-- The blocks that own the 34 commands of the catalogue (R149, R151). -/
inductive IsOwner : Owner → Prop where
  | queryBay : IsOwner ownQueryBay
  | blockBay : IsOwner ownBlockBay
  | unblockBay : IsOwner ownUnblockBay
  | clearFault : IsOwner ownClearFault
  | requestBay : IsOwner ownRequestBay
  | adoptBay : IsOwner ownAdoptBay
  | assignBay : IsOwner ownAssignBay
  | cancelTicket : IsOwner ownCancelTicket
  | queryTicket : IsOwner ownQueryTicket
  | acceptOffer : IsOwner ownAcceptOffer
  | declineOffer : IsOwner ownDeclineOffer
  | maskPool : IsOwner ownMaskPool
  | unmaskPool : IsOwner ownUnmaskPool
  | queryPool : IsOwner ownQueryPool
  | book : IsOwner ownBook
  | cancelBooking : IsOwner ownCancelBooking
  | queryBookings : IsOwner ownQueryBookings
  | queryBooking : IsOwner ownQueryBooking
  | setSlotClock : IsOwner ownSetSlotClock
  | setBands : IsOwner ownSetBands
  | forceClose : IsOwner ownForceClose
  | setCap : IsOwner ownSetCap
  | queryPower : IsOwner ownQueryPower
  | readNotices : IsOwner ownReadNotices
  | openWindow : IsOwner ownOpenWindow
  | readWindow : IsOwner ownReadWindow
  | setLevel : IsOwner ownSetLevel
  | setBay : IsOwner ownSetBay
  | setPool : IsOwner ownSetPool
  | setTimers : IsOwner ownSetTimers
  | queryConfig : IsOwner ownQueryConfig
  | start : IsOwner ownStart
  | reconfigure : IsOwner ownReconfigure
  | restart : IsOwner ownRestart

/-- What a predicate needs in order to be kept by every step: no block's event breaks it. -/
structure KeptByEvents (P : State → Prop) : Prop where
  outside : ∀ s ports queues pending, P s → P { s with ports := ports, queues := queues, pending := pending }
  owner : ∀ own, IsOwner own → ∀ p pl s, P s → P (own p pl s).1
  bus : ∀ s bus, bus.links = s.bus.links → bus.sweep = .idle ∨ bus.sweep = s.bus.sweep ∨
    bus.sweep = .opening ∧ (s.opState = .run ∨ s.bus.sweep ≠ .idle) → P s → P { s with bus := bus }
  enterNext : ∀ s rest, s.bus.sweep ≠ .idle → P s → P (s.enterNext rest)
  powerOn : ∀ feed, P (State.powerOn feed)
  tick : ∀ s, P s → P s.tick
  feedCodeIs : ∀ s code, P s → P (s.feedCodeIs code)
  takeCandidate : ∀ s, P s → P s.takeCandidate
  expireHold : ∀ s t b, s.ticket? t.number = some t → t.state = .held → t.bay = some b → P s →
    P (s.expireHold t.number b)
  giveUpOffer : ∀ s t b, s.ticket? t.number = some t → t.state = .offered → t.bay = some b → P s →
    P (s.giveUpOffer t b true)
  closeLost : ∀ s b, (s.bay b).state = .suspended → P s → P (s.closeLost b)
  expireSlot : ∀ s, P s → P s.expireSlot
  takeReply : ∀ s b r, s.bus.sweep = .slot b → P s → P (s.takeReply b r)
  takeBusy : ∀ s b, s.bus.sweep = .slot b → P s → P (s.takeBusy b)
  takeSilence : ∀ s b, s.bus.sweep = .slot b → P s → P (s.takeSilence b)

/-- The ticket table finds an entry under its own number. -/
theorem State.ticket?_number {s : State} {n : Nat} {t : Ticket} (h : s.ticket? n = some t) : t.number = n := by
  simpa using List.find?_some h

/-- A link record's change leaves the controller's sweep (R129). -/
@[simp] theorem State.changeLink_sweep (s : State) (b : BayNo) (x : LinkRecord) :
    (s.changeLink b x).bus.sweep = s.bus.sweep := by
  unfold State.changeLink
  split <;> simp

@[simp] theorem State.takeReply_sweep (s : State) (b : BayNo) (r : Report) :
    (s.takeReply b r).bus.sweep = s.bus.sweep := by
  simp [State.takeReply, State.linkOnline]

@[simp] theorem State.takeSilence_sweep (s : State) (b : BayNo) : (s.takeSilence b).bus.sweep = s.bus.sweep := by
  unfold State.takeSilence
  dsimp only
  split <;> simp

@[simp] theorem State.takeBusy_sweep (s : State) (b : BayNo) : (s.takeBusy b).bus.sweep = s.bus.sweep := by
  unfold State.takeBusy
  dsimp only
  split <;> simp

/-- The ticket whose timer has run out is live, in the state that runs the timer, at its bay. -/
theorem State.dueTicket_spec {s : State} {n : Nat} {st : TicketState} {dl : Ticket → Option Seconds}
    {x : Ticket × BayNo} (e : s.dueTicket n st dl = some x) :
    s.ticket? n = some x.1 ∧ x.1.bay = some x.2 ∧ x.1.state = st := by
  unfold State.dueTicket at e
  split at e
  · split at e
    · split at e
      · cases e
        simp_all
      · cases e
    · cases e
  · cases e

/-- A COMMAND value goes to an owner, or is answered as unknown (R148). -/
theorem State.takeCommand_cases (s : State) (p : Port) (c : Byte) (pl : List Byte) :
    (∃ i own, IsOwner own ∧ s.takeCommand p c pl = s.takeRequest p i own pl) ∨
      s.takeCommand p c pl = s.takeUnknown p c := by
  unfold State.takeCommand
  split
  case h_35 => exact .inr rfl
  all_goals exact .inl ⟨_, _, by constructor, rfl⟩

namespace KeptByEvents

variable {P : State → Prop} (h : KeptByEvents P)
include h

theorem withPorts (s : State) (ports : PerPort PortUnit) (hs : P s) : P (s.withPorts ports) :=
  h.outside s ports s.queues s.pending hs

theorem setPort (s : State) (p : Port) (u : PortUnit) (hs : P s) : P (s.setPort p u) := h.withPorts s _ hs

theorem answer (s : State) (p : Port) (r : Reply) (hs : P s) : P (s.answer p r) := by
  unfold State.answer State.afterResponse
  split
  · exact h.outside _ _ _ _ (h.setPort s p _ hs)
  · exact h.setPort _ _ _ hs

theorem openWith (s : State) (frame : BusFrame) (hr : s.opState = .run) (hs : P s) : P (s.openWith frame) :=
  h.bus s _ rfl (.inr (.inr ⟨rfl, .inl hr⟩)) hs

/-- The controller that listens does so in RUN (R136). -/
theorem openWith_of_listening (s : State) (frame : BusFrame) (hl : s.listening = true) (hs : P s) :
    P (s.openWith frame) := by
  simp only [State.listening, Bool.and_eq_true, decide_eq_true_eq] at hl
  exact h.openWith s frame hl.1.1 hs

theorem settleBus (s : State) (hs : P s) : P s.settleBus := by
  unfold State.settleBus
  split
  · rename_i hd
    exact h.openWith_of_listening s _ (by simp_all) hs
  · exact hs

theorem takeRequest {own : Owner} (ho : IsOwner own) (s : State) (p : Port) (i : CommandInfo) (pl : List Byte)
    (hs : P s) : P (s.takeRequest p i own pl) := by
  have ht : P (s.startTaking p) := h.setPort s p _ hs
  unfold State.takeRequest
  dsimp only
  split
  · exact h.answer _ _ _ ht
  · have ha : P (((own p pl (s.startTaking p)).1).answer p (own p pl (s.startTaking p)).2) :=
      h.answer _ _ _ (h.owner own ho p pl _ ht)
    unfold State.handOver
    dsimp only
    split
    · exact ha
    · exact h.settleBus _ ha

theorem takeCommand (s : State) (p : Port) (c : Byte) (pl : List Byte) (hs : P s) : P (s.takeCommand p c pl) := by
  rcases s.takeCommand_cases p c pl with ⟨i, own, ho, e⟩ | e <;> rw [e]
  · exact h.takeRequest ho s p i pl hs
  · exact h.answer _ _ _ (h.setPort s p _ hs)

theorem takeFrame (s : State) (p : Port) (frame : List Byte) (hs : P s) : P (s.takeFrame p frame) := by
  unfold State.takeFrame
  split
  · exact h.takeCommand _ _ _ _ hs
  · exact h.answer _ _ _ (h.setPort s p _ hs)

theorem receive (s : State) (p : Port) (b : Byte) (hs : P s) : P (s.receive p b) := by
  unfold State.receive
  cases (s.port p).recv with
  | idle =>
    dsimp only
    split
    · exact h.setPort s p _ hs
    · exact hs
  | receiving =>
    dsimp only [State.receiveInFrame]
    split
    · exact h.setPort s p _ hs
    · split
      · exact h.takeFrame s p _ hs
      · exact h.setPort s p _ hs
  | taking => exact h.setPort s p _ hs
  | responding => exact h.setPort s p _ hs
  | flushing => exact h.setPort s p _ hs

theorem deliver (s : State) (p : Port) (frame : List Byte) (taken : State → State) (ht : ∀ r, P r → P (taken r))
    (hs : P s) : P (s.deliver p frame taken) := by
  unfold State.deliver
  split
  · exact ht s hs
  · exact List.foldlRecOn frame _ hs (fun r hr b _ => h.receive r p b hr)

theorem request {own : Owner} (ho : IsOwner own) (s : State) (p : Port) (i : CommandInfo) (pl : List Byte)
    (hs : P s) : P (s.request p i own pl) :=
  h.deliver s p _ _ (fun r => h.takeRequest ho r p i pl) hs

theorem receiveBroken (s : State) (p : Port) (hs : P s) : P (s.receiveBroken p) := by
  unfold State.receiveBroken
  split
  · exact hs
  all_goals exact h.setPort s p _ hs

theorem timerOut (s : State) (p : Port) (hs : P s) : P (s.timerOut p) := by
  unfold State.timerOut
  repeat' split
  all_goals first | exact hs | exact h.setPort s p _ hs

theorem responseLeft (s : State) (p : Port) (hs : P s) : P (s.responseLeft p) := by
  unfold State.responseLeft
  repeat' split
  all_goals first | exact hs | exact h.setPort s p _ hs

/-- The outcome of a slot exchange, then the next frame of the sweep (R126). -/
theorem inSlot (s : State) (outcome : State → BayNo → State) (ho : ∀ b, s.bus.sweep = .slot b →
    P (outcome s b) ∧ (outcome s b).bus.sweep = s.bus.sweep) (hs : P s) : P (s.inSlot outcome) := by
  unfold State.inSlot
  split
  · rename_i b hb
    obtain ⟨hp, e⟩ := ho b hb
    exact h.enterNext _ _ (by simp [e, hb]) hp
  all_goals exact hs

theorem takeReportReply (s : State) (b : BayNo) (r : Report) (hb : s.bus.sweep = .slot b) (hs : P s) :
    P (s.takeReportReply b r) ∧ (s.takeReportReply b r).bus.sweep = s.bus.sweep := by
  unfold State.takeReportReply
  split
  · exact ⟨h.takeReply s b r hb hs, s.takeReply_sweep b r⟩
  · exact ⟨h.takeSilence s b hb hs, s.takeSilence_sweep b⟩

theorem takeReplyBytes (s : State) (b : BayNo) (reply : List Byte) (hb : s.bus.sweep = .slot b) (hs : P s) :
    P (s.takeReplyBytes b reply) ∧ (s.takeReplyBytes b reply).bus.sweep = s.bus.sweep := by
  unfold State.takeReplyBytes
  split
  · exact ⟨h.takeReply s b _ hb hs, s.takeReply_sweep b _⟩
  · exact ⟨h.takeBusy s b hb hs, s.takeBusy_sweep b⟩
  · exact ⟨h.takeSilence s b hb hs, s.takeSilence_sweep b⟩

theorem closeSent (s : State) (kind : CloseKind) (hk : s.bus.sweep = .closing kind) (hs : P s) :
    P (s.closeSent kind) := by
  unfold State.closeSent
  cases kind with
  | long =>
    dsimp only
    split
    · exact h.bus s _ rfl (.inl rfl) hs
    · exact h.bus s _ rfl (.inr (.inr ⟨rfl, .inr (by simp [hk])⟩)) hs
  | short => exact h.settleBus _ (h.bus s _ rfl (.inl rfl) hs)

theorem sweepPeriodOut (s : State) (hs : P s) : P s.sweepPeriodOut := by
  unfold State.sweepPeriodOut
  have hi : P { s with bus := { s.bus with sweepTimer := none } } := h.bus s _ rfl (.inr (.inl rfl)) hs
  split
  · dsimp only
    split
    · rename_i hr
      exact h.openWith _ _ hr.1 hi
    · exact hi
  · exact hs

theorem keepAliveOut (s : State) (hs : P s) : P s.keepAliveOut := by
  unfold State.keepAliveOut
  have hi : P { s with bus := { s.bus with keepAlive := none } } := h.bus s _ rfl (.inr (.inl rfl)) hs
  split
  · dsimp only
    split
    · exact h.openWith_of_listening _ _ (by assumption) hi
    · exact hi
  · exact hs

theorem holdExpiry (s : State) (n : Nat) (hs : P s) : P (match s.dueTicket n .held Ticket.holdDeadline with
    | some (_, b) => (s.expireHold n b).settleBus
    | none => s) := by
  cases e : s.dueTicket n .held Ticket.holdDeadline with
  | none => exact hs
  | some x =>
    obtain ⟨ht, hb, hst⟩ := State.dueTicket_spec e
    have hn := State.ticket?_number ht
    subst hn
    exact h.settleBus _ (h.expireHold s x.1 x.2 ht hst hb hs)

theorem lapse (s : State) (n : Nat) (hs : P s) : P (match s.dueTicket n .offered Ticket.offerDeadline with
    | some (t, b) => (s.giveUpOffer t b true).settleBus
    | none => s) := by
  cases e : s.dueTicket n .offered Ticket.offerDeadline with
  | none => exact hs
  | some x =>
    obtain ⟨ht, hb, hst⟩ := State.dueTicket_spec e
    have hn := State.ticket?_number ht
    subst hn
    exact h.settleBus _ (h.giveUpOffer s x.1 x.2 ht hst hb hs)

theorem reconnectExpiry (s : State) (b : BayNo) (hs : P s) :
    P (if s.reconnectDue b then (s.closeLost b).settleBus else s) := by
  split
  · rename_i hd
    refine h.settleBus _ (h.closeLost s b ?_ hs)
    unfold State.reconnectDue at hd
    split at hd
    · assumption
    · cases hd
  · exact hs

/-- The meaning of every row keeps the predicate. -/
theorem exec {c : Instr} {s t : State} (hs : P s) (he : exec c s = .next t) : P t := by
  cases c <;> cases he
  case powerReset feed => exact h.outside _ _ _ _ (h.powerOn feed)
  case deviceSeconds => exact h.tick s hs
  case receiveByte p b fe =>
    cases fe
    · exact h.receive s p b hs
    · exact h.receiveBroken s p hs
  case interByteTimer p => exact h.timerOut s p hs
  case frameError p c pl hi lo => exact h.deliver s p _ _ (fun r => h.takeFrame r p _) hs
  case unknownCommand p c pl => exact h.deliver s p _ _ (fun r => h.takeCommand r p c pl) hs
  case responseDeparture p => exact h.responseLeft s p hs
  case queryBay p pl => exact h.request .queryBay s p _ pl hs
  case blockBay p pl => exact h.request .blockBay s p _ pl hs
  case unblockBay p pl => exact h.request .unblockBay s p _ pl hs
  case clearFault p pl => exact h.request .clearFault s p _ pl hs
  case requestBay p pl => exact h.request .requestBay s p _ pl hs
  case adoptBay p pl => exact h.request .adoptBay s p _ pl hs
  case assignBay p pl => exact h.request .assignBay s p _ pl hs
  case cancelTicket p pl => exact h.request .cancelTicket s p _ pl hs
  case queryTicket p pl => exact h.request .queryTicket s p _ pl hs
  case acceptOffer p pl => exact h.request .acceptOffer s p _ pl hs
  case declineOffer p pl => exact h.request .declineOffer s p _ pl hs
  case maskPool p pl => exact h.request .maskPool s p _ pl hs
  case unmaskPool p pl => exact h.request .unmaskPool s p _ pl hs
  case queryPool p pl => exact h.request .queryPool s p _ pl hs
  case book p pl => exact h.request .book s p _ pl hs
  case cancelBooking p pl => exact h.request .cancelBooking s p _ pl hs
  case queryBookings p pl => exact h.request .queryBookings s p _ pl hs
  case queryBooking p pl => exact h.request .queryBooking s p _ pl hs
  case setSlotClock p pl => exact h.request .setSlotClock s p _ pl hs
  case setBands p pl => exact h.request .setBands s p _ pl hs
  case forceClose p pl => exact h.request .forceClose s p _ pl hs
  case setCap p pl => exact h.request .setCap s p _ pl hs
  case queryPower p pl => exact h.request .queryPower s p _ pl hs
  case readNotices p pl => exact h.request .readNotices s p _ pl hs
  case openWindow p pl => exact h.request .openWindow s p _ pl hs
  case readWindow p pl => exact h.request .readWindow s p _ pl hs
  case setLevel p pl => exact h.request .setLevel s p _ pl hs
  case setBay p pl => exact h.request .setBay s p _ pl hs
  case setPool p pl => exact h.request .setPool s p _ pl hs
  case setTimers p pl => exact h.request .setTimers s p _ pl hs
  case queryConfig p pl => exact h.request .queryConfig s p _ pl hs
  case start p pl => exact h.request .start s p _ pl hs
  case reconfigure p pl => exact h.request .reconfigure s p _ pl hs
  case restart p pl => exact h.request .restart s p _ pl hs
  case feedCodeChange code => exact h.feedCodeIs s code hs
  case debounceExpiry =>
    split
    · exact h.settleBus _ (h.takeCandidate s hs)
    · exact hs
  case holdExpiry n => exact h.holdExpiry s n hs
  case lapse n => exact h.lapse s n hs
  case reconnectExpiry b => exact h.reconnectExpiry s b hs
  case slotExpiry =>
    split
    · exact h.settleBus _ (h.expireSlot s hs)
    · exact hs
  case sweepPeriodExpiry => exact h.sweepPeriodOut s hs
  case keepAliveExpiry => exact h.keepAliveOut s hs
  case pull =>
    split
    · exact h.openWith_of_listening s _ (by assumption) hs
    · exact hs
  case openSent =>
    split
    · exact h.enterNext s _ (by simp_all) hs
    · exact hs
  case report r => exact h.inSlot s _ (fun b hb => h.takeReportReply s b r hb hs) hs
  case busy => exact h.inSlot s _ (fun b hb => ⟨h.takeBusy s b hb hs, s.takeBusy_sweep b⟩) hs
  case silence => exact h.inSlot s _ (fun b hb => ⟨h.takeSilence s b hb hs, s.takeSilence_sweep b⟩) hs
  case corrupt reply => exact h.inSlot s _ (fun b hb => h.takeReplyBytes s b reply hb hs) hs
  case closeSent =>
    split
    · exact h.closeSent s _ (by assumption) hs
    all_goals exact hs

/-- Every step keeps the predicate. -/
theorem step {s t : State} (hs : P s) (he : step s = .next t) : P t := by
  unfold Machine.step at he
  split at he
  · cases he
    exact hs
  · exact h.exec (h.outside s s.ports s.queues _ hs) he

end KeptByEvents

end Sys2Proof.Machine
end

