-- ==== Sys2Proof/Proofs/Ranges.lean ====
section
/-! SUPPORT. The ranges of the settings and of the setpoint records (R2, R71, R73, R109, R116, R167): what the work of
the blocks leaves of a bay's setup and of the settings, and that it keeps every setpoint record in its range. -/

namespace Sys2Proof.Machine

/-! ### Shares of the budget (R113, R114) -/

/-- A target that is handed out is 0 or at least the 6 A floor, and no more than its capped demand (R114). -/
def Apportioned (x c : Nat) : Prop := x = 0 ∨ (6 ≤ x ∧ x ≤ c)

/-- The leftover pass raises no share above its cap and lowers none (R114). -/
theorem handOut_bounded (l : Nat) (xs : List (Nat × Nat)) (h : ∀ x ∈ xs, 6 ≤ x.1 ∧ x.1 ≤ x.2) :
    List.Forall₂ (fun y x => 6 ≤ y ∧ y ≤ x.2) (handOut l xs) xs := by
  induction xs generalizing l with
  | nil => cases l <;> exact .nil
  | cons x xs ih =>
    obtain ⟨hx, hxs⟩ := List.forall_mem_cons.mp h
    cases l with
    | zero => exact .cons hx (ih 0 hxs)
    | succ l =>
      by_cases hc : x.1 < x.2
      · rw [show handOut (l + 1) (x :: xs) = (x.1 + 1) :: handOut l xs by simp [handOut, hc]]
        exact .cons ⟨by omega, by omega⟩ (ih l hxs)
      · rw [show handOut (l + 1) (x :: xs) = x.1 :: handOut (l + 1) xs by simp [handOut, hc]]
        exact .cons hx (ih (l + 1) hxs)

/-- A part of the spare in proportion to a headroom is no more than the headroom, where the spare is no more than the
sum of the headrooms (R114). -/
theorem proportion_le {spare sum : Nat} (h : Nat) (hs : spare ≤ sum) : spare * h / sum ≤ h :=
  Nat.div_le_of_le_mul (Nat.mul_le_mul_right h hs)

/-- The floor and the part of the spare of a bay among these, with its capped demand (R114). -/
def shareOf (caps : List Nat) (spare c : Nat) : Nat × Nat :=
  (6 + spare * (c - 6) / (caps.map (fun c => c - 6)).sum, c)

/-- The minimum pass and the shares of the leftover stay between the floor and the capped demands (R114). -/
theorem admittedShares_bounded (spare : Nat) (caps : List Nat) (h : ∀ c ∈ caps, 6 ≤ c) :
    List.Forall₂ (fun x c => 6 ≤ x ∧ x ≤ c) (admittedShares spare caps) caps := by
  unfold admittedShares
  dsimp only
  split
  · exact List.forall₂_same.mpr fun c hc => ⟨h c hc, le_rfl⟩
  · rename_i hsum
    rw [List.map_map, ← List.map_prod_right_eq_zip, List.map_map]
    rw [show (fun x c : Nat => 6 ≤ x ∧ x ≤ c) = fun x c => 6 ≤ x ∧ x ≤ (shareOf caps spare c).2 from rfl]
    refine List.forall₂_map_right_iff.mp (handOut_bounded _ (caps.map (shareOf caps spare)) ?_)
    intro x hx
    obtain ⟨c, hc, rfl⟩ := List.mem_map.mp hx
    have hp := proportion_le (c - 6) (Nat.le_of_lt (not_le.mp hsum))
    have h6 := h c hc
    simp only [shareOf]
    generalize spare * (c - 6) / (caps.map (fun c => c - 6)).sum = part at hp
    omega

/-- Every target that is handed out is apportioned to its capped demand (R113, R114). -/
theorem shares_apportioned (budget : Nat) (caps : List Nat) (h : ∀ c ∈ caps, 6 ≤ c) :
    List.Forall₂ Apportioned (shares budget caps) caps := by
  unfold shares
  dsimp only
  split
  · exact List.forall₂_same.mpr fun c hc => .inr ⟨h c hc, le_rfl⟩
  · generalize min caps.length (budget / 6) = k
    have hfirst : List.Forall₂ Apportioned (admittedShares (budget - 6 * k) (caps.take k)) (caps.take k) :=
      (admittedShares_bounded _ _ fun c hc => h c (List.mem_of_mem_take hc)).imp fun _ _ hx => .inr hx
    have hrest : List.Forall₂ Apportioned (List.replicate (caps.length - k) 0) (caps.drop k) := by
      rw [← List.length_drop, ← List.map_const']
      exact List.forall₂_map_left_iff.mpr (List.forall₂_same.mpr fun _ _ => .inl rfl)
    simpa only [List.take_append_drop] using List.rel_append hfirst hrest

/-- The capped demand of a bay is no more than its rating (R112). -/
theorem Bay.cappedDemand_le_rating (x : Bay) : x.cappedDemand ≤ x.rating := by
  unfold Bay.cappedDemand
  split
  · split <;> omega
  · exact Nat.zero_le _

/-- What a key of a zipped list finds is related to the key's own value. -/
theorem lookup_zip_rel {α β γ : Type} [BEq α] [LawfulBEq α] {R : β → γ → Prop} {f : α → γ} {ps : List α}
    {xs : List β} (h : List.Forall₂ R xs (ps.map f)) {a : α} {x : β} (hl : (ps.zip xs).lookup a = some x) :
    R x (f a) := by
  induction ps generalizing xs with
  | nil => simp at hl
  | cons p ps ih =>
    cases xs with
    | nil => simp at hl
    | cons y xs =>
      obtain ⟨hy, hys⟩ := List.forall₂_cons.mp h
      by_cases e : a = p
      · subst e
        simp at hl
        exact hl ▸ hy
      · rw [List.zip_cons_cons, List.lookup_cons, beq_false_of_ne e] at hl
        exact ih hys hl

/-- A bay that takes part has a capped demand of at least 6 A (R112). -/
theorem State.cappedDemand_of_participant {s : State} {b : BayNo} (h : b ∈ s.participants) :
    6 ≤ (s.bay b).cappedDemand := by
  simp only [State.participants, List.mem_append, List.mem_filter, decide_eq_true_eq] at h
  rcases h with h | h <;> exact h.1.2

/-- The target of a bay is apportioned to its capped demand (R112 to R114). -/
theorem State.targetOf_apportioned (s : State) (b : BayNo) :
    Apportioned (targetOf s.targets b) (s.bay b).cappedDemand := by
  unfold targetOf
  cases hl : s.targets.lookup b with
  | none => exact .inl rfl
  | some x =>
    refine lookup_zip_rel (f := fun c => (s.bay c).cappedDemand) (shares_apportioned s.activeBudget _ ?_) hl
    intro c hc
    obtain ⟨d, hd, rfl⟩ := List.mem_map.mp hc
    exact State.cappedDemand_of_participant hd

/-! ### Setpoint records (R116) -/

/-- A setpoint record is in range (R116). -/
def Setpoint.InRange (x : Setpoint) : Prop :=
  (x.target = 0 ∨ 6 ≤ x.target ∧ x.target ≤ 63) ∧ x.issued ≤ 63 ∧ x.acked ≤ 63 ∧ x.seq ≤ 15

namespace Setpoint.InRange

variable {x : Setpoint} (h : x.InRange)

theorem cleared : Setpoint.cleared.InRange := by simp [Setpoint.InRange, Setpoint.cleared]

include h

theorem target_le : x.target ≤ 63 := by
  obtain ⟨ht, -⟩ := h
  omega

theorem issue {v : Nat} (hv : v ≤ 63) : (x.issue v).InRange := by
  obtain ⟨ht, hi, ha, hs⟩ := h
  rw [Setpoint.issue_spec]
  refine ⟨ht, hv, ha, ?_⟩
  dsimp only
  split <;> omega

theorem acknowledge {v : Nat} (hv : v ≤ 63) : ({ x with acked := v } : Setpoint).InRange := by
  obtain ⟨ht, hi, ha, hs⟩ := h
  exact ⟨ht, hi, hv, hs⟩

theorem retarget {v : Nat} (hv : v = 0 ∨ 6 ≤ v ∧ v ≤ 63) (on : Bool) :
    ({ x with target := v, throttled := on } : Setpoint).InRange := by
  obtain ⟨ht, hi, ha, hs⟩ := h
  exact ⟨hv, hi, ha, hs⟩

theorem started : x.started.InRange := ((h.issue (Nat.zero_le 63)).retarget (.inl rfl) _).acknowledge (Nat.zero_le 63)

theorem fallBack {f : Nat} (hf : f ≤ 63) : (x.fallBack f).InRange := ((h.issue hf).retarget (.inl rfl) _).acknowledge hf

theorem ended : x.ended.InRange := (h.issue (Nat.zero_le 63)).retarget (.inl rfl) _

end Setpoint.InRange

/-- The raise step keeps every setpoint record in range (R120). -/
theorem raiseOne_inRange {budget : Nat} {v : Vector Setpoint 48} (b : BayNo) (h : ∀ c : BayNo, v[c].InRange)
    (c : BayNo) : (raiseOne budget v b)[c].InRange := by
  have write : ∀ x : Setpoint, x.InRange → (v.set b x)[c].InRange := by
    intro x hx
    by_cases e : b.val = c.val
    · simpa [e] using hx
    · simpa [Vector.getElem_set_ne _ _ e] using h c
  obtain ⟨ht, hi, ha, hs⟩ := id (h b)
  have hb := (h b).target_le
  unfold raiseOne
  dsimp only
  split
  · exact h c
  split
  · exact write _ ((h b).issue hb)
  split
  · exact h c
  · exact write _ ((h b).issue (by omega))

/-! ### What the work of the blocks leaves -/

/-- The stepped tag is 1 to 255 (R92). -/
theorem nextTag_bounds (n : Nat) : 1 ≤ nextTag n ∧ nextTag n ≤ 255 := by
  unfold nextTag
  split <;> omega

/-- The setup of a bay is kept: its enrolment, its pool and its rating, and the range of its tag counter (R2, R92). -/
structure Bay.SetupKept (x y : Bay) : Prop where
  enrolled : y.enrolled = x.enrolled
  pool : y.pool = x.pool
  rating : y.rating = x.rating
  tag : 1 ≤ x.tagCounter ∧ x.tagCounter ≤ 255 → 1 ≤ y.tagCounter ∧ y.tagCounter ≤ 255

theorem Bay.SetupKept.refl (x : Bay) : x.SetupKept x := ⟨rfl, rfl, rfl, id⟩

theorem Bay.SetupKept.trans {x y z : Bay} (h : x.SetupKept y) (h' : y.SetupKept z) : x.SetupKept z :=
  ⟨h'.enrolled.trans h.enrolled, h'.pool.trans h.pool, h'.rating.trans h.rating, h'.tag ∘ h.tag⟩

/-- The work of the blocks has led from one state to another: the operating state, the settings, the slot clock and
the setup of every bay are kept, and so are the ranges of the setpoint records, given those of F and the ratings. -/
structure State.Leads (s t : State) : Prop where
  opState : t.opState = s.opState
  timers : t.timers = s.timers
  bands : t.booking.bands = s.booking.bands
  seconds : t.booking.secondsIntoSlot = s.booking.secondsIntoSlot
  power : t.power = { s.power with setpoints := t.power.setpoints }
  setup : ∀ b, (s.bay b).SetupKept (t.bay b)
  setpoints : s.power.fallback ≤ 16 → (∀ b, (s.bay b).rating ≤ 63) → (∀ b, (s.setpoint b).InRange) →
    ∀ b, (t.setpoint b).InRange

namespace State.Leads

theorem refl (s : State) : s.Leads s := ⟨rfl, rfl, rfl, rfl, rfl, fun _ => .refl _, fun _ _ => id⟩

theorem trans {s t u : State} (h : s.Leads t) (h' : t.Leads u) : s.Leads u where
  opState := h'.opState.trans h.opState
  timers := h'.timers.trans h.timers
  bands := h'.bands.trans h.bands
  seconds := h'.seconds.trans h.seconds
  power := by rw [h'.power, h.power]
  setup b := (h.setup b).trans (h'.setup b)
  setpoints hf hr hs := h'.setpoints (by rw [h.power]; exact hf) (fun b => by rw [(h.setup b).rating]; exact hr b)
    (h.setpoints hf hr hs)

variable {s t : State} (h : s.Leads t)
include h

/-- Work that writes none of these leads on. -/
theorem frame {u : State} (ho : u.opState = t.opState := by simp) (ht : u.timers = t.timers := by simp)
    (hb : u.booking.bands = t.booking.bands := by simp)
    (hc : u.booking.secondsIntoSlot = t.booking.secondsIntoSlot := by simp) (hp : u.power = t.power := by simp)
    (hy : u.bays = t.bays := by simp) : s.Leads u := by
  have hbay : ∀ b, u.bay b = t.bay b := fun b => by simp only [State.bay, hy]
  have hset : ∀ b, u.setpoint b = t.setpoint b := fun b => by simp only [State.setpoint, hp]
  exact h.trans ⟨ho, ht, hb, hc, by rw [hp], fun b => hbay b ▸ .refl _, fun _ _ hs b => hset b ▸ hs b⟩

theorem raise (p : Port) (n : Notice) : s.Leads (t.raise p n) := h.frame

theorem raiseBoth (p : Port) (n : Notice) : s.Leads (t.raiseBoth p n) := h.frame

theorem raiseTo (k : Nat) (n : Notice) : s.Leads (t.raiseTo k n) := h.frame

theorem modTicket (n : Nat) (f : Ticket → Ticket) : s.Leads (t.modTicket n f) := h.frame

theorem issue (k : Ticket) : s.Leads (t.issue k) := h.frame

theorem setPool (q : PoolNo) (x : Pool) : s.Leads (t.setPool q x) := h.frame

theorem leaveQueue (q : PoolNo) (n : Nat) : s.Leads (t.leaveQueue q n) := h.frame

theorem joinQueue (q : PoolNo) (n : Nat) : s.Leads (t.joinQueue q n) := h.frame

theorem toBack (q : PoolNo) (n : Nat) : s.Leads (t.toBack q n) := h.frame

theorem pointTo (q : PoolNo) (b : BayNo) : s.Leads (t.pointTo q b) := h.frame

theorem setLink (b : BayNo) (x : LinkRecord) : s.Leads (t.setLink b x) :=
  h.frame rfl rfl rfl rfl rfl rfl

theorem changeLink (b : BayNo) (x : LinkRecord) : s.Leads (t.changeLink b x) := by
  unfold State.changeLink
  dsimp only
  split
  · exact (h.setLink b x).raise _ _
  · exact h.setLink b x

theorem dropBooking (b : BayNo) (n : Nat) : s.Leads (t.dropBooking b n) := h.frame rfl rfl rfl rfl rfl rfl

theorem noticeDropped (k : Booking) (w : DropReason) : s.Leads (t.noticeDropped k w) := h.raiseBoth _ _

/-- A write of a bay record that keeps the bay's setup. -/
theorem setBay {b : BayNo} {x : Bay} (hx : (t.bay b).SetupKept x) : s.Leads (t.setBay b x) := by
  refine h.trans ⟨rfl, rfl, rfl, rfl, rfl, fun c => ?_, fun _ _ => id⟩
  rw [State.setBay_bay]
  split
  · exact ‹c = b› ▸ hx
  · exact .refl _

theorem changeBay (b : BayNo) {f : Bay → Bay} (hf : (t.bay b).SetupKept (f (t.bay b))) :
    s.Leads (t.changeBay b f) :=
  (h.setBay hf).frame (by simp) (by simp) (by simp) (by simp) (by simp) (by rw [State.changeBay_eq]; rfl)

/-- A write of the setpoint records that keeps them in range. -/
theorem setpointsTo (v : Vector Setpoint 48)
    (hv : t.power.fallback ≤ 16 → (∀ b, (t.bay b).rating ≤ 63) → (∀ b, (t.setpoint b).InRange) →
      ∀ b : BayNo, v[b].InRange) : s.Leads { t with power := { t.power with setpoints := v } } :=
  h.trans ⟨rfl, rfl, rfl, rfl, rfl, fun _ => .refl _, hv⟩

theorem setSetpoint (b : BayNo) {x : Setpoint} (hx : t.power.fallback ≤ 16 → (t.setpoint b).InRange → x.InRange) :
    s.Leads (t.setSetpoint b x) := by
  refine h.setpointsTo _ fun hf _ hs c => ?_
  have e := State.setSetpoint_setpoint t b c x
  rw [State.setpoint] at e
  change (t.setSetpoint b x).power.setpoints[c].InRange
  rw [e]
  split
  · exact hx hf (hs b)
  · exact hs c

/-! ### Recomputes (R112 to R121) -/

theorem retarget : s.Leads t.retarget := by
  refine h.setpointsTo _ fun _ hr hs b => ?_
  rw [Fin.getElem_fin, Vector.getElem_ofFn, Fin.eta]
  split
  · refine (hs b).retarget ?_ _
    have hd := (t.bay b).cappedDemand_le_rating
    have hb := hr b
    rcases t.targetOf_apportioned b with e | ⟨h6, hc⟩
    · exact .inl e
    · exact .inr ⟨h6, by omega⟩
  · exact hs b

theorem decreaseStep : s.Leads t.decreaseStep := by
  refine h.setpointsTo _ fun _ _ hs b => ?_
  rw [Fin.getElem_fin, Vector.getElem_ofFn]
  split
  · exact (hs b).issue (hs b).target_le
  · exact hs b

theorem raiseStep : s.Leads t.raiseStep :=
  h.setpointsTo _ fun _ _ hs =>
    List.foldlRecOn (motive := fun v : Vector Setpoint 48 => ∀ b : BayNo, v[b].InRange) t.participants _ hs
      fun _ hv b _ => raiseOne_inRange b hv

/-- A fold of work that leads on leads on. -/
theorem foldl {α : Type} (f : State → α → State) (hf : ∀ {u} a, s.Leads u → s.Leads (f u a)) (l : List α) :
    s.Leads (l.foldl f t) :=
  List.foldlRecOn l f h fun _ hu a _ => hf a hu

theorem recompute : s.Leads t.recompute :=
  h.retarget.decreaseStep.raiseStep.foldl _ (fun _ hu => hu.frame) _

theorem recomputeInRun : s.Leads t.recomputeInRun := by
  unfold State.recomputeInRun
  split
  · exact h.recompute
  · exact h

theorem takeEcho (b : BayNo) (echo : Nat) : s.Leads (t.takeEcho b echo) := by
  unfold State.takeEcho
  dsimp only
  split
  · split
    · exact h
    · exact (h.setSetpoint b fun _ hx => hx.acknowledge hx.2.1).recompute
  · exact h

/-! ### Tickets and queues -/

theorem unname (b : BayNo) (n : Nat) : s.Leads (t.unname b n) := by
  unfold State.unname
  split
  · exact h.setBay ⟨rfl, rfl, rfl, id⟩
  · exact h

theorem freeTicket (n : Nat) : s.Leads (t.freeTicket n) := by
  unfold State.freeTicket
  split
  · exact h
  · rename_i k _
    have h1 : s.Leads (if k.state = .waiting ∨ k.state = .offered then t.leaveQueue k.pool n else t) := by
      split
      · exact h.leaveQueue _ _
      · exact h
    cases k.bay with
    | none => exact h1.frame rfl rfl rfl rfl rfl rfl
    | some b => exact (h1.unname b n).frame rfl rfl rfl rfl rfl rfl

theorem freeWith (n : Nat) (m : Notice) : s.Leads (t.freeWith n m) := (h.raiseTo _ _).freeTicket _

theorem holdAt (n : Nat) (b : BayNo) : s.Leads (t.holdAt n b) := (h.modTicket _ _).changeBay b ⟨rfl, rfl, rfl, id⟩

theorem holdQueued (k : Ticket) (b : BayNo) : s.Leads (t.holdQueued k b) := (h.leaveQueue _ _).holdAt _ _

theorem arrive (n : Nat) (b : BayNo) : s.Leads (t.arrive n b) :=
  ((h.modTicket _ _).raiseTo _ _).changeBay b ⟨rfl, rfl, rfl, id⟩

theorem offerBay (q : PoolNo) (b : BayNo) (k : Ticket) : s.Leads (t.offerBay q b k) :=
  (((h.changeBay b ⟨rfl, rfl, rfl, id⟩).modTicket _ _).pointTo _ _).raise _ _

theorem matchBay (q : PoolNo) (b : BayNo) : s.Leads (t.matchBay q b) := by
  unfold State.matchBay
  split
  · exact h.offerBay _ _ _
  · exact h

theorem matchRun (q : PoolNo) : s.Leads (t.matchRun q) := h.foldl _ (fun b hu => hu.matchBay q b) _

theorem matchIn (q : Option PoolNo) : s.Leads (t.matchIn q) := by
  cases q with
  | none => exact h
  | some q => exact h.matchRun q

theorem withdraw (b : BayNo) (w : WithdrawReason) : s.Leads (t.withdraw b w) := by
  unfold State.withdraw
  split
  · exact h
  · exact ((h.modTicket _ _).setBay (by exact ⟨rfl, rfl, rfl, id⟩)).raiseTo _ _

theorem requeue (n : Nat) (b : BayNo) : s.Leads (t.requeue n b) := by
  unfold State.requeue
  split
  · exact h
  · exact (((h.modTicket _ _).unname _ _).joinQueue _ _).raise _ _

/-! ### Bays and sessions -/

theorem settleFree (b : BayNo) : s.Leads (t.settleFree b) := by
  unfold State.settleFree
  repeat' split
  all_goals exact h.changeBay b ⟨rfl, rfl, rfl, id⟩

theorem matchIfFree (b : BayNo) : s.Leads (t.matchIfFree b) := by
  unfold State.matchIfFree
  split
  · exact h.matchRun _
  · exact h

theorem enterFree (b : BayNo) : s.Leads (t.enterFree b) := (h.settleFree b).matchIfFree b

theorem openSession (b : BayNo) (n : Nat) : s.Leads (t.openSession b n) := by
  have h1 : s.Leads (t.setBay b (t.openedBay b n)) := h.setBay ⟨rfl, rfl, rfl, fun _ => nextTag_bounds (t.bay b).tagCounter⟩
  have h2 : s.Leads { t.setBay b (t.openedBay b n) with admission := t.admission ++ [b] } :=
    h1.frame rfl rfl rfl rfl rfl rfl
  exact ((((h2.modTicket _ _).raiseTo _ _).raise _ _).setSetpoint b fun _ hx => hx.started).recompute

theorem plugIn (b : BayNo) : s.Leads (t.plugIn b) := by
  unfold State.plugIn
  split
  · exact h.setBay ⟨rfl, rfl, rfl, id⟩
  · split
    · exact h.openSession _ _
    · split
      · exact ((h.issue _).setBay (by exact ⟨rfl, rfl, rfl, id⟩)).openSession _ _
      · exact h.raise _ _

theorem plugInIfPlugged (b : BayNo) : s.Leads (t.plugInIfPlugged b) := by
  unfold State.plugInIfPlugged
  split
  · exact h.plugIn b
  · exact h

theorem placeAt (b : BayNo) : s.Leads (t.placeAt b) := by
  unfold State.placeAt
  split
  · exact h.changeBay b ⟨rfl, rfl, rfl, id⟩
  · exact h.settleFree b
  · split
    all_goals exact h.changeBay b ⟨rfl, rfl, rfl, id⟩

theorem place (b : BayNo) : s.Leads (t.place b) := ((h.placeAt b).plugInIfPlugged b).matchIfFree b

theorem placeClosed (b : BayNo) : s.Leads (t.placeClosed b) := (h.placeAt b).matchIfFree b

theorem placeUnmatched (b : BayNo) : s.Leads (t.placeUnmatched b) := (h.placeAt b).plugInIfPlugged b

/-- F is a current that a setpoint can have (R109, R116). -/
theorem fallBack (b : BayNo) : s.Leads (t.setSetpoint b ((t.setpoint b).fallBack t.power.fallback)) :=
  h.setSetpoint b fun hf hx => hx.fallBack (by omega)

theorem suspend (b : BayNo) : s.Leads (t.suspend b) := ((h.changeBay b ⟨rfl, rfl, rfl, id⟩).fallBack b).recompute

theorem resume (b : BayNo) : s.Leads (t.resume b) := ((h.changeBay b ⟨rfl, rfl, rfl, id⟩).fallBack b).recompute

theorem noticeClosed (b : BayNo) (k : Session) (w : CloseReason) : s.Leads (t.noticeClosed b k w) := by
  unfold State.noticeClosed
  dsimp only
  split
  · exact h.raiseBoth _ _
  · exact h.raise _ _

theorem endSession (b : BayNo) (k : Session) (w : CloseReason) : s.Leads (t.endSession b k w) := by
  have h1 := h.noticeClosed b k w
  have h2 : s.Leads { t.noticeClosed b k w with
      admission := (t.noticeClosed b k w).admission.filter (fun c => c != b) } := h1.frame rfl rfl rfl rfl rfl rfl
  exact (((h2.setBay (by exact ⟨rfl, rfl, rfl, id⟩)).freeTicket _).setBay (by exact ⟨rfl, rfl, rfl, id⟩)).setSetpoint b
    fun _ hx => hx.ended

theorem closePlaced (b : BayNo) (w : CloseReason) : s.Leads (t.closePlaced b w) := by
  unfold State.closePlaced
  split
  · exact h
  · exact ((h.endSession _ _ _).placeClosed b).recompute

theorem closeLost (b : BayNo) : s.Leads (t.closeLost b) := by
  unfold State.closeLost
  split
  · exact h
  · exact ((h.endSession _ _ _).changeBay b ⟨rfl, rfl, rfl, id⟩).recompute

theorem enterFaulted (b : BayNo) (c : FaultCode) : s.Leads (t.enterFaulted b c) := h.changeBay b ⟨rfl, rfl, rfl, id⟩

theorem headFault (b : BayNo) (c : FaultCode) : s.Leads (t.headFault b c) := by
  unfold State.headFault
  split
  case h_1 | h_2 =>
    split
    · exact ((h.endSession _ _ _).enterFaulted b c).recompute
    · exact h.enterFaulted b c
  case h_3 =>
    split
    · exact (h.freeWith _ _).enterFaulted b c
    · exact h.enterFaulted b c
  case h_4 =>
    split
    · split
      · exact ((h.requeue _ _).enterFaulted b c).matchIn _
      · exact (h.freeWith _ _).enterFaulted b c
    · exact h.enterFaulted b c
  case h_5 => exact ((h.withdraw _ _).enterFaulted b c).matchIn _
  case h_6 => exact (h.setBay (by exact ⟨rfl, rfl, rfl, id⟩)).enterFaulted b c
  all_goals exact h.enterFaulted b c

theorem loseHead (b : BayNo) : s.Leads (t.loseHead b) := by
  unfold State.loseHead
  split
  case h_1 => exact h.changeBay b ⟨rfl, rfl, rfl, id⟩
  case h_2 => exact ((h.withdraw _ _).changeBay b ⟨rfl, rfl, rfl, id⟩).matchIn _
  case h_3 => exact h.suspend b
  all_goals exact h

/-! ### Bookings -/

theorem displace (b : BayNo) (k : Booking) : s.Leads (t.displace b k) := by
  unfold State.displace
  dsimp only
  split
  · exact ((h.issue _).joinQueue _ _).raiseBoth _ _
  · exact ((h.issue _).freeTicket _).noticeDropped _ _

theorem holdBooked (b : BayNo) (k : Booking) : s.Leads (t.holdBooked b k) := ((h.issue _).holdAt _ _).raise _ _

theorem activate (b : BayNo) (k : Booking) : s.Leads (t.activate b k) := by
  have h1 := h.dropBooking b k.number
  unfold State.activate
  dsimp only
  split
  · split
    case h_1 => exact h1.holdBooked b k
    case h_2 => exact (h1.withdraw _ _).holdBooked b k
    all_goals exact h1.displace b k
  · exact h1.noticeDropped _ _

theorem activateEarly (b : BayNo) (k : Booking) : s.Leads (t.activateEarly b k) := by
  unfold State.activateEarly
  split
  · exact ((((h.dropBooking _ _).issue _).changeBay b ⟨rfl, rfl, rfl, id⟩).raise _ _).plugInIfPlugged b
  · exact h.raise _ _

theorem activateDue (b : BayNo) : s.Leads (t.activateDue b) := by
  unfold State.activateDue
  split
  · exact h.activate _ _
  · exact h

theorem dropDue (b : BayNo) : s.Leads (t.dropDue b) := by
  unfold State.dropDue
  split
  · exact (h.dropBooking _ _).noticeDropped _ _
  · exact h

theorem matchConfigured (q : PoolNo) : s.Leads (t.matchConfigured q) := by
  unfold State.matchConfigured
  split
  · exact h.matchRun q
  · exact h

/-! ### REPORTs -/

theorem plugStep (b : BayNo) (plug : Plug) (echo : Nat) : s.Leads (t.plugStep b plug echo) := by
  have h1 : s.Leads (t.setBay b { t.bay b with plug := plug }) := h.setBay ⟨rfl, rfl, rfl, id⟩
  unfold State.plugStep
  dsimp only
  split
  case h_1 => split; exacts [h1.closePlaced _ _, h1]
  case h_2 => split; exacts [h1.resume _, h1.closePlaced _ _]
  case h_3 => split; exacts [h1.plugIn _, h1]
  all_goals exact h1

theorem depart (b : BayNo) : s.Leads (t.depart b) := by
  unfold State.depart
  split
  · exact (h.freeWith _ _).enterFree b
  · exact h.enterFree b

theorem presenceStep (b : BayNo) (presence : Presence) : s.Leads (t.presenceStep b presence) := by
  have h1 : s.Leads (t.setBay b { t.bay b with presence := presence }) := h.setBay ⟨rfl, rfl, rfl, id⟩
  unfold State.presenceStep
  dsimp only
  split
  case h_1 => exact h1.place b
  case h_2 => split; exacts [(h1.changeBay b ⟨rfl, rfl, rfl, id⟩).plugInIfPlugged b, h1]
  case h_3 =>
    split
    · split; exacts [(h1.arrive _ _).plugInIfPlugged b, h1]
    · exact h1
  case h_4 => split; exacts [h1.depart b, h1]
  all_goals exact h1

theorem presentCode (b : BayNo) (code : Nat) : s.Leads (t.presentCode b code) := by
  unfold State.presentCode
  split
  · exact (h.arrive _ _).plugInIfPlugged b
  split
  · exact h
  split
  · exact h.activateEarly b _
  split
  all_goals exact h.raise _ _

theorem codeStep (b : BayNo) (code : Nat) : s.Leads (t.codeStep b code) := by
  unfold State.codeStep
  split
  · exact h
  · exact h.presentCode b code

theorem demandStep (b : BayNo) (demand : Nat) : s.Leads (t.demandStep b demand) := by
  unfold State.demandStep
  dsimp only
  split
  · have h1 : s.Leads (t.setBay b ((t.bay b).modSession (fun k => { k with demand := min demand 63 }))) :=
      h.setBay ⟨rfl, rfl, rfl, id⟩
    split
    · exact h1.recompute
    · exact h1
  · exact h

theorem energyStep (b : BayNo) (increment echo : Nat) : s.Leads (t.energyStep b increment echo) := by
  unfold State.energyStep
  split
  · exact h.setBay ⟨rfl, rfl, rfl, id⟩
  · exact h

theorem takeReport (b : BayNo) (r : Report) : s.Leads (t.takeReport b r) := by
  unfold State.takeReport
  split
  · exact h.headFault b _
  · exact (((((h.plugStep b _ _).presenceStep b _).codeStep b _).demandStep b _).energyStep b _ _).takeEcho b _

theorem takeReply (b : BayNo) (r : Report) : s.Leads (t.takeReply b r) := (h.changeLink b _).takeReport b r

theorem takeSilence (b : BayNo) : s.Leads (t.takeSilence b) := by
  unfold State.takeSilence
  dsimp only
  split
  · exact (h.changeLink b _).loseHead b
  · exact h.changeLink b _

theorem takeBusy (b : BayNo) : s.Leads (t.takeBusy b) := by
  unfold State.takeBusy
  dsimp only
  split
  · exact (h.setLink b _).headFault b _
  · exact h.setLink b _

/-! ### Requests -/

theorem giveUpOffer (k : Ticket) (b : BayNo) (lapsed : Bool) : s.Leads (t.giveUpOffer k b lapsed) := by
  have h1 := ((h.modTicket k.number (fun u => { u with
    state := .waiting, bay := none, offerDeadline := none, lastDeclined := some b })).toBack k.pool k.number).unname b
      k.number
  unfold State.giveUpOffer
  dsimp only
  split
  · exact ((h1.raise _ _).placeUnmatched b).matchRun _
  · exact (h1.placeUnmatched b).matchRun _

theorem expireHold (n : Nat) (b : BayNo) : s.Leads (t.expireHold n b) := (h.freeWith _ _).place b

theorem cancel (k : Ticket) : s.Leads (t.cancel k) := by
  unfold State.cancel
  split
  · exact (h.freeTicket _).place _
  · exact (h.freeTicket _).place _
  · exact h.freeTicket _

theorem grant (k : Ticket) (clamped : Bool) : s.Leads (t.grant k clamped).1 := by
  unfold State.grant
  split
  · exact (h.pointTo _ _).holdAt _ _
  · split
    · exact h.joinQueue _ _
    · exact h.freeTicket _

theorem adopt (p : Port) (b : BayNo) (stay : Nat) (c : Priority) : s.Leads (t.adopt p b stay c).1 :=
  ((h.issue _).setBay (by exact ⟨rfl, rfl, rfl, id⟩)).plugInIfPlugged b

theorem enterBlocked (b : BayNo) : s.Leads (t.enterBlocked b) := h.changeBay b ⟨rfl, rfl, rfl, id⟩

theorem pendBlock (b : BayNo) : s.Leads (t.pendBlock b) := h.setBay ⟨rfl, rfl, rfl, id⟩

theorem blockBay (b : BayNo) : s.Leads (t.blockBay b).1 := by
  unfold State.blockBay
  split
  case h_1 | h_2 => exact h.enterBlocked b
  case h_3 => exact ((h.withdraw _ _).enterBlocked b).matchIn _
  case h_4 =>
    split
    · split
      · exact ((h.requeue _ _).enterBlocked b).matchIn _
      · exact h
    · exact h.enterBlocked b
  case h_9 => exact h
  all_goals exact h.pendBlock b

theorem clearFaultAt (b : BayNo) : s.Leads (t.clearFaultAt b) := (h.setBay (by exact ⟨rfl, rfl, rfl, id⟩)).place b

/-! ### START, RECONFIGURE and RESTART (R170 to R172) -/

theorem clearBays : s.Leads t.clearBays := by
  have hb : ∀ b, t.clearBays.bay b = (t.bay b).cleared := fun b => by simp [State.clearBays, State.bay]
  have hx : ∀ b, t.clearBays.setpoint b = t.setpoint b := fun b => by simp [State.setpoint]
  exact h.trans ⟨by simp, by simp, by simp, by simp, by simp, fun b => by rw [hb b]; exact ⟨rfl, rfl, rfl, id⟩,
    fun _ _ hs b => by rw [hx b]; exact hs b⟩

theorem clearSetpoints : s.Leads t.clearSetpoints :=
  h.setpointsTo _ fun _ _ _ b => by rw [Fin.getElem_fin, Vector.getElem_ofFn]; exact .cleared

/-- Every record is cleared, and the bus is too (R4, R45, R124, R129). -/
theorem clear : s.Leads t.clearBays.clearPools.clearSetpoints.clearBus :=
  (h.clearBays.frame (u := t.clearBays.clearPools)).clearSetpoints.frame

theorem dropUnenrolled (b : BayNo) : s.Leads (t.dropUnenrolled b) := by
  unfold State.dropUnenrolled
  split
  · exact h
  · exact h.foldl _ (fun k hv => (hv.dropBooking _ _).noticeDropped _ _) _

theorem restarted : s.Leads t.restarted := by
  have h1 : s.Leads { t.clearBays.clearPools.clearSetpoints.clearPorts with tickets := [] } :=
    (h.clearBays.frame (u := t.clearBays.clearPools)).clearSetpoints.frame (by simp [State.clearPorts])
      (by simp [State.clearPorts]) (by simp [State.clearPorts]) (by simp [State.clearPorts])
      (by simp [State.clearPorts]) (by simp [State.clearPorts])
  unfold State.restarted
  dsimp only
  split
  · exact h1.frame
  · exact h1.frame

end State.Leads

/-! ### Requests of the owners that take no setting -/

/-- The owners that write the settings or the setup of a bay (R71 to R74, R109, R110, R167, R168), and those that pass
the part between CONFIG and RUN or clear it (R170 to R172). -/
inductive SetsUp : Owner → Prop where
  | setSlotClock : SetsUp ownSetSlotClock
  | setBands : SetsUp ownSetBands
  | setCap : SetsUp ownSetCap
  | setLevel : SetsUp ownSetLevel
  | setBay : SetsUp ownSetBay
  | setTimers : SetsUp ownSetTimers
  | start : SetsUp ownStart
  | reconfigure : SetsUp ownReconfigure
  | restart : SetsUp ownRestart

/-- Every other owner's work leads on from the state that it finds. -/
theorem State.Leads.owner {own : Owner} (ho : IsOwner own) (hn : ¬SetsUp own) (p : Port) (pl : List Byte) (s : State) :
    s.Leads (own p pl s).1 := by
  have h := State.Leads.refl s
  cases ho
  case setSlotClock => exact absurd .setSlotClock hn
  case setBands => exact absurd .setBands hn
  case setCap => exact absurd .setCap hn
  case setLevel => exact absurd .setLevel hn
  case setBay => exact absurd .setBay hn
  case setTimers => exact absurd .setTimers hn
  case start => exact absurd .start hn
  case reconfigure => exact absurd .reconfigure hn
  case restart => exact absurd .restart hn
  case queryBay =>
    unfold ownQueryBay
    repeat' split
    all_goals exact h
  case queryTicket =>
    unfold ownQueryTicket
    repeat' split
    all_goals exact h
  case queryPool =>
    unfold ownQueryPool
    repeat' split
    all_goals exact h
  case queryBookings =>
    unfold ownQueryBookings
    repeat' split
    all_goals exact h
  case queryBooking =>
    unfold ownQueryBooking
    repeat' split
    all_goals exact h
  case queryPower =>
    unfold ownQueryPower
    repeat' split
    all_goals exact h
  case queryConfig =>
    unfold ownQueryConfig
    repeat' split
    all_goals exact h
  case blockBay =>
    unfold ownBlockBay
    repeat' split
    all_goals first | exact h | exact h.blockBay _
  case unblockBay =>
    unfold ownUnblockBay
    repeat' split
    all_goals first | exact h | exact h.place _ | exact h.setBay ⟨rfl, rfl, rfl, id⟩
  case clearFault =>
    unfold ownClearFault
    repeat' split
    all_goals first | exact h | exact h.clearFaultAt _
  case requestBay =>
    unfold ownRequestBay
    repeat' split
    all_goals first | exact h | exact (h.issue _).grant _ _
  case adoptBay =>
    unfold ownAdoptBay
    repeat' split
    all_goals first | exact h | exact h.adopt _ _ _ _
  case assignBay =>
    unfold ownAssignBay
    repeat' split
    all_goals first | exact h | exact h.holdQueued _ _
  case cancelTicket =>
    unfold ownCancelTicket
    repeat' split
    all_goals first | exact h | exact h.cancel _
  case acceptOffer =>
    unfold ownAcceptOffer
    repeat' split
    all_goals first | exact h | exact h.holdQueued _ _
  case declineOffer =>
    unfold ownDeclineOffer
    repeat' split
    all_goals first | exact h | exact h.giveUpOffer _ _ _
  case maskPool =>
    unfold ownMaskPool
    repeat' split
    all_goals first | exact h | exact h.setPool _ _
  case unmaskPool =>
    unfold ownUnmaskPool
    repeat' split
    all_goals first | exact h | exact (h.setPool _ _).matchRun _
  case book =>
    unfold ownBook
    dsimp only
    repeat' split
    all_goals first | exact h | exact h.frame rfl rfl rfl rfl rfl rfl
  case cancelBooking =>
    unfold ownCancelBooking
    repeat' split
    all_goals first | exact h | exact (h.dropBooking _ _).matchRun _ | exact h.dropBooking _ _
  case forceClose =>
    unfold ownForceClose
    repeat' split
    all_goals first | exact h | exact h.closePlaced _ _
  case readNotices =>
    unfold ownReadNotices
    repeat' split
    all_goals first | exact h | exact h.frame rfl rfl rfl rfl rfl rfl
  case openWindow =>
    unfold ownOpenWindow
    repeat' split
    all_goals first | exact h | exact h.frame rfl rfl rfl rfl rfl rfl
  case readWindow =>
    unfold ownReadWindow
    repeat' split
    all_goals first | exact h | exact h.frame rfl rfl rfl rfl rfl rfl
  case setPool =>
    unfold ownSetPool
    repeat' split
    all_goals first | exact h | exact h.setPool _ _

/-! ### The ranges are kept (R2, R71, R73, R109, R116, R167) -/

/-- Every setting is in range, and every setpoint record too, where that is claimed. -/
def RangesHold (claimed : Prop) (s : State) : Prop := SettingsInRange s ∧ (claimed → ∀ b, (s.setpoint b).InRange)

theorem setpointsInRange_iff (s : State) : SetpointsInRange s ↔ ∀ b, (s.setpoint b).InRange := Iff.rfl

theorem State.Leads.settings {s t : State} (h : s.Leads t) (hs : SettingsInRange s) : SettingsInRange t := by
  obtain ⟨hg, ho, hr, hc, hb, hf, hk, hbands, hsec, hbays⟩ := hs
  have hp := h.power
  refine ⟨h.timers ▸ hg, h.timers ▸ ho, h.timers ▸ hr, by rw [hp]; exact hc, by rw [hp]; exact hb,
    by rw [hp]; exact hf, by rw [hp]; exact hk, h.bands ▸ hbands, h.seconds ▸ hsec, fun b => ?_⟩
  obtain ⟨hrate, htag⟩ := hbays b
  exact ⟨(h.setup b).rating ▸ hrate, (h.setup b).tag htag⟩

theorem State.Leads.ranges {claimed : Prop} {s t : State} (h : s.Leads t) (hs : RangesHold claimed s) :
    RangesHold claimed t := by
  obtain ⟨hset, hsp⟩ := hs
  refine ⟨h.settings hset, fun hc => h.setpoints ?_ ?_ (hsp hc)⟩
  · obtain ⟨-, -, -, -, -, hf, -⟩ := hset
    exact hf
  · obtain ⟨-, -, -, -, -, -, -, -, -, hb⟩ := hset
    exact fun b => (hb b).1.2

/-- A field that is clamped is in its range (R167). -/
theorem clampTo_bounds {low high : Nat} (hle : low ≤ high) (x : Nat) :
    low ≤ clampTo low high x ∧ clampTo low high x ≤ high := by
  unfold clampTo
  omega

namespace RangesHold

theorem powerOn (claimed : Prop) (feed : BitVec 2) : RangesHold claimed (State.powerOn feed) := by
  have hb : ∀ b, (State.powerOn feed).bay b = Bay.powerOn := fun b => Vector.getElem_replicate b.isLt
  have hx : ∀ b, (State.powerOn feed).setpoint b = Setpoint.cleared := fun b => Vector.getElem_replicate b.isLt
  refine ⟨⟨?_, ?_, ?_, ?_, ?_, ?_, ?_, ?_, ?_, fun b => ?_⟩, fun _ b => hx b ▸ Setpoint.InRange.cleared⟩
  case refine_10 => rw [hb b]; decide
  all_goals decide +revert

variable {claimed : Prop} {s : State} (h : RangesHold claimed s)
include h

/-- The ranges rest on the timers, the booking unit, the power unit and the bays alone. -/
theorem frame {t : State} (ht : t.timers = s.timers := by simp) (hb : t.booking = s.booking := by simp)
    (hp : t.power = s.power := by simp) (hy : t.bays = s.bays := by simp) : RangesHold claimed t := by
  cases s
  cases t
  cases ht
  cases hb
  cases hp
  cases hy
  exact h

/-- Settings that take values in range, while the setpoint records stand. -/
theorem settings {t : State} (ht : SettingsInRange t) (hp : t.power.setpoints = s.power.setpoints) :
    RangesHold claimed t := by
  have e : ∀ b, t.setpoint b = s.setpoint b := fun b => by simp only [State.setpoint, hp]
  exact ⟨ht, fun hc b => e b ▸ h.2 hc b⟩

/-- The slot clock takes seconds into slot of at most 899 (R71). -/
theorem seconds (u : BookingUnit) (hb : u.bands = s.booking.bands) (hs : u.secondsIntoSlot ≤ 899) :
    RangesHold claimed { s with booking := u } := by
  obtain ⟨hg, ho, hr, hc, hbase, hf, hk, hbands, -, hbays⟩ := h.1
  exact h.settings ⟨hg, ho, hr, hc, hbase, hf, hk, hb ▸ hbands, hs, hbays⟩ rfl

/-- The level settings take values in range, and every setpoint record stays in its range (R109). -/
theorem level (u : PowerUnit) (hc : u.rating ≤ 2000) (hb : u.base ≤ 2000) (hf : u.fallback ≤ 16) (hk : u.cap ≤ 2000)
    (hu : (∀ b, (s.setpoint b).InRange) → ∀ b : BayNo, u.setpoints[b].InRange) :
    RangesHold claimed { s with power := u } := by
  obtain ⟨hg, ho, hr, -, -, -, -, hbands, hsec, hbays⟩ := h.1
  exact ⟨⟨hg, ho, hr, hc, hb, hf, hk, hbands, hsec, hbays⟩, fun hcl => hu (h.2 hcl)⟩

theorem tick : RangesHold claimed s.tick := by
  have h1 : RangesHold claimed { s with deviceSeconds := s.deviceSeconds + 1#32 } := h.frame rfl rfl rfl rfl
  unfold State.tick
  dsimp only
  split
  · exact h1.seconds _ rfl (by dsimp only; omega)
  · obtain ⟨-, -, -, -, -, -, -, -, hsec, -⟩ := h.1
    exact h1.seconds _ rfl hsec

theorem setClock (now : SlotNo) (seconds : Nat) (hs : seconds ≤ 899) : RangesHold claimed (s.setClock now seconds) :=
  h.seconds _ rfl hs

theorem feedCodeIs (code : BitVec 2) : RangesHold claimed (s.feedCodeIs code) := by
  obtain ⟨-, -, -, hc, hb, hf, hk, -⟩ := h.1
  unfold State.feedCodeIs
  split
  · exact h
  · exact h.level _ hc hb hf hk id

theorem raiseFeed (before : State) : RangesHold claimed (before.raiseFeed s) := by
  unfold State.raiseFeed
  split
  · exact ((State.Leads.refl s).raise _ _).ranges h
  · exact h

theorem recomputeInRun : RangesHold claimed s.recomputeInRun := (State.Leads.refl s).recomputeInRun.ranges h

theorem takeCandidate : RangesHold claimed s.takeCandidate := by
  obtain ⟨-, -, -, hc, hb, hf, hk, -⟩ := h.1
  unfold State.takeCandidate
  dsimp only
  split
  · exact h.level _ hc hb hf hk id
  · exact ((h.level { s.power with debounce := none, tier := tierOf s.power.candidate } hc hb hf hk id).raiseFeed
      s).recomputeInRun

theorem setCapTo {k : Nat} (hk : k ≤ 2000) : RangesHold claimed (s.setCapTo k) := by
  obtain ⟨-, -, -, hc, hb, hf, -⟩ := h.1
  exact ((h.level { s.power with cap := k } hc hb hf hk id).raiseFeed s).recomputeInRun

/-- The SUSPENDED bays take a new F (R109). -/
theorem refall : RangesHold claimed s.refall := by
  obtain ⟨-, -, -, hc, hb, hf, hk, -⟩ := h.1
  refine h.level _ hc hb hf hk fun hs b => ?_
  rw [Fin.getElem_fin, Vector.getElem_ofFn, Fin.eta]
  split
  · exact ((hs b).issue (by omega)).acknowledge (by omega)
  · exact hs b

theorem setLevelTo {c b f : Nat} (hc : c ≤ 2000) (hb : b ≤ 2000) (hf : f ≤ 16) :
    RangesHold claimed (s.setLevelTo c b f) := by
  obtain ⟨-, -, -, -, -, -, hk, -⟩ := h.1
  have h1 : RangesHold claimed { s with power := { s.power with rating := c, base := b, fallback := f } } :=
    h.level _ hc hb hf hk id
  unfold State.setLevelTo
  dsimp only
  split
  · exact (h1.refall.raiseFeed s).recomputeInRun
  · exact (h1.raiseFeed s).recomputeInRun

theorem startUp : RangesHold claimed s.startUp :=
  (((State.Leads.refl s).foldl _ (fun b hu => hu.dropUnenrolled b) allBays).clear.ranges h).frame (by
    simp [State.startUp]) (by simp [State.startUp]) (by simp [State.startUp]) (by simp [State.startUp])

theorem reconfigured : RangesHold claimed s.reconfigured := ((State.Leads.refl s).clear.ranges h).frame (by
    simp [State.reconfigured]) (by simp [State.reconfigured]) (by simp [State.reconfigured]) (by simp [State.reconfigured])

theorem expireSlot : RangesHold claimed s.expireSlot := by
  have h1 : RangesHold claimed s.stepSlot := h.seconds _ rfl (Nat.zero_le _)
  have h2 := State.Leads.refl s.stepSlot
  unfold State.expireSlot
  dsimp only
  split
  · exact ((h2.foldl _ (fun b hu => hu.activateDue b) _).foldl _ (fun q hu => hu.matchConfigured q) _).ranges h1
  · exact (h2.foldl _ (fun b hu => hu.dropDue b) _).ranges h1

/-- SET BAY takes a rating in its range (R168). -/
theorem setBayTo {b : BayNo} {x : Bay} (hr : 6 ≤ x.rating ∧ x.rating ≤ 63) (ht : x.tagCounter = (s.bay b).tagCounter) :
    RangesHold claimed (s.setBay b x) := by
  obtain ⟨hg, ho, hrec, hc, hbase, hf, hk, hbands, hsec, hbays⟩ := h.1
  refine h.settings ⟨hg, ho, hrec, hc, hbase, hf, hk, hbands, hsec, fun c => ?_⟩ rfl
  rw [State.setBay_bay]
  split
  · exact ⟨hr, ht ▸ (hbays b).2⟩
  · exact hbays c

omit h in
/-- The owners that set up or clear the part keep the ranges. -/
theorem setsUp {own : Owner} (ho : SetsUp own) (p : Port) (pl : List Byte) (h : RangesHold claimed s) :
    RangesHold claimed (own p pl s).1 := by
  cases ho
  case setSlotClock =>
    unfold ownSetSlotClock
    dsimp only
    repeat' split
    all_goals first | exact h | exact h.setClock _ _ (Nat.min_le_right _ _)
  case setBands =>
    unfold ownSetBands
    dsimp only
    repeat' split
    case isFalse.isTrue f o t _ hv =>
      obtain ⟨hg, ho, hr, hc, hbase, hf, hk, -, hsec, hbays⟩ := h.1
      simp only [Bands.valid, Bool.and_eq_true, decide_eq_true_eq] at hv
      exact h.settings ⟨hg, ho, hr, hc, hbase, hf, hk, by simp only; omega, hsec, hbays⟩ rfl
    all_goals exact h
  case setCap =>
    unfold ownSetCap
    split
    · exact h.setCapTo (Nat.min_le_right _ _)
    · exact h
  case setLevel =>
    unfold ownSetLevel
    split
    · exact h.setLevelTo (Nat.min_le_right _ _) (Nat.min_le_right _ _) (Nat.min_le_right _ _)
    · exact h
  case setBay =>
    unfold ownSetBay
    repeat' split
    all_goals first | exact h | exact h.setBayTo (by dsimp only; omega) rfl
  case setTimers =>
    unfold ownSetTimers
    dsimp only
    split
    · split
      · exact h
      · obtain ⟨-, -, -, hrest⟩ := h.1
        exact h.settings ⟨clampTo_bounds (by omega) _, clampTo_bounds (by omega) _, clampTo_bounds (by omega) _,
          hrest⟩ rfl
    · exact h
  case start =>
    unfold ownStart
    split
    · split
      · exact h
      · split
        · exact h
        · exact h.startUp
    · exact h
  case reconfigure =>
    unfold ownReconfigure
    split
    · split
      · exact h
      · split
        · exact h.reconfigured
        · exact h
    · exact h
  case restart =>
    unfold ownRestart
    split
    · exact (State.Leads.refl s).restarted.ranges h
    · exact h

end RangesHold

/-- Every event keeps the ranges. -/
theorem rangesHold_keptByEvents (claimed : Prop) : KeptByEvents (RangesHold claimed) where
  outside _ _ _ _ h := h.frame rfl rfl rfl rfl
  owner own ho p pl s h := by
    by_cases hn : SetsUp own
    · exact RangesHold.setsUp hn p pl h
    · exact (State.Leads.owner ho hn p pl s).ranges h
  bus _ _ _ _ h := h.frame rfl rfl rfl rfl
  enterNext s rest _ h := by
    unfold State.enterNext
    split
    · exact h.frame rfl rfl rfl rfl
    · exact h.frame rfl rfl rfl rfl
  powerOn feed := .powerOn claimed feed
  tick _ h := h.tick
  feedCodeIs _ code h := h.feedCodeIs code
  takeCandidate _ h := h.takeCandidate
  expireHold s t b _ _ _ h := ((State.Leads.refl s).expireHold _ _).ranges h
  giveUpOffer s t b _ _ _ h := ((State.Leads.refl s).giveUpOffer _ _ _).ranges h
  closeLost s b _ h := ((State.Leads.refl s).closeLost b).ranges h
  expireSlot _ h := h.expireSlot
  takeReply s b r _ h := ((State.Leads.refl s).takeReply b r).ranges h
  takeBusy s b _ h := ((State.Leads.refl s).takeBusy b).ranges h
  takeSilence s b _ h := ((State.Leads.refl s).takeSilence b).ranges h

/-- Settles O57: the settings alone, then the settings with the setpoint records. -/
theorem rangesKept : Obligations.RangesKept := by
  unfold Obligations.RangesKept
  intro s t hs he
  refine ⟨((rangesHold_keptByEvents False).step ⟨hs, False.elim⟩ he).1, fun hx => ?_⟩
  exact ((rangesHold_keptByEvents True).step ⟨hs, fun _ => hx⟩ he).2 trivial

end Sys2Proof.Machine
end

