-- ==== Sys2Proof/Proofs/Numbers.lean ====
section
/-! SUPPORT. Ticket numbers (R26, R28): the number taken for an issue is not live, and what the table's operations do
to the entries. -/

namespace Sys2Proof.Machine

/-! ### The next number (R28, R70) -/

/-- The numbers from 1 to 65535 follow one another in a ring (R28, R70). -/
theorem nextNumber_iterate (n i : Nat) (h : 1 ≤ n ∧ n ≤ 65535) :
    nextNumber^[i] n = (n - 1 + i) % 65535 + 1 := by
  induction i with
  | zero => rw [Function.iterate_zero, id]; omega
  | succ i ih =>
    rw [Function.iterate_succ', Function.comp_apply, ih, nextNumber]
    split <;> omega

/-- A tested number that is live was so at every test, one number after another (R28). -/
theorem freeNumber_live {live : List Nat} {k n : Nat} (h : freeNumber live k n ∈ live) :
    ∀ i ≤ k, nextNumber^[i] n ∈ live := by
  induction k generalizing n with
  | zero =>
    intro i hi
    obtain rfl : i = 0 := by omega
    exact h
  | succ k ih =>
    unfold freeNumber at h
    split at h
    · rename_i hn
      intro i hi
      cases i with
      | zero => exact hn
      | succ i =>
        rw [Function.iterate_succ_apply]
        exact ih h i (by omega)
    · contradiction

/-- With fewer than 65535 live numbers the number taken is not live (R28, R70). -/
theorem freeNumber_not_mem {live : List Nat} {n : Nat} (h : 1 ≤ n ∧ n ≤ 65535) (hl : live.length < 65535) :
    freeNumber live live.length n ∉ live := by
  intro hm
  have hall := freeNumber_live hm
  have hsub : (Finset.range (live.length + 1)).image (fun i => nextNumber^[i] n) ⊆ live.toFinset := by
    intro m hm
    obtain ⟨i, hi, rfl⟩ := Finset.mem_image.mp hm
    exact List.mem_toFinset.mpr (hall i (by simpa [Nat.lt_succ_iff] using hi))
  have hinj : Set.InjOn (fun i => nextNumber^[i] n) (Finset.range (live.length + 1)) := by
    intro i hi j hj e
    simp only [Finset.coe_range, Set.mem_Iio] at hi hj
    simp only [nextNumber_iterate n _ h] at e
    omega
  have hcard := Finset.card_le_card hsub
  rw [Finset.card_image_of_injOn hinj, Finset.card_range] at hcard
  have := live.toFinset_card_le
  omega

theorem nextNumber_bounds (n : Nat) : 1 ≤ nextNumber n ∧ nextNumber n ≤ 65535 := by
  unfold nextNumber
  split <;> omega

/-- The number taken is 1 to 65535 (R28, R70). -/
theorem freeNumber_bounds (live : List Nat) (k : Nat) {n : Nat} (h : 1 ≤ n ∧ n ≤ 65535) :
    1 ≤ freeNumber live k n ∧ freeNumber live k n ≤ 65535 := by
  induction k generalizing n with
  | zero => exact h
  | succ k ih =>
    unfold freeNumber
    split
    · exact ih (nextNumber_bounds n)
    · exact h

/-- The next ticket number is not live and is 1 to 65535 (R28). -/
theorem TicketsFit.nextTicket {s : State} (h : TicketsFit s) :
    s.nextTicket ∉ s.liveTickets ∧ 1 ≤ s.nextTicket ∧ s.nextTicket ≤ 65535 := by
  obtain ⟨hlen, -, -, hc⟩ := h
  have hl : s.liveTickets.length < 65535 := by simp only [State.liveTickets, List.length_map]; omega
  exact ⟨freeNumber_not_mem hc hl, freeNumber_bounds _ _ hc⟩

/-! ### The entries of the table (R26) -/

/-- The table finds a number exactly where an entry carries it. -/
theorem State.ticket?_eq_none {s : State} {n : Nat} : s.ticket? n = none ↔ n ∉ s.liveTickets := by
  simp [State.ticket?, State.liveTickets]

theorem State.mem_of_ticket? {s : State} {n : Nat} {t : Ticket} (h : s.ticket? n = some t) : t ∈ s.tickets :=
  List.mem_of_find?_eq_some h

/-- Two entries with one number are one entry (R26). -/
theorem TicketsFit.eq_of_number {s : State} (h : TicketsFit s) {t u : Ticket} (ht : t ∈ s.tickets) (hu : u ∈ s.tickets)
    (e : t.number = u.number) : t = u :=
  List.inj_on_of_nodup_map h.2.1 ht hu e

/-- An entry is what the table finds under its number. -/
theorem TicketsFit.ticket?_of_mem {s : State} (h : TicketsFit s) {t : Ticket} (ht : t ∈ s.tickets) :
    s.ticket? t.number = some t := by
  cases e : s.ticket? t.number with
  | none => exact absurd (List.mem_map_of_mem ht) (State.ticket?_eq_none.mp e)
  | some u => rw [h.eq_of_number (State.mem_of_ticket? e) ht (State.ticket?_number e)]

/-- A ticket that is issued under a number that is not live is what the table finds under it, and every other number is
as it was (R28). -/
theorem State.issue_ticket_find (s : State) (t : Ticket) (h : t.number ∉ s.liveTickets) (m : Nat) :
    (s.issue t).ticket? m = if m = t.number then some t else s.ticket? m := by
  have hn := State.ticket?_eq_none.mpr h
  simp only [State.ticket?, State.issue, List.find?_append] at hn ⊢
  split
  · subst m
    simp [hn]
  · rename_i hm
    have : (t.number == m) = false := by simpa using fun e => hm e.symm
    simp [this]

/-- The entries once a ticket has been freed (R40). -/
theorem State.freeTicket_tickets (s : State) (n : Nat) :
    (s.freeTicket n).tickets = s.tickets.filter (fun t => t.number != n) := by
  unfold State.freeTicket
  cases h : s.ticket? n with
  | none =>
    refine (List.filter_eq_self.mpr fun t ht => ?_).symm
    have := State.ticket?_eq_none.mp h
    simp only [bne_iff_ne]
    exact fun e => this (e ▸ List.mem_map_of_mem ht)
  | some t =>
    dsimp only
    congr 1
    cases t.bay <;> dsimp only <;> split <;> simp

end Sys2Proof.Machine
end

