-- ==== Sys2Proof/Proofs/Claims.lean ====
section
/-! SUPPORT. The agreement of tickets, bays, wait queues, sessions and the admission list while an operation is at work:
it may stand open at one bay, which no ticket claims and which has still to be settled, and at one ticket, which has
still to be placed. -/

namespace Sys2Proof.Machine

/-! ### A ticket, a bay record and a queue on their own -/

/-- The state of a bay that a ticket in this state claims (section 2.2). -/
def TicketState.claims : TicketState → BayState → Prop
  | .waiting, _ => False
  | .offered, x => x = .offered
  | .held, x => x = .held
  | .arrived, x => x = .occupied
  | .charging, x => x = .active ∨ x = .suspended

/-- A live ticket stands where its state says: in its pool's queue, and at the bay that names it. -/
structure State.Stands (s : State) (t : Ticket) : Prop where
  queued : t.state = .waiting ∨ t.state = .offered → t.number ∈ (s.pool t.pool).queue
  offer : t.offerDeadline.isSome = true ↔ t.state = .offered
  hold : t.holdDeadline.isSome = true ↔ t.state = .held
  bay : t.bay = none ↔ t.state = .waiting
  named : ∀ b, t.bay = some b → t.state.claims (s.bay b).state ∧ (s.bay b).ticket = some t.number

theorem State.ticketPlaced_iff (s : State) (t : Ticket) : s.ticketPlaced t ↔ s.Stands t := by
  simp only [State.ticketPlaced, State.namedAt, Option.mem_def]
  constructor
  · rintro ⟨hw, hq, ho, hh, h1, h2, h3, h4⟩
    refine ⟨hq, ho, hh, ?_, ?_⟩
    all_goals cases hs : t.state <;> simp_all [TicketState.claims] <;> grind
  · rintro ⟨hq, ho, hh, hb, hn⟩
    refine ⟨hb.mpr, hq, ho, hh, ?_⟩
    cases hs : t.state <;> cases ht : t.bay <;> simp_all [TicketState.claims]

/-- A bay record is right in itself: ticket, session and fault are present in the states that R2 and R91 name. -/
structure Bay.Right (x : Bay) : Prop where
  unenrolled : x.enrolled = false → x.state = .offline
  claimed : x.state = .offered ∨ x.state = .held ∨ x.state = .active ∨ x.state = .suspended → x.ticket.isSome = true
  unclaimed : x.state = .offline ∨ x.state = .free ∨ x.state = .blocked ∨ x.state = .faulted → x.ticket = none
  session : x.session.isSome = true ↔ x.state = .active ∨ x.state = .suspended
  holder : ∀ k ∈ x.session, x.ticket = some k.ticket ∧ (k.reconnect.isSome = true ↔ x.state = .suspended)
  fault : x.fault.isSome = true ↔ x.state = .faulted

/-- A bay without a claim has no session. -/
theorem Bay.Right.session_none {x : Bay} (h : x.Right) (ht : x.ticket = none) : x.session = none := by
  cases hs : x.session with
  | none => rfl
  | some k => simp [(h.holder k hs).1] at ht

/-- A bay record written over itself changes nothing. -/
@[simp] theorem State.setBay_bay_eq (s : State) (b : BayNo) : s.setBay b (s.bay b) = s := by
  simp [State.setBay, State.bay]

/-- The ticket that a bay names is live and names the bay in turn (R2). -/
def State.namesBack (s : State) (b : BayNo) : Prop :=
  ∀ n, (s.bay b).ticket = some n → ∃ t ∈ s.tickets, t.number = n ∧ t.bay = some b

theorem State.bayPlaced_iff (s : State) (b : BayNo) : s.bayPlaced b ↔ (s.bay b).Right ∧ s.namesBack b := by
  simp only [State.bayPlaced, State.namesBack, Option.mem_def]
  constructor
  · rintro ⟨h1, h2, h3, h4, h5, h6, h7⟩
    exact ⟨⟨h1, h3, h4, h5, h6, h7⟩, h2⟩
  · rintro ⟨⟨h1, h3, h4, h5, h6, h7⟩, h2⟩
    exact ⟨h1, h2, h3, h4, h5, h6, h7⟩

theorem State.Stands.congr {s u : State} {t : Ticket} (h : s.Stands t)
    (hq : t.number ∈ (s.pool t.pool).queue → t.number ∈ (u.pool t.pool).queue)
    (hb : ∀ b, t.bay = some b → u.bay b = s.bay b) : u.Stands t :=
  ⟨fun hw => hq (h.queued hw), h.offer, h.hold, h.bay, fun b e => by rw [hb b e]; exact h.named b e⟩

/-- A ticket that stands at a bay claims its state. -/
theorem State.Stands.not_claimed {s : State} {t : Ticket} (h : s.Stands t) {b : BayNo} (hb : (s.bay b).ticket ≠ some t.number) :
    t.bay ≠ some b :=
  fun e => hb (h.named b e).2

theorem State.queuePlaced_congr {s u : State} {q : PoolNo} (h : s.queuePlaced q)
    (hq : (u.pool q).queue = (s.pool q).queue) (hr : ∀ n ∈ (s.pool q).queue, u.rankOf n = s.rankOf n)
    (ht : ∀ t ∈ s.tickets, t.number ∈ (s.pool q).queue → t.pool = q → t.state = .waiting ∨ t.state = .offered →
      ∃ t' ∈ u.tickets, t'.number = t.number ∧ t'.pool = q ∧ (t'.state = .waiting ∨ t'.state = .offered)) :
    u.queuePlaced q := by
  obtain ⟨hl, hn, hp, hm⟩ := h
  refine ⟨hq ▸ hl, hq ▸ hn, ?_, ?_⟩
  · rw [hq]
    exact hp.imp_of_mem fun ha hb hab => by rw [hr _ ha, hr _ hb]; exact hab
  · rw [hq]
    intro n hn
    obtain ⟨t, ht', rfl, hpool, hst⟩ := hm n hn
    exact ht t ht' hn hpool hst

/-! ### The agreement but at an open bay and an open ticket -/

/-- Tickets, bays, queues and the admission list agree but at an open bay and an open ticket, where there are such. An
open bay is enrolled, has no session, no fault and no claim but that of an open ticket, and the part is in RUN. -/
structure AgreeBut (ob : Option BayNo) (ot : Option Nat) (s : State) : Prop where
  fits : TicketsFit s
  ticket : ∀ t ∈ s.tickets, ot ≠ some t.number → s.Stands t
  bay : ∀ b, ob ≠ some b → (s.bay b).Right
  names : ∀ b, ob ≠ some b → s.namesBack b
  queue : ∀ q, s.queuePlaced q
  nodup : s.admission.Nodup
  admission : ∀ b, b ∈ s.admission ↔ (s.bay b).session.isSome = true
  config : s.opState = .config → s.tickets = [] ∧ s.bus.sweep = .idle ∧ ∀ b, (s.bay b).state = .offline
  sweep : ∀ b, s.bus.sweep = .slot b → (s.bay b).enrolled = true
  isOpen : ∀ b, ob = some b → s.opState = .run ∧
    ((s.bay b).enrolled = true ∧ (s.bay b).session = none ∧ (s.bay b).fault = none) ∧ ∀ t ∈ s.tickets, ot ≠ some t.number → t.bay ≠ some b
  loose : ∀ n, ot = some n → ∀ b, ob ≠ some b → (s.bay b).ticket ≠ some n

theorem agreeBut_none_iff (s : State) : AgreeBut none none s ↔ ClaimsAgree s := by
  simp only [ClaimsAgree, State.ticketPlaced_iff, State.bayPlaced_iff]
  constructor
  · intro h
    refine ⟨h.fits, fun t ht => h.ticket t ht (by simp), fun b => ⟨h.bay b (by simp), h.names b (by simp)⟩, h.queue,
      h.nodup, fun b => ?_, h.config, h.sweep⟩
    rw [h.admission b, (h.bay b (by simp)).session]
  · rintro ⟨hf, ht, hb, hq, hn, ha, hc, hs⟩
    refine ⟨hf, fun t h _ => ht t h, fun b _ => (hb b).1, fun b _ => (hb b).2, hq, hn, fun b => ?_, hc, hs, by simp, by simp⟩
    rw [ha b, (hb b).1.session]

namespace AgreeBut

variable {ob : Option BayNo} {ot : Option Nat} {s : State}

/-- The agreement rests on the tickets, the bays, the queues of the pools, the admission list, the operating state and
the sweep alone. -/
theorem congr (h : AgreeBut ob ot s) {u : State} (ht : u.tickets = s.tickets)
    (hc : 1 ≤ u.ticketCounter ∧ u.ticketCounter ≤ 65535) (hb : ∀ b, u.bay b = s.bay b)
    (hp : ∀ q, (u.pool q).queue = (s.pool q).queue) (ha : u.admission = s.admission)
    (ho : u.opState = s.opState) (hw : u.bus.sweep = s.bus.sweep) : AgreeBut ob ot u := by
  have hrank : ∀ n, u.rankOf n = s.rankOf n := fun n => by simp only [State.rankOf, State.ticket?, ht]
  obtain ⟨⟨h1, h2, h3, -⟩, h4, h5, h6, h7, h8, h9, h10, h11, h12, h13⟩ := h
  constructor
  · exact ⟨ht ▸ h1, by rw [State.liveTickets, ht]; exact h2, by rw [State.liveTickets, ht]; exact h3, hc⟩
  · rw [ht]
    exact fun t htm hn => (h4 t htm hn).congr (by rw [hp]; exact id) (fun b _ => hb b)
  · exact fun b hn => hb b ▸ h5 b hn
  · intro b hn
    unfold State.namesBack
    rw [hb b, ht]
    exact h6 b hn
  · exact fun q => State.queuePlaced_congr (h7 q) (hp q) (fun n _ => hrank n)
      (fun t htm _ hpool hst => ⟨t, ht ▸ htm, rfl, hpool, hst⟩)
  · exact ha ▸ h8
  · intro b
    rw [ha, hb b]
    exact h9 b
  · simpa only [ho, ht, hw, hb] using h10
  · simpa only [hw, hb] using h11
  · simpa only [ho, ht, hb] using h12
  · simpa only [hb] using h13

/-- An operation that writes none of these leaves the agreement. -/
theorem frame (h : AgreeBut ob ot s) {u : State} (ht : u.tickets = s.tickets := by simp)
    (hc : u.ticketCounter = s.ticketCounter := by simp) (hb : u.bays = s.bays := by simp)
    (hp : u.pools = s.pools := by simp) (ha : u.admission = s.admission := by simp)
    (ho : u.opState = s.opState := by simp) (hw : u.bus.sweep = s.bus.sweep := by simp) : AgreeBut ob ot u := by
  obtain ⟨-, -, -, hcount⟩ := h.fits
  exact h.congr ht (hc ▸ hcount) (fun b => by simp only [State.bay, hb]) (fun q => by simp only [State.pool, hp]) ha ho hw

/-- The ticket that an agreeing bay names stands there. -/
theorem named (h : AgreeBut ob ot s) {b : BayNo} {n : Nat} (hb : ob ≠ some b) (hn : (s.bay b).ticket = some n) :
    ∃ t, s.ticket? n = some t ∧ t ∈ s.tickets ∧ t.number = n ∧ t.bay = some b := by
  obtain ⟨t, ht, rfl, htb⟩ := h.names b hb n hn
  exact ⟨t, h.fits.ticket?_of_mem ht, ht, rfl, htb⟩

/-! ### Opening and settling a bay -/

/-- A bay that is not OFFLINE is enrolled, and the part is in RUN. -/
theorem enrolled_of_state (h : AgreeBut ob ot s) {b : BayNo} (hb : ob ≠ some b) (hs : (s.bay b).state ≠ .offline) :
    s.opState = .run ∧ (s.bay b).enrolled = true := by
  constructor
  · cases e : s.opState with
    | run => rfl
    | config => exact absurd ((h.config e).2.2 b) hs
  · have := (h.bay b hb).unenrolled
    cases e : (s.bay b).enrolled with
    | true => rfl
    | false => exact absurd (this e) hs

/-- No ticket but an open one claims the bay, which is enrolled and has no session; and the part is in RUN. -/
def Idle (ot : Option Nat) (s : State) (b : BayNo) : Prop :=
  s.opState = .run ∧ (s.bay b).enrolled = true ∧ (s.bay b).session = none ∧
    ∀ t ∈ s.tickets, ot ≠ some t.number → t.bay ≠ some b

theorem idle_of_unclaimed (h : AgreeBut none ot s) {b : BayNo} (hr : s.opState = .run)
    (he : (s.bay b).enrolled = true) (ht : (s.bay b).ticket = none) : Idle ot s b :=
  ⟨hr, he, (h.bay b (by simp)).session_none ht, fun t htm hn => (h.ticket t htm hn).not_claimed (by simp [ht])⟩

theorem idle_of_open {b : BayNo} (h : AgreeBut (some b) ot s) : Idle ot s b := by
  obtain ⟨hr, ⟨he, hse, -⟩, hn⟩ := h.isOpen b rfl
  exact ⟨hr, he, hse, hn⟩

/-- A write of a bay that no ticket claims: it is then open, or right without a claim. -/
theorem write {b : BayNo} (h : AgreeBut ob ot s) (hob : ob = none ∨ ob = some b) (hi : Idle ot s b) {x : Bay}
    (hxe : x.enrolled = true) (hxs : x.session = none) {ob' : Option BayNo}
    (hx : ob' = some b ∧ x.fault = none ∨ ob' = none ∧ x.Right ∧ x.ticket = none) : AgreeBut ob' ot (s.setBay b x) := by
  obtain ⟨hr, hen, hse, hnot⟩ := hi
  have hother : ∀ c, c ≠ b → ob ≠ some c ∧ (s.setBay b x).bay c = s.bay c := fun c hc =>
    ⟨by rcases hob with rfl | rfl <;> simp [hc.symm], s.setBay_bay_of_ne hc x⟩
  have hclosed : ∀ c, ob' ≠ some c → c = b → x.Right ∧ x.ticket = none := by
    rintro c hc rfl
    rcases hx with ⟨rfl, -⟩ | ⟨-, hx⟩
    · exact absurd rfl hc
    · exact hx
  refine ⟨h.fits, fun t htm hn => ?_, fun c hc => ?_, fun c hc n hcn => ?_, h.queue, h.nodup, fun c => ?_, ?_,
    fun c => ?_, fun c hc => ?_, fun n hn c hc => ?_⟩
  · exact (h.ticket t htm hn).congr id fun c e => (hother c fun e' => hnot t htm hn (e' ▸ e)).2
  · by_cases e : c = b
    · subst e
      simpa using (hclosed c hc rfl).1
    · rw [(hother c e).2]
      exact h.bay c (hother c e).1
  · by_cases e : c = b
    · subst e
      simp [(hclosed c hc rfl).2] at hcn
    · rw [(hother c e).2] at hcn
      exact h.names c (hother c e).1 n hcn
  · have := h.admission c
    rw [State.setBay_bay]
    split
    · subst c
      simpa [hse, hxs] using this
    · exact this
  · simp [hr]
  · rw [State.setBay_bay]
    split
    · exact fun _ => hxe
    · exact h.sweep c
  · subst hc
    obtain ⟨e, hf⟩ : some c = some b ∧ x.fault = none := by simpa using hx
    cases e
    rw [State.setBay_bay_self]
    exact ⟨hr, ⟨hxe, hxs, hf⟩, hnot⟩
  · by_cases e : c = b
    · subst e
      simp [(hclosed c hc rfl).2]
    · rw [(hother c e).2]
      exact h.loose n hn c (hother c e).1

/-- An enrolled bay without a claim may be opened, in RUN, and written. -/
theorem openWith (h : AgreeBut none ot s) {b : BayNo} (hr : s.opState = .run) (he : (s.bay b).enrolled = true)
    (ht : (s.bay b).ticket = none) {x : Bay} (hxe : x.enrolled = true) (hxs : x.session = none) (hxf : x.fault = none) :
    AgreeBut (some b) ot (s.setBay b x) :=
  h.write (.inl rfl) (h.idle_of_unclaimed hr he ht) hxe hxs (.inl ⟨rfl, hxf⟩)

/-- An enrolled bay without a claim and without a fault may be opened, in RUN. -/
theorem openAt (h : AgreeBut none ot s) {b : BayNo} (hr : s.opState = .run) (he : (s.bay b).enrolled = true)
    (ht : (s.bay b).ticket = none) (hf : (s.bay b).fault = none) : AgreeBut (some b) ot s := by
  have := h.openWith hr he ht he ((h.bay b (by simp)).session_none ht) hf
  rwa [State.setBay_bay_eq] at this

/-- A write of a bay without a claim, from one right record without a claim to another. -/
theorem rewrite (h : AgreeBut none ot s) {b : BayNo} (hr : s.opState = .run) (he : (s.bay b).enrolled = true)
    (ht : (s.bay b).ticket = none) {x : Bay} (hxe : x.enrolled = true) (hx : x.Right) (hxt : x.ticket = none) :
    AgreeBut none ot (s.setBay b x) :=
  h.write (.inl rfl) (h.idle_of_unclaimed hr he ht) hxe (hx.session_none hxt) (.inr ⟨rfl, hx, hxt⟩)

/-- A write of the open bay that leaves it enrolled, without a session and without a fault. -/
theorem setBay {b : BayNo} (h : AgreeBut (some b) ot s) {x : Bay} (hxe : x.enrolled = true) (hxs : x.session = none)
    (hxf : x.fault = none) : AgreeBut (some b) ot (s.setBay b x) :=
  h.write (.inr rfl) h.idle_of_open hxe hxs (.inl ⟨rfl, hxf⟩)

/-- The open bay is settled in a right record without a claim. -/
theorem settle {b : BayNo} (h : AgreeBut (some b) ot s) {x : Bay} (hxe : x.enrolled = true) (hx : x.Right)
    (hxt : x.ticket = none) : AgreeBut none ot (s.setBay b x) :=
  h.write (.inr rfl) h.idle_of_open hxe (hx.session_none hxt) (.inr ⟨rfl, hx, hxt⟩)

/-- A change of a bay record agrees where the write of the changed record does (R7). -/
theorem of_setBay {b : BayNo} {f : Bay → Bay} (h : AgreeBut ob ot (s.setBay b (f (s.bay b)))) :
    AgreeBut ob ot (s.changeBay b f) :=
  h.frame (by simp) (by simp) (by rw [State.changeBay_eq]; rfl)

/-! ### Opening, rewriting and placing a ticket -/

/-- A ticket that has no session may be opened with the bay that names it. -/
theorem openTicket (h : AgreeBut none none s) {t : Ticket} (ht : t ∈ s.tickets) (hst : t.state ≠ .charging) :
    AgreeBut t.bay (some t.number) s := by
  have hs := h.ticket t ht (by simp)
  refine { h with
    ticket := fun u hu _ => h.ticket u hu (by simp), bay := fun c _ => h.bay c (by simp),
    names := fun c _ => h.names c (by simp), isOpen := fun b hb => ?_, loose := ?_ }
  · obtain ⟨hc, hn⟩ := hs.named b hb
    have hright := h.bay b (by simp)
    have hstate : (s.bay b).state = .offered ∨ (s.bay b).state = .held ∨ (s.bay b).state = .occupied := by
      cases e : t.state <;> simp_all [TicketState.claims]
    obtain ⟨hr, he⟩ := h.enrolled_of_state (b := b) (by simp) (by rcases hstate with e | e | e <;> simp [e])
    refine ⟨hr, ⟨he, ?_, ?_⟩, fun u hu hne hub => hne ?_⟩
    · cases e : (s.bay b).session with
      | none => rfl
      | some k => rcases hright.session.mp (by simp [e]) with e | e <;> simp [e] at hstate
    · cases e : (s.bay b).fault with
      | none => rfl
      | some k => simp [hright.fault.mp (by simp [e])] at hstate
    · rw [← ((h.ticket u hu (by simp)).named b hub).2, hn]
  · rintro n ⟨⟩ b hb hn
    obtain ⟨u, hu, e, hub⟩ := h.names b (by simp) t.number hn
    exact hb (h.fits.eq_of_number hu ht e ▸ hub)

/-- The open ticket is rewritten; in a queue it stays where it is. -/
theorem modTicket {n : Nat} (h : AgreeBut ob (some n) s) {f : Ticket → Ticket} (hf : ∀ u, (f u).number = u.number)
    (hq : ∀ u ∈ s.tickets, u.number = n → n ∈ (s.pool u.pool).queue →
      (f u).pool = u.pool ∧ (f u).cls = u.cls ∧ ((f u).state = .waiting ∨ (f u).state = .offered)) :
    AgreeBut ob (some n) (s.modTicket n f) := by
  have hmem : ∀ u', u' ∈ (s.modTicket n f).tickets ↔ ∃ u ∈ s.tickets, (if u.number = n then f u else u) = u' := by
    intro u'
    simp only [State.modTicket, List.mem_map]
  have hnum : ∀ u : Ticket, (if u.number = n then f u else u).number = u.number := by
    intro u
    split
    · exact hf u
    · rfl
  have hlive : (s.modTicket n f).liveTickets = s.liveTickets := by
    simp [State.liveTickets, State.modTicket, hnum, Function.comp_def]
  have hkeep : ∀ u ∈ s.tickets, u.number ≠ n → u ∈ (s.modTicket n f).tickets := fun u hu hne =>
    (hmem u).mpr ⟨u, hu, if_neg hne⟩
  have hback : ∀ u ∈ (s.modTicket n f).tickets, some n ≠ some u.number → u ∈ s.tickets := by
    intro u' hu' hne
    obtain ⟨u, hu, rfl⟩ := (hmem u').mp hu'
    rw [hnum] at hne
    rw [if_neg fun e => hne (congrArg some e.symm)]
    exact hu
  refine { h with fits := ?_, ticket := ?_, names := ?_, queue := ?_, config := ?_, isOpen := ?_ }
  · obtain ⟨h1, h2, h3, h4⟩ := h.fits
    exact ⟨by simpa [State.modTicket] using h1, hlive ▸ h2, hlive ▸ h3, h4⟩
  · exact fun u hu hne => (h.ticket u (hback u hu hne) hne).congr id fun _ _ => rfl
  · intro b hb m hm
    obtain ⟨u, hu, rfl, hub⟩ := h.names b hb m hm
    exact ⟨u, hkeep u hu fun e => h.loose n rfl b hb (e ▸ hm), rfl, hub⟩
  · intro q
    refine State.queuePlaced_congr (h.queue q) rfl (fun m hm => ?_) fun u hu hm hpool hst => ?_
    · simp only [State.rankOf, State.modTicket_ticket_find s n m f hf]
      cases e : s.ticket? m with
      | none => rfl
      | some u =>
        have hu := State.ticket?_number e
        simp only [Option.map_some]
        split
        · rename_i hmn
          obtain ⟨u', hu', e', hp', -⟩ := (h.queue q).2.2.2 m hm
          have heq := h.fits.eq_of_number hu' (State.mem_of_ticket? e) (by omega)
          rw [(hq u (State.mem_of_ticket? e) (by omega) (by rw [← heq, hp', ← hmn]; exact hm)).2.1]
        · rfl
    · by_cases e : u.number = n
      · obtain ⟨hp, -, hs⟩ := hq u hu e (by rw [hpool, ← e]; exact hm)
        exact ⟨f u, (hmem _).mpr ⟨u, hu, if_pos e⟩, hf u, hp.trans hpool, hs⟩
      · exact ⟨u, hkeep u hu e, rfl, hpool, hst⟩
  · intro hc
    obtain ⟨h1, h2, h3⟩ := h.config hc
    exact ⟨by simp [State.modTicket, h1], h2, h3⟩
  · intro b hb
    obtain ⟨h1, h2, h4⟩ := h.isOpen b hb
    exact ⟨h1, h2, fun u hu hne => h4 u (hback u hu hne) hne⟩

/-- The open ticket stands where its state says, at no bay that is open. -/
theorem closeTicket {t : Ticket} (h : AgreeBut ob (some t.number) s) (ht : t ∈ s.tickets) (hs : s.Stands t)
    (hb : ob = none ∨ t.bay = none) : AgreeBut ob none s := by
  refine { h with ticket := fun u hu _ => ?_, isOpen := fun b hob => ?_, loose := by simp }
  · by_cases e : some t.number = some u.number
    · exact h.fits.eq_of_number ht hu (by simpa using e) ▸ hs
    · exact h.ticket u hu e
  · obtain ⟨h1, h2, h4⟩ := h.isOpen b hob
    refine ⟨h1, h2, fun u hu _ => ?_⟩
    by_cases e : some t.number = some u.number
    · rw [← h.fits.eq_of_number ht hu (by simpa using e)]
      rcases hb with hb | hb <;> simp_all
    · exact h4 u hu e

/-- The open ticket stands at the open bay, whose record is right and names it. -/
theorem closeBoth {b : BayNo} {t : Ticket} (h : AgreeBut (some b) (some t.number) s) (ht : t ∈ s.tickets)
    (hs : s.Stands t) (htb : t.bay = some b) (hb : (s.bay b).Right) : AgreeBut none none s := by
  have hn := (hs.named b htb).2
  refine { h with
    ticket := fun u hu _ => ?_, bay := fun c _ => ?_, names := fun c _ => ?_, isOpen := by simp, loose := by simp }
  · by_cases e : some t.number = some u.number
    · exact h.fits.eq_of_number ht hu (by simpa using e) ▸ hs
    · exact h.ticket u hu e
  · by_cases e : b = c
    · exact e ▸ hb
    · exact h.bay c (by simpa using e)
  · by_cases e : b = c
    · subst e
      intro m hm
      rw [hn] at hm
      cases hm
      exact ⟨t, ht, rfl, htb⟩
    · exact h.names c (by simpa using e)

/-! ### The wait queues -/

/-- The open ticket leaves a queue (R48). -/
theorem leaveQueue {n : Nat} (h : AgreeBut ob (some n) s) (q : PoolNo) : AgreeBut ob (some n) (s.leaveQueue q n) := by
  have hqueue : ∀ p, ((s.leaveQueue q n).pool p).queue =
      if p = q then (s.pool p).queue.filter (fun m => m != n) else (s.pool p).queue := by
    intro p
    simp only [State.leaveQueue, State.setPool_pool]
    split
    · subst p
      rfl
    · rfl
  have hsub : ∀ p, ((s.leaveQueue q n).pool p).queue.Sublist (s.pool p).queue := by
    intro p
    rw [hqueue]
    split
    · exact List.filter_sublist
    · exact List.Sublist.refl _
  refine { h with
    ticket := fun t ht hn => (h.ticket t ht hn).congr (fun hm => ?_) fun _ _ => rfl, queue := fun p => ?_ }
  · rw [hqueue]
    have hne : t.number ≠ n := fun e => hn (e ▸ rfl)
    split
    · exact List.mem_filter.mpr ⟨hm, by simpa using hne⟩
    · exact hm
  · obtain ⟨h1, h2, h3, h4⟩ := h.queue p
    exact ⟨(hsub p).length_le.trans h1, h2.sublist (hsub p), h3.sublist (hsub p), fun m hm => h4 m ((hsub p).subset hm)⟩

/-- A ticket that has left the queue of its pool is in none (R46). -/
theorem not_mem_leaveQueue (h : AgreeBut ob ot s) {t : Ticket} (ht : t ∈ s.tickets) (p : PoolNo) :
    t.number ∉ ((s.leaveQueue t.pool t.number).pool p).queue := by
  simp only [State.leaveQueue, State.setPool_pool]
  split
  · simp
  · intro hm
    obtain ⟨u, hu, e, hp, -⟩ := (h.queue p).2.2.2 _ hm
    rw [h.fits.eq_of_number hu ht e] at hp
    exact absurd hp.symm (by assumption)

/-- The open ticket, which is WAITING, joins the queue of its pool, which has room and does not hold it (R47). -/
theorem joinQueue {t : Ticket} (h : AgreeBut ob (some t.number) s) (ht : t ∈ s.tickets) (hst : t.state = .waiting)
    (hroom : (s.pool t.pool).queue.length < 12) (hn : t.number ∉ (s.pool t.pool).queue) :
    AgreeBut ob (some t.number) (s.joinQueue t.pool t.number) := by
  obtain ⟨front, back, e, hj, hf, hbk⟩ := joinAt_sorted_split s.rankOf t.number (s.rankOf t.number)
    (s.pool t.pool).queue (h.queue t.pool).2.2.1
  have hqueue : ∀ p, ((s.joinQueue t.pool t.number).pool p).queue =
      if p = t.pool then front ++ t.number :: back else (s.pool p).queue := by
    intro p
    simp only [State.joinQueue, State.setPool_pool]
    split
    · exact hj
    · rfl
  refine { h with
    ticket := fun u hu hne => (h.ticket u hu hne).congr (fun hm => ?_) fun _ _ => rfl, queue := fun p => ?_ }
  · rw [hqueue]
    split
    · rename_i hp
      rw [hp, e] at hm
      grind
    · exact hm
  · by_cases hp : p = t.pool
    · subst hp
      obtain ⟨h1, h2, h3, h4⟩ := h.queue t.pool
      have hrank : (s.joinQueue t.pool t.number).rankOf = s.rankOf := rfl
      have htick : (s.joinQueue t.pool t.number).tickets = s.tickets := rfl
      simp only [State.queuePlaced, hqueue, if_true, hrank, htick]
      rw [e] at h1 h2 h3 h4 hn hroom
      refine ⟨by grind, ?_, ?_, ?_⟩
      · exact (List.nodup_middle.mpr (List.nodup_cons.mpr ⟨hn, h2⟩))
      · have hle : ∀ m ∈ back, s.rankOf t.number ≤ s.rankOf m := fun m hm => (hbk m hm).le
        rw [List.pairwise_append] at h3 ⊢
        obtain ⟨h31, h32, h33⟩ := h3
        refine ⟨h31, List.pairwise_cons.mpr ⟨hle, h32⟩, fun a ha b hb => ?_⟩
        rcases List.mem_cons.mp hb with rfl | hb
        · exact hf a ha
        · exact h33 a ha b hb
      · intro m hm
        by_cases em : m = t.number
        · exact ⟨t, ht, em.symm, rfl, .inl hst⟩
        · exact h4 m (by grind)
    · exact State.queuePlaced_congr (h.queue p) (by rw [hqueue, if_neg hp]) (fun _ _ => rfl)
        fun u hu _ hpool hs => ⟨u, hu, rfl, hpool, hs⟩

end AgreeBut

end Sys2Proof.Machine
end

