-- ==== Sys2Proof/Proofs/ClaimOps.lean ====
section
/-! SUPPORT. What the shared operations do to the agreement of claims: each one opens, rewrites, places or settles the
bay and the ticket that it is at work on. -/

namespace Sys2Proof.Machine

theorem State.mem_modTicket {s : State} {t : Ticket} (ht : t ∈ s.tickets) (f : Ticket → Ticket) :
    f t ∈ (s.modTicket t.number f).tickets :=
  List.mem_map.mpr ⟨t, ht, if_pos rfl⟩

/-- The state with a ticket out of the queue that it stands in, where its state says that it stands in one. -/
def State.outOfQueue (s : State) (t : Ticket) : State :=
  if t.state = .waiting ∨ t.state = .offered then s.leaveQueue t.pool t.number else s

/-- A ticket without a bay is freed: it leaves its queue and the table (R40). -/
theorem State.freeTicket_of_unbayed {s : State} {n : Nat} {t : Ticket} (h : s.ticket? n = some t) (hb : t.bay = none) :
    s.freeTicket n =
      { s.outOfQueue t with tickets := (s.outOfQueue t).tickets.filter (fun u => u.number != n) } := by
  obtain rfl := State.ticket?_number h
  unfold State.freeTicket
  rw [h]
  dsimp only
  rw [hb]
  rfl

/-- A ticket with a bay is freed: it leaves its queue, its bay's field and the table (R40). -/
theorem State.freeTicket_of_bay {s : State} {n : Nat} {t : Ticket} {b : BayNo} (h : s.ticket? n = some t)
    (hb : t.bay = some b) : s.freeTicket n =
      { (s.outOfQueue t).unname b n with
        tickets := ((s.outOfQueue t).unname b n).tickets.filter (fun u => u.number != n) } := by
  obtain rfl := State.ticket?_number h
  unfold State.freeTicket
  rw [h]
  dsimp only
  rw [hb]
  rfl

/-! ### Entries as the operations write them -/

/-- A ticket whose offer has been withdrawn (R61). -/
def Ticket.withdrawn (t : Ticket) : Ticket := { t with state := .waiting, bay := none, offerDeadline := none }

/-- A ticket that has been requeued in a class (R64). -/
def Ticket.requeued (t : Ticket) (c : TicketClass) : Ticket :=
  { t with state := .waiting, cls := c, bay := none, holdDeadline := none }

/-- A ticket that has given up the offer of a bay (R57, R58). -/
def Ticket.gaveUp (t : Ticket) (b : BayNo) : Ticket :=
  { t with state := .waiting, bay := none, offerDeadline := none, lastDeclined := some b }

/-- A ticket that is offered a bay (R55). -/
def Ticket.offeredAt (t : Ticket) (b : BayNo) (d : Seconds) : Ticket :=
  { t with state := .offered, bay := some b, offerDeadline := some d }

/-- A ticket that is held at a bay (R35). -/
def Ticket.heldAt (t : Ticket) (b : BayNo) (d : Seconds) : Ticket :=
  { t with state := .held, bay := some b, offerDeadline := none, holdDeadline := some d, lastDeclined := none }

/-- A ticket that has arrived (R37). -/
def Ticket.hasArrived (t : Ticket) : Ticket := { t with state := .arrived, holdDeadline := none }

/-- A ticket whose session has opened at a bay (R93). -/
def Ticket.chargingAt (t : Ticket) (b : BayNo) : Ticket := { t with state := .charging, bay := some b }

/-- A withdrawal rewrites the ticket's entry and the bay's field, and raises one notice (R61). -/
theorem State.withdraw_eq {s : State} {b : BayNo} {n : Nat} (h : (s.bay b).ticket = some n) (w : WithdrawReason) :
    s.withdraw b w = ((s.modTicket n Ticket.withdrawn).setBay b { s.bay b with ticket := none }).raiseTo n
      (.offerWithdrawn n b w) := by
  unfold State.withdraw
  rw [h]
  rfl

/-- The entry and the queue once a ticket has been requeued (R64). -/
def State.requeuedState (s : State) (t : Ticket) (b : BayNo) : State :=
  ((s.modTicket t.number (fun u => u.requeued t.requeuedClass)).unname b t.number).joinQueue t.pool t.number

/-- A requeue rewrites the ticket's entry and the queue, and raises one notice (R64). -/
theorem State.requeue_eq {s : State} {n : Nat} {t : Ticket} (h : s.ticket? n = some t) (b : BayNo) :
    s.requeue n b = (s.requeuedState t b).raise t.origin
      (.requeued n t.pool ((s.requeuedState t b).position t.pool n)) := by
  obtain rfl := State.ticket?_number h
  unfold State.requeue
  rw [h]
  rfl

/-- A bay that is eligible for a ticket is FREE (R49). -/
theorem State.free_of_eligible {s : State} {b : BayNo} {t : Ticket} (h : s.eligible b t = true) :
    (s.bay b).state = .free := by
  simp only [State.eligible, Bool.and_eq_true, decide_eq_true_eq] at h
  exact h.1.1.1.1.1.1

/-! ### Standing -/

/-- A ticket that has joined a queue stands in it (R47). -/
theorem State.mem_joinQueue (s : State) (q : PoolNo) (n : Nat) : n ∈ ((s.joinQueue q n).pool q).queue := by
  obtain ⟨front, back, -, e, -⟩ := joinAt_split s.rankOf n (s.rankOf n) (s.pool q).queue
  simp [State.joinQueue, e]

/-- A WAITING ticket stands in the queue of its pool, without a bay and without a timer. -/
theorem State.stands_waiting {s : State} {t : Ticket} (hst : t.state = .waiting) (hb : t.bay = none)
    (ho : t.offerDeadline = none) (hh : t.holdDeadline = none) (hq : t.number ∈ (s.pool t.pool).queue) : s.Stands t :=
  ⟨fun _ => hq, by simp [ho, hst], by simp [hh, hst], by simp [hb, hst], by simp [hb]⟩

/-- A ticket stands at the bay that names it, in the state that it claims. -/
theorem State.stands_at {s : State} {t : Ticket} {b : BayNo} (hst : t.state ≠ .waiting) (hb : t.bay = some b)
    (hc : t.state.claims (s.bay b).state) (hn : (s.bay b).ticket = some t.number)
    (hq : t.state = .offered → t.number ∈ (s.pool t.pool).queue)
    (ho : t.offerDeadline.isSome = true ↔ t.state = .offered) (hh : t.holdDeadline.isSome = true ↔ t.state = .held) :
    s.Stands t :=
  ⟨fun hw => hq (hw.resolve_left hst), ho, hh, by simp [hb, hst], by simp [hb, hc, hn]⟩

/-- A ticket has no timer but that of its state. -/
theorem State.Stands.offer_none {s : State} {t : Ticket} (h : s.Stands t) (hst : t.state ≠ .offered) :
    t.offerDeadline = none :=
  Option.not_isSome_iff_eq_none.mp fun e => hst (h.offer.mp e)

theorem State.Stands.hold_none {s : State} {t : Ticket} (h : s.Stands t) (hst : t.state ≠ .held) :
    t.holdDeadline = none :=
  Option.not_isSome_iff_eq_none.mp fun e => hst (h.hold.mp e)

/-- The state of a ticket that claims a bay, from the bay's state. -/
theorem TicketState.of_claims {st : TicketState} :
    (st.claims .offered → st = .offered) ∧ (st.claims .held → st = .held) ∧ (st.claims .occupied → st = .arrived) ∧
      (st.claims .active → st = .charging) ∧ (st.claims .suspended → st = .charging) := by
  cases st <;> simp [TicketState.claims]

/-- A write of what the agreement does not read of a bay record keeps it right. -/
theorem Bay.Right.touch {x y : Bay} (h : x.Right) (he : y.enrolled = x.enrolled) (hst : y.state = x.state)
    (ht : y.ticket = x.ticket) (hf : y.fault = x.fault)
    (hs : y.session.map (fun k => (k.ticket, k.reconnect)) = x.session.map (fun k => (k.ticket, k.reconnect))) :
    y.Right := by
  obtain ⟨h1, h2, h3, h4, h5, h6⟩ := h
  refine ⟨by rwa [he, hst], by rwa [hst, ht], by rwa [hst, ht], ?_, ?_, by rwa [hf, hst]⟩
  · rw [hst, ← h4]
    simpa using congrArg Option.isSome hs
  · intro k hk
    cases hx : x.session with
    | none => simp_all
    | some j =>
      obtain ⟨e1, e2⟩ : k.ticket = j.ticket ∧ k.reconnect = j.reconnect := by simpa [Option.mem_def.mp hk, hx] using hs
      rw [hst, ht, e1, e2]
      exact h5 j hx

/-- A record without a claim is right in a state without a claim. -/
theorem Bay.right_of_unclaimed {x : Bay} (he : x.enrolled = true) (ht : x.ticket = none) (hs : x.session = none)
    (hst : x.state = .offline ∨ x.state = .free ∨ x.state = .occupied ∨ x.state = .blocked ∨ x.state = .faulted)
    (hf : x.fault.isSome = true ↔ x.state = .faulted) : x.Right := by
  refine ⟨by simp [he], ?_, fun _ => ht, ?_, by simp [hs], hf⟩ <;> rcases hst with e | e | e | e | e <;> simp [e, hs]

namespace AgreeBut

variable {ob : Option BayNo} {ot : Option Nat} {s : State}

theorem raise (h : AgreeBut ob ot s) (p : Port) (n : Notice) : AgreeBut ob ot (s.raise p n) := h.frame

theorem raiseBoth (h : AgreeBut ob ot s) (p : Port) (n : Notice) : AgreeBut ob ot (s.raiseBoth p n) := h.frame

theorem raiseTo (h : AgreeBut ob ot s) (k : Nat) (n : Notice) : AgreeBut ob ot (s.raiseTo k n) := h.frame

theorem setSetpoint (h : AgreeBut ob ot s) (b : BayNo) (x : Setpoint) : AgreeBut ob ot (s.setSetpoint b x) := h.frame

theorem recompute (h : AgreeBut ob ot s) : AgreeBut ob ot s.recompute := h.frame

theorem pointTo (h : AgreeBut ob ot s) (q : PoolNo) (b : BayNo) : AgreeBut ob ot (s.pointTo q b) :=
  h.congr rfl h.fits.2.2.2 (fun _ => rfl) (fun p => by
    simp only [State.pointTo, State.setPool_pool]
    split
    · subst p
      rfl
    · rfl) rfl rfl rfl

/-- A write of a bay that keeps its enrolment, its ticket and whether it has a session, and whose new state the same
ticket can claim. -/
theorem keepBay (h : AgreeBut ob ot s) {b : BayNo} (hb : ob ≠ some b) {x : Bay} (hx : x.Right)
    (he : x.enrolled = (s.bay b).enrolled) (ht : x.ticket = (s.bay b).ticket)
    (hs : x.session.isSome = (s.bay b).session.isSome)
    (hc : ∀ st : TicketState, st.claims (s.bay b).state → st.claims x.state)
    (hoff : (s.bay b).state = .offline → x.state = .offline) : AgreeBut ob ot (s.setBay b x) := by
  have hbay := s.setBay_bay b (x := x)
  refine ⟨h.fits, fun t htm hn => ?_, fun c hcb => ?_, fun c hcb n => ?_, h.queue, h.nodup, fun c => ?_, fun ho => ?_,
    fun c => ?_, fun c hob => ?_, fun n hn c hcb => ?_⟩
  · obtain ⟨h1, h2, h3, h4, h5⟩ := h.ticket t htm hn
    refine ⟨h1, h2, h3, h4, fun c e => ?_⟩
    rw [hbay]
    split
    · subst c
      exact ⟨hc _ (h5 b e).1, ht ▸ (h5 b e).2⟩
    · exact h5 c e
  · rw [hbay]
    split
    · exact hx
    · exact h.bay c hcb
  · rw [hbay]
    split
    · subst c
      exact fun e => h.names b hcb n (ht ▸ e)
    · exact h.names c hcb n
  · rw [hbay]
    split
    · subst c
      rw [hs]
      exact h.admission b
    · exact h.admission c
  · obtain ⟨h1, h2, h3⟩ := h.config ho
    refine ⟨h1, h2, fun c => ?_⟩
    rw [hbay]
    split
    · exact hoff (h3 b)
    · exact h3 c
  · rw [hbay]
    split
    · subst c
      rw [he]
      exact h.sweep b
    · exact h.sweep c
  · rw [hbay, if_neg (fun e : c = b => hb (e ▸ hob))]
    exact h.isOpen c hob
  · rw [hbay]
    split
    · subst c
      rw [ht]
      exact h.loose n hn b hcb
    · exact h.loose n hn c hcb

/-- A write of what the agreement does not read of a bay record. -/
theorem touch (h : AgreeBut none ot s) (b : BayNo) {x : Bay} (he : x.enrolled = (s.bay b).enrolled)
    (hst : x.state = (s.bay b).state) (ht : x.ticket = (s.bay b).ticket) (hf : x.fault = (s.bay b).fault)
    (hs : x.session.map (fun k => (k.ticket, k.reconnect)) =
      (s.bay b).session.map (fun k => (k.ticket, k.reconnect))) : AgreeBut none ot (s.setBay b x) :=
  h.keepBay (by simp) ((h.bay b (by simp)).touch he hst ht hf hs) he ht (by simpa using congrArg Option.isSome hs)
    (fun _ => hst ▸ id) (fun e => hst.trans e)

/-! ### Issue and freeing (R28, R40) -/

/-- A ticket is issued under a number that is not live, and is open (R28). -/
theorem issue (h : AgreeBut ob none s) {t : Ticket} (hr : s.opState = .run) (hroom : s.tickets.length < 64)
    (hn : t.number ∉ s.liveTickets) (hb : 1 ≤ t.number ∧ t.number ≤ 65535) :
    AgreeBut ob (some t.number) (s.issue t) := by
  have hmem : ∀ u, u ∈ (s.issue t).tickets ↔ u ∈ s.tickets ∨ u = t := by simp [State.issue]
  have hold : ∀ u ∈ (s.issue t).tickets, some t.number ≠ some u.number → u ∈ s.tickets := fun u hu hne =>
    ((hmem u).mp hu).resolve_right fun e => hne (by rw [e])
  have hlive : ∀ u ∈ s.tickets, u.number ≠ t.number := fun u hu e => hn (e ▸ List.mem_map_of_mem hu)
  have hrank : ∀ m ∈ s.liveTickets, (s.issue t).rankOf m = s.rankOf m := by
    intro m hm
    simp only [State.rankOf, State.issue_ticket_find s t hn]
    rw [if_neg (fun e : m = t.number => hn (e ▸ hm))]
  refine ⟨?_, fun u hu hne => ?_, h.bay, fun b hb n e => ?_, fun q => ?_, h.nodup, h.admission, ?_, h.sweep,
    fun b e => ?_, ?_⟩
  · obtain ⟨h1, h2, h3, h4⟩ := h.fits
    have e : (s.issue t).liveTickets = s.liveTickets ++ [t.number] := by simp [State.liveTickets, State.issue]
    refine ⟨by simpa [State.issue] using hroom, ?_, ?_, nextNumber_bounds _⟩
    · rw [e]
      exact List.nodup_append.mpr ⟨h2, List.nodup_singleton _, by simpa using fun m hm (e : m = t.number) => hn (e ▸ hm)⟩
    · rw [e]
      intro n hn
      rcases List.mem_append.mp hn with hn | hn
      · exact h3 n hn
      · rw [List.mem_singleton.mp hn]
        exact hb
  · exact (h.ticket u (hold u hu hne) (by simp)).congr id fun _ _ => rfl
  · obtain ⟨u, hu, hun, hub⟩ := h.names b hb n e
    exact ⟨u, (hmem u).mpr (.inl hu), hun, hub⟩
  · refine State.queuePlaced_congr (h.queue q) rfl (fun n hn => hrank n ?_)
      fun u hu _ hpool hst => ⟨u, (hmem u).mpr (.inl hu), rfl, hpool, hst⟩
    obtain ⟨u, hu, e, -⟩ := (h.queue q).2.2.2 n hn
    exact e ▸ List.mem_map_of_mem hu
  · intro hc
    rw [State.issue_opState, hr] at hc
    cases hc
  · obtain ⟨h1, h2, h3⟩ := h.isOpen b e
    exact ⟨h1, h2, fun u hu hne => h3 u (hold u hu hne) (by simp)⟩
  · rintro n ⟨⟩ b hb e
    obtain ⟨u, hu, hun, -⟩ := h.names b hb t.number e
    exact hlive u hu hun

/-- The open ticket, which is in no queue, is taken out of the table (R40). -/
theorem drop {n : Nat} (h : AgreeBut ob (some n) s) (hq : ∀ q, n ∉ (s.pool q).queue) :
    AgreeBut ob none { s with tickets := s.tickets.filter (fun t => t.number != n) } := by
  have hmem : ∀ u, u ∈ s.tickets.filter (fun t => t.number != n) ↔ u ∈ s.tickets ∧ u.number ≠ n := by simp
  have hfind : ∀ m, m ≠ n → (s.tickets.filter (fun t => t.number != n)).find? (fun t => t.number == m) =
      s.ticket? m := by
    intro m hm
    rw [List.find?_filter, State.ticket?]
    congr 1
    funext t
    by_cases e : t.number = m
    · simp [e, hm]
    · simp [e]
  refine ⟨?_, fun u hu _ => ?_, h.bay, fun b hb m e => ?_, fun q => ?_, h.nodup, h.admission, fun hc => ?_, h.sweep,
    fun b e => ?_, by simp⟩
  · obtain ⟨h1, h2, h3, h4⟩ := h.fits
    have hsub : (s.tickets.filter (fun t => t.number != n)).Sublist s.tickets := List.filter_sublist
    exact ⟨hsub.length_le.trans h1, h2.sublist (hsub.map _), fun m hm => h3 m ((hsub.map _).subset hm), h4⟩
  · obtain ⟨hu, hne⟩ := (hmem u).mp hu
    exact (h.ticket u hu (by simpa using hne.symm)).congr id fun _ _ => rfl
  · obtain ⟨u, hu, hun, hub⟩ := h.names b hb m e
    exact ⟨u, (hmem u).mpr ⟨hu, fun e' => h.loose n rfl b hb (by rw [← e', hun]; exact e)⟩, hun, hub⟩
  · refine State.queuePlaced_congr (h.queue q) rfl (fun m hm => ?_)
      fun u hu hm hpool hst => ⟨u, (hmem u).mpr ⟨hu, fun e => hq q (e ▸ hm)⟩, rfl, hpool, hst⟩
    have hne : m ≠ n := fun e => hq q (e ▸ hm)
    show (match (s.tickets.filter (fun t => t.number != n)).find? (fun t => t.number == m) with
      | some t => t.cls.rank | none => 2) = s.rankOf m
    rw [hfind m hne]
    rfl
  · obtain ⟨h1, h2, h3⟩ := h.config hc
    exact ⟨by simp [h1], h2, h3⟩
  · obtain ⟨h1, h2, h3⟩ := h.isOpen b e
    exact ⟨h1, h2, fun u hu _ => h3 u ((hmem u).mp hu).1 (by simpa using ((hmem u).mp hu).2.symm)⟩

/-- The bay of an open ticket loses its name (R40). -/
theorem unname {n : Nat} {b : BayNo} (h : AgreeBut (some b) ot s) : AgreeBut (some b) ot (s.unname b n) := by
  unfold State.unname
  split
  · obtain ⟨-, ⟨he, hs, hf⟩, -⟩ := h.isOpen b rfl
    exact h.setBay he hs hf
  · exact h

/-- A ticket that stands in no queue by its state is in none (R46). -/
theorem not_mem_queue (h : AgreeBut ob ot s) {t : Ticket} (ht : t ∈ s.tickets)
    (hst : ¬(t.state = .waiting ∨ t.state = .offered)) (q : PoolNo) : t.number ∉ (s.pool q).queue := by
  intro hm
  obtain ⟨u, hu, e, -, hs⟩ := (h.queue q).2.2.2 _ hm
  exact hst (h.fits.eq_of_number hu ht e ▸ hs)

theorem outOfQueue {t : Ticket} (h : AgreeBut ob (some t.number) s) :
    AgreeBut ob (some t.number) (s.outOfQueue t) := by
  unfold State.outOfQueue
  split
  · exact h.leaveQueue _
  · exact h

/-- A ticket that has been taken out of its queue is in none (R46). -/
theorem not_mem_outOfQueue (h : AgreeBut ob ot s) {t : Ticket} (ht : t ∈ s.tickets) (q : PoolNo) :
    t.number ∉ ((s.outOfQueue t).pool q).queue := by
  unfold State.outOfQueue
  split
  · exact h.not_mem_leaveQueue ht q
  · rename_i hst
    exact h.not_mem_queue ht hst q

/-- An open ticket that claims no other bay than the open one is freed (R40). -/
theorem freeOpen {t : Ticket} (h : AgreeBut ob (some t.number) s) (ht : t ∈ s.tickets)
    (hb : t.bay = none ∨ t.bay = ob) : AgreeBut ob none (s.freeTicket t.number) := by
  have hfind := h.fits.ticket?_of_mem ht
  have hout := h.outOfQueue
  have hq := h.not_mem_outOfQueue ht
  cases hbay : t.bay with
  | none =>
    rw [State.freeTicket_of_unbayed hfind hbay]
    exact hout.drop hq
  | some b =>
    rw [State.freeTicket_of_bay hfind hbay]
    obtain rfl : some b = ob := by simpa [hbay] using hb
    exact hout.unname.drop (by simpa [State.pool] using hq)

/-- A ticket that is not CHARGING is freed, and the bay that it claims is open (R40). -/
theorem freeTicket (h : AgreeBut none none s) {t : Ticket} (ht : t ∈ s.tickets) (hst : t.state ≠ .charging) :
    AgreeBut t.bay none (s.freeTicket t.number) :=
  (h.openTicket ht hst).freeOpen ht (.inr rfl)

/-! ### Claims of a bay -/

/-- The ticket that a closed bay names, in the state that claims the bay's state. -/
theorem claimant (h : AgreeBut none none s) {b : BayNo} {n : Nat} (hn : (s.bay b).ticket = some n) :
    ∃ t, s.ticket? n = some t ∧ t ∈ s.tickets ∧ t.number = n ∧ t.bay = some b ∧ t.state.claims (s.bay b).state ∧
      s.Stands t := by
  obtain ⟨t, hf, ht, hnum, hb⟩ := h.named (by simp) hn
  have hs := h.ticket t ht (by simp)
  exact ⟨t, hf, ht, hnum, hb, (hs.named b hb).1, hs⟩

/-- An OFFERED, HELD, ACTIVE or SUSPENDED bay names a ticket. -/
theorem claim_isSome (h : AgreeBut none ot s) {b : BayNo} (hst : (s.bay b).state = .offered ∨ (s.bay b).state = .held ∨
    (s.bay b).state = .active ∨ (s.bay b).state = .suspended) : ∃ n, (s.bay b).ticket = some n :=
  Option.isSome_iff_exists.mp ((h.bay b (by simp)).claimed hst)

/-- The bay of a claim that has no session is opened with its ticket. -/
theorem openClaim (h : AgreeBut none none s) {b : BayNo} {t : Ticket} (ht : t ∈ s.tickets) (hb : t.bay = some b)
    (hst : t.state ≠ .charging) : AgreeBut (some b) (some t.number) s :=
  hb ▸ h.openTicket ht hst

/-- An open offer is withdrawn, and its bay is open (R61). -/
theorem withdraw (h : AgreeBut none none s) {b : BayNo} (hst : (s.bay b).state = .offered) (w : WithdrawReason) :
    AgreeBut (some b) none (s.withdraw b w) := by
  obtain ⟨n, hn⟩ := h.claim_isSome (.inl hst)
  obtain ⟨t, -, ht, rfl, hb, hc, hs⟩ := h.claimant hn
  obtain hts : t.state = .offered := TicketState.of_claims.1 (hst ▸ hc)
  have ho := (h.openClaim ht hb (by simp [hts])).modTicket (f := Ticket.withdrawn) (fun _ => rfl)
    (fun _ _ _ _ => ⟨rfl, rfl, .inl rfl⟩)
  obtain ⟨-, ⟨he, hse, hf⟩, -⟩ := ho.isOpen b rfl
  have hw := ho.setBay (x := { s.bay b with ticket := none }) he hse hf
  rw [State.withdraw_eq hn]
  refine AgreeBut.frame (hw.closeTicket (t := t.withdrawn) (State.mem_modTicket ht _) ?_ (.inr rfl))
  exact State.stands_waiting rfl rfl rfl (hs.hold_none (by simp [hts])) (hs.queued (.inr hts))

/-- A HELD ticket is requeued in its own pool, where there is room, and its bay is open (R64). -/
theorem requeue (h : AgreeBut none none s) {b : BayNo} {t : Ticket} (ht : t ∈ s.tickets) (hb : t.bay = some b)
    (hst : t.state = .held) (hroom : (s.pool t.pool).queue.length < 12) :
    AgreeBut (some b) none (s.requeue t.number b) := by
  have hs := h.ticket t ht (by simp)
  have hnot := h.not_mem_queue ht (by simp [hst])
  have ho := ((h.openClaim ht hb (by simp [hst])).modTicket (f := fun u => u.requeued t.requeuedClass)
    (fun _ => rfl) (fun u hu e hm => absurd (h.fits.eq_of_number hu ht e ▸ hm) (hnot _))).unname (n := t.number)
  have hmem : t.requeued t.requeuedClass ∈
      ((s.modTicket t.number fun u => u.requeued t.requeuedClass).unname b t.number).tickets := by
    rw [State.unname_tickets]
    exact State.mem_modTicket ht _
  have hpool : ∀ q, ((s.modTicket t.number fun u => u.requeued t.requeuedClass).unname b t.number).pool q = s.pool q :=
    fun q => by simp [State.pool]
  have hj := AgreeBut.joinQueue (t := t.requeued t.requeuedClass) ho hmem rfl (by rw [hpool]; exact hroom)
    (by rw [hpool]; exact hnot _)
  rw [State.requeue_eq (h.fits.ticket?_of_mem ht)]
  refine AgreeBut.raise (s := s.requeuedState t b) (hj.closeTicket (t := t.requeued t.requeuedClass)
    hmem ?_ (.inr rfl)) _ _
  exact State.stands_waiting rfl rfl (hs.offer_none (by simp [hst])) rfl (State.mem_joinQueue _ t.pool t.number)

/-- A HELD or queued ticket that is open becomes HELD at the open bay (R35). -/
theorem holdAt {b : BayNo} {t : Ticket} (h : AgreeBut (some b) (some t.number) s) (ht : t ∈ s.tickets)
    (hq : ∀ q, t.number ∉ (s.pool q).queue) : AgreeBut none none (s.holdAt t.number b) := by
  obtain ⟨-, ⟨he, hse, hf⟩, -⟩ := h.isOpen b rfl
  have hm := h.modTicket (f := fun u => u.heldAt b (s.deadline s.timers.grace)) (fun _ => rfl)
    (fun u hu e hm => absurd hm (hq _))
  have hw := hm.setBay (x := { s.bay b with state := .held, ticket := some t.number }) he hse hf
  refine AgreeBut.of_setBay (hw.closeBoth (t := t.heldAt b (s.deadline s.timers.grace)) (State.mem_modTicket ht _) ?_ rfl ?_)
  · exact State.stands_at (by simp [Ticket.heldAt]) rfl (by simp [Ticket.heldAt, TicketState.claims])
      (by simp [Ticket.heldAt]) (by simp [Ticket.heldAt]) (by simp [Ticket.heldAt]) (by simp [Ticket.heldAt])
  · rw [State.setBay_bay_self]
    exact ⟨by simp [he], by simp, by simp, by simp [hse], by simp [hse], by simp [hf]⟩

/-- A FREE bay is offered to a WAITING ticket for which it is eligible (R55). -/
theorem offerBay (h : AgreeBut none none s) {b : BayNo} {t : Ticket} (ht : t ∈ s.tickets) (hst : t.state = .waiting)
    (hb : (s.bay b).state = .free) (q : PoolNo) : AgreeBut none none (s.offerBay q b t) := by
  have hs := h.ticket t ht (by simp)
  have hright := h.bay b (by simp)
  obtain ⟨hr, he⟩ := h.enrolled_of_state (b := b) (by simp) (by simp [hb])
  have hbt : (s.bay b).ticket = none := hright.unclaimed (by simp [hb])
  have hf : (s.bay b).fault = none := Option.not_isSome_iff_eq_none.mp (by simp [hright.fault, hb])
  have ho : AgreeBut none (some t.number) s := hs.bay.mpr hst ▸ h.openTicket ht (by simp [hst])
  have hw := ((ho.openAt hr he hbt hf).setBay (x := { s.bay b with state := .offered, ticket := some t.number }) he
    (hright.session_none hbt) hf).of_setBay (f := fun x => { x with state := .offered, ticket := some t.number })
  have hm := hw.modTicket (f := fun u => u.offeredAt b (s.deadline s.timers.offer)) (fun _ => rfl)
    (fun _ _ _ _ => ⟨rfl, rfl, .inr rfl⟩)
  refine AgreeBut.raise (AgreeBut.pointTo (hm.closeBoth (t := t.offeredAt b (s.deadline s.timers.offer))
    (State.mem_modTicket (by simpa using ht) _) ?_ rfl ?_) q b) _ _
  · refine State.stands_at (b := b) (by simp [Ticket.offeredAt]) rfl ?_ ?_ (fun _ => ?_) (by simp [Ticket.offeredAt]) ?_
    · simp [State.changeBay_bay, Ticket.offeredAt, TicketState.claims]
    · simp [State.changeBay_bay, Ticket.offeredAt]
    · simpa [State.pool, Ticket.offeredAt] using hs.queued (.inl hst)
    · simp [Ticket.offeredAt, hs.hold_none (by simp [hst])]
  · rw [State.modTicket_bay, State.changeBay_bay, if_pos rfl]
    exact ⟨by simp [he], by simp, by simp, by simp [hright.session_none hbt], by simp [hright.session_none hbt],
      by simp [hf]⟩

theorem matchBay (h : AgreeBut none none s) (q : PoolNo) (b : BayNo) : AgreeBut none none (s.matchBay q b) := by
  unfold State.matchBay
  split
  · rename_i t ht
    obtain ⟨hst, hel, n, -, hf⟩ := State.firstEligible_spec ht
    exact h.offerBay (State.mem_of_ticket? hf) hst (State.free_of_eligible hel) q
  · exact h

/-- A fold of an operation that keeps the agreement keeps it. -/
theorem foldl {α : Type} (h : AgreeBut ob ot s) (f : State → α → State)
    (hf : ∀ {u : State} a, AgreeBut ob ot u → AgreeBut ob ot (f u a)) (l : List α) : AgreeBut ob ot (l.foldl f s) :=
  List.foldlRecOn l f h fun _ hu a _ => hf a hu

theorem matchRun (h : AgreeBut none none s) (q : PoolNo) : AgreeBut none none (s.matchRun q) :=
  h.foldl _ (fun b hu => hu.matchBay q b) _

theorem matchIn (h : AgreeBut none none s) (q : Option PoolNo) : AgreeBut none none (s.matchIn q) := by
  cases q with
  | none => exact h
  | some q => exact h.matchRun q

/-- The ticket that is held at a bay arrives there (R12, R37). -/
theorem arrive (h : AgreeBut none none s) {b : BayNo} {n : Nat} (hb : (s.bay b).state = .held)
    (hn : (s.bay b).ticket = some n) : AgreeBut none none (s.arrive n b) := by
  obtain ⟨t, -, ht, rfl, htb, hc, hs⟩ := h.claimant hn
  have hst : t.state = .held := TicketState.of_claims.2.1 (hb ▸ hc)
  have hnot := h.not_mem_queue ht (by simp [hst])
  have ho := h.openClaim ht htb (by simp [hst])
  obtain ⟨-, ⟨he, hse, hf⟩, -⟩ := ho.isOpen b rfl
  have hm := (ho.modTicket (f := Ticket.hasArrived) (fun _ => rfl) (fun u hu e hm => absurd hm (hnot _))).raiseTo
    t.number (.arrived t.number b)
  have hbay : ((s.modTicket t.number Ticket.hasArrived).raiseTo t.number (.arrived t.number b)).bay b = s.bay b := by
    simp [State.bay]
  refine AgreeBut.of_setBay (s := (s.modTicket t.number Ticket.hasArrived).raiseTo t.number (.arrived t.number b)) ?_
  rw [hbay]
  refine (hm.setBay (x := { s.bay b with state := .occupied }) he hse hf).closeBoth (t := t.hasArrived) ?_ ?_ htb ?_
  · simpa using State.mem_modTicket ht Ticket.hasArrived
  · refine State.stands_at (b := b) (by simp [Ticket.hasArrived]) htb ?_ ?_ (by simp [Ticket.hasArrived]) ?_
      (by simp [Ticket.hasArrived])
    · simp [Ticket.hasArrived, TicketState.claims]
    · simpa [Ticket.hasArrived] using hn
    · simp [Ticket.hasArrived, hs.offer_none (by simp [hst])]
  · rw [State.setBay_bay_self]
    exact ⟨by simp [he], by simp, by simp, by simp [hse], by simp [hse], by simp [hf]⟩

end AgreeBut

end Sys2Proof.Machine
end

