-- ==== Sys2Proof/Proofs/ClaimSessions.lean ====
section
/-! SUPPORT. What sessions, plug-ins, placement, head faults and the loss of a head do to the agreement of claims. -/

namespace Sys2Proof.Machine

/-- Close the loose ends of a session at a bay: the bay leaves the admission list and its session part is gone. -/
def State.dismiss (s : State) (b : BayNo) : State :=
  { s with admission := s.admission.filter (fun c => c != b) }.setBay b { s.bay b with session := none }

/-- Let a bay's record with a session stand, and put the bay last in the admission list (R93, R94). -/
def State.joinList (s : State) (b : BayNo) (x : Bay) : State :=
  { s.setBay b x with admission := s.admission ++ [b] }

/-- The steps of a close leave the bay without a name (R102). -/
theorem State.endSession_ticket (s : State) (b : BayNo) (k : Session) (w : CloseReason) :
    ((s.endSession b k w).bay b).ticket = none := by
  simp [State.endSession, State.setSetpoint, State.bay, State.setBay]

/-- The entry of a ticket under a number that is not live is in no queue (R46). -/
theorem AgreeBut.fresh_not_mem_queue {ob : Option BayNo} {ot : Option Nat} {s : State} (h : AgreeBut ob ot s) {n : Nat}
    (hn : n ∉ s.liveTickets) (q : PoolNo) : n ∉ (s.pool q).queue := by
  intro hm
  obtain ⟨t, ht, rfl, -⟩ := (h.queue q).2.2.2 n hm
  exact hn (List.mem_map_of_mem ht)

namespace AgreeBut

variable {ob : Option BayNo} {ot : Option Nat} {s : State}

/-! ### Opening and closing a session -/

/-- The session of the open bay is opened for the open ticket, which is CHARGING there (R93, R94). -/
theorem joinList {b : BayNo} {t : Ticket} (h : AgreeBut (some b) (some t.number) s) (ht : t ∈ s.tickets)
    (hst : t.state = .charging) (hb : t.bay = some b) (ho : t.offerDeadline = none) (hh : t.holdDeadline = none)
    {x : Bay} (hx : x.Right) (he : x.enrolled = true) (hxs : x.state = .active) (hxt : x.ticket = some t.number) :
    AgreeBut none none (s.joinList b x) := by
  obtain ⟨hr, ⟨-, hse, -⟩, hnot⟩ := h.isOpen b rfl
  have hbay : ∀ c, (s.joinList b x).bay c = if c = b then x else s.bay c := fun c => s.setBay_bay b c x
  have hother : ∀ c, c ≠ b → some b ≠ some c := fun c hc e => hc (Option.some.inj e).symm
  have hx' : x.session.isSome = true := hx.session.mpr (.inl hxs)
  refine ⟨h.fits, fun u hu _ => ?_, fun c _ => ?_, fun c _ n e => ?_, h.queue, ?_, fun c => ?_, ?_, fun c hc => ?_,
    by simp, by simp⟩
  · by_cases e : some t.number = some u.number
    · obtain rfl := h.fits.eq_of_number ht hu (Option.some.inj e)
      exact State.stands_at (b := b) (by simp [hst]) hb (by simp [hbay, hst, TicketState.claims, hxs])
        (by simp [hbay, hxt]) (by simp [hst]) (by simp [ho, hst]) (by simp [hh, hst])
    · exact (h.ticket u hu e).congr id fun c ec => by rw [hbay, if_neg fun e' : c = b => hnot u hu e (e' ▸ ec)]
  · rw [hbay]
    split
    · exact hx
    · exact h.bay c (hother c (by assumption))
  · rw [hbay] at e
    split at e
    · subst c
      exact ⟨t, ht, Option.some.inj (hxt.symm.trans e), hb⟩
    · exact h.names c (hother c (by assumption)) n e
  · refine List.nodup_append.mpr ⟨h.nodup, List.nodup_singleton b, ?_⟩
    have hnb : b ∉ s.admission := fun hm => by simpa [hse] using (h.admission b).mp hm
    exact fun c hc d hd e => hnb (List.mem_singleton.mp hd ▸ e ▸ hc)
  · have := h.admission c
    rw [hbay]
    split
    · subst c
      simp [State.joinList, hx']
    · simp [State.joinList, *]
  · intro hc
    exact absurd hr (by rw [show s.opState = .config from hc]; simp)
  · rw [hbay]
    split
    · exact he
    · exact h.sweep c hc

/-- The session at a bay is taken away: bay and ticket are open (R102). -/
theorem dismiss (h : AgreeBut none none s) {b : BayNo} {k : Session} (hk : (s.bay b).session = some k) :
    AgreeBut (some b) (some k.ticket) (s.dismiss b) := by
  have hright := h.bay b (by simp)
  have hst := hright.session.mp (by simp [hk])
  have hn := (hright.holder k hk).1
  obtain ⟨hr, he⟩ := h.enrolled_of_state (b := b) (by simp) (by rcases hst with e | e <;> simp [e])
  have hf : (s.bay b).fault = none :=
    Option.not_isSome_iff_eq_none.mp fun e => by rcases hst with e' | e' <;> simp [hright.fault.mp e] at e'
  have hbay : ∀ c, (s.dismiss b).bay c = if c = b then { s.bay b with session := none } else s.bay c :=
    fun c => State.setBay_bay _ b c _
  have hne : ∀ c, some b ≠ some c → c ≠ b := fun c hc e => hc (e ▸ rfl)
  have hbayof : ∀ u ∈ s.tickets, some k.ticket ≠ some u.number → u.bay ≠ some b := fun u hu hne =>
    (h.ticket u hu (by simp)).not_claimed (by rw [hn]; exact hne)
  refine ⟨h.fits, fun u hu hne => ?_, fun c hc => ?_, fun c hc n e => ?_, h.queue, h.nodup.filter _, fun c => ?_, ?_,
    fun c hc => ?_, ?_, ?_⟩
  · exact (h.ticket u hu (by simp)).congr id fun c ec => by
      rw [hbay, if_neg fun e : c = b => hbayof u hu hne (e ▸ ec)]
  · rw [hbay, if_neg (hne c hc)]
    exact h.bay c (by simp)
  · rw [hbay, if_neg (hne c hc)] at e
    exact h.names c (by simp) n e
  · have := h.admission c
    rw [hbay]
    split
    · subst c
      simp [State.dismiss, State.setBay]
    · simp [State.dismiss, State.setBay, *]
  · intro hc
    exact absurd hr (by rw [show s.opState = .config from hc]; simp)
  · rw [hbay]
    split
    · exact he
    · exact h.sweep c hc
  · rintro c ⟨⟩
    rw [hbay, if_pos rfl]
    exact ⟨hr, ⟨he, rfl, hf⟩, hbayof⟩
  · rintro n ⟨⟩ c hc e
    rw [hbay, if_neg (hne c hc)] at e
    obtain ⟨u, hu, e', hub⟩ := h.names b (by simp) _ hn
    obtain ⟨v, hv, ev, hvb⟩ := h.names c (by simp) _ e
    rw [h.fits.eq_of_number hu hv (e'.trans ev.symm), hvb] at hub
    exact hne c hc (Option.some.inj hub)

/-- The steps of a close leave the bay open and unnamed (R102). -/
theorem endSession (h : AgreeBut none none s) {b : BayNo} {k : Session} (hk : (s.bay b).session = some k)
    (w : CloseReason) : AgreeBut (some b) none (s.endSession b k w) := by
  have hn := ((h.bay b (by simp)).holder k hk).1
  obtain ⟨t, -, ht, e, htb, -⟩ := h.claimant hn
  have hc : AgreeBut none none (s.noticeClosed b k w) := h.frame
  have hbay : (s.noticeClosed b k w).bay b = s.bay b := by simp [State.bay]
  have hd := hc.dismiss (b := b) (k := k) (by rw [hbay]; exact hk)
  rw [← e] at hd
  have hf := hd.freeOpen (t := t) (by simpa [State.dismiss] using ht) (.inr htb)
  obtain ⟨-, ⟨hen, hse, hfa⟩, -⟩ := hf.isOpen b rfl
  have := (hf.setBay (x := { ((s.noticeClosed b k w).dismiss b |>.freeTicket t.number).bay b with ticket := none }) hen
    hse hfa).setSetpoint b
  rw [e] at this
  exact this _

/-- A session is opened at the open bay for the open ticket, which is in no queue and has no timer (R93). -/
theorem openSession {b : BayNo} {t : Ticket} (h : AgreeBut (some b) (some t.number) s) (ht : t ∈ s.tickets)
    (hq : ∀ q, t.number ∉ (s.pool q).queue) (ho : t.offerDeadline = none) (hh : t.holdDeadline = none) :
    AgreeBut none none (s.openSession b t.number) := by
  obtain ⟨-, ⟨he, -, hf⟩, -⟩ := h.isOpen b rfl
  have hm := h.modTicket (f := fun u => u.chargingAt b) (fun _ => rfl) (fun u hu e hm => absurd hm (hq _))
  have hx : (s.openedBay b t.number).Right := by
    constructor <;> simp [State.openedBay, he, hf]
  have ha := AgreeBut.joinList (t := t.chargingAt b) hm (State.mem_modTicket ht _) rfl rfl ho hh hx he rfl rfl
  exact AgreeBut.recompute (AgreeBut.setSetpoint (AgreeBut.raise (AgreeBut.raiseTo ha _ _) _ _) _ _)

/-! ### Plug-in (R14, R33) -/

/-- A plug-in at an OCCUPIED bay (R14). -/
theorem plugIn (h : AgreeBut none none s) {b : BayNo} (hst : (s.bay b).state = .occupied) :
    AgreeBut none none (s.plugIn b) := by
  unfold State.plugIn
  split
  · exact h.touch b rfl rfl rfl rfl rfl
  · split
    · rename_i n hn
      obtain ⟨t, -, ht, rfl, htb, hc, hs⟩ := h.claimant hn
      have hts : t.state = .arrived := TicketState.of_claims.2.2.1 (hst ▸ hc)
      exact (h.openClaim ht htb (by simp [hts])).openSession ht (h.not_mem_queue ht (by simp [hts]))
        (hs.offer_none (by simp [hts])) (hs.hold_none (by simp [hts]))
    · rename_i hn
      split
      · rename_i hroom
        dsimp only
        obtain ⟨hr, he⟩ := h.enrolled_of_state (b := b) (by simp) (by simp [hst])
        have hf : (s.bay b).fault = none :=
          Option.not_isSome_iff_eq_none.mp (by simp [(h.bay b (by simp)).fault, hst])
        obtain ⟨hlive, hbounds⟩ := h.fits.nextTicket
        have hi := (h.openAt hr he hn hf).issue (t := s.autoTicket b) hr (by simpa [State.tableRoom] using hroom) hlive
          hbounds
        have hw := hi.setBay (x := { s.bay b with ticket := some (s.autoTicket b).number }) he
          ((h.bay b (by simp)).session_none hn) hf
        exact hw.openSession (t := s.autoTicket b) (by simp [State.issue]) (h.fresh_not_mem_queue hlive) rfl rfl
      · exact h.raise _ _

theorem plugInIfPlugged (h : AgreeBut none none s) (b : BayNo) : AgreeBut none none (s.plugInIfPlugged b) := by
  unfold State.plugInIfPlugged
  split
  · rename_i hp
    exact h.plugIn hp.1
  · exact h

/-! ### Placement (R5, R6) -/

/-- The open bay is settled by a change that leaves it unnamed, in a state without a claim. -/
theorem settleBy {b : BayNo} (h : AgreeBut (some b) ot s) {f : Bay → Bay} (he : ∀ x, (f x).enrolled = x.enrolled)
    (hs : ∀ x, (f x).session = x.session) (hf : ∀ x, (f x).fault = x.fault) (ht : ∀ x, (f x).ticket = none)
    (hst : ∀ x, (f x).state = .offline ∨ (f x).state = .free ∨ (f x).state = .occupied ∨ (f x).state = .blocked) :
    AgreeBut none ot (s.changeBay b f) := by
  obtain ⟨-, ⟨hen, hse, hfa⟩, -⟩ := h.isOpen b rfl
  refine AgreeBut.of_setBay (h.settle (by rw [he, hen]) (Bay.right_of_unclaimed (by rw [he, hen]) (ht _)
    (by rw [hs, hse]) ?_ ?_) (ht _))
  · rcases hst (s.bay b) with e | e | e | e <;> simp [e]
  · rcases hst (s.bay b) with e | e | e | e <;> simp [e, hf, hfa]

theorem settleFree {b : BayNo} (h : AgreeBut (some b) ot s) : AgreeBut none ot (s.settleFree b) := by
  unfold State.settleFree
  repeat' split
  all_goals exact h.settleBy (fun _ => rfl) (fun _ => rfl) (fun _ => rfl) (fun _ => rfl) (by simp)

theorem placeAt {b : BayNo} (h : AgreeBut (some b) ot s) : AgreeBut none ot (s.placeAt b) := by
  unfold State.placeAt
  cases (s.bay b).presence with
  | empty => exact h.settleFree
  | present => exact h.settleBy (fun _ => rfl) (fun _ => rfl) (fun _ => rfl) (fun _ => rfl) (by simp)
  | unknown =>
    dsimp only
    split
    all_goals exact h.settleBy (fun _ => rfl) (fun _ => rfl) (fun _ => rfl) (fun _ => rfl) (by simp)

theorem matchIfFree (h : AgreeBut none none s) (b : BayNo) : AgreeBut none none (s.matchIfFree b) := by
  unfold State.matchIfFree
  split
  · exact h.matchRun _
  · exact h

theorem enterFree {b : BayNo} (h : AgreeBut (some b) none s) : AgreeBut none none (s.enterFree b) :=
  h.settleFree.matchIfFree b

theorem place {b : BayNo} (h : AgreeBut (some b) none s) : AgreeBut none none (s.place b) :=
  (h.placeAt.plugInIfPlugged b).matchIfFree b

theorem placeClosed {b : BayNo} (h : AgreeBut (some b) none s) : AgreeBut none none (s.placeClosed b) :=
  h.placeAt.matchIfFree b

theorem placeUnmatched {b : BayNo} (h : AgreeBut (some b) none s) : AgreeBut none none (s.placeUnmatched b) :=
  h.placeAt.plugInIfPlugged b

/-- An open bay that stands unclaimed in a right record is settled as it is. -/
theorem leave {b : BayNo} (h : AgreeBut (some b) ot s) (hx : (s.bay b).Right) (ht : (s.bay b).ticket = none) :
    AgreeBut none ot s := by
  obtain ⟨-, ⟨he, -⟩, -⟩ := h.isOpen b rfl
  have := h.settle he hx ht
  rwa [State.setBay_bay_eq] at this

/-! ### Sessions (R97, R100, R102) -/

/-- The session of an ACTIVE or SUSPENDED bay is suspended or resumed (R97, R100). -/
theorem turnSession (h : AgreeBut none none s) {b : BayNo} {st : BayState} {d : Option Seconds}
    (hb : (s.bay b).state = .active ∨ (s.bay b).state = .suspended)
    (hst : st = .suspended ∧ d.isSome = true ∨ st = .active ∧ d = none) : AgreeBut none none
      (s.setBay b { (s.bay b).modSession (fun k => { k with reconnect := d }) with state := st }) := by
  have hright := h.bay b (by simp)
  have hf : (s.bay b).fault = none :=
    Option.not_isSome_iff_eq_none.mp fun e => by rcases hb with e' | e' <;> simp [hright.fault.mp e] at e'
  have he := (h.enrolled_of_state (b := b) (by simp) (by rcases hb with e | e <;> simp [e])).2
  have hact : st = .active ∨ st = .suspended := by rcases hst with ⟨e, -⟩ | ⟨e, -⟩ <;> simp [e]
  obtain ⟨k, hk⟩ := Option.isSome_iff_exists.mp (hright.session.mpr hb)
  obtain ⟨hn, -⟩ := hright.holder k hk
  refine h.keepBay (by simp) ⟨?_, ?_, ?_, ?_, ?_, ?_⟩ rfl rfl (by simp [Bay.modSession]) (fun tst hc => ?_) ?_
  · simp [Bay.modSession, he]
  · simp [Bay.modSession, hn]
  · rcases hact with e | e <;> simp [e]
  · rcases hact with e | e <;> simp [Bay.modSession, hk, e]
  · rcases hst with ⟨e, hd⟩ | ⟨e, hd⟩ <;> simp [Bay.modSession, hk, hn, e, hd]
  · rcases hact with e | e <;> simp [Bay.modSession, hf, e]
  · have htst : tst = .charging := by
      rcases hb with e | e <;> rw [e] at hc
      · exact TicketState.of_claims.2.2.2.1 hc
      · exact TicketState.of_claims.2.2.2.2 hc
    simpa [htst, TicketState.claims] using hact
  · rcases hb with e | e <;> simp [e]

theorem suspend (h : AgreeBut none none s) {b : BayNo} (hb : (s.bay b).state = .active) :
    AgreeBut none none (s.suspend b) :=
  AgreeBut.recompute (AgreeBut.setSetpoint (AgreeBut.of_setBay (h.turnSession (.inl hb) (.inl ⟨rfl, rfl⟩))) _ _)

theorem resume (h : AgreeBut none none s) {b : BayNo} (hb : (s.bay b).state = .suspended) :
    AgreeBut none none (s.resume b) :=
  AgreeBut.recompute (AgreeBut.setSetpoint (AgreeBut.of_setBay (h.turnSession (.inr hb) (.inr ⟨rfl, rfl⟩))) _ _)

theorem closePlaced (h : AgreeBut none none s) (b : BayNo) (w : CloseReason) :
    AgreeBut none none (s.closePlaced b w) := by
  unfold State.closePlaced
  split
  · exact h
  · rename_i k hk
    exact (h.endSession hk w).placeClosed.recompute

theorem closeLost (h : AgreeBut none none s) (b : BayNo) : AgreeBut none none (s.closeLost b) := by
  unfold State.closeLost
  split
  · exact h
  · rename_i k hk
    have ho := h.endSession hk .linkLost
    obtain ⟨-, ⟨hen, hse, hfa⟩, -⟩ := ho.isOpen b rfl
    refine AgreeBut.recompute (AgreeBut.of_setBay (ho.settle hen (Bay.right_of_unclaimed hen ?_ hse (.inl rfl) ?_) ?_))
    · exact s.endSession_ticket b k _
    · simp [hfa]
    · exact s.endSession_ticket b k _

/-! ### Head faults and the loss of a head (R20, R23) -/

/-- The open bay enters FAULTED (R23). -/
theorem enterFaulted {b : BayNo} (h : AgreeBut (some b) ot s) (code : FaultCode) :
    AgreeBut none ot (s.enterFaulted b code) := by
  obtain ⟨-, ⟨hen, hse, -⟩, -⟩ := h.isOpen b rfl
  exact AgreeBut.of_setBay (h.settle hen (Bay.right_of_unclaimed hen rfl hse (by simp) (by simp)) rfl)

/-- A bay without a claim enters FAULTED (R23). -/
theorem enterFaulted_unclaimed (h : AgreeBut none ot s) {b : BayNo} (hr : s.opState = .run)
    (he : (s.bay b).enrolled = true) (ht : (s.bay b).ticket = none) (code : FaultCode) :
    AgreeBut none ot (s.enterFaulted b code) :=
  AgreeBut.of_setBay (h.rewrite hr he ht he (Bay.right_of_unclaimed he rfl ((h.bay b (by simp)).session_none ht) (by simp)
    (by simp)) rfl)

/-- The ticket of a bay that has no session is freed with a notice, and the bay is open (R13, R23, R38). -/
theorem freeWith (h : AgreeBut none none s) {b : BayNo} {t : Ticket} (ht : t ∈ s.tickets) (hb : t.bay = some b)
    (hst : t.state ≠ .charging) (notice : Notice) : AgreeBut (some b) none (s.freeWith t.number notice) := by
  have := (h.raiseTo t.number notice).freeTicket (t := t) (by simpa using ht) hst
  rwa [hb] at this

theorem headFault (h : AgreeBut none none s) {b : BayNo} (hr : s.opState = .run) (he : (s.bay b).enrolled = true)
    (code : FaultCode) : AgreeBut none none (s.headFault b code) := by
  have hright := h.bay b (by simp)
  have hfault : ∀ hn : (s.bay b).ticket = none, AgreeBut none none (s.enterFaulted b code) := fun hn =>
    h.enterFaulted_unclaimed hr he hn code
  unfold State.headFault
  cases hst : (s.bay b).state with
  | active =>
    obtain ⟨k, hk⟩ := Option.isSome_iff_exists.mp (hright.session.mpr (.inl hst))
    simp only [hk]
    exact ((h.endSession hk .fault).enterFaulted code).recompute
  | suspended =>
    obtain ⟨k, hk⟩ := Option.isSome_iff_exists.mp (hright.session.mpr (.inr hst))
    simp only [hk]
    exact ((h.endSession hk .fault).enterFaulted code).recompute
  | occupied =>
    dsimp only
    split
    · rename_i n hn
      obtain ⟨t, -, ht, rfl, htb, hc, -⟩ := h.claimant hn
      have hts : t.state = .arrived := TicketState.of_claims.2.2.1 (hst ▸ hc)
      exact (h.freeWith ht htb (by simp [hts]) _).enterFaulted code
    · exact hfault (by assumption)
  | held =>
    dsimp only
    split
    · rename_i n hn
      obtain ⟨t, hfind, ht, rfl, htb, hc, -⟩ := h.claimant hn
      have hts : t.state = .held := TicketState.of_claims.2.1 (hst ▸ hc)
      split
      · rename_i hroom
        exact ((h.requeue ht htb hts
          (by simpa [State.requeueRoom, State.claimPool, hn, hfind, State.queueRoom] using hroom)).enterFaulted
          code).matchIn _
      · exact (h.freeWith ht htb (by simp [hts]) _).enterFaulted code
    · exact hfault (by assumption)
  | offered => exact ((h.withdraw hst _).enterFaulted code).matchIn _
  | blocked =>
    have hn : (s.bay b).ticket = none := hright.unclaimed (by simp [hst])
    refine (h.touch b (x := { s.bay b with blockPending := true }) rfl rfl rfl rfl rfl).enterFaulted_unclaimed hr ?_ ?_ code
    · rw [State.setBay_bay_self]
      exact he
    · rw [State.setBay_bay_self]
      exact hn
  | faulted => exact hfault (hright.unclaimed (by simp [hst]))
  | offline => exact hfault (hright.unclaimed (by simp [hst]))
  | free => exact hfault (hright.unclaimed (by simp [hst]))

/-- A bay that is open and unnamed becomes OFFLINE (R20). -/
theorem goOffline {b : BayNo} (h : AgreeBut (some b) ot s) (ht : (s.bay b).ticket = none) :
    AgreeBut none ot (s.changeBay b (fun x => { x with state := .offline })) := by
  obtain ⟨-, ⟨hen, hse, hfa⟩, -⟩ := h.isOpen b rfl
  exact AgreeBut.of_setBay (h.settle hen (Bay.right_of_unclaimed hen ht hse (.inl rfl) (by simp [hfa])) ht)

end AgreeBut

/-- A withdrawal leaves the bay without a name (R61). -/
theorem State.withdraw_ticket (s : State) (b : BayNo) (w : WithdrawReason) :
    ((s.withdraw b w).bay b).ticket = none := by
  cases h : (s.bay b).ticket with
  | none => simp [State.withdraw, h]
  | some n => simp [State.withdraw_eq h, State.bay, State.setBay]

theorem AgreeBut.loseHead {s : State} (h : AgreeBut none none s) (b : BayNo) : AgreeBut none none (s.loseHead b) := by
  have hright := h.bay b (by simp)
  unfold State.loseHead
  cases hst : (s.bay b).state with
  | free =>
    have hn : (s.bay b).ticket = none := hright.unclaimed (by simp [hst])
    obtain ⟨hr, he⟩ := h.enrolled_of_state (b := b) (by simp) (by simp [hst])
    exact (h.openAt hr he hn (Option.not_isSome_iff_eq_none.mp (by simp [hright.fault, hst]))).goOffline hn
  | offered => exact ((h.withdraw hst _).goOffline (s.withdraw_ticket b _)).matchIn _
  | active => exact h.suspend hst
  | held => exact h
  | occupied => exact h
  | suspended => exact h
  | offline => exact h
  | blocked => exact h
  | faulted => exact h

end Sys2Proof.Machine
end

