-- ==== Sys2Proof/Proofs/ClaimEvents.lean ====
section
/-! SUPPORT. What tickets, bookings, REPORTs and requests do to the agreement of claims; and the invariant O58. -/

namespace Sys2Proof.Machine

/-- A booking that a presented code activates early stands at a FREE or an unbound OCCUPIED bay (R18). -/
theorem State.earlyBooking_bay {s : State} {b : BayNo} {c : Nat} {k : Booking} (h : s.earlyBooking b c = some k) :
    (s.bay b).state = .free ∨ (s.bay b).state = .occupied ∧ (s.bay b).ticket = none := by
  unfold State.earlyBooking at h
  split at h
  · split at h
    · rename_i hc
      exact hc.2.1
    · cases h
  · cases h

/-- A withdrawal keeps the number of entries (R61). -/
theorem State.withdraw_tickets_length (s : State) (b : BayNo) (w : WithdrawReason) :
    (s.withdraw b w).tickets.length = s.tickets.length := by
  cases h : (s.bay b).ticket with
  | none => simp [State.withdraw, h]
  | some n => simp [State.withdraw_eq h, State.modTicket]

namespace AgreeBut

variable {ob : Option BayNo} {ot : Option Nat} {s : State}

/-! ### The ends of holds and offers (R36, R38, R41, R56 to R60) -/

theorem expireHold (h : AgreeBut none none s) {b : BayNo} {t : Ticket} (ht : t ∈ s.tickets) (hb : t.bay = some b)
    (hst : t.state = .held) : AgreeBut none none (s.expireHold t.number b) :=
  (h.freeWith ht hb (by simp [hst]) _).place

/-- The queue of an OFFERED ticket has room once the ticket has left it (R46, R48). -/
theorem room_of_leaveQueue (h : AgreeBut ob ot s) {q : PoolNo} {n : Nat} (hn : n ∈ (s.pool q).queue) :
    ((s.leaveQueue q n).pool q).queue.length < 12 := by
  obtain ⟨hlen, -⟩ := h.queue q
  have hlt : ((s.pool q).queue.filter (fun m => m != n)).length < (s.pool q).queue.length :=
    List.length_filter_lt_length_iff_exists.mpr ⟨n, hn, by simp⟩
  simp only [State.leaveQueue, State.setPool_pool, if_true]
  omega

/-- The offer of a bay is given up: the ticket goes to the back of its class and the bay is settled (R57, R58). -/
theorem giveUpOffer (h : AgreeBut none none s) {b : BayNo} {t : Ticket} (ht : t ∈ s.tickets) (hb : t.bay = some b)
    (hst : t.state = .offered) (lapsed : Bool) : AgreeBut none none (s.giveUpOffer t b lapsed) := by
  have hs := h.ticket t ht (by simp)
  have hg := (h.openClaim ht hb (by simp [hst])).modTicket (f := fun u => u.gaveUp b) (fun _ => rfl)
    (fun _ _ _ _ => ⟨rfl, rfl, .inl rfl⟩)
  have hmem := State.mem_modTicket ht (fun u => u.gaveUp b)
  have hl := hg.leaveQueue t.pool
  have hj := AgreeBut.joinQueue (t := t.gaveUp b) hl hmem rfl (hg.room_of_leaveQueue (hs.queued (.inr hst)))
    (hg.not_mem_leaveQueue hmem _)
  have hu : AgreeBut (some b) none
      (((s.modTicket t.number (fun u => u.gaveUp b)).toBack t.pool t.number).unname b t.number) := by
    refine (hj.unname (n := t.number)).closeTicket (t := t.gaveUp b) (by simpa using hmem) ?_ (.inr rfl)
    refine State.stands_waiting rfl rfl rfl (hs.hold_none (by simp [hst])) ?_
    simpa [State.pool, State.toBack, Ticket.gaveUp] using State.mem_joinQueue
      ((s.modTicket t.number (fun u => u.gaveUp b)).leaveQueue t.pool t.number) t.pool t.number
  unfold State.giveUpOffer
  dsimp only
  split
  · exact (hu.raise _ _).placeUnmatched.matchRun _
  · exact hu.placeUnmatched.matchRun _

/-- A ticket that is not CHARGING is cancelled (R41, R60). -/
theorem cancel (h : AgreeBut none none s) {t : Ticket} (ht : t ∈ s.tickets) (hst : t.state ≠ .charging) :
    AgreeBut none none (s.cancel t) := by
  have hs := h.ticket t ht (by simp)
  have hf := h.freeTicket ht hst
  cases hb : t.bay with
  | none =>
    rw [hb] at hf
    have hw := hs.bay.mp hb
    simpa [State.cancel, hw] using hf
  | some b =>
    rw [hb] at hf
    have hbay : ((s.freeTicket t.number).bay b) = { s.bay b with ticket := none } := by
      rw [State.freeTicket_of_bay (h.fits.ticket?_of_mem ht) hb]
      have hn : ((s.outOfQueue t).bay b) = s.bay b := by
        unfold State.outOfQueue
        split <;> rfl
      have := (hs.named b hb).2
      simp only [State.unname, hn, this, if_true]
      exact State.setBay_bay_self _ _ _
    unfold State.cancel
    rw [hb]
    cases hts : t.state with
    | offered => exact hf.place
    | held => exact hf.place
    | waiting => simp [hs.bay.mpr hts] at hb
    | charging => exact absurd hts hst
    | arrived =>
      obtain ⟨-, ⟨he, hse, hfa⟩, -⟩ := hf.isOpen b rfl
      have hst : (s.bay b).state = .occupied := by simpa [hts, TicketState.claims] using (hs.named b hb).1
      refine hf.leave (Bay.right_of_unclaimed he ?_ hse ?_ ?_) ?_
      · rw [hbay]
      · rw [hbay]
        simp [hst]
      · rw [hfa, hbay]
        simp [hst]
      · rw [hbay]

/-- A ticket in a queue, open with an open bay, leaves its queue and becomes HELD there (R36, R56). -/
theorem holdQueued {b : BayNo} {t : Ticket} (h : AgreeBut (some b) (some t.number) s) (ht : t ∈ s.tickets) :
    AgreeBut none none (s.holdQueued t b) :=
  AgreeBut.holdAt (h.leaveQueue t.pool) ht (h.not_mem_leaveQueue ht)

/-- A FREE bay may be opened. -/
theorem openFree (h : AgreeBut none ot s) {b : BayNo} (hst : (s.bay b).state = .free) : AgreeBut (some b) ot s := by
  have hright := h.bay b (by simp)
  obtain ⟨hr, he⟩ := h.enrolled_of_state (b := b) (by simp) (by simp [hst])
  exact h.openAt hr he (hright.unclaimed (by simp [hst])) (Option.not_isSome_iff_eq_none.mp (by simp [hright.fault, hst]))

/-- An unbound OCCUPIED bay may be opened. -/
theorem openOccupied (h : AgreeBut none ot s) {b : BayNo} (hst : (s.bay b).state = .occupied)
    (ht : (s.bay b).ticket = none) : AgreeBut (some b) ot s := by
  have hright := h.bay b (by simp)
  obtain ⟨hr, he⟩ := h.enrolled_of_state (b := b) (by simp) (by simp [hst])
  exact h.openAt hr he ht (Option.not_isSome_iff_eq_none.mp (by simp [hright.fault, hst]))

/-- A WAITING ticket may be opened alone. -/
theorem openWaiting (h : AgreeBut none none s) {t : Ticket} (ht : t ∈ s.tickets) (hst : t.state = .waiting) :
    AgreeBut none (some t.number) s :=
  (h.ticket t ht (by simp)).bay.mpr hst ▸ h.openTicket ht (by simp [hst])

/-- The grant decision for a new WAITING ticket (R52). -/
theorem grant {t : Ticket} (h : AgreeBut none (some t.number) s) (ht : t ∈ s.tickets) (hst : t.state = .waiting)
    (hb : t.bay = none) (ho : t.offerDeadline = none) (hh : t.holdDeadline = none)
    (hq : ∀ q, t.number ∉ (s.pool q).queue) (clamped : Bool) : AgreeBut none none (s.grant t clamped).1 := by
  unfold State.grant
  split
  · rename_i b hg
    have hfree := State.free_of_eligible (List.find?_some (p := fun b => s.eligible b t) hg)
    refine AgreeBut.holdAt (h.openFree hfree |>.pointTo t.pool b) ht fun q => ?_
    simp only [State.pointTo, State.setPool_pool]
    split
    · exact hq t.pool
    · exact hq q
  · split
    · rename_i hroom
      refine (h.joinQueue ht hst (by simpa [State.queueRoom] using hroom) (hq _)).closeTicket ht ?_ (.inl rfl)
      exact State.stands_waiting hst hb ho hh (s.mem_joinQueue _ _)
    · exact h.freeOpen ht (.inl hb)

/-- A new ticket is issued under the next number, and is open (R28). -/
theorem issueNext (h : AgreeBut ob none s) (hr : s.opState = .run) (hroom : s.tableRoom = true) {t : Ticket}
    (hn : t.number = s.nextTicket) : AgreeBut ob (some t.number) (s.issue t) ∧ t ∈ (s.issue t).tickets ∧
      ∀ q, t.number ∉ ((s.issue t).pool q).queue := by
  obtain ⟨hlive, hbounds⟩ := h.fits.nextTicket
  rw [← hn] at hlive hbounds
  exact ⟨h.issue hr (by simpa [State.tableRoom] using hroom) hlive hbounds, by simp [State.issue],
    h.fresh_not_mem_queue hlive⟩

/-- The open ticket, ARRIVED at the open bay, is bound there (R34, R86). -/
theorem bind {b : BayNo} {t : Ticket} (h : AgreeBut (some b) (some t.number) s) (ht : t ∈ s.tickets)
    (hst : t.state = .arrived) (hb : t.bay = some b) (ho : t.offerDeadline = none) (hh : t.holdDeadline = none)
    {x : Bay} (he : x.enrolled = true) (hs : x.session = none) (hf : x.fault = none) (hxs : x.state = .occupied)
    (hxt : x.ticket = some t.number) : AgreeBut none none (s.setBay b x) := by
  refine (h.setBay he hs hf).closeBoth ht ?_ hb ?_
  · exact State.stands_at (b := b) (by simp [hst]) hb (by simp [hst, TicketState.claims, hxs]) (by simp [hxt])
      (by simp [hst]) (by simp [ho, hst]) (by simp [hh, hst])
  · rw [State.setBay_bay_self]
    exact ⟨by simp [he], by simp [hxs], by simp [hxs], by simp [hs, hxs], by simp [hs], by simp [hf, hxs]⟩

/-- A ticket is adopted at an unbound OCCUPIED bay (R34). -/
theorem adopt (h : AgreeBut none none s) {b : BayNo} (hst : (s.bay b).state = .occupied) (ht : (s.bay b).ticket = none)
    (hroom : s.tableRoom = true) (p : Port) (stay : Nat) (c : Priority) :
    AgreeBut none none (s.adopt p b stay c).1 := by
  have ho := h.openOccupied hst ht
  obtain ⟨hr, ⟨he, hse, hf⟩, -⟩ := ho.isOpen b rfl
  obtain ⟨hi, hmem, -⟩ := ho.issueNext hr hroom
    (t := { s.walkIn p (s.bay b).pool stay c with state := .arrived, bay := some b }) rfl
  exact (hi.bind hmem rfl rfl rfl rfl (x := { s.bay b with ticket := some s.nextTicket }) he hse hf hst
    rfl).plugInIfPlugged b

/-! ### Bookings (R81 to R86) -/

theorem noticeDropped (h : AgreeBut ob ot s) (k : Booking) (w : DropReason) : AgreeBut ob ot (s.noticeDropped k w) :=
  h.frame

theorem dropBooking (h : AgreeBut ob ot s) (b : BayNo) (n : Nat) : AgreeBut ob ot (s.dropBooking b n) := h.frame

/-- The ticket of a displaced booking is queued, or freed at once (R84). -/
theorem displace (h : AgreeBut none none s) (hr : s.opState = .run) (hroom : s.tableRoom = true) (b : BayNo)
    (k : Booking) : AgreeBut none none (s.displace b k) := by
  obtain ⟨hi, hmem, hq⟩ := h.issueNext hr hroom
    (t := { s.bookedTicket b k with state := .waiting, bay := none, cls := k.cls.displacedClass }) rfl
  unfold State.displace
  dsimp only
  split
  · rename_i hqr
    refine AgreeBut.raiseBoth ((hi.joinQueue hmem rfl (by simpa [State.queueRoom] using hqr) (hq _)).closeTicket hmem ?_
      (.inl rfl)) _ _
    exact State.stands_waiting rfl rfl rfl rfl (State.mem_joinQueue _ _ _)
  · exact (hi.freeOpen hmem (.inl rfl)).noticeDropped _ _

/-- The open bay is held for the ticket of an activated booking (R83). -/
theorem holdBooked {b : BayNo} (h : AgreeBut (some b) none s) (hroom : s.tableRoom = true) (k : Booking) :
    AgreeBut none none (s.holdBooked b k) := by
  obtain ⟨hr, -⟩ := h.isOpen b rfl
  obtain ⟨hi, hmem, hq⟩ := h.issueNext hr hroom (t := s.bookedTicket b k) rfl
  exact (hi.holdAt hmem hq).raise _ _

theorem activate (h : AgreeBut none none s) (hr : s.opState = .run) (b : BayNo) (k : Booking) :
    AgreeBut none none (s.activate b k) := by
  have hd := h.dropBooking b k.number
  have hbay : (s.dropBooking b k.number).bay b = s.bay b := rfl
  unfold State.activate
  dsimp only
  split
  · rename_i hroom
    have hdis := hd.displace (b := b) (k := k) hr hroom
    rw [hbay]
    cases hst : (s.bay b).state with
    | free => exact (hd.openFree hst).holdBooked hroom k
    | offered => exact (hd.withdraw hst _).holdBooked (by
        simpa [State.tableRoom, State.withdraw_tickets_length] using hroom) k
    | held => exact hdis
    | occupied => exact hdis
    | active => exact hdis
    | suspended => exact hdis
    | blocked => exact hdis
    | faulted => exact hdis
    | offline => exact hdis
  · exact hd.noticeDropped _ _

theorem activateEarly (h : AgreeBut none none s) {b : BayNo} (k : Booking)
    (hb : (s.bay b).state = .free ∨ (s.bay b).state = .occupied ∧ (s.bay b).ticket = none) :
    AgreeBut none none (s.activateEarly b k) := by
  unfold State.activateEarly
  split
  · rename_i hroom
    have ho : AgreeBut (some b) none s := by
      rcases hb with hb | ⟨hb, ht⟩
      · exact h.openFree hb
      · exact h.openOccupied hb ht
    obtain ⟨hr, ⟨he, hse, hf⟩, -⟩ := ho.isOpen b rfl
    obtain ⟨hi, hmem, -⟩ := (ho.dropBooking b k.number).issueNext hr hroom (t := s.bookedTicket b k) rfl
    have hw := hi.bind hmem rfl rfl rfl rfl
      (x := { s.bay b with state := .occupied, ticket := some (s.bookedTicket b k).number }) he hse hf rfl rfl
    exact ((AgreeBut.of_setBay (f := fun x => { x with state := .occupied, ticket := some (s.bookedTicket b k).number })
      hw).raise _ _).plugInIfPlugged b
  · exact h.raise _ _

theorem expireSlot (h : AgreeBut none none s) : AgreeBut none none s.expireSlot := by
  have h1 : AgreeBut none none s.stepSlot := h.frame
  unfold State.expireSlot
  dsimp only
  split
  · rename_i hr
    have hact : AgreeBut none none (allBays.foldl State.activateDue s.stepSlot) ∧
        (allBays.foldl State.activateDue s.stepSlot).opState = .run := by
      refine List.foldlRecOn (motive := fun u => AgreeBut none none u ∧ u.opState = .run) allBays _ ⟨h1, hr⟩
        fun u hu b _ => ?_
      obtain ⟨ha, hu⟩ := hu
      unfold State.activateDue
      split
      · exact ⟨ha.activate hu b _, by simpa using hu⟩
      · exact ⟨ha, hu⟩
    refine hact.1.foldl _ (fun q hu => ?_) _
    unfold State.matchConfigured
    split
    · exact hu.matchRun q
    · exact hu
  · refine h1.foldl _ (fun b hu => ?_) _
    unfold State.dropDue
    split
    · exact (hu.dropBooking b _).noticeDropped _ _
    · exact hu

/-! ### The steps of a REPORT (R19) -/

theorem plugStep (h : AgreeBut none none s) (b : BayNo) (g : Plug) (e : Nat) : AgreeBut none none (s.plugStep b g e) := by
  unfold State.plugStep
  extract_lets old s1
  have h1 : AgreeBut none none s1 := h.touch b rfl rfl rfl rfl rfl
  have hst : (s1.bay b).state = (s.bay b).state := by simp [s1, old]
  clear_value s1
  cases hs : (s.bay b).state with
  | active =>
    dsimp only
    split
    · exact h1.closePlaced b _
    · exact h1
  | suspended =>
    dsimp only
    split
    · exact h1.resume (hst.trans hs)
    · exact h1.closePlaced b _
  | occupied =>
    dsimp only
    split
    · exact h1.plugIn (hst.trans hs)
    · exact h1
  | offline => exact h1
  | free => exact h1
  | offered => exact h1
  | held => exact h1
  | blocked => exact h1
  | faulted => exact h1

/-- Departure from an OCCUPIED bay (R13). -/
theorem depart (h : AgreeBut none none s) {b : BayNo} (hst : (s.bay b).state = .occupied) :
    AgreeBut none none (s.depart b) := by
  unfold State.depart
  split
  · rename_i n hn
    obtain ⟨t, -, ht, rfl, htb, hc, -⟩ := h.claimant hn
    have hts : t.state = .arrived := TicketState.of_claims.2.2.1 (hst ▸ hc)
    exact (h.freeWith ht htb (by simp [hts]) _).enterFree
  · exact (h.openOccupied hst (by assumption)).enterFree

/-- A slot exchange is in progress in RUN only, with an enrolled bay (R125, R138). -/
theorem slot (h : AgreeBut none none s) {b : BayNo} (hw : s.bus.sweep = .slot b) :
    s.opState = .run ∧ (s.bay b).enrolled = true := by
  refine ⟨?_, h.sweep b hw⟩
  cases e : s.opState with
  | run => rfl
  | config => exact absurd (h.config e).2.1 (by simp [hw])

theorem presenceStep (h : AgreeBut none none s) {b : BayNo} (hw : s.bus.sweep = .slot b) (x : Presence) :
    AgreeBut none none (s.presenceStep b x) := by
  unfold State.presenceStep
  extract_lets old s1
  have h1 : AgreeBut none none s1 := h.touch b rfl rfl rfl rfl rfl
  have hbay : s1.bay b = { s.bay b with presence := x } := by simp [s1, old]
  have hrun : s1.opState = s.opState := rfl
  have hright := h.bay b (by simp)
  clear_value s1
  cases hs : (s.bay b).state with
  | offline =>
    obtain ⟨hr, he⟩ := h.slot hw
    have ht : (s.bay b).ticket = none := hright.unclaimed (by simp [hs])
    have hf : (s.bay b).fault = none := Option.not_isSome_iff_eq_none.mp (by simp [hright.fault, hs])
    exact (h1.openAt (b := b) (hrun.trans hr) (by rw [hbay]; exact he) (by rw [hbay]; exact ht)
      (by rw [hbay]; exact hf)).place
  | free =>
    dsimp only
    split
    · refine AgreeBut.plugInIfPlugged (h1.openFree (b := b) (by rw [hbay]; exact hs) |>.settleBy ?_ ?_ ?_ ?_ ?_) b
      all_goals simp
    · exact h1
  | held =>
    dsimp only
    split
    · split
      · exact (h1.arrive (by rw [hbay]; exact hs) (by rw [hbay]; assumption)).plugInIfPlugged b
      · exact h1
    · exact h1
  | occupied =>
    dsimp only
    split
    · exact h1.depart (by rw [hbay]; exact hs)
    · exact h1
  | offered => exact h1
  | active => exact h1
  | suspended => exact h1
  | blocked => exact h1
  | faulted => exact h1

theorem codeStep (h : AgreeBut none none s) (b : BayNo) (c : Nat) : AgreeBut none none (s.codeStep b c) := by
  unfold State.codeStep State.presentCode
  split
  · exact h
  · split
    · rename_i hb
      obtain ⟨hst, hn⟩ : (s.bay b).state = .held ∧ (s.bay b).ticket = some c := by simpa [Bay.holds] using hb
      exact (h.arrive hst hn).plugInIfPlugged b
    · split
      · exact h
      · split
        · exact h.activateEarly _ (State.earlyBooking_bay (by assumption))
        · split
          · exact h.raise _ _
          · exact h.raise _ _

theorem demandStep (h : AgreeBut none none s) (b : BayNo) (d : Nat) : AgreeBut none none (s.demandStep b d) := by
  unfold State.demandStep
  split
  · have h1 : AgreeBut none none
        (s.setBay b ((s.bay b).modSession (fun k => { k with demand := min d 63 }))) :=
      h.touch b rfl rfl rfl rfl (by simp [Bay.modSession, Function.comp_def])
    dsimp only
    split
    · exact h1.recompute
    · exact h1
  · exact h

theorem energyStep (h : AgreeBut none none s) (b : BayNo) (i e : Nat) : AgreeBut none none (s.energyStep b i e) := by
  unfold State.energyStep
  split
  · exact h.touch b rfl rfl rfl rfl (by simp [Bay.modSession, Function.comp_def])
  · exact h

theorem takeEcho (h : AgreeBut none none s) (b : BayNo) (e : Nat) : AgreeBut none none (s.takeEcho b e) := h.frame

theorem takeReport (h : AgreeBut none none s) {b : BayNo} (hw : s.bus.sweep = .slot b) (r : Report) :
    AgreeBut none none (s.takeReport b r) := by
  unfold State.takeReport
  split
  · exact h.headFault (h.slot hw).1 (h.slot hw).2 _
  · have hp := h.plugStep b (plugOf r.plug) r.tagEcho.toNat
    exact ((((hp.presenceStep (b := b) (by simpa using hw) (takenPresence r)).codeStep b _).demandStep b _).energyStep
      b _ _).takeEcho b _

/-! ### The bay commands (R21 to R24) -/

/-- A bay without a claim enters BLOCKED (R21). -/
theorem enterBlocked {b : BayNo} (h : AgreeBut (some b) ot s) : AgreeBut none ot (s.enterBlocked b) :=
  h.settleBy (fun _ => rfl) (fun _ => rfl) (fun _ => rfl) (fun _ => rfl) (by simp)

theorem blockBay (h : AgreeBut none none s) {b : BayNo} (hr : s.opState = .run) (he : (s.bay b).enrolled = true) :
    AgreeBut none none (s.blockBay b).1 := by
  have hright := h.bay b (by simp)
  have hpend : AgreeBut none none (s.pendBlock b) := h.touch b rfl rfl rfl rfl rfl
  unfold State.blockBay
  cases hst : (s.bay b).state with
  | offline =>
    exact (h.openAt hr he (hright.unclaimed (by simp [hst]))
      (Option.not_isSome_iff_eq_none.mp (by simp [hright.fault, hst]))).enterBlocked
  | free => exact (h.openFree hst).enterBlocked
  | offered => exact (h.withdraw hst _).enterBlocked.matchIn _
  | held =>
    dsimp only
    obtain ⟨n, hn⟩ := h.claim_isSome (.inr (.inl hst))
    obtain ⟨t, hfind, ht, rfl, htb, hc, -⟩ := h.claimant hn
    simp only [hn]
    split
    · rename_i hroom
      exact (h.requeue ht htb (TicketState.of_claims.2.1 (hst ▸ hc))
        (by simpa [State.requeueRoom, State.claimPool, hn, hfind, State.queueRoom] using hroom)).enterBlocked.matchIn _
    · exact h
  | occupied => exact hpend
  | active => exact hpend
  | suspended => exact hpend
  | faulted => exact hpend
  | blocked => exact h

theorem clearFaultAt (h : AgreeBut none none s) {b : BayNo} (hst : (s.bay b).state = .faulted) :
    AgreeBut none none (s.clearFaultAt b) := by
  have hright := h.bay b (by simp)
  have ht : (s.bay b).ticket = none := hright.unclaimed (by simp [hst])
  obtain ⟨hr, he⟩ := h.enrolled_of_state (b := b) (by simp) (by simp [hst])
  exact AgreeBut.place (h.openWith hr he ht (x := { s.bay b with fault := none }) he (hright.session_none ht) rfl)

end AgreeBut
end Sys2Proof.Machine
end

