-- ==== Sys2Proof/Proofs/ClaimsKept.lean ====
section
/-! SUPPORT. Every command, timer and slot exchange keeps the agreement of claims: O58. -/

namespace Sys2Proof.Machine

/-! ### What the checks of the requests give -/

/-- A bay that a request may name is enrolled (R3). -/
theorem State.enrolledBay_enrolled {s : State} {x : Byte} {b : BayNo} (h : s.enrolledBay x = some b) :
    (s.bay b).enrolled = true := by
  unfold State.enrolledBay at h
  split at h
  · split at h
    · cases h
      assumption
    · cases h
  · cases h

/-- A ticket that a request may name is live under its number (R29). -/
theorem State.ownTicket_live {s : State} {p : Port} {n : Nat} {t : Ticket} (h : s.ownTicket p n = .ok t) :
    s.ticket? n = some t := by
  unfold State.ownTicket at h
  split at h
  · cases h
  · split at h
    · cases h
    · split at h
      · cases h
      · cases h
        assumption

/-- An open offer is that of a live ticket that is OFFERED the bay (R56). -/
theorem State.openOffer_spec {s : State} {p : Port} {n : Nat} {x : Byte} {t : Ticket} {b : BayNo}
    (h : s.openOffer p n x = .ok (t, b)) : t ∈ s.tickets ∧ t.state = .offered ∧ t.bay = some b := by
  unfold State.openOffer at h
  split at h
  · cases h
  · rename_i u hu
    split at h
    · cases h
    · split at h
      · rename_i hs
        cases h
        exact ⟨State.mem_of_ticket? (State.ownTicket_live hu), hs.1, hs.2⟩
      · cases h

theorem OpState.ne_config {x : OpState} : x ≠ .config ↔ x = .run := by
  cases x <;> simp

theorem OpState.ne_run {x : OpState} : x ≠ .run ↔ x = .config := by
  cases x <;> simp

/-- A bay record of an empty level (R4). -/
def Bay.Vacant (x : Bay) : Prop := x.state = .offline ∧ x.ticket = none ∧ x.fault = none ∧ x.session = none

namespace AgreeBut

variable {s : State}

/-- A level without a ticket, a claim or a slot exchange agrees. -/
theorem of_vacant (ht : s.tickets = []) (hc : 1 ≤ s.ticketCounter ∧ s.ticketCounter ≤ 65535)
    (hb : ∀ b, (s.bay b).Vacant) (hq : ∀ q, (s.pool q).queue = []) (ha : s.admission = [])
    (hw : s.bus.sweep = .idle ∨ s.bus.sweep = .opening ∧ s.opState = .run) : AgreeBut none none s := by
  refine ⟨⟨by simp [ht], by simp [State.liveTickets, ht], by simp [State.liveTickets, ht], hc⟩, by simp [ht],
    fun b _ => ?_, fun b _ n e => ?_, fun q => by simp [State.queuePlaced, hq], by simp [ha], fun b => ?_, fun ho => ?_,
    fun b hs => ?_, by simp, by simp⟩
  · obtain ⟨h1, h2, h3, h4⟩ := hb b
    exact ⟨by simp [h1], by simp [h1], by simp [h2], by simp [h1, h4], by simp [h4], by simp [h1, h3]⟩
  · obtain ⟨-, h2, -⟩ := hb b
    simp [h2] at e
  · obtain ⟨-, -, -, h4⟩ := hb b
    simp [ha, h4]
  · refine ⟨ht, hw.resolve_right fun e => ?_, fun b => (hb b).1⟩
    simp [e.2] at ho
  · rcases hw with e | e <;> simp [e] at hs

theorem powerOn (feed : BitVec 2) : AgreeBut none none (State.powerOn feed) := by
  have hb : ∀ b, (State.powerOn feed).bay b = Bay.powerOn := fun b => Vector.getElem_replicate b.isLt
  have hq : ∀ q, (State.powerOn feed).pool q = Pool.powerOn := fun q => Vector.getElem_replicate q.isLt
  exact of_vacant rfl (by decide +revert) (fun b => by rw [hb b]; exact ⟨rfl, rfl, rfl, rfl⟩)
    (fun q => by rw [hq q]; rfl) rfl (.inl rfl)

/-- A level that has been cleared agrees (R4, R45, R106). -/
theorem of_cleared {u : State} (hb : s.bays = u.clearBays.bays) (hq : s.pools = u.clearPools.pools)
    (ht : s.tickets = []) (hc : 1 ≤ s.ticketCounter ∧ s.ticketCounter ≤ 65535) (ha : s.admission = [])
    (hw : s.bus.sweep = .idle ∨ s.bus.sweep = .opening ∧ s.opState = .run) : AgreeBut none none s := by
  refine of_vacant ht hc (fun b => ?_) (fun q => ?_) ha hw
  · simp [State.bay, hb, State.clearBays, Bay.cleared, Bay.Vacant]
  · simp [State.pool, hq, State.clearPools, Pool.cleared]

theorem startUp (h : AgreeBut none none s) (hc : s.opState = .config) : AgreeBut none none s.startUp := by
  have hd : AgreeBut none none (allBays.foldl State.dropUnenrolled s) := by
    refine h.foldl _ (fun b hu => ?_) _
    unfold State.dropUnenrolled
    split
    · exact hu
    · exact hu.foldl _ (fun k hv => (hv.dropBooking b _).noticeDropped _ _) _
  have ho : (allBays.foldl State.dropUnenrolled s).opState = .config :=
    (foldl_frame (·.opState) _ (by simp) _ _).trans hc
  obtain ⟨ht, -, -⟩ := hd.config ho
  unfold State.startUp
  generalize allBays.foldl State.dropUnenrolled s = u at hd ht
  exact of_cleared (u := u) (by simp) (by simp [State.clearPools, State.pool]) (by simpa using ht)
    (by simpa using hd.fits.2.2.2) (by simp [State.clearBays]) (.inr ⟨rfl, rfl⟩)

theorem reconfigured (h : AgreeBut none none s) (ht : s.tickets = []) : AgreeBut none none s.reconfigured := by
  unfold State.reconfigured
  exact of_cleared (u := s) (by simp) (by simp [State.clearPools, State.pool]) (by simpa using ht)
    (by simpa using h.fits.2.2.2) (by simp [State.clearBays]) (.inl rfl)

theorem restarted (h : AgreeBut none none s) : AgreeBut none none s.restarted := by
  have hcount := h.fits.2.2.2
  unfold State.restarted
  dsimp only
  split
  · rename_i hr
    exact of_cleared (u := s) (by simp [State.clearPorts]) (by simp [State.clearPools, State.clearPorts, State.pool])
      (by simp) (by simpa [State.clearPorts] using hcount) (by simp [State.clearPorts, State.clearBays]) (.inr ⟨rfl,
        by simpa [State.clearPorts] using hr⟩)
  · exact of_cleared (u := s) (by simp [State.clearPorts]) (by simp [State.clearPools, State.clearPorts, State.pool])
      (by simp) (by simpa [State.clearPorts] using hcount) (by simp [State.clearPorts, State.clearBays]) (.inl rfl)

/-- The level settings and the cap rest on nothing that the agreement reads (R109, R110). -/
theorem withPower (h : AgreeBut none none s) (p : PowerUnit) : AgreeBut none none { s with power := p } :=
  h.frame rfl rfl rfl rfl rfl rfl rfl

theorem raiseFeed (h : AgreeBut none none s) (before : State) : AgreeBut none none (before.raiseFeed s) := by
  unfold State.raiseFeed
  split
  · exact h.raise _ _
  · exact h

theorem recomputeInRun (h : AgreeBut none none s) : AgreeBut none none s.recomputeInRun := by
  unfold State.recomputeInRun
  split
  · exact h.recompute
  · exact h

theorem setCapTo (h : AgreeBut none none s) (k : Nat) : AgreeBut none none (s.setCapTo k) :=
  ((h.withPower _).raiseFeed s).recomputeInRun

theorem setLevelTo (h : AgreeBut none none s) (c b f : Nat) : AgreeBut none none (s.setLevelTo c b f) := by
  unfold State.setLevelTo
  dsimp only
  split
  · exact (((h.withPower _).withPower _).raiseFeed s).recomputeInRun
  · exact ((h.withPower _).raiseFeed s).recomputeInRun

/-- A pool record that keeps its queue keeps the agreement. -/
theorem setPool (h : AgreeBut none none s) (q : PoolNo) {x : Pool} (hx : x.queue = (s.pool q).queue) :
    AgreeBut none none (s.setPool q x) := by
  refine h.congr rfl h.fits.2.2.2 (fun _ => rfl) (fun p => ?_) rfl rfl rfl
  rw [State.setPool_pool]
  split
  · subst p
    exact hx
  · rfl

/-- The configuration of a bay is written in CONFIG (R168). -/
theorem setUp (h : AgreeBut none none s) (hc : s.opState = .config) (b : BayNo) (e : Bool) (q : PoolNo) (r : Nat) :
    AgreeBut none none (s.setBay b { s.bay b with enrolled := e, pool := q, rating := r }) := by
  obtain ⟨ht, hw, hoff⟩ := h.config hc
  have hbay := s.setBay_bay b (x := { s.bay b with enrolled := e, pool := q, rating := r })
  have hright := h.bay b (by simp)
  refine ⟨h.fits, by simp [ht], fun c _ => ?_, fun c _ n en => ?_, h.queue, h.nodup, fun c => ?_, fun ho => ?_,
    fun c hs => ?_, by simp, by simp⟩
  · rw [hbay]
    split
    · exact ⟨fun _ => hoff b, hright.claimed, hright.unclaimed, hright.session, hright.holder, hright.fault⟩
    · exact h.bay c (by simp)
  · rw [hbay] at en
    split at en
    · obtain ⟨t, htm, -⟩ := h.names b (by simp) n en
      simp [ht] at htm
    · exact h.names c (by simp) n en
  · rw [hbay]
    split
    · subst c
      exact h.admission b
    · exact h.admission c
  · refine ⟨ht, hw, fun c => ?_⟩
    rw [hbay]
    split
    · exact hoff b
    · exact hoff c
  · simp [hw] at hs

/-- A step of the controller keeps the agreement, where it is idle in CONFIG and exchanges slots with enrolled bays. -/
theorem withBus (h : AgreeBut none none s) (bus : HeadBus) (hc : s.opState = .config → bus.sweep = .idle)
    (hs : ∀ b, bus.sweep = .slot b → (s.bay b).enrolled = true) : AgreeBut none none { s with bus := bus } :=
  { h with
    ticket := fun t ht hn => (h.ticket t ht hn).congr id fun _ _ => rfl
    config := fun e => ⟨(h.config e).1, hc e, (h.config e).2.2⟩
    sweep := hs }

/-! ### The owners (R151) -/

/-- Every owner keeps the agreement. -/
theorem owner {own : Owner} (ho : IsOwner own) (p : Port) (pl : List Byte) (h : AgreeBut none none s) :
    AgreeBut none none (own p pl s).1 := by
  cases ho
  case queryBay | queryTicket | queryPool | queryBookings | queryBooking | queryPower | queryConfig =>
    simp only [ownQueryBay, ownQueryTicket, ownQueryPool, ownQueryBookings, ownQueryBooking, ownQueryPower, ownQueryConfig]
    repeat' split
    all_goals exact h
  case book | setSlotClock | setBands | setTimers | readNotices | openWindow | readWindow =>
    simp only [ownBook, ownSetSlotClock, ownSetBands, ownSetTimers, ownReadNotices, ownOpenWindow, ownReadWindow]
    repeat' split
    all_goals exact h.frame rfl rfl rfl rfl rfl rfl rfl
  case setCap =>
    unfold ownSetCap
    split
    · exact h.setCapTo _
    · exact h
  case setLevel =>
    unfold ownSetLevel
    split
    · exact h.setLevelTo _ _ _
    · exact h
  case blockBay =>
    unfold ownBlockBay
    repeat' split
    any_goals exact h
    rename_i hc _
    exact h.blockBay (OpState.ne_config.mp hc) (State.enrolledBay_enrolled (by assumption))
  case unblockBay =>
    unfold ownUnblockBay
    repeat' split
    any_goals exact h
    · rename_i b he hc hst
      have hright := h.bay b (by simp)
      exact (h.openAt (OpState.ne_config.mp hc) (State.enrolledBay_enrolled he) (hright.unclaimed (by simp [hst]))
        (Option.not_isSome_iff_eq_none.mp (by simp [hright.fault, hst]))).place
    · exact h.touch _ rfl rfl rfl rfl rfl
  case clearFault =>
    unfold ownClearFault
    repeat' split
    any_goals exact h
    exact h.clearFaultAt (by assumption)
  case forceClose =>
    unfold ownForceClose
    repeat' split
    any_goals exact h
    · exact h.closePlaced _ _
    · exact h.closePlaced _ _
  case requestBay =>
    unfold ownRequestBay
    repeat' split
    any_goals exact h
    rename_i hc _ c _ _ _ q _ _ hroom
    obtain ⟨hi, hmem, hq⟩ := h.issueNext (OpState.ne_config.mp hc) hroom (t := s.walkIn p q _ c) rfl
    exact hi.grant hmem rfl rfl rfl rfl hq _
  case adoptBay =>
    unfold ownAdoptBay
    repeat' split
    any_goals exact h
    rename_i hb _ hroom
    simp only [ne_eq, not_or, Decidable.not_not] at hb
    exact h.adopt hb.1 hb.2 hroom _ _ _
  case assignBay =>
    unfold ownAssignBay
    repeat' split
    any_goals exact h
    rename_i ht _ _ _ hst hfree
    have ht := State.mem_of_ticket? (State.ownTicket_live ht)
    exact ((h.openWaiting ht (Decidable.not_not.mp hst)).openFree (Decidable.not_not.mp hfree)).holdQueued ht
  case cancelTicket =>
    unfold ownCancelTicket
    repeat' split
    any_goals exact h
    rename_i ht hst
    exact h.cancel (State.mem_of_ticket? (State.ownTicket_live ht)) hst
  case acceptOffer =>
    unfold ownAcceptOffer
    repeat' split
    any_goals exact h
    rename_i e
    obtain ⟨ht, hst, hb⟩ := State.openOffer_spec e
    exact (h.openClaim ht hb (by simp [hst])).holdQueued ht
  case declineOffer =>
    unfold ownDeclineOffer
    repeat' split
    any_goals exact h
    rename_i e
    obtain ⟨ht, hst, hb⟩ := State.openOffer_spec e
    exact h.giveUpOffer ht hb hst false
  case maskPool =>
    unfold ownMaskPool
    repeat' split
    any_goals exact h
    exact h.setPool _ rfl
  case unmaskPool =>
    unfold ownUnmaskPool
    repeat' split
    any_goals exact h
    exact AgreeBut.matchRun (s := s.setMask _ false) (h.setPool _ rfl) _
  case cancelBooking =>
    unfold ownCancelBooking
    dsimp only
    repeat' split
    any_goals exact h
    · exact AgreeBut.matchRun (h.dropBooking _ _) _
    · exact h.dropBooking _ _
  case setBay =>
    unfold ownSetBay
    repeat' split
    any_goals exact h
    exact h.setUp (OpState.ne_run.mp (by assumption)) _ _ _ _
  case setPool =>
    unfold ownSetPool
    repeat' split
    any_goals exact h
    exact h.setPool _ rfl
  case start =>
    unfold ownStart
    repeat' split
    any_goals exact h
    exact h.startUp (OpState.ne_run.mp (by assumption))
  case reconfigure =>
    unfold ownReconfigure
    repeat' split
    any_goals exact h
    exact h.reconfigured (by assumption)
  case restart =>
    unfold ownRestart
    split
    · exact h.restarted
    · exact h

end AgreeBut

/-- Every event keeps the agreement of claims. -/
theorem agreeBut_keptByEvents : KeptByEvents (AgreeBut none none) where
  outside _ _ _ _ h := h.frame rfl rfl rfl rfl rfl rfl rfl
  owner own ho p pl s h := h.owner ho p pl
  bus s bus _ hw h := by
    refine h.withBus bus (fun hc => ?_) fun b hs => ?_
    · obtain ⟨-, hi, -⟩ := h.config hc
      rcases hw with e | e | ⟨-, e | e⟩
      · exact e
      · exact e.trans hi
      · simp [hc] at e
      · exact absurd hi e
    · rcases hw with e | e | ⟨e, -⟩
      · simp [e] at hs
      · exact h.sweep b (e ▸ hs)
      · simp [e] at hs
  enterNext s rest hne h := by
    have hrun : s.opState ≠ .config := fun e => hne (h.config e).2.1
    unfold State.enterNext
    split
    · rename_i b hb
      refine h.withBus _ (fun hc => absurd hc hrun) fun c hc => ?_
      obtain rfl : b = c := by simpa [State.enterSlot] using hc
      exact List.find?_some (p := fun b => (s.bay b).enrolled) hb
    · exact h.withBus _ (fun hc => absurd hc hrun) (by simp)
  powerOn feed := .powerOn feed
  tick s h := by
    unfold State.tick
    dsimp only
    split
    · exact h.frame rfl rfl rfl rfl rfl rfl rfl
    · exact h.frame rfl rfl rfl rfl rfl rfl rfl
  feedCodeIs _ _ h := h.frame
  takeCandidate s h := by
    unfold State.takeCandidate
    dsimp only
    split
    · exact h.withPower _
    · exact (((h.withPower _).withPower _).raiseFeed s).recomputeInRun
  expireHold s t b hf hst hb h := h.expireHold (State.mem_of_ticket? hf) hb hst
  giveUpOffer s t b hf hst hb h := h.giveUpOffer (State.mem_of_ticket? hf) hb hst true
  closeLost s b _ h := h.closeLost b
  expireSlot _ h := h.expireSlot
  takeReply s b r hw h := by
    have h1 : AgreeBut none none (s.linkOnline b) := h.frame (hw := by simp [State.linkOnline])
    exact h1.takeReport (by simpa [State.linkOnline] using hw) r
  takeBusy s b hw h := by
    unfold State.takeBusy
    extract_lets count old s1
    have h1 : AgreeBut none none s1 := h.frame rfl rfl rfl rfl rfl rfl rfl
    split
    · exact h1.headFault (h.slot hw).1 (h.slot hw).2 _
    · exact h1
  takeSilence s b hw h := by
    have h1 : ∀ x, AgreeBut none none (s.changeLink b x) := fun x => h.frame
    unfold State.takeSilence
    dsimp only
    split
    · exact (h1 _).loseHead b
    · exact h1 _

/-- Settles O58: the claims agree after every step, as each operation keeps them but at the bay and the ticket that it
is at work on. -/
theorem claimsKept : Obligations.ClaimsKept := by
  unfold Obligations.ClaimsKept
  intro s t hs he
  exact (agreeBut_none_iff t).mp (agreeBut_keptByEvents.step ((agreeBut_none_iff s).mpr hs) he)

end Sys2Proof.Machine
end

