-- ==== Sys2Proof/Proofs/Reset.lean ====
section
/-! SUPPORT. The state after a power reset, record by record: O44 and O54. -/

namespace Sys2Proof.Machine

/-! ### The records after a power reset (R4, R45, R90, R124, R129, R143) -/

@[simp] theorem State.powerOn_bay (feed : BitVec 2) (b : BayNo) : (State.powerOn feed).bay b = Bay.powerOn :=
  Vector.getElem_replicate b.isLt

@[simp] theorem State.powerOn_pool (feed : BitVec 2) (q : PoolNo) : (State.powerOn feed).pool q = Pool.powerOn :=
  Vector.getElem_replicate q.isLt

@[simp] theorem State.powerOn_bookings (feed : BitVec 2) (b : BayNo) : (State.powerOn feed).bookings b = [] :=
  Vector.getElem_replicate b.isLt

@[simp] theorem State.powerOn_setpoint (feed : BitVec 2) (b : BayNo) :
    (State.powerOn feed).setpoint b = Setpoint.cleared :=
  Vector.getElem_replicate b.isLt

@[simp] theorem State.powerOn_link (feed : BitVec 2) (b : BayNo) : (State.powerOn feed).link b = LinkRecord.cleared :=
  Vector.getElem_replicate b.isLt

@[simp] theorem State.powerOn_port (feed : BitVec 2) (p : Port) : (State.powerOn feed).port p = PortUnit.powerOn := by
  cases p <;> rfl

@[simp] theorem State.powerOn_queue (feed : BitVec 2) (p : Port) : (State.powerOn feed).queue p = NoticeQueue.empty := by
  cases p <;> rfl

/-- Settles O44: the values of the records, one by one. -/
theorem powerResetValues : Obligations.PowerResetValues := by
  unfold Obligations.PowerResetValues
  intro s feed
  refine ⟨{ State.powerOn feed with pending := s.pending }, rfl, rfl, rfl, rfl, fun b => ⟨?_, ?_, ?_, ?_⟩, rfl, rfl, rfl,
    fun q => ?_, rfl, rfl, rfl, rfl, rfl, rfl, rfl, rfl, rfl, rfl, rfl, rfl, rfl, rfl, rfl, rfl, fun p => ?_, rfl, rfl⟩
  · exact State.powerOn_bay feed b
  · exact State.powerOn_bookings feed b
  · exact State.powerOn_setpoint feed b
  · exact State.powerOn_link feed b
  · exact State.powerOn_pool feed q
  · have hp : ({ State.powerOn feed with pending := s.pending } : State).port p = PortUnit.powerOn :=
      State.powerOn_port feed p
    have hq : ({ State.powerOn feed with pending := s.pending } : State).queue p = NoticeQueue.empty :=
      State.powerOn_queue feed p
    rw [hp, hq]
    exact ⟨rfl, rfl, rfl, rfl, rfl, rfl⟩

/-! ### The invariants after a power reset -/

/-- The book is empty after a power reset (R90). -/
theorem State.powerOn_liveBookings (feed : BitVec 2) : (State.powerOn feed).liveBookings = [] := by
  simp [State.liveBookings]

theorem bookFits_powerOn (feed : BitVec 2) : BookFits (State.powerOn feed) := by
  simp [BookFits, State.bookSize, State.powerOn_liveBookings]
  simp [State.powerOn, BookingUnit.powerOn]

theorem bookOrdered_powerOn (feed : BitVec 2) : BookOrdered (State.powerOn feed) := by
  simp [BookOrdered]

theorem linksAgree_powerOn (feed : BitVec 2) : LinksAgree (State.powerOn feed) := by
  simp [LinksAgree, LinkRecord.cleared]

theorem noticesFit_powerOn (feed : BitVec 2) : NoticesFit (State.powerOn feed) := by
  simp [NoticesFit, NoticeQueue.empty]

theorem portsSettled_powerOn (feed : BitVec 2) : PortsSettled (State.powerOn feed) := by
  simp [PortsSettled, PortUnit.powerOn]

theorem setpointsFollow_powerOn (feed : BitVec 2) : SetpointsFollow (State.powerOn feed) := by
  simp [SetpointsFollow, Bay.powerOn, Setpoint.cleared]

theorem flagsFollow_powerOn (feed : BitVec 2) : FlagsFollow (State.powerOn feed) := by
  simp [FlagsFollow, Bay.powerOn]

/-- No bay has a target after a power reset (R124). -/
theorem targetsFit_powerOn (feed : BitVec 2) : TargetsFit (State.powerOn feed) := by
  have h : (State.powerOn feed).targetSum = 0 := by
    simp [State.targetSum, Bay.powerOn]
  simp [TargetsFit, h]

/-- Settles O54: each invariant from the records that it reads. -/
theorem resetMeetsInvariants : Obligations.ResetMeetsInvariants := by
  unfold Obligations.ResetMeetsInvariants
  have hranges := RangesHold.powerOn True 0#2
  have hclaims := (agreeBut_none_iff _).mp (AgreeBut.powerOn 0#2)
  have hconfig : State.reset.opState ≠ .run := nofun
  exact ⟨fun h => by simp [State.listening, hconfig] at h, linksAgree_powerOn 0#2, noticesFit_powerOn 0#2, hclaims.1,
    bookFits_powerOn 0#2, bookOrdered_powerOn 0#2, hranges.1, hranges.2 trivial, portsSettled_powerOn 0#2, hclaims,
    fun h => absurd h hconfig, setpointsFollow_powerOn 0#2, flagsFollow_powerOn 0#2, targetsFit_powerOn 0#2,
    fun h => absurd h hconfig⟩

end Sys2Proof.Machine
end

