-- ==== Sys2Proof/Proofs/RequestRows.lean ====
section
/-! SUPPORT. A request row at a port that is ready, said once for every owner: refused by its owner, carried out, or
asked of a record. -/

namespace Sys2Proof.Machine

/-- A row is a request of this port to this owner, whose work reads no port unit (R151). -/
structure IsRequest (c : Instr) (p : Port) (i : CommandInfo) (own : Owner) (pl : List Byte) : Prop where
  row : ∀ s, exec c s = .next (s.request p i own pl)
  fits : pl.length ≤ 48
  ports : ∀ (t : State) (P : PerPort PortUnit), own p pl (t.withPorts P) = outWithPorts (own p pl t) P

/-- The port unit lets a request of legal length pass that the role may use, in a state that takes it (R148). -/
theorem State.portRefusal_none {s : State} {p : Port} {i : CommandInfo} {pl : List Byte} (hm : i.mayUse p = true)
    (ho : p = .s ∨ s.opState = .run ∨ i.reading = true) (hl : pl.length ∈ i.lengths) : s.portRefusal p i pl = none := by
  have hc : ¬(s.opState = .config ∧ p ≠ .s ∧ i.reading = false) := by
    rintro ⟨h1, h2, h3⟩
    rcases ho with h | h | h <;> simp_all
  simp [State.portRefusal, hm, hc, hl]

namespace IsRequest

variable {c : Instr} {p : Port} {i : CommandInfo} {own : Owner} {pl : List Byte} {s : State}

/-- The owner carries the request out, or refuses it, and leaves the bus alone (R151). -/
theorem answered (h : IsRequest c p i own pl) (hs : s.ready p) (hr : s.portRefusal p i pl = none)
    (hq : i.quiet = false) {u : State} {r : Reply} (e : own p pl s = (u, r)) (hc : r.clearsOverrun = false)
    (hb : u.bus = s.bus) : ∃ t, exec c s = .next t ∧
      s.answeredWith u t p r.status r.payload (r.clamped && r.status.carriedOut) :=
  ⟨_, h.row s, State.request_answered h.ports hs h.fits hr hq e hc hb⟩

/-- The owner refuses the request (R151). -/
theorem refused (h : IsRequest c p i own pl) (hs : s.ready p) (hr : s.portRefusal p i pl = none)
    (hq : i.quiet = false) {st : Status} {answer : List Byte} (e : own p pl s = (s, .refuseWith st answer)) :
    s.refusedBy c p st answer :=
  h.answered hs hr hq e rfl rfl

/-- The owner of a quiet command answers and changes nothing (R136, R151). -/
theorem asked (h : IsRequest c p i own pl) (hs : s.ready p) (hr : s.portRefusal p i pl = none)
    (hq : i.quiet = true) {r : Reply} (e : own p pl s = (s, r)) (hc : r.clearsOverrun = false) :
    ∃ t, exec c s = .next t ∧ s.answers t p r.status r.payload (r.clamped && r.status.carriedOut) ∧
      t = { s with ports := t.ports } := by
  have o : own p pl (s.startTaking p) = (s.startTaking p, r) := by
    rw [State.startTaking_eq, h.ports, e]
    rfl
  have e1 : s.request p i own pl = (s.startTaking p).answer p r := by
    rw [State.request_ready i own hs h.fits]
    simp [State.takeRequest, State.startTaking_portRefusal, hr, State.handOver, hq, o]
  obtain ⟨a, b⟩ := State.respond_taking s (s.startTaking p) p r rfl hc
  refine ⟨_, h.row s, e1 ▸ a, ?_⟩
  rw [e1, b]
  rfl

end IsRequest

/-! ### The rows of the bay and configuration commands -/

theorem blockBay_isRequest (x : Byte) : IsRequest (.blockBay .s [x]) .s infoBlockBay ownBlockBay [x] :=
  ⟨fun _ => rfl, by simp, fun t P => ownBlockBay_withPorts t P .s [x]⟩

theorem unblockBay_isRequest (x : Byte) : IsRequest (.unblockBay .s [x]) .s infoUnblockBay ownUnblockBay [x] :=
  ⟨fun _ => rfl, by simp, fun t P => ownUnblockBay_withPorts t P .s [x]⟩

theorem clearFault_isRequest (x : Byte) : IsRequest (.clearFault .s [x]) .s infoClearFault ownClearFault [x] :=
  ⟨fun _ => rfl, by simp, fun t P => ownClearFault_withPorts t P .s [x]⟩

theorem forceClose_isRequest (x : Byte) : IsRequest (.forceClose .s [x]) .s infoForceClose ownForceClose [x] :=
  ⟨fun _ => rfl, by simp, fun t P => ownForceClose_withPorts t P .s [x]⟩

theorem adoptBay_isRequest (p : Port) (x y z : Byte) :
    IsRequest (.adoptBay p [x, y, z]) p infoAdoptBay ownAdoptBay [x, y, z] :=
  ⟨fun _ => rfl, by simp, fun t P => ownAdoptBay_withPorts t P p [x, y, z]⟩

/-! ### Naming a bay (R1, R3) -/

theorem bayNo_of_val {x : Byte} {b : BayNo} (h : b.val = x.toNat) : bayNo x = some b := by
  simp [bayNo, ← h]

theorem bayNo_of_ge {x : Byte} (h : 48 ≤ x.toNat) : bayNo x = none := by
  simp [bayNo, h]

/-- A bay number above 47 names no bay (R1). -/
theorem State.enrolledBay_of_ge (s : State) {x : Byte} (h : 48 ≤ x.toNat) : s.enrolledBay x = none := by
  simp [State.enrolledBay, bayNo_of_ge h]

/-- A bay number names the bay where it is enrolled (R3). -/
theorem State.enrolledBay_of_val (s : State) {x : Byte} {b : BayNo} (h : b.val = x.toNat) :
    s.enrolledBay x = if (s.bay b).enrolled then some b else none := by
  simp [State.enrolledBay, bayNo_of_val h]

/-! ### Refusals of the bay commands (R21, R22, R24, R105) -/

section Refusals

variable {s : State} {x : Byte} (hs : s.ready .s)
include hs

theorem blockBay_refused {st : Status} (e : ownBlockBay .s [x] s = (s, .refuse st)) :
    s.refusedBy (.blockBay .s [x]) .s st [] :=
  (blockBay_isRequest x).refused hs (State.portRefusal_none rfl (.inl rfl) (by simp [infoBlockBay])) rfl e

theorem unblockBay_refused {st : Status} (e : ownUnblockBay .s [x] s = (s, .refuse st)) :
    s.refusedBy (.unblockBay .s [x]) .s st [] :=
  (unblockBay_isRequest x).refused hs (State.portRefusal_none rfl (.inl rfl) (by simp [infoUnblockBay])) rfl e

theorem clearFault_refused {st : Status} (e : ownClearFault .s [x] s = (s, .refuse st)) :
    s.refusedBy (.clearFault .s [x]) .s st [] :=
  (clearFault_isRequest x).refused hs (State.portRefusal_none rfl (.inl rfl) (by simp [infoClearFault])) rfl e

theorem forceClose_refused {st : Status} (e : ownForceClose .s [x] s = (s, .refuse st)) :
    s.refusedBy (.forceClose .s [x]) .s st [] :=
  (forceClose_isRequest x).refused hs (State.portRefusal_none rfl (.inl rfl) (by simp [infoForceClose])) rfl e

theorem blockBay_done {u : State} (e : ownBlockBay .s [x] s = (u, .ok [])) (hb : u.bus = s.bus) :
    ∃ t, exec (.blockBay .s [x]) s = .next t ∧ s.answeredWith u t .s .ok [] false :=
  (blockBay_isRequest x).answered hs (State.portRefusal_none rfl (.inl rfl) (by simp [infoBlockBay])) rfl e rfl hb

theorem unblockBay_done {u : State} (e : ownUnblockBay .s [x] s = (u, .ok [])) (hb : u.bus = s.bus) :
    ∃ t, exec (.unblockBay .s [x]) s = .next t ∧ s.answeredWith u t .s .ok [] false :=
  (unblockBay_isRequest x).answered hs (State.portRefusal_none rfl (.inl rfl) (by simp [infoUnblockBay])) rfl e rfl hb

theorem clearFault_done {u : State} (e : ownClearFault .s [x] s = (u, .ok [])) (hb : u.bus = s.bus) :
    ∃ t, exec (.clearFault .s [x]) s = .next t ∧ s.answeredWith u t .s .ok [] false :=
  (clearFault_isRequest x).answered hs (State.portRefusal_none rfl (.inl rfl) (by simp [infoClearFault])) rfl e rfl hb

/-- A bay that the request does not name is NO_SUCH in BLOCK BAY, UNBLOCK BAY and CLEAR FAULT (R1, R3). -/
theorem service_noSuch (hx : s.enrolledBay x = none) : s.refusedBy (.blockBay .s [x]) .s .noSuch [] ∧
    s.refusedBy (.unblockBay .s [x]) .s .noSuch [] ∧ s.refusedBy (.clearFault .s [x]) .s .noSuch [] :=
  ⟨blockBay_refused hs (by simp [ownBlockBay, hx]), unblockBay_refused hs (by simp [ownUnblockBay, hx]),
    clearFault_refused hs (by simp [ownClearFault, hx])⟩

/-- An enrolled bay is WRONG_STATE in CONFIG in BLOCK BAY, UNBLOCK BAY and CLEAR FAULT (section 1.6). -/
theorem service_config {b : BayNo} (hx : s.enrolledBay x = some b) (hc : s.opState = .config) :
    s.refusedBy (.blockBay .s [x]) .s .wrongState [] ∧ s.refusedBy (.unblockBay .s [x]) .s .wrongState [] ∧
      s.refusedBy (.clearFault .s [x]) .s .wrongState [] :=
  ⟨blockBay_refused hs (by simp [ownBlockBay, hx, hc]), unblockBay_refused hs (by simp [ownUnblockBay, hx, hc]),
    clearFault_refused hs (by simp [ownClearFault, hx, hc])⟩

theorem forceClose_noSuch (hx : s.enrolledBay x = none) (hr : s.opState = .run) :
    s.refusedBy (.forceClose .s [x]) .s .noSuch [] :=
  forceClose_refused hs (by simp [ownForceClose, hx, hr])

/-- FORCE CLOSE at a bay that is neither ACTIVE nor SUSPENDED (R105). -/
theorem forceClose_wrongState {b : BayNo} (hx : s.enrolledBay x = some b) (hr : s.opState = .run)
    (ha : (s.bay b).state ≠ .active) (hsu : (s.bay b).state ≠ .suspended) :
    s.refusedBy (.forceClose .s [x]) .s .wrongState [] := by
  refine forceClose_refused hs ?_
  cases hst : (s.bay b).state with
  | active => exact absurd hst ha
  | suspended => exact absurd hst hsu
  | offline | free | offered | held | occupied | blocked | faulted => simp [ownForceClose, hx, hr, hst]

end Refusals

/-- Settles O11: each refusal from the first check that fails. -/
theorem bayCommandRefusals : Obligations.BayCommandRefusals := by
  unfold Obligations.BayCommandRefusals
  intro s x hs
  refine ⟨fun hc => forceClose_refused hs (by simp [ownForceClose, hc]), fun hx => ?_, fun b hb => ?_⟩
  · have hno := s.enrolledBay_of_ge hx
    exact ⟨service_noSuch hs hno, forceClose_noSuch hs hno⟩
  · have hbay := s.enrolledBay_of_val hb
    refine ⟨fun he => ?_, fun he hc => ?_, fun he hr => ⟨fun hst => ?_, fun hst hp => ?_, fun hst => ?_, ?_⟩⟩
    · have hno : s.enrolledBay x = none := by simp [hbay, he]
      exact ⟨service_noSuch hs hno, forceClose_noSuch hs hno⟩
    · exact service_config hs (b := b) (by simp [hbay, he]) hc
    · exact blockBay_refused hs (by simp [ownBlockBay, hbay, he, hr, hst])
    · exact unblockBay_refused hs (by simp [ownUnblockBay, hbay, he, hr, hst, hp])
    · exact clearFault_refused hs (by simp [ownClearFault, hbay, he, hr, hst])
    · exact forceClose_wrongState hs (by simp [hbay, he]) hr

/-! ### A change of the bay's state (R7) -/

/-- A change of a bay to another state, but not to FAULTED, raises one BAY_STATE without a fault code (R7). -/
theorem State.changeBay_to {s : State} {b : BayNo} {f : Bay → Bay} (hst : (f (s.bay b)).state ≠ (s.bay b).state)
    (hf : (f (s.bay b)).state ≠ .faulted) : s.changeBay b f =
      (s.setBay b (f (s.bay b))).raise .s (.bayState b (f (s.bay b)).state (s.link b).link none) := by
  rw [State.changeBay_of_shows s b f (by simp [Bay.shows, hst])]
  simp only [State.bayNotice, State.setBay_bay_self, hf, if_false]
  rfl

/-- Settles O8: the write of the bay record, with the BAY_STATE of a bay that becomes BLOCKED. -/
theorem blockBayByState : Obligations.BlockBayByState := by
  unfold Obligations.BlockBayByState
  intro s x b hs hr hx hp
  constructor
  · intro hst
    have hne : (s.bay b).state ≠ .blocked := by rcases hst with e | e <;> simp [e]
    have hentered : s.enterBlocked b = (s.setBay b { s.bay b with state := .blocked, ticket := none }).raise .s
        (.bayState b .blocked (s.link b).link none) := State.changeBay_to (by simpa using hne.symm) (by simp)
    refine blockBay_done hs (u := (s.setBay b { s.bay b with state := .blocked, ticket := none }).raise .s
      (.bayState b .blocked (s.link b).link none)) ?_ rfl
    rw [← hentered]
    rcases hst with e | e <;> simp [ownBlockBay, hx, hr, e, hp, State.blockBay]
  · intro hst
    refine blockBay_done hs (u := s.pendBlock b) ?_ rfl
    rcases hst with e | e | e | e <;> simp [ownBlockBay, hx, hr, e, hp, State.blockBay]

/-! ### Placement of a bay that was out of service (R6, R22, R24) -/

/-- Two changes that give the bay one record are one (R7). -/
theorem State.changeBay_congr {s : State} {b : BayNo} {f g : Bay → Bay} (h : f (s.bay b) = g (s.bay b)) :
    s.changeBay b f = s.changeBay b g := by
  unfold State.changeBay
  rw [h]

/-- Placement by last report is a change of the bay to the record that R6 names. -/
theorem State.placeAt_eq (s : State) (b : BayNo) : s.placeAt b = s.changeBay b (fun x => x.placed (s.linkLost b)) := by
  unfold State.placeAt State.settleFree
  repeat' split
  all_goals
    apply State.changeBay_congr
    simp_all [Bay.placed]

/-- A placed bay is OCCUPIED, BLOCKED, OFFLINE or FREE, and BLOCKED only with a block that was pending (R5, R6). -/
theorem Bay.placed_state (x : Bay) (lost : Bool) : (x.placed lost).state = .occupied ∨
    (x.placed lost).state = .blocked ∧ x.blockPending = true ∨ (x.placed lost).state = .offline ∨
      (x.placed lost).state = .free := by
  unfold Bay.placed
  cases x.presence <;> cases hb : x.blockPending <;> cases lost <;> simp

/-- What an opened session leaves in the bay table (R93). -/
theorem State.openSession_bay (s : State) (b : BayNo) (n : Nat) (c : BayNo) :
    (s.openSession b n).bay c = if c = b then s.openedBay b n else s.bay c := by
  simp [State.openSession, State.bay, State.setBay, Vector.getElem_set, Fin.ext_iff, eq_comm]

/-- A plug-in leaves an OCCUPIED bay OCCUPIED or ACTIVE (R14). -/
theorem State.plugIn_state {s : State} {b : BayNo} (h : (s.bay b).state = .occupied) :
    ((s.plugIn b).bay b).state = .occupied ∨ ((s.plugIn b).bay b).state = .active := by
  unfold State.plugIn
  split
  · simp [h]
  · split
    · simp [State.openSession_bay, State.openedBay]
    · dsimp only
      split
      · simp [State.openSession_bay, State.openedBay]
      · exact .inl h

/-- The plug-in and the matching run that follow a placement, by the state the bay has entered (R5, R14). -/
theorem State.settle_eq (u : State) (b : BayNo) : (u.plugInIfPlugged b).matchIfFree b =
    if (u.bay b).state = .free then u.matchRun (u.bay b).pool
    else if (u.bay b).state = .occupied ∧ (u.bay b).plug = .plugged then u.plugIn b else u := by
  unfold State.plugInIfPlugged State.matchIfFree
  by_cases hf : (u.bay b).state = .free
  · simp [hf]
  · rw [if_neg hf]
    split
    · rename_i hp
      rcases State.plugIn_state hp.1 with e | e <;> simp [e]
    · simp

/-- Settles O10: BLOCKED and FAULTED bays change their state when they are placed, so that one BAY_STATE is raised; the
plug-in and the matching run follow by the state that the bay has entered. -/
theorem outOfServiceBaysArePlaced : Obligations.OutOfServiceBaysArePlaced := by
  unfold Obligations.OutOfServiceBaysArePlaced
  intro s x b hs hr hx y u v
  have hu : u.bay b = y := State.setBay_bay_self s b y
  have hv : (u.plugInIfPlugged b).matchIfFree b = v := by rw [State.settle_eq, hu]
  have hbus : v.bus = s.bus := by
    rw [← hv]
    simp [u]
  have hne : y.state ≠ .faulted := by
    rcases Bay.placed_state { s.bay b with
      fault := if (s.bay b).state = .faulted then none else (s.bay b).fault } (s.linkLost b) with e | ⟨e, -⟩ | e | e <;>
      simp [y, e]
  refine ⟨fun hst hp => unblockBay_done hs ?_ hbus, fun hst => clearFault_done hs ?_ hbus,
    fun hst hp => unblockBay_done hs (u := s.setBay b { s.bay b with blockPending := false }) ?_ rfl⟩
  · have hy : y = (s.bay b).placed (s.linkLost b) := by
      simp only [y]
      rw [if_neg (by simp [hst])]
    have hplace : s.placeAt b = u := by
      rw [State.placeAt_eq, State.changeBay_to]
      · rw [← hy]
        rfl
      · rcases Bay.placed_state (s.bay b) (s.linkLost b) with e | ⟨-, e⟩ | e | e <;> simp_all
      · exact hy ▸ hne
    rw [← hv, ← hplace]
    simp [ownUnblockBay, hx, hr, hst, State.place]
  · have hy : y = ({ s.bay b with fault := none } : Bay).placed (s.linkLost b) := by simp [y, hst]
    have hplace : (s.setBay b { s.bay b with fault := none }).placeAt b = u := by
      have hl : (s.setBay b { s.bay b with fault := none }).linkLost b = s.linkLost b := rfl
      rw [State.placeAt_eq, State.changeBay_to]
      · rw [hl, State.setBay_bay_self, ← hy]
        simp [u, State.setBay]
        rfl
      · rw [hl, State.setBay_bay_self, ← hy]
        simpa [hst] using hne
      · rw [hl, State.setBay_bay_self, ← hy]
        exact hne
    rw [← hv, ← hplace]
    simp [ownClearFault, hx, hr, hst, State.clearFaultAt, State.place]
  · simp [ownUnblockBay, hx, hr, hst, hp]

end Sys2Proof.Machine
end

