-- ==== Sys2Proof/Proofs/Queries.lean ====
section
/-! SUPPORT. The seven queries: each answers with the fields of a record, or refuses, and changes nothing: O7. -/

namespace Sys2Proof.Machine

/-- A query is answered OK with these fields, and nothing but the port changes (R151). -/
def State.tells (s : State) (c : Instr) (p : Port) (fields : List Byte) : Prop :=
  ∃ t, exec c s = .next t ∧ s.answers t p .ok fields false ∧ t = { s with ports := t.ports }

/-! ### The rows of the queries -/

section Rows

variable {s : State} {p : Port} (hs : s.ready p)
include hs

theorem queryBay_tells {x : Byte} {fields : List Byte} (e : ownQueryBay p [x] s = (s, .ok fields)) :
    s.tells (.queryBay p [x]) p fields :=
  IsRequest.asked ⟨fun _ => rfl, by simp, fun t P => ownQueryBay_withPorts t P p [x]⟩ hs
    (State.portRefusal_none (by cases p <;> rfl) (.inr (.inr rfl)) (by simp [infoQueryBay])) rfl e rfl

theorem queryBay_refused {x : Byte} {st : Status} (e : ownQueryBay p [x] s = (s, .refuse st)) :
    s.turnedAway (.queryBay p [x]) p st :=
  IsRequest.asked ⟨fun _ => rfl, by simp, fun t P => ownQueryBay_withPorts t P p [x]⟩ hs
    (State.portRefusal_none (by cases p <;> rfl) (.inr (.inr rfl)) (by simp [infoQueryBay])) rfl e rfl

theorem queryPower_tells {pl fields : List Byte} (hl : pl.length ≤ 1)
    (e : ownQueryPower p pl s = (s, .ok fields)) : s.tells (.queryPower p pl) p fields :=
  IsRequest.asked ⟨fun _ => rfl, by omega, fun t P => ownQueryPower_withPorts t P p pl⟩ hs
    (State.portRefusal_none (by cases p <;> rfl) (.inr (.inr rfl)) (by simpa [infoQueryPower] using Nat.le_one_iff_eq_zero_or_eq_one.mp hl)) rfl e rfl

theorem queryPower_refused {x : Byte} {st : Status} (e : ownQueryPower p [x] s = (s, .refuse st)) :
    s.turnedAway (.queryPower p [x]) p st :=
  IsRequest.asked ⟨fun _ => rfl, by simp, fun t P => ownQueryPower_withPorts t P p [x]⟩ hs
    (State.portRefusal_none (by cases p <;> rfl) (.inr (.inr rfl)) (by simp [infoQueryPower])) rfl e rfl

theorem queryBookings_tells {x : Byte} {fields : List Byte} (e : ownQueryBookings p [x] s = (s, .ok fields)) :
    s.tells (.queryBookings p [x]) p fields :=
  IsRequest.asked ⟨fun _ => rfl, by simp, fun t P => ownQueryBookings_withPorts t P p [x]⟩ hs
    (State.portRefusal_none (by cases p <;> rfl) (.inr (.inr rfl)) (by simp [infoQueryBookings])) rfl e rfl

theorem queryBookings_refused {x : Byte} {st : Status} (e : ownQueryBookings p [x] s = (s, .refuse st)) :
    s.turnedAway (.queryBookings p [x]) p st :=
  IsRequest.asked ⟨fun _ => rfl, by simp, fun t P => ownQueryBookings_withPorts t P p [x]⟩ hs
    (State.portRefusal_none (by cases p <;> rfl) (.inr (.inr rfl)) (by simp [infoQueryBookings])) rfl e rfl

theorem queryPool_tells {x : Byte} {fields : List Byte} (e : ownQueryPool p [x] s = (s, .ok fields)) :
    s.tells (.queryPool p [x]) p fields :=
  IsRequest.asked ⟨fun _ => rfl, by simp, fun t P => ownQueryPool_withPorts t P p [x]⟩ hs
    (State.portRefusal_none (by cases p <;> rfl) (.inr (.inr rfl)) (by simp [infoQueryPool])) rfl e rfl

theorem queryPool_refused {x : Byte} {st : Status} (e : ownQueryPool p [x] s = (s, .refuse st)) :
    s.turnedAway (.queryPool p [x]) p st :=
  IsRequest.asked ⟨fun _ => rfl, by simp, fun t P => ownQueryPool_withPorts t P p [x]⟩ hs
    (State.portRefusal_none (by cases p <;> rfl) (.inr (.inr rfl)) (by simp [infoQueryPool])) rfl e rfl

theorem queryTicket_tells {h l : Byte} {fields : List Byte} (e : ownQueryTicket p [h, l] s = (s, .ok fields)) :
    s.tells (.queryTicket p [h, l]) p fields :=
  IsRequest.asked ⟨fun _ => rfl, by simp, fun t P => ownQueryTicket_withPorts t P p [h, l]⟩ hs
    (State.portRefusal_none (by cases p <;> rfl) (.inr (.inr rfl)) (by simp [infoQueryTicket])) rfl e rfl

theorem queryBooking_tells {h l : Byte} {fields : List Byte} (e : ownQueryBooking p [h, l] s = (s, .ok fields)) :
    s.tells (.queryBooking p [h, l]) p fields :=
  IsRequest.asked ⟨fun _ => rfl, by simp, fun t P => ownQueryBooking_withPorts t P p [h, l]⟩ hs
    (State.portRefusal_none (by cases p <;> rfl) (.inr (.inr rfl)) (by simp [infoQueryBooking])) rfl e rfl

theorem queryBooking_refused {h l : Byte} {st : Status} (e : ownQueryBooking p [h, l] s = (s, .refuse st)) :
    s.turnedAway (.queryBooking p [h, l]) p st :=
  IsRequest.asked ⟨fun _ => rfl, by simp, fun t P => ownQueryBooking_withPorts t P p [h, l]⟩ hs
    (State.portRefusal_none (by cases p <;> rfl) (.inr (.inr rfl)) (by simp [infoQueryBooking])) rfl e rfl

theorem queryConfig_tells {pl fields : List Byte} (hp : p = .s) (hl : pl.length = 1 ∨ pl.length = 2)
    (e : ownQueryConfig p pl s = (s, .ok fields)) : s.tells (.queryConfig p pl) p fields :=
  IsRequest.asked ⟨fun _ => rfl, by omega, fun t P => ownQueryConfig_withPorts t P p pl⟩ hs
    (State.portRefusal_none (by rw [hp]; rfl) (.inl hp) (by simpa [infoQueryConfig] using hl)) rfl e rfl

theorem queryConfig_refused {pl : List Byte} {st : Status} (hp : p = .s) (hl : pl.length = 1 ∨ pl.length = 2)
    (e : ownQueryConfig p pl s = (s, .refuse st)) : s.turnedAway (.queryConfig p pl) p st :=
  IsRequest.asked ⟨fun _ => rfl, by omega, fun t P => ownQueryConfig_withPorts t P p pl⟩ hs
    (State.portRefusal_none (by rw [hp]; rfl) (.inl hp) (by simpa [infoQueryConfig] using hl)) rfl e rfl

end Rows

/-! ### The fields (R175) -/

theorem poolNo_of_val {x : Byte} {q : PoolNo} (h : q.val = x.toNat) : poolNo x = some q := by
  simp [poolNo, ← h]

theorem poolNo_of_ge {x : Byte} (h : 8 ≤ x.toNat) : poolNo x = none := by
  simp [poolNo, h]

theorem opt8_eq (x : Option Nat) : opt8 x = match x with | some n => u8 n | none => 0xFF#8 := by
  cases x <;> rfl

theorem opt16_eq (x : Option Nat) : opt16 x = match x with | some n => u16 n | none => [0#8, 0#8] := by
  cases x <;> rfl

theorem opt32_eq (x : Option Nat) :
    opt32 x = match x with | some n => 1#8 :: u32 n | none => [0#8, 0#8, 0#8, 0#8, 0#8] := by
  cases x <;> rfl

/-- The fault code that a bay shows, by its state and its fault (R2, R25). -/
theorem faultBytes_shownFault (x : Bay) : faultBytes x.shownFault = match x.state, x.fault with
    | .faulted, some (.headFault c) => [1#8, c]
    | .faulted, some .headStall => [2#8, 0#8]
    | _, _ => [0#8, 0#8] := by
  unfold Bay.shownFault
  cases x.state with
  | faulted =>
    cases x.fault with
    | none => rfl
    | some f => cases f <;> rfl
  | offline | free | offered | held | occupied | active | suspended | blocked => rfl

/-- The bays of a pool that meet a test, counted over the level (R43). -/
theorem State.countP_poolBays (s : State) (q : PoolNo) (f : Bay → Bool) :
    (s.poolBays q).countP (fun b => f (s.bay b)) =
      allBays.countP (fun a => (s.bay a).enrolled && decide ((s.bay a).pool = q) && f (s.bay a)) := by
  rw [State.poolBays, List.countP_filter]
  simp only [Bool.and_comm]

theorem State.length_poolBays (s : State) (q : PoolNo) : (s.poolBays q).length =
    allBays.countP (fun a => (s.bay a).enrolled && decide ((s.bay a).pool = q) && true) := by
  rw [← s.countP_poolBays q (fun _ => true), List.countP_true]

theorem State.queuedFields_eq (s : State) (n : Nat) : s.queuedFields n = u16 n ++ (match s.ticket? n with
    | some t => [u8 t.cls.code, u8 t.state.code]
    | none => [0xFF#8, 0xFF#8]) := by
  unfold State.queuedFields
  cases s.ticket? n <;> rfl

/-- The position of a ticket as QUERY TICKET sends it (R42). -/
theorem State.opt8_queuePosition (s : State) (t : Ticket) : opt8 (s.queuePosition t) =
    if t.state = .waiting ∨ t.state = .offered then u8 ((s.pool t.pool).queue.idxOf t.number + 1) else 0xFF#8 := by
  unfold State.queuePosition
  split <;> rfl

/-- The state of a CHARGING ticket's bay as QUERY TICKET sends it (R42). -/
theorem State.opt8_chargingBay (s : State) (t : Ticket) : opt8 (s.chargingBay t) = match t.state, t.bay with
    | .charging, some b => u8 (s.bay b).state.code
    | _, _ => 0xFF#8 := by
  unfold State.chargingBay
  cases t.state with
  | charging => cases t.bay <;> rfl
  | waiting | offered | held | arrived => rfl

/-- A number that no booking carries names no booking (R77). -/
theorem State.findBooking_none {s : State} {n : Nat} (h : ∀ b, ∀ k ∈ s.bookings b, k.number ≠ n) :
    s.findBooking n = none := by
  simpa [State.findBooking] using fun b _ k hk => h b k hk

/-- A named booking that the port may name (R77, R79). -/
theorem State.ownBooking_of {s : State} {p : Port} {n : Nat} {b : BayNo} {k : Booking} (hn : n ≠ 0)
    (hf : s.findBooking n = some (b, k)) :
    s.ownBooking p n = if p ≠ .s ∧ k.origin ≠ p then .error .notOwner else .ok (b, k) := by
  simp [State.ownBooking, hn, hf]

/-- Settles O7: each query's fields are those of the record, and nothing but the port changes. -/
theorem queriesAnswerAndChangeNothing : Obligations.QueriesAnswerAndChangeNothing := by
  unfold Obligations.QueriesAnswerAndChangeNothing
  intro s p hs answered flag count opt1 opt2 opt4 power
  have hpower : power = s.powerFields := rfl
  refine ⟨fun x b hb => ?_, fun x hx => ?_, fun x q hq => ?_, fun x hx => ?_, ?_, fun hp => ?_, fun x y hp => ?_,
    fun h l t hn ht ho => ?_, fun h l => ⟨fun hno => ?_, fun b k hn hk => ⟨fun hp ho => ?_, fun ho => ?_⟩⟩⟩
  · have hbay := bayNo_of_val hb
    have hen := s.enrolledBay_of_val hb
    intro y z
    refine ⟨queryBay_tells hs ?_, queryPower_tells hs (by simp) ?_, fun he => queryBookings_tells hs ?_,
      fun he => queryBookings_refused hs ?_, fun hp => queryConfig_tells hs hp (by simp) ?_⟩
    · simp only [ownQueryBay, hbay, State.bayFields, faultBytes_shownFault, opt16_eq]
      rfl
    · simp only [ownQueryPower, hbay]
      rfl
    · have he' : (s.bay b).enrolled = true := he
      simp only [ownQueryBookings, hen, he', if_true]
      rfl
    · have he' : (s.bay b).enrolled = false := he
      simp [ownQueryBookings, hen, he']
    · simp only [ownQueryConfig, hbay]
      rfl
  · have hbay := bayNo_of_ge hx
    exact ⟨queryBay_refused hs (by simp [ownQueryBay, hbay]), queryPower_refused hs (by simp [ownQueryPower, hbay]),
      queryBookings_refused hs (by simp [ownQueryBookings, s.enrolledBay_of_ge hx]),
      fun hp => queryConfig_refused hs hp (by simp) (by simp [ownQueryConfig, hbay])⟩
  · have hpool := poolNo_of_val hq
    intro y mine
    refine ⟨queryPool_tells hs ?_, fun hp => queryConfig_tells hs hp (by simp) ?_⟩
    · simp only [ownQueryPool, hpool, State.poolFields, s.length_poolBays, opt8_eq, funext s.queuedFields_eq,
        s.countP_poolBays q (fun x => decide (x.state = .free)), s.countP_poolBays q (fun x => decide (x.state = .offered))]
      rfl
    · simp only [ownQueryConfig, hpool, s.length_poolBays]
      rfl
  · have hpool := poolNo_of_ge hx
    exact ⟨queryPool_refused hs (by simp [ownQueryPool, hpool]),
      fun hp => queryConfig_refused hs hp (by simp) (by simp [ownQueryConfig, hpool])⟩
  · exact queryPower_tells hs (by simp) (by simp [ownQueryPower, hpower])
  · refine queryConfig_tells hs hp (by simp) ?_
    simp only [ownQueryConfig, State.generalFields, State.enrolledBays, State.configuredPools,
      ← List.countP_eq_length_filter]
    cases s.offending <;> rfl
  · exact ⟨fun hx => queryConfig_refused hs hp (by simp) (by simp [ownQueryConfig, hx]),
      fun h1 h2 => queryConfig_refused hs hp (by simp) (by simp [ownQueryConfig])⟩
  · refine queryTicket_tells hs ?_
    have hown : s.ownTicket p (of16 h l) = .ok t := by
      simp only [State.ownTicket, hn, ht, if_false]
      rw [if_neg]
      rintro ⟨h1, h2⟩
      rcases ho with e | e <;> contradiction
    simp only [ownQueryTicket, hown, State.ticketFields, s.opt8_queuePosition, s.opt8_chargingBay, opt8_eq, opt16_eq,
      opt32_eq]
    rfl
  · refine queryBooking_refused hs ?_
    have : s.ownBooking p (of16 h l) = .error .noSuch := by
      rcases hno with e | e
      · simp [State.ownBooking, e]
      · simp [State.ownBooking, State.findBooking_none e]
    simp [ownQueryBooking, this]
  · exact queryBooking_refused hs (by simp [ownQueryBooking, State.ownBooking_of hn hk, hp, ho])
  · refine queryBooking_tells hs ?_
    have hown : s.ownBooking p (of16 h l) = .ok (b, k) := by
      rw [State.ownBooking_of hn hk, if_neg]
      rintro ⟨h1, h2⟩
      rcases ho with e | e <;> contradiction
    simp only [ownQueryBooking, hown, State.bookingFields, bandByte, opt8_eq]
    cases s.booking.bands.bandOf (s.offset k) <;> rfl

end Sys2Proof.Machine
end

