-- ==== Sys2Proof/Proofs/NoticeRules.lean ====
section
/-! SUPPORT. How a notice queue takes notices (R158, R159): what it holds afterwards, how often, and in which order; and
what it means that one state tells another nothing but certain notices. -/

namespace Sys2Proof.Machine

/-- A port's queue takes a notice: coalesced at S, appended at K and N (R158, R159). -/
def NoticeQueue.take (p : Port) (q : NoticeQueue) (n : Notice) : NoticeQueue :=
  if p = .s then q.coalesce n else q.append n

/-- A port's queue takes notices one after another. -/
def NoticeQueue.takeAll (p : Port) (q : NoticeQueue) (l : List Notice) : NoticeQueue := l.foldl (NoticeQueue.take p) q

/-! ### What raising does to the queues -/

theorem State.raise_queue (s : State) (p q : Port) (n : Notice) :
    (s.raise p n).queue q = if q = p then (s.queue q).take q n else s.queue q := by
  by_cases h : q = p
  · subst h
    simp only [State.raise, State.setQueue, State.queue, NoticeQueue.take, if_true]
    exact PerPort.get_set_self _ _ _
  · rw [if_neg h, State.raise_queue_of_ne s h]

/-- The notices that a port gets of one that goes to an origin and to S (R156). -/
theorem State.raiseBoth_queue (s : State) (o p : Port) (n : Notice) :
    (s.raiseBoth o n).queue p = if p = .s ∨ p = o then (s.queue p).take p n else s.queue p := by
  unfold State.raiseBoth
  by_cases ho : o = .s
  · rw [if_pos ho, State.raise_queue]
    simp [ho]
  · rw [if_neg ho, State.raise_queue, State.raise_queue]
    by_cases hp : p = .s
    · have : ¬.s = o := fun e => ho e.symm
      simp [hp, this]
    · simp [hp]

/-- The notices of a ticket go to its origin (R27). -/
theorem State.raiseTo_of_live {s : State} {k : Nat} {t : Ticket} (h : s.ticket? k = some t) (n : Notice) :
    s.raiseTo k n = s.raise t.origin n := by
  simp [State.raiseTo, h]

theorem State.queueAfter_eq (s : State) (p : Port) (l : List Notice) : s.queueAfter p l = (s.queue p).takeAll p l := by
  induction l generalizing s with
  | nil => rfl
  | cons n l ih =>
    rw [State.queueAfter_cons, ih, State.raise_queue, if_pos rfl]
    rfl

theorem NoticeQueue.takeAll_append (p : Port) (q : NoticeQueue) (l m : List Notice) :
    q.takeAll p (l ++ m) = (q.takeAll p l).takeAll p m := List.foldl_append

theorem NoticeQueue.takeAll_cons (p : Port) (q : NoticeQueue) (n : Notice) (l : List Notice) :
    q.takeAll p (n :: l) = (q.take p n).takeAll p l := rfl

@[simp] theorem NoticeQueue.takeAll_nil (p : Port) (q : NoticeQueue) : q.takeAll p [] = q := rfl

/-! ### What a queue holds -/

/-- A notice of a kind that is never updated in place (R159). -/
def Notice.lasting (n : Notice) : Prop := ∀ m : Notice, m.coalesces n = false ∧ n.coalesces m = false

/-- Every kind but BAY_STATE and FEED is lasting (R159). -/
theorem Notice.lasting_of {n : Notice} (hb : ∀ b st l f, n ≠ .bayState b st l f) (hf : ∀ t a, n ≠ .feed t a) :
    n.lasting := by
  intro m
  cases n with
  | bayState b st l f => exact absurd rfl (hb b st l f)
  | feed t a => exact absurd rfl (hf t a)
  | _ => cases m <;> exact ⟨rfl, rfl⟩

theorem NoticeQueue.append_notices (q : NoticeQueue) (n : Notice) :
    (q.append n).notices = if q.notices.length < 24 then q.notices ++ [n] else q.notices := by
  unfold NoticeQueue.append
  split <;> rfl

/-- A notice that updates none in place is appended (R158, R159). -/
theorem NoticeQueue.take_notices_of_new {p : Port} {q : NoticeQueue} {n : Notice}
    (h : p = .s → ∀ m ∈ q.notices, n.coalesces m = false) :
    (q.take p n).notices = if q.notices.length < 24 then q.notices ++ [n] else q.notices := by
  unfold NoticeQueue.take NoticeQueue.coalesce
  split
  · have hany : q.notices.any (fun m => n.coalesces m) = false := by
      simpa using h (by assumption)
    simp only [hany, Bool.false_eq_true, if_false]
    exact q.append_notices n
  · exact q.append_notices n

/-- A notice that updates another at S stands in its place (R159). -/
theorem NoticeQueue.take_notices_of_old {q : NoticeQueue} {n m : Notice} (hm : m ∈ q.notices)
    (h : n.coalesces m = true) :
    (q.take .s n).notices = q.notices.map (fun m => if n.coalesces m then n else m) := by
  have hany : q.notices.any (fun m => n.coalesces m) = true := List.any_eq_true.mpr ⟨m, hm, h⟩
  simp [NoticeQueue.take, NoticeQueue.coalesce, hany]

/-- A queue takes a notice at its end, discards it, or, at S, puts it in the place of those that it updates. -/
theorem NoticeQueue.take_cases (p : Port) (q : NoticeQueue) (n : Notice) :
    (q.notices.length < 24 ∧ (q.take p n).notices = q.notices ++ [n]) ∨
    (24 ≤ q.notices.length ∧ (q.take p n).notices = q.notices) ∨
    (p = .s ∧ (∃ m ∈ q.notices, n.coalesces m = true) ∧
      (q.take p n).notices = q.notices.map (fun m => if n.coalesces m then n else m)) := by
  by_cases h : p = .s ∧ ∃ m ∈ q.notices, n.coalesces m = true
  · obtain ⟨rfl, m, hm, hc⟩ := h
    exact .inr (.inr ⟨rfl, ⟨m, hm, hc⟩, NoticeQueue.take_notices_of_old hm hc⟩)
  · have hnew := NoticeQueue.take_notices_of_new (p := p) (q := q) (n := n) fun hp m hm => by
      simpa using fun hc => h ⟨hp, m, hm, hc⟩
    rcases Nat.lt_or_ge q.notices.length 24 with hl | hl
    · exact .inl ⟨hl, by rw [hnew, if_pos hl]⟩
    · exact .inr (.inl ⟨hl, by rw [hnew, if_neg (by omega)]⟩)

/-- A lasting notice stands as often as before when another is taken. -/
theorem NoticeQueue.count_take {p : Port} {q : NoticeQueue} {n m : Notice} (hm : m.lasting) (hne : n ≠ m) :
    (q.take p n).notices.count m = q.notices.count m := by
  rcases q.take_cases p n with ⟨-, e⟩ | ⟨-, e⟩ | ⟨-, -, e⟩ <;> rw [e]
  · simp [hne]
  · induction q.notices with
    | nil => rfl
    | cons a l ih =>
      rw [List.map_cons, List.count_cons, List.count_cons, ih]
      congr 1
      by_cases hc : n.coalesces a = true
      · have ha : a ≠ m := fun e => by simp [e, (hm n).1] at hc
        simp [hc, hne, ha]
      · simp [hc]

/-- A lasting notice is taken once more where there is room. -/
theorem NoticeQueue.count_take_self {p : Port} {q : NoticeQueue} {m : Notice} (hm : m.lasting)
    (hl : q.notices.length < 24) : (q.take p m).notices.count m = q.notices.count m + 1 := by
  rw [NoticeQueue.take_notices_of_new fun _ a _ => (hm a).2, if_pos hl]
  simp

/-- A queue grows by one notice at most. -/
theorem NoticeQueue.length_take (p : Port) (q : NoticeQueue) (n : Notice) :
    (q.take p n).notices.length ≤ q.notices.length + 1 := by
  rcases q.take_cases p n with ⟨-, e⟩ | ⟨-, e⟩ | ⟨-, -, e⟩ <;> simp [e]

/-- At K and N a notice is taken behind the others. -/
theorem NoticeQueue.prefix_take {p : Port} (hp : p ≠ .s) (q : NoticeQueue) (n : Notice) :
    q.notices <+: (q.take p n).notices := by
  rcases q.take_cases p n with ⟨-, e⟩ | ⟨-, e⟩ | ⟨h, -⟩
  · exact e ▸ List.prefix_append _ _
  · exact e ▸ List.prefix_refl _
  · exact absurd h hp

/-- A notice that another does not update stays in the queue. -/
theorem NoticeQueue.mem_take {p : Port} {q : NoticeQueue} {n m : Notice} (hm : m ∈ q.notices)
    (hc : n.coalesces m = false) : m ∈ (q.take p n).notices := by
  rcases q.take_cases p n with ⟨-, e⟩ | ⟨-, e⟩ | ⟨-, -, e⟩ <;> rw [e]
  · exact List.mem_append_left _ hm
  · exact hm
  · exact List.mem_map.mpr ⟨m, hm, by simp [hc]⟩

/-- A notice that is taken where there is room, or in the place of another, stands in the queue. -/
theorem NoticeQueue.mem_take_self {p : Port} {q : NoticeQueue} {n : Notice} (hl : q.notices.length < 24) :
    n ∈ (q.take p n).notices := by
  rcases q.take_cases p n with ⟨-, e⟩ | ⟨h, -⟩ | ⟨-, ⟨m, hm, hc⟩, e⟩
  · simp [e]
  · omega
  · rw [e]
    exact List.mem_map.mpr ⟨m, hm, by simp [hc]⟩

/-! ### Runs of notices -/

theorem NoticeQueue.count_takeAll {p : Port} {q : NoticeQueue} {l : List Notice} {m : Notice} (hm : m.lasting)
    (h : m ∉ l) : (q.takeAll p l).notices.count m = q.notices.count m := by
  induction l generalizing q with
  | nil => rfl
  | cons n l ih =>
    rw [List.mem_cons, not_or] at h
    rw [NoticeQueue.takeAll_cons, ih h.2, NoticeQueue.count_take hm fun e => h.1 e.symm]

theorem NoticeQueue.prefix_takeAll {p : Port} (hp : p ≠ .s) (q : NoticeQueue) (l : List Notice) :
    q.notices <+: (q.takeAll p l).notices := by
  induction l generalizing q with
  | nil => exact List.prefix_refl _
  | cons n l ih => exact (q.prefix_take hp n).trans (ih _)

theorem NoticeQueue.mem_takeAll {p : Port} {q : NoticeQueue} {l : List Notice} {m : Notice} (hm : m ∈ q.notices)
    (h : ∀ n ∈ l, n.coalesces m = false) : m ∈ (q.takeAll p l).notices := by
  induction l generalizing q with
  | nil => exact hm
  | cons n l ih =>
    exact ih (NoticeQueue.mem_take hm (h n (List.mem_cons_self ..))) fun a ha => h a (List.mem_cons_of_mem _ ha)

/-! ### Being told nothing but certain notices -/

/-- From one state to another the ports are told nothing but notices of these kinds. -/
def State.tellsOnly (s t : State) (P : Port → Notice → Prop) : Prop :=
  ∀ p, ∃ l, t.queue p = (s.queue p).takeAll p l ∧ ∀ n ∈ l, P p n

namespace State.tellsOnly

variable {s t u : State} {P Q : Port → Notice → Prop}

theorem of_queues (h : t.queues = s.queues) (P : Port → Notice → Prop) : s.tellsOnly t P :=
  fun p => ⟨[], by simp [State.queue, h], by simp⟩

theorem trans (h : s.tellsOnly t P) (h' : t.tellsOnly u P) : s.tellsOnly u P := by
  intro p
  obtain ⟨l, e, hl⟩ := h p
  obtain ⟨m, e', hm⟩ := h' p
  refine ⟨l ++ m, by rw [e', e, NoticeQueue.takeAll_append], fun n hn => ?_⟩
  exact (List.mem_append.mp hn).elim (hl n) (hm n)

theorem mono (h : s.tellsOnly t P) (hPQ : ∀ p n, P p n → Q p n) : s.tellsOnly t Q := by
  intro p
  obtain ⟨l, e, hl⟩ := h p
  exact ⟨l, e, fun n hn => hPQ p n (hl n hn)⟩

/-- A change that raises no notice goes before or after. -/
theorem congr (h : s.tellsOnly t P) {s' t' : State} (hs : s'.queues = s.queues) (ht : t'.queues = t.queues) :
    s'.tellsOnly t' P := by
  intro p
  obtain ⟨l, e, hl⟩ := h p
  exact ⟨l, by simpa [State.queue, hs, ht] using e, hl⟩

theorem raise {p : Port} {n : Notice} (h : P p n) (s : State) : s.tellsOnly (s.raise p n) P := by
  intro q
  by_cases hq : q = p
  · subst hq
    exact ⟨[n], by rw [State.raise_queue, if_pos rfl]; rfl, by simpa using h⟩
  · exact ⟨[], by rw [State.raise_queue, if_neg hq]; rfl, by simp⟩

/-- A lasting notice that is not told stands as often as before. -/
theorem count (h : s.tellsOnly t P) {m : Notice} (hm : m.lasting) {p : Port} (hP : ¬P p m) :
    (t.queue p).notices.count m = (s.queue p).notices.count m := by
  obtain ⟨l, e, hl⟩ := h p
  rw [e, NoticeQueue.count_takeAll hm fun hml => hP (hl m hml)]

/-- At K and N what stood in the queue stands before what is told. -/
theorem isPrefix (h : s.tellsOnly t P) {p : Port} (hp : p ≠ .s) : (s.queue p).notices <+: (t.queue p).notices := by
  obtain ⟨l, e, -⟩ := h p
  exact e ▸ NoticeQueue.prefix_takeAll hp _ l

/-- A notice that none of those told updates stays in the queue. -/
theorem mem (h : s.tellsOnly t P) {m : Notice} {p : Port} (hm : m ∈ (s.queue p).notices)
    (hP : ∀ n, P p n → n.coalesces m = false) : m ∈ (t.queue p).notices := by
  obtain ⟨l, e, hl⟩ := h p
  rw [e]
  exact NoticeQueue.mem_takeAll hm fun n hn => hP n (hl n hn)

theorem foldl {α : Type} (f : State → α → State) (h : ∀ (u : State) a, u.tellsOnly (f u a) P) (l : List α) (s : State) :
    s.tellsOnly (l.foldl f s) P := by
  induction l generalizing s with
  | nil => exact of_queues rfl P
  | cons a l ih => exact (h s a).trans (ih _)

end State.tellsOnly

end Sys2Proof.Machine
end

