-- ==== Sys2Proof/Proofs/Configuration.lean ====
section
/-! SUPPORT. START, RECONFIGURE and RESTART: what they clear, what START drops and tells, and how they open the bus: O41
to O43. -/

namespace Sys2Proof.Machine

/-! ### The records that are cleared (R4, R45, R124, R129) -/

@[simp] theorem State.clearBays_bay (s : State) (b : BayNo) : s.clearBays.bay b = (s.bay b).cleared := by
  simp [State.clearBays, State.bay]

@[simp] theorem State.clearPools_pool (s : State) (q : PoolNo) : s.clearPools.pool q = (s.pool q).cleared := by
  simp [State.clearPools, State.pool]

@[simp] theorem State.clearSetpoints_setpoint (s : State) (b : BayNo) :
    s.clearSetpoints.setpoint b = Setpoint.cleared := by
  simp [State.clearSetpoints, State.setpoint]

@[simp] theorem State.clearBus_link (s : State) (b : BayNo) : s.clearBus.link b = LinkRecord.cleared := by
  simp [State.clearBus, State.link]

/-! ### One record of a table that two states share -/

theorem State.bay_of_bays {s t : State} (h : t.bays = s.bays) (b : BayNo) : t.bay b = s.bay b := by
  simp only [State.bay, h]

theorem State.pool_of_pools {s t : State} (h : t.pools = s.pools) (q : PoolNo) : t.pool q = s.pool q := by
  simp only [State.pool, h]

theorem State.setpoint_of_setpoints {s t : State} (h : t.power.setpoints = s.power.setpoints) (b : BayNo) :
    t.setpoint b = s.setpoint b := by
  simp only [State.setpoint, h]

theorem State.link_of_links {s t : State} (h : t.bus.links = s.bus.links) (b : BayNo) : t.link b = s.link b := by
  simp only [State.link, h]

theorem State.queue_of_queues {s t : State} (h : t.queues = s.queues) (p : Port) : t.queue p = s.queue p := by
  simp only [State.queue, h]

theorem State.bookings_of_book {s t : State} (h : t.booking.book = s.booking.book) (b : BayNo) :
    t.bookings b = s.bookings b := by
  simp only [State.bookings, h]

/-- The records of a level that has been cleared (R4, R45, R124, R129). -/
structure State.ClearedFrom (s t : State) : Prop where
  bays : t.bays = s.clearBays.bays
  pools : t.pools = s.clearPools.pools
  setpoints : t.power.setpoints = s.clearSetpoints.power.setpoints
  links : t.bus.links = s.clearBus.bus.links

namespace State.ClearedFrom

variable {s t : State} (h : s.ClearedFrom t)
include h

theorem bay (b : BayNo) : t.bay b = (s.bay b).cleared := (State.bay_of_bays h.bays b).trans (s.clearBays_bay b)

theorem pool (q : PoolNo) : t.pool q = (s.pool q).cleared := (State.pool_of_pools h.pools q).trans (s.clearPools_pool q)

theorem setpoint (b : BayNo) : t.setpoint b = Setpoint.cleared :=
  (State.setpoint_of_setpoints h.setpoints b).trans (s.clearSetpoints_setpoint b)

theorem link (b : BayNo) : t.link b = LinkRecord.cleared := (State.link_of_links h.links b).trans (s.clearBus_link b)

end State.ClearedFrom

/-- A command of an owner that reads no port unit is carried out, and leaves a bus that waits for no lamp or setpoint:
the port answers, and nothing else follows (R136, R151). -/
theorem IsRequest.carriedOut {c : Instr} {p : Port} {i : CommandInfo} {own : Owner} {pl : List Byte} {s u : State}
    {r : Reply} (h : IsRequest c p i own pl) (hs : s.ready p) (hr : s.portRefusal p i pl = none)
    (hq : i.quiet = false) (e : own p pl s = (u, r)) (hc : r.clearsOverrun = false) (hl : u.listening = false) :
    ∃ t, exec c s = .next t ∧ s.answers t p r.status r.payload (r.clamped && r.status.carriedOut) ∧
      t = { u with ports := t.ports } := by
  have o : own p pl (s.startTaking p) = (u.withPorts (s.startTaking p).ports, r) := by
    have o' := h.ports s (s.startTaking p).ports
    rw [e] at o'
    exact o'
  obtain ⟨a, b⟩ := State.respond_taking s (u.withPorts (s.startTaking p).ports) p r rfl hc
  have hq' : ((u.withPorts (s.startTaking p).ports).answer p r).settleBus =
      (u.withPorts (s.startTaking p).ports).answer p r := by
    refine State.settleBus_of_quiet fun hl' => ?_
    rw [b] at hl'
    exact absurd (hl'.symm.trans hl) (by simp)
  have e1 : s.request p i own pl = (u.withPorts (s.startTaking p).ports).answer p r := by
    rw [State.request_ready i own hs h.fits]
    simp [State.takeRequest, State.startTaking_portRefusal, hr, State.handOver, hq, o, hq']
  refine ⟨_, h.row s, e1 ▸ a, ?_⟩
  rw [e1, b]
  rfl

theorem start_isRequest : IsRequest (.start .s []) .s infoStart ownStart [] :=
  ⟨fun _ => rfl, by simp, fun t P => ownStart_withPorts t P .s []⟩

theorem reconfigure_isRequest : IsRequest (.reconfigure .s []) .s infoReconfigure ownReconfigure [] :=
  ⟨fun _ => rfl, by simp, fun t P => ownReconfigure_withPorts t P .s []⟩

theorem start_portRefusal (s : State) : s.portRefusal .s infoStart [] = none :=
  State.portRefusal_none rfl (.inl rfl) (by simp [infoStart])

theorem reconfigure_portRefusal (s : State) : s.portRefusal .s infoReconfigure [] = none :=
  State.portRefusal_none rfl (.inl rfl) (by simp [infoReconfigure])

/-! ### RECONFIGURE (R171) -/

/-- The level as RECONFIGURE leaves it (R140, R171). -/
theorem State.reconfigured_eq (s : State) : s.reconfigured = { s with
    opState := .config, admission := [], bays := s.clearBays.bays, pools := s.clearPools.pools,
    power := { s.power with setpoints := s.clearSetpoints.power.setpoints },
    bus := { sweep := .idle, mode := .timed, sweepTimer := none, keepAlive := none, links := s.clearBus.bus.links,
             sent := some (.close .long) } } := by
  simp [State.reconfigured, State.clearBus, State.clearSetpoints, State.clearPools, State.clearBays, State.pool]

/-- Settles O42: the two refusals, and the records that are cleared. -/
theorem reconfigureClosesTheLevel : Obligations.ReconfigureClosesTheLevel := by
  unfold Obligations.ReconfigureClosesTheLevel
  intro s hs
  refine ⟨fun h => ?_, fun hr ht => ?_⟩
  · refine reconfigure_isRequest.refused hs (reconfigure_portRefusal s) rfl (st := .wrongState) (answer := []) ?_
    rcases h with hc | ht
    · simp [ownReconfigure, hc, Reply.refuse, Reply.refuseWith]
    · simp [ownReconfigure, ht, Reply.refuse, Reply.refuseWith]
  · obtain ⟨t, he, ha, e⟩ := reconfigure_isRequest.carriedOut hs (reconfigure_portRefusal s) rfl (r := .ok [])
      (u := s.reconfigured) (by simp [ownReconfigure, hr, ht]) rfl rfl
    rw [State.reconfigured_eq] at e
    have hclear : s.ClearedFrom t := by constructor <;> rw [e]
    refine ⟨t, he, ha, fun b => ⟨hclear.bay b, hclear.setpoint b, hclear.link b⟩, hclear.pool, ?_⟩
    rw [hclear.bays, hclear.pools, hclear.setpoints, hclear.links]
    exact e

/-! ### RESTART (R172) -/

/-- The part as RESTART leaves it, but for the answer of the port (R141, R143, R155, R172). -/
theorem State.restarted_eq (s : State) : s.restarted = { s with
    tickets := [], admission := [], bays := s.clearBays.bays, pools := s.clearPools.pools,
    ports := s.ports.mapAll (fun u => { u with dropped := false, window := none }),
    queues := s.queues.mapAll (fun _ => NoticeQueue.empty),
    power := { s.power with setpoints := s.clearSetpoints.power.setpoints },
    bus := if s.opState = .run then
        { sweep := .opening, mode := .timed, sweepTimer := some (s.deviceSeconds + 1#32), keepAlive := none,
          links := s.clearBus.bus.links, sent := some .opening }
      else { s.bus with
        sweep := .idle, mode := .timed, sweepTimer := none, keepAlive := none, links := s.clearBus.bus.links } } := by
  by_cases h : s.opState = .run <;>
    simp [State.restarted, State.clearBus, State.clearSetpoints, State.clearPools, State.clearBays, State.clearPorts,
      State.pool, State.openSweep, State.openWith, State.deadline, h]

/-- A restarted bus waits for no lamp or setpoint (R136, R141). -/
theorem State.restarted_listening (s : State) : s.restarted.listening = false := by
  rw [State.restarted_eq]
  by_cases h : s.opState = .run <;> simp [State.listening, h]

/-- RESTART answers on the port unit that it has itself cleared. -/
theorem restart_request {s : State} (hs : s.ready .s) :
    s.request .s infoRestart ownRestart [] = (s.startTaking .s).restarted.respond .s (.ok []) := by
  have hl : ((s.startTaking .s).restarted.answer .s (.ok [])).settleBus =
      (s.startTaking .s).restarted.answer .s (.ok []) :=
    State.settleBus_of_quiet fun hl => absurd (hl.symm.trans (s.startTaking .s).restarted_listening) (by simp)
  have hr : (s.startTaking .s).portRefusal .s infoRestart [] = none :=
    State.portRefusal_none rfl (.inl rfl) (by simp [infoRestart])
  rw [State.request_ready infoRestart ownRestart hs (by simp)]
  simp only [State.takeRequest, hr, State.handOver, ownRestart, hl, ite_self]
  rfl

/-- The port units once RESTART has answered (R143, R152, R155). -/
theorem restart_port (s : State) (p : Port) : ((s.startTaking .s).restarted.respond .s (.ok [])).port p =
    if p = .s then ({ s.port .s with dropped := false, window := none } : PortUnit).answering ⟨[], false⟩ .ok [] false
    else { s.port p with dropped := false, window := none } := by
  rw [State.restarted_eq]
  cases p <;>
    simp [State.respond, State.responseFlags, State.attention, State.queue, State.port, State.setPort, State.startTaking,
      PerPort.get_set, PortUnit.answering, NoticeQueue.empty, Reply.ok]

/-- Settles O43: the cleared records, and the answer on a port that RESTART has cleared too. -/
theorem restartClearsClaims : Obligations.RestartClearsClaims := by
  unfold Obligations.RestartClearsClaims
  intro s hs
  have hrow : exec (.restart .s []) s = .next (s.request .s infoRestart ownRestart []) := rfl
  rw [restart_request hs] at hrow
  have hport := restart_port s
  have heq : (s.startTaking .s).restarted.respond .s (.ok []) = { (s.startTaking .s).restarted with
      ports := ((s.startTaking .s).restarted.respond .s (.ok [])).ports } := rfl
  generalize (s.startTaking .s).restarted.respond .s (.ok []) = t at hrow hport heq
  rw [State.restarted_eq] at heq
  have hclear : s.ClearedFrom t := by
    constructor <;> rw [heq] <;> simp [State.startTaking_eq, apply_ite HeadBus.links]
  have hqueues : t.queues = s.queues.mapAll (fun _ => NoticeQueue.empty) := by
    rw [heq]
    simp [State.startTaking_eq]
  refine ⟨t, hrow, by rw [hport, if_pos rfl], fun p hp => by rw [hport, if_neg hp], fun p => ?_,
    fun b => ⟨hclear.bay b, hclear.setpoint b, hclear.link b⟩, hclear.pool, ?_⟩
  · simp [State.queue, hqueues, NoticeQueue.empty]
  · rw [hclear.bays, hclear.pools, hclear.setpoints, hclear.links, hqueues]
    simpa [State.startTaking_eq] using heq

/-! ### What START drops (R88) -/

/-- The notices of the bookings that are dropped at a bay, as a port gets them (R89). -/
def dropNotices (w : DropReason) (p : Port) (l : List Booking) : List Notice :=
  l.filterMap (fun k => if p = .s ∨ p = k.origin then some (.bookingDropped k.number w) else none)

/-- A booking is dropped with its notice (R88, R89). -/
def State.dropTold (s : State) (b : BayNo) (w : DropReason) (k : Booking) : State :=
  (s.dropBooking b k.number).noticeDropped k w

theorem State.dropTold_bookings (s : State) (b c : BayNo) (w : DropReason) (k : Booking) :
    (s.dropTold b w k).bookings c =
      if c = b then (s.bookings b).filter (fun m => m.number != k.number) else s.bookings c := by
  simp [State.dropTold, State.bookings, State.dropBooking, State.setBookings, Vector.getElem_set, Fin.ext_iff, eq_comm]

theorem State.dropTold_queue (s : State) (b : BayNo) (w : DropReason) (k : Booking) (p : Port) :
    (s.dropTold b w k).queue p = (s.queue p).takeAll p (dropNotices w p [k]) := by
  have hq : (s.dropBooking b k.number).queue p = s.queue p := rfl
  unfold State.dropTold State.noticeDropped
  rw [State.raiseBoth_queue, hq]
  unfold dropNotices
  by_cases h : p = .s ∨ p = k.origin <;> simp [h, NoticeQueue.takeAll_cons]

theorem State.foldl_dropTold_bookings (b : BayNo) (w : DropReason) (l : List Booking) (s : State) (c : BayNo) :
    (l.foldl (fun r k => r.dropTold b w k) s).bookings c =
      if c = b then (s.bookings b).filter (fun m => l.all (fun k => m.number != k.number)) else s.bookings c := by
  induction l generalizing s with
  | nil =>
    split
    · subst c
      simp
    · rfl
  | cons k l ih =>
    rw [List.foldl_cons, ih, State.dropTold_bookings, State.dropTold_bookings, if_pos rfl]
    split
    · simp [List.filter_filter, Bool.and_comm]
    · rfl

theorem State.foldl_dropTold_queue (b : BayNo) (w : DropReason) (l : List Booking) (s : State) (p : Port) :
    (l.foldl (fun r k => r.dropTold b w k) s).queue p = (s.queue p).takeAll p (dropNotices w p l) := by
  induction l generalizing s with
  | nil => rfl
  | cons k l ih =>
    rw [List.foldl_cons, ih, State.dropTold_queue, ← NoticeQueue.takeAll_append]
    congr 1
    unfold dropNotices
    rw [← List.filterMap_append, List.singleton_append]

/-- The notices that START raises for a bay (R88, R89). -/
def State.unenrolledNotices (s : State) (p : Port) (b : BayNo) : List Notice :=
  if (s.bay b).enrolled then [] else dropNotices .unenrolled p (s.bookings b)

theorem State.dropUnenrolled_bookings (s : State) (b c : BayNo) : (s.dropUnenrolled b).bookings c =
    if c = b ∧ (s.bay b).enrolled = false then [] else s.bookings c := by
  unfold State.dropUnenrolled
  split
  · simp [*]
  · rename_i he
    refine (s.foldl_dropTold_bookings b .unenrolled (s.bookings b) c).trans ?_
    by_cases hc : c = b
    · subst hc
      simp only [he, and_self, if_true, List.filter_eq_nil_iff]
      intro m hm
      simpa using ⟨m, hm, rfl⟩
    · simp [hc]

theorem State.dropUnenrolled_queue (s : State) (b : BayNo) (p : Port) :
    (s.dropUnenrolled b).queue p = (s.queue p).takeAll p (s.unenrolledNotices p b) := by
  unfold State.dropUnenrolled State.unenrolledNotices
  split
  · rfl
  · exact s.foldl_dropTold_queue b .unenrolled (s.bookings b) p

/-- START drops the bookings of the unenrolled bays, bay by bay, each with its notices (R88, R89). -/
theorem State.foldl_dropUnenrolled (l : List BayNo) (hl : l.Nodup) (s : State) :
    (∀ c, (l.foldl State.dropUnenrolled s).bookings c =
      if c ∈ l ∧ (s.bay c).enrolled = false then [] else s.bookings c) ∧
    ∀ p, (l.foldl State.dropUnenrolled s).queue p = (s.queue p).takeAll p (l.flatMap (s.unenrolledNotices p)) := by
  induction l generalizing s with
  | nil => simp
  | cons b l ih =>
    obtain ⟨hb, hl⟩ := List.nodup_cons.mp hl
    obtain ⟨ih1, ih2⟩ := ih hl (s.dropUnenrolled b)
    have hbay : ∀ c, (s.dropUnenrolled b).bay c = s.bay c := fun c => by simp [State.bay]
    constructor
    · intro c
      rw [List.foldl_cons, ih1, State.dropUnenrolled_bookings, hbay]
      by_cases hc : c = b
      · subst hc
        by_cases he : (s.bay c).enrolled = false <;> simp [hb, he]
      · simp [hc]
    · intro p
      rw [List.foldl_cons, ih2, State.dropUnenrolled_queue, ← NoticeQueue.takeAll_append, List.flatMap_cons]
      congr 2
      refine List.flatMap_congr fun c hc => ?_
      have hne : ¬c = b := fun e => hb (e ▸ hc)
      simp [State.unenrolledNotices, hbay, State.dropUnenrolled_bookings, hne]

/-! ### The checks of START (R170) -/

/-- The first bay of the level that meets a test (R170). -/
theorem find?_finRange {n : Nat} {f : Fin n → Bool} {i : Fin n} (h : f i = true) (hlt : ∀ j < i, f j = false) :
    (List.finRange n).find? f = some i := by
  rw [List.find?_eq_some_iff_getElem]
  refine ⟨h, i.val, by simp, by simp, fun j hj => ?_⟩
  simpa using hlt ⟨j, by omega⟩ hj

/-- The first of the records of one kind that meets a test (R170). -/
theorem find?_filter_finRange {n : Nat} {e f : Fin n → Bool} {i : Fin n} (he : e i = true) (h : f i = true)
    (hlt : ∀ j < i, e j = true → f j = false) : ((List.finRange n).filter e).find? f = some i := by
  rw [List.find?_filter]
  refine find?_finRange (by simp [he, h]) fun j hj => ?_
  cases hej : e j with
  | false => simp
  | true => simp [hlt j hj hej]

theorem State.mem_enrolledBays {s : State} {b : BayNo} : b ∈ s.enrolledBays ↔ (s.bay b).enrolled = true := by
  simp [State.enrolledBays, allBays]

theorem State.mem_configuredPools {s : State} {q : PoolNo} : q ∈ s.configuredPools ↔ (s.pool q).configured = true := by
  simp [State.configuredPools, allPools]

theorem State.poolBays_isEmpty {s : State} {q : PoolNo} :
    (s.poolBays q).isEmpty = true ↔ ∀ b, (s.bay b).enrolled = true → (s.bay b).pool ≠ q := by
  simp [State.poolBays, allBays, List.filter_eq_nil_iff]

theorem State.enrolledBays_ne_nil {s : State} {b : BayNo} (h : (s.bay b).enrolled = true) : s.enrolledBays ≠ [] :=
  List.ne_nil_of_mem (State.mem_enrolledBays.mpr h)

/-- No bay is enrolled (R170, first check). -/
theorem State.offending_of_none {s : State} (h : ∀ b, ¬(s.bay b).enrolled = true) : s.offending = some (1, 255) := by
  have : s.enrolledBays = [] := List.eq_nil_iff_forall_not_mem.mpr fun b hb => h b (State.mem_enrolledBays.mp hb)
  simp [State.offending, this]

/-- The lowest enrolled bay whose pool is not configured (R170, second check). -/
theorem State.offending_of_bay {s : State} {b : BayNo} (he : (s.bay b).enrolled = true)
    (hc : ¬(s.pool (s.bay b).pool).configured = true)
    (hlt : ∀ c < b, (s.bay c).enrolled = true → (s.pool (s.bay c).pool).configured = true) :
    s.offending = some (2, b.val) := by
  have hf : s.enrolledBays.find? (fun b => !(s.pool (s.bay b).pool).configured) = some b :=
    find?_filter_finRange he (by simpa using hc) fun c hcb hce => by simpa using hlt c hcb hce
  unfold State.offending
  rw [if_neg (State.enrolledBays_ne_nil he), hf]

/-- Every enrolled bay names a configured pool (R170, second check). -/
theorem State.find?_unconfigured {s : State}
    (hc : ∀ b, (s.bay b).enrolled = true → (s.pool (s.bay b).pool).configured = true) :
    s.enrolledBays.find? (fun b => !(s.pool (s.bay b).pool).configured) = none := by
  rw [List.find?_eq_none]
  exact fun b hb => by simpa using hc b (State.mem_enrolledBays.mp hb)

/-- The lowest configured pool that no enrolled bay names (R170, third check). -/
theorem State.offending_of_pool {s : State} {q : PoolNo} (he : ∃ b, (s.bay b).enrolled = true)
    (hc : ∀ b, (s.bay b).enrolled = true → (s.pool (s.bay b).pool).configured = true)
    (hq : (s.pool q).configured = true) (hn : ∀ b, (s.bay b).enrolled = true → (s.bay b).pool ≠ q)
    (hlt : ∀ r < q, (s.pool r).configured = true → ∃ b, (s.bay b).enrolled = true ∧ (s.bay b).pool = r) :
    s.offending = some (3, q.val) := by
  obtain ⟨b, hb⟩ := he
  have hf : s.configuredPools.find? (fun q => (s.poolBays q).isEmpty) = some q := by
    refine find?_filter_finRange hq (State.poolBays_isEmpty.mpr hn) fun r hr hcr => ?_
    rw [Bool.eq_false_iff, Ne, State.poolBays_isEmpty]
    obtain ⟨c, hce, hcp⟩ := hlt r hr hcr
    exact fun h => h c hce hcp
  unfold State.offending
  rw [if_neg (State.enrolledBays_ne_nil hb), State.find?_unconfigured hc]
  dsimp only
  rw [hf]

/-- The configuration passes the checks of START (R170). -/
theorem State.offending_none {s : State} (he : ∃ b, (s.bay b).enrolled = true)
    (hc : ∀ b, (s.bay b).enrolled = true → (s.pool (s.bay b).pool).configured = true)
    (hq : ∀ q, (s.pool q).configured = true → ∃ b, (s.bay b).enrolled = true ∧ (s.bay b).pool = q) :
    s.offending = none := by
  obtain ⟨b, hb⟩ := he
  have hf : s.configuredPools.find? (fun q => (s.poolBays q).isEmpty) = none := by
    rw [List.find?_eq_none]
    intro q hqm
    rw [State.poolBays_isEmpty]
    obtain ⟨c, hce, hcp⟩ := hq q (State.mem_configuredPools.mp hqm)
    exact fun h => h c hce hcp
  unfold State.offending
  rw [if_neg (State.enrolledBays_ne_nil hb), State.find?_unconfigured hc]
  dsimp only
  rw [hf]

/-! ### START (R170) -/

/-- Dropping bookings writes the book and the notice queues alone (R88). -/
def State.onlyDrops (s t : State) : Prop :=
  t = { s with booking := { s.booking with book := t.booking.book }, queues := t.queues }

theorem State.onlyDrops_dropUnenrolled (s : State) (b : BayNo) : s.onlyDrops (s.dropUnenrolled b) := by
  have hstep : ∀ (u : State) (k : Booking), u.onlyDrops (u.dropTold b .unenrolled k) := by
    intro u k
    unfold State.dropTold State.noticeDropped State.raiseBoth
    split <;> rfl
  unfold State.dropUnenrolled
  split
  · rfl
  · refine List.foldlRecOn (motive := s.onlyDrops) (s.bookings b) (fun r k => r.dropTold b .unenrolled k) rfl
      fun u hu k _ => ?_
    have := hstep u k
    unfold State.onlyDrops at hu this ⊢
    rw [this, hu]

/-- The level as START leaves it (R4, R45, R124, R129, R135, R139, R170). -/
theorem State.startUp_eq (s : State) : s.startUp = { s with
    opState := .run, admission := [], bays := s.clearBays.bays, pools := s.clearPools.pools,
    queues := (allBays.foldl State.dropUnenrolled s).queues,
    booking := { s.booking with book := (allBays.foldl State.dropUnenrolled s).booking.book },
    power := { s.power with setpoints := s.clearSetpoints.power.setpoints },
    bus := { sweep := .opening, mode := .timed, sweepTimer := some (s.deviceSeconds + 1#32), keepAlive := none,
             links := s.clearBus.bus.links, sent := some .opening } } := by
  have hdrop : s.onlyDrops (allBays.foldl State.dropUnenrolled s) := by
    refine List.foldlRecOn (motive := s.onlyDrops) allBays _ rfl fun u hu b _ => ?_
    have := u.onlyDrops_dropUnenrolled b
    unfold State.onlyDrops at hu this ⊢
    rw [this, hu]
  unfold State.startUp
  generalize allBays.foldl State.dropUnenrolled s = u at hdrop
  unfold State.onlyDrops at hdrop
  generalize u.booking.book = bk at hdrop
  generalize u.queues = qs at hdrop
  subst hdrop
  simp [State.clearBus, State.clearSetpoints, State.clearPools, State.clearBays, State.pool, State.bay, State.openSweep,
    State.openWith, State.deadline]

/-- Settles O41: the checks in their order, and the level that START opens. -/
theorem startOpensTheLevel : Obligations.StartOpensTheLevel := by
  unfold Obligations.StartOpensTheLevel
  intro s hs enrolled configured fails
  have hfails : s.opState = .config → ∀ check item, s.offending = some (check, item) → fails (u8 check) (u8 item) :=
    fun hc check item ho => start_isRequest.refused hs (start_portRefusal s) rfl (by simp [ownStart, hc, ho])
  refine ⟨fun hr => start_isRequest.refused hs (start_portRefusal s) rfl
    (by simp [ownStart, hr, Reply.refuse, Reply.refuseWith]), fun hc => ⟨fun h => ?_, fun b he hn hlt => ?_,
    fun he hn => ⟨fun q hq hno hlt => ?_, fun hq => ?_⟩⟩⟩
  · exact hfails hc 1 255 (State.offending_of_none h)
  · exact hfails hc 2 b (State.offending_of_bay he hn hlt)
  · exact hfails hc 3 q (State.offending_of_pool he hn hq hno hlt)
  · have ho := State.offending_none he hn hq
    obtain ⟨t, hex, ha, e⟩ := start_isRequest.carriedOut hs (start_portRefusal s) rfl
      (r := .ok [u8 s.enrolledBays.length, u8 (s.bookSize - s.startUp.bookSize)]) (u := s.startUp)
      (by simp [ownStart, hc, ho]) rfl (by simp [State.startUp_eq, State.listening])
    obtain ⟨hbook, hqueue⟩ := State.foldl_dropUnenrolled allBays (List.nodup_finRange 48) s
    have hsize : t.bookSize = s.startUp.bookSize := by
      have hb : t.booking = s.startUp.booking := by rw [e]
      simp only [State.bookSize, State.liveBookings, State.bookings, hb]
    rw [State.startUp_eq] at e
    have hclear : s.ClearedFrom t := by constructor <;> rw [e]
    have hcount : s.enrolledBays.length = allBays.countP (fun b => (s.bay b).enrolled) :=
      List.countP_eq_length_filter.symm
    refine ⟨t, hex, ?_, fun b => ?_, fun p => ?_, fun b => ⟨hclear.bay b, hclear.setpoint b, hclear.link b⟩,
      hclear.pool, ?_⟩
    · rw [hsize, ← hcount]
      exact ha
    · rw [State.bookings_of_book (s := allBays.foldl State.dropUnenrolled s) (by rw [e]), hbook]
      cases (s.bay b).enrolled <;> simp [allBays]
    · rw [State.queue_of_queues (s := allBays.foldl State.dropUnenrolled s) (by rw [e]), hqueue, State.queueAfter_eq]
      rfl
    · rw [hclear.bays, hclear.pools, hclear.setpoints, hclear.links]
      rw [e]

end Sys2Proof.Machine
end

