-- ==== Sys2Proof/Proofs/Adoption.lean ====
section
/-! SUPPORT. ADOPT BAY: its checks in their order, and the ticket that it binds: O17. -/

namespace Sys2Proof.Machine

/-! ### The class field (R34) -/

theorem priorityOf_none {z : Byte} (h0 : z.toNat ≠ 0) (h2 : z.toNat ≠ 2) : priorityOf z = none := by
  unfold priorityOf
  split <;> simp_all

/-- The class field names STANDARD exactly where it is 0 (R175). -/
theorem priorityOf_some {z : Byte} (h : z.toNat = 0 ∨ z.toNat = 2) :
    ∃ c, priorityOf z = some c ∧ (c = .standard ↔ z.toNat = 0) := by
  rcases h with h | h
  · exact ⟨.standard, by simp [priorityOf, h], by simp [h]⟩
  · exact ⟨.access, by simp [priorityOf, h], by simp [h]⟩

/-! ### The checks (R34) -/

section Checks

variable {s : State} {p : Port} {x y z : Byte} (hs : s.ready p) (hp : p = .s ∨ p = .k ∧ s.opState = .run)
include hp

theorem adoptBay_portRefusal : s.portRefusal p infoAdoptBay [x, y, z] = none :=
  State.portRefusal_none (by rcases hp with h | ⟨h, -⟩ <;> rw [h] <;> rfl)
    (by rcases hp with h | ⟨-, h⟩ <;> simp [h]) (by simp [infoAdoptBay])

include hs

theorem adoptBay_refused {st : Status} (e : ownAdoptBay p [x, y, z] s = (s, .refuse st)) :
    s.refusedBy (.adoptBay p [x, y, z]) p st [] :=
  (adoptBay_isRequest p x y z).refused hs (adoptBay_portRefusal hp) rfl e

/-- A bay that the request does not name (R1, R3). -/
theorem adoptBay_noSuch {c : Priority} (hr : s.opState = .run) (hz : priorityOf z = some c)
    (hx : s.enrolledBay x = none) : s.refusedBy (.adoptBay p [x, y, z]) p .noSuch [] :=
  adoptBay_refused hs hp (by simp [ownAdoptBay, hr, hz, hx])

end Checks

/-! ### The binding (R14, R34) -/

/-- The state with the adopted ticket in the table and at its bay (R34). -/
def State.adopted (s : State) (p : Port) (b : BayNo) (stay : Nat) (c : Priority) : State :=
  { s with
    tickets := s.tickets ++ [{ s.walkIn p (s.bay b).pool stay c with state := .arrived, bay := some b }],
    ticketCounter := nextNumber s.nextTicket,
    bays := s.bays.set b { s.bay b with ticket := some s.nextTicket } }

theorem State.adopt_eq (s : State) (p : Port) (b : BayNo) (stay : Nat) (c : Priority) :
    s.adopt p b stay c = ((s.adopted p b stay c).plugInIfPlugged b, s.nextTicket) := rfl

theorem State.adopted_bay (s : State) (p : Port) (b : BayNo) (stay : Nat) (c : Priority) :
    (s.adopted p b stay c).bay b = { s.bay b with ticket := some s.nextTicket } := by
  simp [State.adopted, State.bay]

/-- A bay that does not report PLUGGED takes no plug-in (R14). -/
theorem State.plugInIfPlugged_of_unplugged {s : State} {b : BayNo} (h : (s.bay b).plug ≠ .plugged) :
    s.plugInIfPlugged b = s := by
  simp [State.plugInIfPlugged, h]

theorem State.plugInIfPlugged_of_plugged {s : State} {b : BayNo} (hst : (s.bay b).state = .occupied)
    (h : (s.bay b).plug = .plugged) : s.plugInIfPlugged b = s.plugIn b := by
  simp [State.plugInIfPlugged, hst, h]

/-- A plug-in at a bay whose link is LOST is deferred (R14). -/
theorem State.plugIn_of_lost {s : State} {b : BayNo} (h : (s.link b).link = .lost) :
    s.plugIn b = s.setBay b { s.bay b with plug := .unknown } := by
  simp [State.plugIn, State.linkLost, h]

/-- A plug-in at a bound bay opens the session of its ticket (R14, R93). -/
theorem State.plugIn_of_bound {s : State} {b : BayNo} {n : Nat} (h : (s.link b).link ≠ .lost)
    (hn : (s.bay b).ticket = some n) : s.plugIn b = s.openSession b n := by
  simp [State.plugIn, State.linkLost, h, hn]

/-- ADOPT BAY that passes its checks answers with the number and the state of the ticket (R34). -/
theorem ownAdoptBay_done {s : State} {p : Port} {x stay z : Byte} {b : BayNo} {c : Priority}
    (hr : s.opState = .run) (hz : priorityOf z = some c) (hx : s.enrolledBay x = some b)
    (hst : (s.bay b).state = .occupied) (ht : (s.bay b).ticket = none)
    (hk : ¬((s.pool (s.bay b).pool).kind = .restricted ∧ c = .standard)) (hroom : s.tickets.length < 64)
    {u : State} (hu : (s.adopted p b stay.toNat c).plugInIfPlugged b = u) {code : Byte}
    (hcode : code = if (u.bay b).state = .active then 4#8 else 3#8) :
    ownAdoptBay p [x, stay, z] s =
      (u, .okClamped (u16 s.nextTicket ++ [code]) (decide (16 < stay.toNat))) := by
  have hroom' : s.tableRoom = true := by simpa [State.tableRoom] using hroom
  simp only [ownAdoptBay, hr, hz, hx, hst, ht, hk, hroom', State.adopt_eq, hu, hcode, stayClamped]
  by_cases ha : (u.bay b).state = .active <;> simp [ha] <;> rfl

/-- Settles O17: the checks in their order, and the binding by the plug and the link of the bay. -/
theorem adoptBayBinds : Obligations.AdoptBayBinds := by
  unfold Obligations.AdoptBayBinds
  constructor
  · intro s p x stay z hs hp refused
    refine ⟨fun hc => adoptBay_refused hs hp (by simp [ownAdoptBay, hc]),
      fun hr h0 h2 => adoptBay_refused hs hp (by simp [ownAdoptBay, hr, priorityOf_none h0 h2]), fun hr hz => ?_⟩
    obtain ⟨c, hc, hstd⟩ := priorityOf_some hz
    refine ⟨fun hx => adoptBay_noSuch hs hp hr hc (s.enrolledBay_of_ge hx), fun b hb => ?_⟩
    have hbay := s.enrolledBay_of_val hb
    refine ⟨fun he => adoptBay_noSuch hs hp hr hc (by simp [hbay, he]), fun he => ⟨fun hw => ?_, fun hst ht =>
      ⟨fun hk h0 => ?_, fun hk hfull => ?_⟩⟩⟩
    · exact adoptBay_refused hs hp (by simp [ownAdoptBay, hr, hc, hbay, he, hw])
    · exact adoptBay_refused hs hp (by simp [ownAdoptBay, hr, hc, hbay, he, hst, ht, hk, hstd.mpr h0])
    · have hroom : s.tableRoom = false := by simpa [State.tableRoom] using hfull
      rw [← hstd] at hk
      exact adoptBay_refused hs hp (by simp [ownAdoptBay, hr, hc, hbay, he, hst, ht, hk, hroom])
  · intro s p x stay z b c _ hs hp hr hz hx hst ht hk hroom n u clamped
    have hp' : p = .s ∨ p = .k ∧ s.opState = .run := by cases p <;> simp_all
    have hu : s.adopted p b stay.toNat c = u := by
      cases c <;> rfl
    have hbay : u.bay b = { s.bay b with ticket := some n } := by rw [← hu, State.adopted_bay]
    have hlink : u.link b = s.link b := rfl
    have hdone : ∀ {v : State} {code : Byte}, u.plugInIfPlugged b = v →
        (code = if (v.bay b).state = .active then 4#8 else 3#8) → v.bus = s.bus →
        ∃ t, exec (.adoptBay p [x, stay, z]) s = .next t ∧ s.answeredWith v t p .ok (u16 n ++ [code]) clamped := by
      intro v code hv hcode hbus
      have e := ownAdoptBay_done hr hz hx hst ht hk hroom (p := p) (hu.symm ▸ hv) hcode
      simpa [Status.carriedOut, Reply.okClamped] using
        (adoptBay_isRequest p x stay z).answered hs (adoptBay_portRefusal hp') rfl e rfl hbus
    refine ⟨fun hpl => hdone (State.plugInIfPlugged_of_unplugged (by rw [hbay]; exact hpl)) (by simp [hbay, hst]) rfl,
      fun hpl hl => hdone (v := u.setBay b { u.bay b with plug := .unknown }) ?_ (by simp [hbay, hst]) rfl, fun hpl hl => ?_⟩
    · rw [State.plugInIfPlugged_of_plugged (by rw [hbay]; exact hst) (by rw [hbay]; exact hpl), State.plugIn_of_lost (s := u) hl]
    · have hin : u.plugInIfPlugged b = u.plugIn b :=
        State.plugInIfPlugged_of_plugged (by rw [hbay]; exact hst) (by rw [hbay]; exact hpl)
      have hact : ((u.plugIn b).bay b).state = .active := by
        rw [State.plugIn_of_bound (s := u) (n := n) hl (by rw [hbay]), State.openSession_bay, if_pos rfl]
        rfl
      obtain ⟨t, he, ha⟩ := hdone (code := 4#8) hin (by simp [hact]) (by simp [u])
      refine ⟨t, he, ha, ?_⟩
      rw [State.bay_of_bays (s := u.plugIn b) (by rw [ha.2.2])]
      exact hact

end Sys2Proof.Machine
end

