-- ==== Sys2Proof/Proofs/Recomputes.lean ====
section
/-! SUPPORT. What a recompute writes and whom it tells (R112 to R121), and the opening of a session with its recompute:
O12. -/

namespace Sys2Proof.Machine

/-! ### States field by field -/

/-- Two states with the same fields are one state. -/
theorem State.eq_of_fields {t u : State} (hop : t.opState = u.opState := by simp)
    (hsec : t.deviceSeconds = u.deviceSeconds := by simp) (htim : t.timers = u.timers := by simp)
    (hbay : t.bays = u.bays := by simp) (hadm : t.admission = u.admission := by simp)
    (htic : t.tickets = u.tickets := by simp) (hcnt : t.ticketCounter = u.ticketCounter := by simp)
    (hpoo : t.pools = u.pools := by simp) (hboo : t.booking = u.booking := by simp)
    (hpow : t.power = u.power := by simp) (hbus : t.bus = u.bus := by simp) (hpor : t.ports = u.ports := by simp)
    (hque : t.queues = u.queues := by simp) (hpen : t.pending = u.pending := by simp) : t = u := by
  cases t
  cases u
  simp_all

theorem State.ticket?_of_tickets {s t : State} (h : t.tickets = s.tickets) (n : Nat) : t.ticket? n = s.ticket? n := by
  simp only [State.ticket?, h]

/-- What a raised notice adds to each queue. -/
theorem State.raise_queue_takeAll (s : State) (p q : Port) (n : Notice) :
    (s.raise p n).queue q = (s.queue q).takeAll q (if q = p then [n] else []) := by
  rw [State.raise_queue]
  split <;> rfl

/-! ### The setpoint records (R115 to R120) -/

/-- A setpoint record that has been issued anew, at most (R117). -/
def Setpoint.reissued (x y : Setpoint) : Prop := y = { x with issued := y.issued, seq := y.seq }

theorem Setpoint.issue_reissued (x : Setpoint) (v : Nat) : x.reissued (x.issue v) := by
  rw [Setpoint.issue_spec]
  rfl

theorem Setpoint.reissued.refl (x : Setpoint) : x.reissued x := rfl

theorem Setpoint.reissued.trans {x y z : Setpoint} (h : x.reissued y) (h' : y.reissued z) : x.reissued z := by
  unfold Setpoint.reissued at h h' ⊢
  rw [h', h]

theorem Setpoint.reissued.acked {x y : Setpoint} (h : x.reissued y) : y.acked = x.acked := by
  unfold Setpoint.reissued at h
  rw [h]

/-- The raise step at one bay issues the bay anew, at most, and only where its target is above its acked value (R120). -/
theorem raiseOne_getElem (budget : Nat) (v : Vector Setpoint 48) (b c : BayNo) :
    v[c].reissued (raiseOne budget v b)[c] ∧ (c ≠ b ∨ v[c].target ≤ v[c].acked → (raiseOne budget v b)[c] = v[c]) := by
  have write : ∀ x : Setpoint, v[b].reissued x → ¬v[b].target ≤ v[b].acked →
      v[c].reissued (v.set b x)[c] ∧ (c ≠ b ∨ v[c].target ≤ v[c].acked → (v.set b x)[c] = v[c]) := by
    intro x hx hlt
    by_cases e : c = b
    · subst e
      simp only [Fin.getElem_fin, Vector.getElem_set_self]
      exact ⟨hx, fun h => absurd (h.resolve_left (not_not_intro rfl)) hlt⟩
    · have : (v.set b x)[c] = v[c] := by
        simp only [Fin.getElem_fin]
        exact Vector.getElem_set_ne _ _ fun h => e (Fin.ext h.symm)
      rw [this]
      exact ⟨rfl, fun _ => rfl⟩
  unfold raiseOne
  dsimp only
  split
  · exact ⟨rfl, fun _ => rfl⟩
  · rename_i hlt
    repeat' split
    · exact write _ (Setpoint.issue_reissued _ _) hlt
    · exact ⟨rfl, fun _ => rfl⟩
    · exact write _ (Setpoint.issue_reissued _ _) hlt

theorem foldl_raiseOne_getElem (budget : Nat) (l : List BayNo) (v : Vector Setpoint 48) (c : BayNo) :
    v[c].reissued (l.foldl (raiseOne budget) v)[c] ∧
      (c ∉ l ∨ v[c].target ≤ v[c].acked → (l.foldl (raiseOne budget) v)[c] = v[c]) := by
  induction l generalizing v with
  | nil => exact ⟨rfl, fun _ => rfl⟩
  | cons b l ih =>
    obtain ⟨hr, hk⟩ := raiseOne_getElem budget v b c
    obtain ⟨ihr, ihk⟩ := ih (raiseOne budget v b)
    refine ⟨hr.trans ihr, fun h => ?_⟩
    have e := hk (by simp only [List.mem_cons, not_or] at h; tauto)
    rw [List.foldl_cons, ihk (by rw [e]; simp only [List.mem_cons, not_or] at h; tauto), e]

theorem State.recompute_power (s : State) : s.recompute.power = s.retarget.decreaseStep.raiseStep.power := by
  unfold State.recompute
  rw [foldl_frame (·.power) _ (by simp)]

/-- A recompute writes the setpoint records of the power unit and the notice queues, and nothing else. -/
theorem State.recompute_eq (s : State) : s.recompute = { s with
    queues := s.recompute.queues, power := { s.power with setpoints := s.recompute.power.setpoints } } := by
  refine State.eq_of_fields (hpow := ?_)
  rw [State.recompute_power]
  simp only [State.raiseStep, State.decreaseStep, State.retarget, State.retargetTo]

theorem State.recompute_setpoint (s : State) (b : BayNo) :
    s.recompute.setpoint b = s.retarget.decreaseStep.raiseStep.setpoint b :=
  State.setpoint_of_setpoints (by rw [State.recompute_power]) b

theorem State.raiseStep_reissued (s : State) (b : BayNo) : (s.setpoint b).reissued (s.raiseStep.setpoint b) := by
  simp only [State.raiseStep, State.setpoint]
  exact (foldl_raiseOne_getElem _ _ _ b).1

/-- The raise step leaves a bay that takes no part, and one whose target is not above its acked value (R120). -/
theorem State.raiseStep_setpoint {s : State} {b : BayNo}
    (h : b ∉ s.participants ∨ (s.setpoint b).target ≤ (s.setpoint b).acked) :
    s.raiseStep.setpoint b = s.setpoint b := by
  simp only [State.raiseStep, State.setpoint] at h ⊢
  exact (foldl_raiseOne_getElem _ _ _ b).2 h

theorem State.retarget_setpoint (s : State) (b : BayNo) : s.retarget.setpoint b =
    if (s.bay b).state = .active then { s.setpoint b with
      target := targetOf s.targets b, throttled := decide (targetOf s.targets b < (s.bay b).cappedDemand) }
    else s.setpoint b := by
  simp [State.retarget, State.retargetTo, State.setpoint]

theorem State.decreaseStep_setpoint (s : State) (b : BayNo) : s.decreaseStep.setpoint b =
    if (s.bay b).state = .active ∧ (s.setpoint b).target ≤ (s.setpoint b).acked then
      (s.setpoint b).issue (s.setpoint b).target else s.setpoint b := by
  simp [State.decreaseStep, State.setpoint]

theorem Bay.active_of_demand {x : Bay} (h : 6 ≤ x.cappedDemand) : x.state = .active := by
  unfold Bay.cappedDemand at h
  split at h
  · assumption
  · omega

/-- A recompute leaves the setpoint record of a bay that is not ACTIVE (R112, R119, R120). -/
theorem State.recompute_setpoint_of_inactive {s : State} {b : BayNo} (h : (s.bay b).state ≠ .active) :
    s.recompute.setpoint b = s.setpoint b := by
  have hb : s.retarget.bay b = s.bay b := State.bay_of_bays (by simp) b
  have hd : s.retarget.decreaseStep.setpoint b = s.setpoint b := by
    rw [State.decreaseStep_setpoint, hb, if_neg (by simp [h]), State.retarget_setpoint, if_neg h]
  rw [State.recompute_setpoint, ← hd]
  refine State.raiseStep_setpoint (.inl fun hm => h ?_)
  have := Bay.active_of_demand (State.cappedDemand_of_participant hm)
  rwa [State.bay_of_bays (s := s) (by simp)] at this

/-- A recompute keeps every acked value (R115 to R120). -/
theorem State.recompute_acked (s : State) (b : BayNo) : (s.recompute.setpoint b).acked = (s.setpoint b).acked := by
  have hraise := State.raiseStep_reissued s.retarget.decreaseStep b
  have hdec : (s.retarget.setpoint b).reissued (s.retarget.decreaseStep.setpoint b) := by
    rw [State.decreaseStep_setpoint]
    split
    · exact Setpoint.issue_reissued _ _
    · exact .refl _
  have hall : (s.recompute.setpoint b).acked = (s.retarget.setpoint b).acked := by
    rw [State.recompute_setpoint]
    exact (hdec.trans hraise).acked
  rw [hall, State.retarget_setpoint]
  split <;> rfl

/-- A recompute leaves the record of an ACTIVE bay without a demand that stands at 0 and is not throttled (R112). -/
theorem State.recompute_setpoint_of_idle {s : State} {b : BayNo} (hd : (s.bay b).cappedDemand = 0)
    (hx : (s.setpoint b).target = 0 ∧ (s.setpoint b).issued = 0 ∧ (s.setpoint b).throttled = false) :
    s.recompute.setpoint b = s.setpoint b := by
  obtain ⟨ht, hi, hth⟩ := hx
  have htarget : targetOf s.targets b = 0 := by
    rcases s.targetOf_apportioned b with h | h
    · exact h
    · omega
  have hre : s.retarget.setpoint b = s.setpoint b := by
    rw [State.retarget_setpoint, htarget, hd]
    split
    · rw [← ht, show decide ((s.setpoint b).target < (s.setpoint b).target) = (s.setpoint b).throttled by simp [hth]]
    · rfl
  have hdec : s.retarget.decreaseStep.setpoint b = s.setpoint b := by
    rw [State.decreaseStep_setpoint, hre]
    split
    · simp [Setpoint.issue, ht, hi]
    · rfl
  rw [State.recompute_setpoint, ← hdec]
  exact State.raiseStep_setpoint (.inr (by simp [hdec, ht]))

/-! ### The THROTTLE notices (R115) -/

/-- The THROTTLE that a port gets of one bay (R115). -/
def State.throttleAt (t : State) (was : BayNo → Bool) (p : Port) (b : BayNo) : Option Notice :=
  if (t.bay b).state = .active ∧ (t.setpoint b).throttled ≠ was b then
    match (t.bay b).ticket with
    | some n =>
      if (t.ticket? n).map Ticket.origin = some p then some (.throttle n b (t.setpoint b).throttled) else none
    | none => none
  else none

theorem State.throttles_eq (t : State) (was : BayNo → Bool) (p : Port) :
    t.throttles was p = t.admission.filterMap (t.throttleAt was p) := rfl

theorem State.throttleAt_congr {t u : State} {was was' : BayNo → Bool} (hb : u.bays = t.bays)
    (ht : u.tickets = t.tickets) (hp : u.power.setpoints = t.power.setpoints) {b : BayNo} (hw : was' b = was b)
    (p : Port) : u.throttleAt was' p b = t.throttleAt was p b := by
  simp only [State.throttleAt, State.bay_of_bays hb, State.setpoint_of_setpoints hp, State.ticket?_of_tickets ht, hw]

theorem State.throttleNotice_queue (before s : State) (b : BayNo) (p : Port) : (before.throttleNotice s b).queue p =
    (s.queue p).takeAll p (s.throttleAt (fun c => (before.setpoint c).throttled) p b).toList := by
  unfold State.throttleNotice State.throttleAt
  split
  · cases (s.bay b).ticket with
    | none => rfl
    | some n =>
      dsimp only
      unfold State.raiseTo
      cases s.ticket? n with
      | none => rfl
      | some t =>
        by_cases hp : p = t.origin
        · simp [State.raise_queue, hp, NoticeQueue.takeAll_cons]
        · have : ¬t.origin = p := fun e => hp e.symm
          simp [State.raise_queue, hp, this]
  · rfl

theorem State.foldl_throttleNotice_queue (before : State) (l : List BayNo) (s : State) (p : Port) :
    (l.foldl (fun r b => before.throttleNotice r b) s).queue p =
      (s.queue p).takeAll p (l.filterMap (s.throttleAt (fun c => (before.setpoint c).throttled) p)) := by
  induction l generalizing s with
  | nil => rfl
  | cons b l ih =>
    have hcongr : (before.throttleNotice s b).throttleAt (fun c => (before.setpoint c).throttled) p =
        s.throttleAt (fun c => (before.setpoint c).throttled) p :=
      funext fun c => State.throttleAt_congr (by simp) (by simp) (by simp) rfl p
    rw [List.foldl_cons, ih, hcongr, State.throttleNotice_queue, ← NoticeQueue.takeAll_append]
    cases h : s.throttleAt (fun c => (before.setpoint c).throttled) p b <;> simp [h]

/-- A recompute tells each port the THROTTLE notices of the flags that it has changed (R115). -/
theorem State.recompute_queue (s : State) (p : Port) : s.recompute.queue p =
    (s.queue p).takeAll p (s.recompute.throttles (fun c => (s.setpoint c).throttled) p) := by
  have hcongr : s.recompute.throttleAt (fun c => (s.setpoint c).throttled) p =
      s.retarget.decreaseStep.raiseStep.throttleAt (fun c => (s.setpoint c).throttled) p :=
    funext fun c => State.throttleAt_congr (by simp) (by simp) (by rw [State.recompute_power]) rfl p
  rw [State.throttles_eq, hcongr, State.recompute_admission]
  have hq : s.retarget.decreaseStep.raiseStep.queue p = s.queue p := State.queue_of_queues (by simp) p
  rw [← hq, ← State.foldl_throttleNotice_queue]
  rfl

/-- A THROTTLE (R115). -/
def Notice.isThrottle (n : Notice) : Prop := ∃ k b on, n = .throttle k b on

theorem State.isThrottle_of_mem {t : State} {was : BayNo → Bool} {p : Port} {n : Notice} (h : n ∈ t.throttles was p) :
    n.isThrottle := by
  obtain ⟨b, -, e⟩ := List.mem_filterMap.mp h
  split at e
  · split at e
    · split at e
      · exact ⟨_, _, _, (Option.some.inj e).symm⟩
      · cases e
    · cases e
  · cases e

/-- A recompute tells nothing but THROTTLE notices (R115). -/
theorem State.recompute_tells (s : State) : s.tellsOnly s.recompute fun _ n => n.isThrottle :=
  fun p => ⟨_, s.recompute_queue p, fun _ h => State.isThrottle_of_mem h⟩

end Sys2Proof.Machine
end

