-- ==== Sys2Proof/Proofs/BayStateNotices.lean ====
section
/-! SUPPORT. The one BAY_STATE of a bay in the S queue (R7, R159): it is updated in place, so that it shows the bay as it
stands, and takes no further room. -/

namespace Sys2Proof.Machine

/-! ### The BAY_STATE of a bay in a queue -/

/-- The bay whose BAY_STATE a notice is. -/
def Notice.shownBay : Notice → Option BayNo
  | .bayState b _ _ _ => some b
  | _ => none

@[simp] theorem Notice.shownBay_bayState (b : BayNo) (st : BayState) (l : Link) (f : Option FaultCode) :
    (Notice.bayState b st l f).shownBay = some b := rfl

/-- A queue holds a BAY_STATE of a bay. -/
abbrev NoticeQueue.lists (q : NoticeQueue) (b : BayNo) : Prop := some b ∈ q.notices.map Notice.shownBay

/-- The BAY_STATE of a bay updates those of the same bay (R159). -/
theorem Notice.bayState_coalesces (b : BayNo) (st : BayState) (l : Link) (f : Option FaultCode) (m : Notice) :
    (Notice.bayState b st l f).coalesces m = true ↔ m.shownBay = some b := by
  cases m with
  | bayState c st' l' f' =>
    show (b == c) = true ↔ some c = some b
    rw [beq_iff_eq, Option.some.injEq]
    exact eq_comm
  | _ => simp [Notice.coalesces, Notice.shownBay]

/-- A notice that updates another is of the same bay, or of none as the other is (R159). -/
theorem Notice.shownBay_of_coalesces {n m : Notice} (h : n.coalesces m = true) : n.shownBay = m.shownBay := by
  cases n with
  | bayState b st l f => exact ((Notice.bayState_coalesces b st l f m).mp h).symm
  | feed t a => cases m <;> first | rfl | cases h
  | _ => cases m <;> cases h

/-- No notice but the BAY_STATE of a bay updates it (R159). -/
theorem Notice.not_coalesces_bayState {n : Notice} {b : BayNo} (h : n.shownBay ≠ some b) (st : BayState) (l : Link)
    (f : Option FaultCode) : n.coalesces (.bayState b st l f) = false := by
  by_contra hc
  exact h (Notice.shownBay_of_coalesces (by simpa using hc))

namespace NoticeQueue

theorem map_shownBay (q : NoticeQueue) (n : Notice) :
    (q.notices.map fun m => if n.coalesces m then n else m).map Notice.shownBay = q.notices.map Notice.shownBay := by
  rw [List.map_map]
  refine List.map_congr_left fun m _ => ?_
  simp only [Function.comp]
  split
  · exact Notice.shownBay_of_coalesces (by assumption)
  · rfl

/-- A BAY_STATE that is listed stays so. -/
theorem lists_take {q : NoticeQueue} {b : BayNo} (h : q.lists b) (p : Port) (n : Notice) : (q.take p n).lists b := by
  rcases q.take_cases p n with ⟨-, e⟩ | ⟨-, e⟩ | ⟨-, -, e⟩
  · rw [lists, e, List.map_append]
    exact List.mem_append_left _ h
  · rwa [lists, e]
  · rwa [lists, e, map_shownBay]

/-- A listed BAY_STATE is updated in place (R159). -/
theorem take_of_lists {q : NoticeQueue} {b : BayNo} (h : q.lists b) (st : BayState) (l : Link) (f : Option FaultCode) :
    (q.take .s (.bayState b st l f)).notices =
      q.notices.map (fun m => if m.shownBay = some b then .bayState b st l f else m) := by
  obtain ⟨m, hm, e⟩ := List.mem_map.mp h
  rw [take_notices_of_old hm ((Notice.bayState_coalesces b st l f m).mpr e)]
  refine List.map_congr_left fun m _ => ?_
  simp only [Notice.bayState_coalesces]

theorem mem_take_of_lists {q : NoticeQueue} {b : BayNo} (h : q.lists b) (st : BayState) (l : Link)
    (f : Option FaultCode) : .bayState b st l f ∈ (q.take .s (.bayState b st l f)).notices := by
  obtain ⟨m, hm, e⟩ := List.mem_map.mp h
  rw [take_of_lists h]
  exact List.mem_map.mpr ⟨m, hm, if_pos e⟩

theorem lists_of_mem {q : NoticeQueue} {b : BayNo} {st : BayState} {l : Link} {f : Option FaultCode}
    (h : .bayState b st l f ∈ q.notices) : q.lists b :=
  List.mem_map.mpr ⟨_, h, rfl⟩

/-- A BAY_STATE that is not listed is new to the queue (R158). -/
theorem take_of_not_lists {q : NoticeQueue} {b : BayNo} (h : ¬q.lists b) (st : BayState) (l : Link)
    (f : Option FaultCode) : q.take .s (.bayState b st l f) = q.append (.bayState b st l f) := by
  have hany : q.notices.any (fun m => (Notice.bayState b st l f).coalesces m) = false := by
    rw [List.any_eq_false]
    exact fun m hm hc => h (List.mem_map.mpr ⟨m, hm, (Notice.bayState_coalesces b st l f m).mp hc⟩)
  simp [take, coalesce, hany]

/-- Of two BAY_STATEs of one bay, one after the other, the second is what stands (R159). -/
theorem take_bayState_twice (q : NoticeQueue) (b : BayNo) (st st' : BayState) (l l' : Link) (f f' : Option FaultCode) :
    (q.take .s (.bayState b st l f)).take .s (.bayState b st' l' f') = q.take .s (.bayState b st' l' f') := by
  have hover : ∀ {r : NoticeQueue} (h : r.lists b) st l f, r.take .s (.bayState b st l f) = { r with
      notices := r.notices.map (fun m => if m.shownBay = some b then .bayState b st l f else m) } := by
    intro r h st l f
    have hn := take_of_lists h st l f
    obtain ⟨m, hm, e⟩ := List.mem_map.mp h
    have hany : r.notices.any (fun m => (Notice.bayState b st l f).coalesces m) = true :=
      List.any_eq_true.mpr ⟨m, hm, (Notice.bayState_coalesces b st l f m).mpr e⟩
    rw [← hn]
    simp [take, coalesce, hany]
  by_cases h : q.lists b
  · rw [hover (lists_take h _ _), hover h, hover h]
    simp only [List.map_map]
    congr 1
    refine List.map_congr_left fun m _ => ?_
    by_cases e : m.shownBay = some b <;> simp [e]
  · rw [take_of_not_lists h, take_of_not_lists h]
    by_cases hl : q.notices.length < 24
    · have hlist : (q.append (.bayState b st l f)).lists b := lists_of_mem (st := st) (l := l) (f := f) (by
        rw [append_notices, if_pos hl]
        exact List.mem_append_right _ (List.mem_singleton_self _))
      have hkeep : ∀ m ∈ q.notices, m.shownBay ≠ some b := fun m hm e => h (List.mem_map.mpr ⟨m, hm, e⟩)
      have hmap : q.notices.map (fun m => if m.shownBay = some b then .bayState b st' l' f' else m) = q.notices :=
        (List.map_congr_left fun m hm => if_neg (hkeep m hm)).trans (List.map_id' _)
      rw [hover hlist]
      simp [append, hl, hmap]
    · rw [append, if_neg hl, take_of_not_lists (q := { q with overrun := true }) h]
      simp [append, hl]

/-! ### Room beside the BAY_STATE of a bay -/

/-- The notices that a queue holds, and the BAY_STATE of a bay with them, listed or not. -/
def load (q : NoticeQueue) (b : BayNo) : Nat := q.notices.length + if q.lists b then 0 else 1

theorem length_le_load (q : NoticeQueue) (b : BayNo) : q.notices.length ≤ q.load b := Nat.le_add_right _ _

theorem load_le (q : NoticeQueue) (b : BayNo) : q.load b ≤ q.notices.length + 1 := by
  unfold load
  split <;> omega

/-- A notice adds one to the load of a queue at most. -/
theorem load_take (q : NoticeQueue) (b : BayNo) (p : Port) (n : Notice) : (q.take p n).load b ≤ q.load b + 1 := by
  have := q.length_take p n
  unfold load
  by_cases h : q.lists b
  · rw [if_pos h, if_pos (lists_take h p n)]
    omega
  · rw [if_neg h]
    split <;> omega

/-- The BAY_STATE of the bay adds nothing to it (R159). -/
theorem load_take_bayState (q : NoticeQueue) (b : BayNo) (st : BayState) (l : Link) (f : Option FaultCode) :
    (q.take .s (.bayState b st l f)).load b ≤ q.load b := by
  unfold load
  by_cases h : q.lists b
  · rw [if_pos h, if_pos (lists_take h _ _), take_of_lists h, List.length_map]
  · rw [if_neg h, take_of_not_lists h, append]
    by_cases hl : q.notices.length < 24
    · rw [if_pos hl]
      simp [Notice.shownBay]
    · rw [if_neg hl, if_neg (show ¬NoticeQueue.lists { q with overrun := true } b from h)]

/-- Where there is room for the BAY_STATE of a bay, it stands in the queue once it has been taken (R158, R159). -/
theorem mem_take_bayState {q : NoticeQueue} {b : BayNo} (h : q.lists b ∨ q.notices.length < 24) (st : BayState) (l : Link)
    (f : Option FaultCode) : .bayState b st l f ∈ (q.take .s (.bayState b st l f)).notices := by
  rcases h with h | h
  · exact mem_take_of_lists h st l f
  · exact mem_take_self h

/-- Room for the BAY_STATE of a bay and one notice more leaves room for the BAY_STATE when the notice has been taken. -/
theorem room_takeAll_if {q : NoticeQueue} {b : BayNo} (h : q.lists b ∨ q.notices.length < 23) (p : Port) (n : Notice)
    (c : Prop) [Decidable c] : (q.takeAll p (if c then [n] else [])).lists b ∨
      (q.takeAll p (if c then [n] else [])).notices.length < 24 := by
  split
  · rcases h with h | h
    · exact .inl (lists_take h p n)
    · exact .inr (by have := q.length_take p n; exact Nat.lt_of_le_of_lt this (by omega))
  · exact h.imp id fun h => by rw [takeAll_nil]; omega

end NoticeQueue

/-- A listed BAY_STATE stays so, whatever is told. -/
theorem State.tellsOnly.lists {s t : State} {P : Port → Notice → Prop} (h : s.tellsOnly t P) {p : Port} {b : BayNo}
    (hl : (s.queue p).lists b) : (t.queue p).lists b := by
  obtain ⟨l, e, -⟩ := h p
  rw [e]
  clear e h
  generalize s.queue p = q at hl
  induction l generalizing q with
  | nil => exact hl
  | cons n l ih => exact ih _ (NoticeQueue.lists_take hl p n)

/-- A notice to the origin of a ticket is told, or none (R27). -/
theorem State.raiseTo_tells (s : State) (k : Nat) (n : Notice) : s.tellsOnly (s.raiseTo k n) fun _ m => m = n := by
  unfold State.raiseTo
  split
  · exact .raise rfl s
  · exact .of_queues rfl _

/-! ### The BAY_STATE of a bay as it stands -/

/-- The S queue shows the bay as it stands (R7). -/
def State.Shown (s : State) (b : BayNo) : Prop := s.bayNotice b ∈ (s.queue .s).notices

theorem State.Shown.lists {s : State} {b : BayNo} (h : s.Shown b) : (s.queue .s).lists b := NoticeQueue.lists_of_mem h

theorem State.bayNotice_of {s t : State} {b : BayNo} (hst : (t.bay b).state = (s.bay b).state)
    (hf : (t.bay b).state = .faulted → (t.bay b).fault = (s.bay b).fault) (hl : (t.link b).link = (s.link b).link) :
    t.bayNotice b = s.bayNotice b := by
  unfold State.bayNotice
  rw [hl, hst]
  congr 1
  split
  · exact hf (hst.trans (by assumption))
  · rfl

/-- A step that leaves the bay's state, fault and link, and tells nothing of the bay, keeps it shown. -/
theorem State.Shown.keep {s t : State} {b : BayNo} (h : s.Shown b) (hst : (t.bay b).state = (s.bay b).state)
    (hf : (t.bay b).state = .faulted → (t.bay b).fault = (s.bay b).fault) (hl : (t.link b).link = (s.link b).link)
    (ht : s.tellsOnly t fun _ n => n.shownBay ≠ some b) : t.Shown b := by
  rw [State.Shown, State.bayNotice_of hst hf hl]
  exact ht.mem h fun n hn => Notice.not_coalesces_bayState hn _ _ _

/-- A BAY_STATE of the bay that is raised where one is listed shows the bay. -/
theorem State.Shown.raised {s : State} {b : BayNo} (h : (s.queue .s).lists b) : (s.raise .s (s.bayNotice b)).Shown b := by
  have hn : (s.raise .s (s.bayNotice b)).bayNotice b = s.bayNotice b := by
    refine State.bayNotice_of (s := s) ?_ (fun _ => ?_) ?_ <;> rfl
  rw [State.Shown, hn, State.raise_queue, if_pos rfl]
  exact NoticeQueue.mem_take_of_lists h _ _ _

/-- A change of a bay record keeps the bay shown, and every other bay (R7). -/
theorem State.Shown.changeBay {s : State} {b : BayNo} (h : s.Shown b) (c : BayNo) (f : Bay → Bay) :
    (s.changeBay c f).Shown b := by
  by_cases e : c = b
  · subst e
    by_cases hs : (s.bay c).shows (f (s.bay c)) = true
    · rw [State.changeBay_of_shows s c f hs]
      exact State.Shown.raised (s := s.setBay c (f (s.bay c))) h.lists
    · have hs' : (s.bay c).shows (f (s.bay c)) = false := by simpa using hs
      rw [State.changeBay_of_hidden s c f hs']
      simp only [Bay.shows, Bool.or_eq_false_iff, Bool.and_eq_false_imp, decide_eq_false_iff_not, not_not,
        decide_eq_true_eq] at hs'
      refine h.keep ?_ (fun hf => ?_) rfl (.of_queues rfl _)
      · rw [State.setBay_bay_self]
        exact hs'.1
      · rw [State.setBay_bay_self] at hf ⊢
        exact hs'.2 hf
  · have hb : (s.changeBay c f).bay b = s.bay b := by rw [State.changeBay_bay, if_neg fun h => e h.symm]
    have hl : (s.changeBay c f).link b = s.link b := State.link_of_links (by simp) b
    refine h.keep (by rw [hb]) (fun _ => by rw [hb]) (by rw [hl]) ?_
    unfold State.changeBay
    dsimp only
    split
    · exact (State.tellsOnly.raise (s := s.setBay c (f (s.bay c))) (by
        simpa [State.bayNotice, Notice.shownBay] using e)).congr rfl rfl
    · exact .of_queues rfl _

end Sys2Proof.Machine
end

