-- ==== Sys2Proof/Proofs/MatchingRuns.lean ====
section
/-! SUPPORT. What a matching run can do (R53 to R55): it keeps or offers bays and tickets, moves rotation pointers, and
tells nothing but the OFFERs and the BAY_STATEs of the bays that it offers. -/

namespace Sys2Proof.Machine

/-! ### Kept or offered -/

theorem Bay.keptOrOffered.refl (x : Bay) : x.keptOrOffered x := .inl rfl

theorem Bay.keptOrOffered.trans {x y z : Bay} (h : x.keptOrOffered y) (h' : y.keptOrOffered z) : x.keptOrOffered z := by
  rcases h with rfl | ⟨hx, n, rfl⟩
  · exact h'
  · rcases h' with rfl | ⟨hy, -⟩
    · exact .inr ⟨hx, n, rfl⟩
    · cases hy

/-- A bay that is not FREE is kept. -/
theorem Bay.keptOrOffered.eq_of_ne_free {x y : Bay} (h : x.keptOrOffered y) (hx : x.state ≠ .free) : y = x :=
  h.resolve_right fun h' => hx h'.1

/-- A bay that is kept or offered was FREE if it is, and is ACTIVE if it was and conversely. -/
theorem Bay.keptOrOffered.free {x y : Bay} (h : x.keptOrOffered y) (hy : y.state = .free) : x.state = .free := by
  rcases h with rfl | ⟨hx, -⟩
  · exact hy
  · exact hx

theorem Ticket.keptOrOffered.refl (x : Ticket) : x.keptOrOffered x := .inl rfl

theorem Ticket.keptOrOffered.trans {x y z : Ticket} (h : x.keptOrOffered y) (h' : y.keptOrOffered z) :
    x.keptOrOffered z := by
  rcases h with rfl | ⟨hx, b, d, rfl⟩
  · exact h'
  · rcases h' with rfl | ⟨hy, -⟩
    · exact .inr ⟨hx, b, d, rfl⟩
    · cases hy

/-- A notice of an offer: the OFFER, or the BAY_STATE of a bay that was FREE (R7, R55). -/
def State.ofOffers (s : State) (_ : Port) (n : Notice) : Prop :=
  (∃ k b d, n = .offer k b d) ∨ ∃ b l, (s.bay b).state = .free ∧ n = .bayState b .offered l none

/-- One state comes from another by matching. -/
structure State.Matched (s t : State) : Prop where
  bay : ∀ c, (s.bay c).keptOrOffered (t.bay c)
  ticket : ∀ m x, s.ticket? m = some x → ∃ y, t.ticket? m = some y ∧ x.keptOrOffered y
  dead : ∀ m, s.ticket? m = none → t.ticket? m = none
  pool : ∀ q, t.pool q = { s.pool q with pointer := (t.pool q).pointer }
  tells : s.tellsOnly t s.ofOffers
  shown : ∀ b, s.Shown b → t.Shown b
  frame : t = { s with bays := t.bays, tickets := t.tickets, pools := t.pools, queues := t.queues }

namespace State.Matched

variable {s t u : State}

theorem refl (s : State) : s.Matched s :=
  ⟨fun _ => .refl _, fun _ x h => ⟨x, h, .refl x⟩, fun _ => id, fun _ => rfl, .of_queues rfl _, fun _ => id, rfl⟩

theorem trans (h : s.Matched t) (h' : t.Matched u) : s.Matched u where
  bay c := (h.bay c).trans (h'.bay c)
  ticket m x hx := by
    obtain ⟨y, hy, hk⟩ := h.ticket m x hx
    obtain ⟨z, hz, hk'⟩ := h'.ticket m y hy
    exact ⟨z, hz, hk.trans hk'⟩
  dead m hm := h'.dead m (h.dead m hm)
  pool q := by rw [h'.pool q, h.pool q]
  tells := h.tells.trans (h'.tells.mono fun _ n hn => hn.imp id fun ⟨b, l, hf, e⟩ => ⟨b, l, (h.bay b).free hf, e⟩)
  shown b hb := h'.shown b (h.shown b hb)
  frame := by rw [h'.frame, h.frame]

/-- A bay that is not FREE is as it was. -/
theorem bay_of_ne_free (h : s.Matched t) {b : BayNo} (hb : (s.bay b).state ≠ .free) : t.bay b = s.bay b :=
  (h.bay b).eq_of_ne_free hb

theorem queue (h : s.Matched t) (q : PoolNo) : (t.pool q).queue = (s.pool q).queue := by rw [h.pool q]

/-- Matching tells nothing of a bay that is not FREE. -/
theorem tells_not_bay (h : s.Matched t) {b : BayNo} (hb : (s.bay b).state ≠ .free) :
    s.tellsOnly t fun _ n => n.shownBay ≠ some b := by
  refine h.tells.mono fun _ n hn => ?_
  rcases hn with ⟨k, c, d, rfl⟩ | ⟨c, l, hf, rfl⟩
  · simp [Notice.shownBay]
  · intro e
    exact hb (Option.some.inj e ▸ hf)

/-- Matching tells nothing of these other kinds. -/
theorem tells_not (h : s.Matched t) {m : Notice} (ho : ∀ k b d, m ≠ .offer k b d)
    (hb : ∀ b st l f, m ≠ .bayState b st l f) : s.tellsOnly t fun _ n => n ≠ m := by
  refine h.tells.mono fun _ n hn => ?_
  rcases hn with ⟨k, c, d, rfl⟩ | ⟨c, l, hf, rfl⟩
  · exact (ho k c d).symm
  · exact (hb c _ _ _).symm

end State.Matched

/-- An offer: the bay, the ticket and the pointer (R51, R55). -/
theorem State.offerBay_eq {s : State} {b : BayNo} (hb : (s.bay b).state = .free) (q : PoolNo) (k : Ticket) :
    s.offerBay q b k = ((((s.setBay b { s.bay b with state := .offered, ticket := some k.number }).raise .s
      (.bayState b .offered (s.link b).link none)).modTicket k.number
        (fun u => u.offeredAt b (s.deadline s.timers.offer))).pointTo q b).raise k.origin
          (.offer k.number b s.timers.offer) := by
  have e : s.changeBay b (fun x => { x with state := .offered, ticket := some k.number }) =
      (s.setBay b { s.bay b with state := .offered, ticket := some k.number }).raise .s
        (.bayState b .offered (s.link b).link none) := State.changeBay_to (by simp [hb]) (by simp)
  unfold State.offerBay
  rw [e]
  rfl

theorem State.matched_offerBay {s : State} {b : BayNo} (hb : (s.bay b).state = .free) (q : PoolNo) {k : Ticket}
    (hk : s.ticket? k.number = some k) (hw : k.state = .waiting) : s.Matched (s.offerBay q b k) := by
  have hbay : ∀ c, (s.offerBay q b k).bay c =
      if c = b then { s.bay b with state := .offered, ticket := some k.number } else s.bay c := by
    intro c
    rw [State.offerBay_eq hb, ← State.setBay_bay]
    exact State.bay_of_bays (by simp [State.pointTo]) c
  have hfind : ∀ m, (s.offerBay q b k).ticket? m = (s.ticket? m).map
      (fun t => if m = k.number then t.offeredAt b (s.deadline s.timers.offer) else t) := by
    intro m
    rw [← State.modTicket_ticket_find s k.number m (fun u => u.offeredAt b (s.deadline s.timers.offer)) (fun _ => rfl)]
    exact State.ticket?_of_tickets (by simp [State.offerBay, State.modTicket, State.pointTo, Ticket.offeredAt]) m
  refine ⟨fun c => ?_, fun m x hx => ?_, fun m hm => by rw [hfind, hm]; rfl, fun p => ?_, ?_, fun c hc => ?_, ?_⟩
  · rw [hbay]
    split
    · subst c
      exact .inr ⟨hb, _, rfl⟩
    · exact .refl _
  · rw [hfind, hx]
    refine ⟨_, rfl, ?_⟩
    split
    · subst m
      obtain rfl := Option.some.inj (hk.symm.trans hx)
      exact .inr ⟨hw, b, _, rfl⟩
    · exact .refl _
  · have : (s.offerBay q b k).pool p = if p = q then { s.pool q with pointer := some b } else s.pool p := by
      rw [← State.setPool_pool]
      exact State.pool_of_pools (by simp [State.offerBay, State.pointTo, State.setPool, State.pool]) p
    rw [this]
    split
    · subst p
      rfl
    · rfl
  · rw [State.offerBay_eq hb]
    refine (State.tellsOnly.raise (p := .s) (n := .bayState b .offered (s.link b).link none) (.inr ⟨b, _, hb, rfl⟩)
      _).congr (s' := s) rfl rfl |>.trans ?_
    exact (State.tellsOnly.raise (p := k.origin) (n := .offer k.number b s.timers.offer) (.inl ⟨_, _, _, rfl⟩)
      _).congr rfl rfl
  · have h1 : (s.changeBay b (fun x => { x with state := .offered, ticket := some k.number })).Shown c :=
      State.Shown.changeBay hc b _
    refine h1.keep (by simp [State.offerBay, State.bay]) (fun _ => by simp [State.offerBay, State.bay])
      (by simp [State.offerBay, State.link]) ?_
    exact (State.tellsOnly.raise (p := k.origin) (n := .offer k.number b s.timers.offer)
      (by simp [Notice.shownBay]) _).congr rfl rfl
  · exact State.eq_of_fields

theorem State.matched_matchBay (s : State) (q : PoolNo) (b : BayNo) : s.Matched (s.matchBay q b) := by
  unfold State.matchBay
  split
  · rename_i k hk
    obtain ⟨hw, he, n, -, hf⟩ := State.firstEligible_spec hk
    obtain rfl := State.ticket?_number hf
    exact State.matched_offerBay (State.free_of_eligible he) q hf hw
  · exact .refl s

/-- A matching run (R53, R54). -/
theorem State.matched_matchRun (s : State) (q : PoolNo) : s.Matched (s.matchRun q) :=
  List.foldlRecOn (motive := s.Matched) (s.rotation q) _ (.refl s) fun u hu b _ => hu.trans (u.matched_matchBay q b)

theorem State.matched_matchIn (s : State) (q : Option PoolNo) : s.Matched (s.matchIn q) := by
  cases q with
  | none => exact .refl s
  | some q => exact s.matched_matchRun q

theorem State.matched_matchIfFree (s : State) (b : BayNo) : s.Matched (s.matchIfFree b) := by
  unfold State.matchIfFree
  split
  · exact s.matched_matchRun _
  · exact .refl s

/-! ### A bay that is settled, with the matching that follows -/

/-- An OFFER, or a BAY_STATE. -/
def Notice.ofSettling (n : Notice) : Prop := (∃ k b d, n = .offer k b d) ∨ n.shownBay.isSome = true

/-- A bay's record becomes x, its BAY_STATE is raised, and matching follows (R5, R7, R53). -/
structure State.Settled (s t : State) (b : BayNo) (x : Bay) : Prop where
  bay : x.keptOrOffered (t.bay b)
  other : s.baysKept t b
  ticket : ∀ m y, s.ticket? m = some y → ∃ z, t.ticket? m = some z ∧ y.keptOrOffered z
  dead : ∀ m, s.ticket? m = none → t.ticket? m = none
  pool : ∀ q, t.pool q = { s.pool q with pointer := (t.pool q).pointer }
  tells : s.tellsOnly t fun _ n => n.ofSettling
  shown : (s.queue .s).lists b ∨ (s.queue .s).notices.length < 24 → t.Shown b
  frame : t = { s with bays := t.bays, tickets := t.tickets, pools := t.pools, queues := t.queues }

theorem State.changeBay_settled {s t : State} {b : BayNo} {f : Bay → Bay}
    (hs : (s.bay b).shows (f (s.bay b)) = true) (h : (s.changeBay b f).Matched t) : s.Settled t b (f (s.bay b)) := by
  have e := State.changeBay_of_shows s b f hs
  have hbay := State.changeBay_bay s b
  have hfind : ∀ m, (s.changeBay b f).ticket? m = s.ticket? m := State.ticket?_of_tickets (by simp)
  have hframe := State.changeBay_eq s b f
  refine ⟨?_, fun c hc => ?_, fun m y hy => h.ticket m y (by rw [hfind, hy]), fun m hm => h.dead m (by rw [hfind, hm]),
    fun q => ?_, ?_, fun hl => h.shown b ?_, ?_⟩
  · have := h.bay b
    rwa [hbay, if_pos rfl] at this
  · have := h.bay c
    rwa [hbay, if_neg hc] at this
  · rw [h.pool q, State.pool_of_pools (s := s) (by simp) q]
  · rw [e] at h
    refine (State.tellsOnly.raise (s := s.setBay b (f (s.bay b))) (.inr rfl)).congr (s' := s) rfl rfl |>.trans
      (h.tells.mono fun _ n hn => hn.imp id ?_)
    rintro ⟨c, l, -, rfl⟩
    rfl
  · rw [e]
    have hn : ((s.setBay b (f (s.bay b))).raise .s ((s.setBay b (f (s.bay b))).bayNotice b)).bayNotice b =
        (s.setBay b (f (s.bay b))).bayNotice b := rfl
    rw [State.Shown, hn, State.raise_queue, if_pos rfl]
    exact NoticeQueue.mem_take_bayState hl _ _ _
  · rw [h.frame, hframe]

/-- A change of the state shows (R7). -/
theorem Bay.shows_of_state {x y : Bay} (h : y.state ≠ x.state) : x.shows y = true := by
  simp [Bay.shows, h]

namespace State.Settled

variable {s t : State} {b : BayNo} {x : Bay} (h : s.Settled t b x)
include h

theorem bay_of_ne_free (hx : x.state ≠ .free) : t.bay b = x := h.bay.eq_of_ne_free hx

theorem queue (q : PoolNo) : (t.pool q).queue = (s.pool q).queue := by rw [h.pool q]

/-- Notices of other kinds are not told. -/
theorem tells_not {m : Notice} (hm : ¬m.ofSettling) : s.tellsOnly t fun _ n => n ≠ m :=
  h.tells.mono fun _ _ hn e => hm (e ▸ hn)

end State.Settled

end Sys2Proof.Machine
end

