-- ==== Sys2Proof/Proofs/Openings.lean ====
section
/-! SUPPORT. The opening of a session (R93) and the plug-in that leads to it (R14, R33): O12. -/

namespace Sys2Proof.Machine

/-- The records of an opening, ahead of its notices (R93, R94). -/
def State.openedFor (s : State) (b : BayNo) (n : Nat) : State :=
  (s.joinList b (s.openedBay b n)).modTicket n (fun t => t.chargingAt b)

theorem State.openedFor_bay (s : State) (b : BayNo) (n : Nat) (c : BayNo) :
    (s.openedFor b n).bay c = if c = b then s.openedBay b n else s.bay c := s.setBay_bay b c _

theorem State.openedFor_ticket (s : State) (b : BayNo) (n m : Nat) :
    (s.openedFor b n).ticket? m = (s.ticket? m).map (fun t => if m = n then t.chargingAt b else t) :=
  State.modTicket_ticket_find (s.joinList b (s.openedBay b n)) n m (fun t => t.chargingAt b) fun _ => rfl

/-- The notices of an opening, and the setpoint record with which it makes its recompute (R93, R122). -/
def State.openingTold (s : State) (b : BayNo) (k : Ticket) : State :=
  (((s.openedFor b k.number).raise k.origin (.sessionOpened k.number b (nextTag (s.bay b).tagCounter))).raise .s
    (.bayState b .active (s.link b).link none)).setSetpoint b (s.setpoint b).started

/-- The opening of a session for a live ticket (R93). -/
theorem State.openSession_eq {s : State} {b : BayNo} {k : Ticket} (hk : s.ticket? k.number = some k) :
    s.openSession b k.number = (s.openingTold b k).recompute := by
  have hlive : (s.openedFor b k.number).ticket? k.number = some (k.chargingAt b) := by
    rw [State.openedFor_ticket, hk]
    simp
  have hraise := State.raiseTo_of_live hlive (.sessionOpened k.number b (nextTag (s.bay b).tagCounter))
  have hbay : (s.openedFor b k.number).bay b = s.openedBay b k.number := by rw [State.openedFor_bay, if_pos rfl]
  have e : s.openSession b k.number =
      ((((s.openedFor b k.number).raiseTo k.number (.sessionOpened k.number b (nextTag (s.bay b).tagCounter))).raise .s
        (((s.openedFor b k.number).raiseTo k.number
          (.sessionOpened k.number b (nextTag (s.bay b).tagCounter))).bayNotice b)).setSetpoint b
        (((s.openedFor b k.number).raiseTo k.number (.sessionOpened k.number b (nextTag (s.bay b).tagCounter))).setpoint
          b).started).recompute := rfl
  have hn : ((s.openedFor b k.number).raise k.origin
      (.sessionOpened k.number b (nextTag (s.bay b).tagCounter))).bayNotice b =
        .bayState b .active (s.link b).link none := by
    show Notice.bayState b ((s.openedFor b k.number).bay b).state _
      (if ((s.openedFor b k.number).bay b).state = .faulted then _ else none) = _
    rw [hbay]
    rfl
  rw [e, hraise]
  simp only [Ticket.chargingAt]
  rw [hn]
  rfl

/-- The bay record with the session of a ticket that has just opened (R92, R93). -/
def Bay.openedFor (x : Bay) (k : Ticket) (now : Seconds) : Bay :=
  { x with
    tagCounter := nextTag x.tagCounter, state := .active, ticket := some k.number,
    session := some { tag := nextTag x.tagCounter, ticket := k.number,
                      cls := if k.cls = .access then .access else .standard,
                      opened := now, energy := 0, demand := 0, reconnect := none } }

theorem State.openedBay_eq {s : State} {b : BayNo} {k : Ticket} (hk : s.ticket? k.number = some k) :
    s.openedBay b k.number = (s.bay b).openedFor k s.deviceSeconds := by
  have hcls : s.sessionClass k.number = if k.cls = .access then .access else .standard := by
    unfold State.sessionClass
    rw [hk]
    cases h : k.cls <;> simp [h, TicketClass.priority]
  unfold State.openedBay
  rw [hcls]
  rfl

/-- The notices of an opening to a port, ahead of those of its recompute (R93, R104). -/
def State.openingNotices (s : State) (b : BayNo) (k : Ticket) (p : Port) : List Notice :=
  (if p = k.origin then [.sessionOpened k.number b (nextTag (s.bay b).tagCounter)] else []) ++
  (if p = .s then [.bayState b .active (s.link b).link none] else [])

/-- A session has been opened at a bay for a ticket, with the recompute that follows (R92 to R94, R104, R122). -/
structure State.SessionOpened (s t : State) (b : BayNo) (k : Ticket) : Prop where
  bay : t.bay b = (s.bay b).openedFor k s.deviceSeconds
  other : ∀ c, c ≠ b → t.bay c = s.bay c
  admission : t.admission = s.admission ++ [b]
  ticket : t.ticket? k.number = some (k.chargingAt b)
  tickets : ∀ m, m ≠ k.number → t.ticket? m = s.ticket? m
  setpoint : (t.setpoint b).target = 0 ∧ (t.setpoint b).issued = 0 ∧ (t.setpoint b).acked = 0 ∧
    (t.setpoint b).throttled = false
  queue : ∀ p, t.queue p = (s.queue p).takeAll p
    (s.openingNotices b k p ++ t.throttles (fun c => (s.setpoint c).throttled && decide (c ≠ b)) p)
  frame : t = { s with bays := t.bays, admission := t.admission, tickets := t.tickets,
                       ticketCounter := t.ticketCounter, queues := t.queues,
                       power := { s.power with setpoints := t.power.setpoints } }

theorem State.openingTold_setpoint (s : State) (b : BayNo) (k : Ticket) (c : BayNo) :
    (s.openingTold b k).setpoint c = if c = b then (s.setpoint b).started else s.setpoint c :=
  State.setSetpoint_setpoint _ b c _

theorem State.openingTold_queue (s : State) (b : BayNo) (k : Ticket) (p : Port) :
    (s.openingTold b k).queue p = (s.queue p).takeAll p (s.openingNotices b k p) := by
  have e : (s.openingTold b k).queue p = (((s.openedFor b k.number).raise k.origin
    (.sessionOpened k.number b (nextTag (s.bay b).tagCounter))).raise .s
      (.bayState b .active (s.link b).link none)).queue p := rfl
  rw [e, State.raise_queue_takeAll, State.raise_queue_takeAll, State.openingNotices, NoticeQueue.takeAll_append]
  rfl

/-- The opening of a session for a live ticket (R93). -/
theorem State.openSession_opened {s : State} {b : BayNo} {k : Ticket} (hk : s.ticket? k.number = some k) :
    s.SessionOpened (s.openSession b k.number) b k := by
  have e := State.openSession_eq (b := b) hk
  have hset : (s.openSession b k.number).setpoint b = (s.setpoint b).started := by
    have hs := State.openingTold_setpoint s b k b
    rw [if_pos rfl] at hs
    have hbay : (s.openingTold b k).bay b = s.openedBay b k.number :=
      (s.openedFor_bay b k.number b).trans (if_pos rfl)
    rw [e, State.recompute_setpoint_of_idle, hs]
    · simp [hbay, State.openedBay, Bay.cappedDemand]
    · simp [hs, Setpoint.started, Setpoint.issue_spec]
  refine ⟨?_, fun c hc => ?_, ?_, ?_, fun m hm => ?_, ?_, fun p => ?_, ?_⟩
  · rw [State.openSession_bay, if_pos rfl, State.openedBay_eq hk]
  · rw [State.openSession_bay, if_neg hc]
  · simp [State.openSession]
  · rw [e, State.ticket?_of_tickets (s := s.openedFor b k.number) (by simp [State.openingTold]), State.openedFor_ticket,
      hk]
    simp
  · rw [e, State.ticket?_of_tickets (s := s.openedFor b k.number) (by simp [State.openingTold]), State.openedFor_ticket]
    simp [hm]
  · rw [hset]
    simp [Setpoint.started, Setpoint.issue_spec]
  · have hwas : (fun c => ((s.openingTold b k).setpoint c).throttled) =
        fun c => (s.setpoint c).throttled && decide (c ≠ b) := by
      funext c
      rw [State.openingTold_setpoint]
      by_cases h : c = b <;> simp [h, Setpoint.started]
    rw [e, State.recompute_queue, State.openingTold_queue, ← NoticeQueue.takeAll_append, hwas]
  · rw [e, State.recompute_eq]
    rfl

/-! ### Plug-in (R14, R33) -/

/-- The AUTO ticket of a plug-in at an unbound bay stands in the table and at the bay (R33). -/
def State.autoBound (s : State) (b : BayNo) : State :=
  (s.issue (s.autoTicket b)).setBay b { s.bay b with ticket := some (s.autoTicket b).number }

/-- A plug-in at an unbound bay opens the session of a new AUTO ticket, where the table has room (R14, R33). -/
theorem State.plugIn_of_unbound {s : State} {b : BayNo} (h : (s.link b).link ≠ .lost) (hn : (s.bay b).ticket = none)
    (hroom : s.tickets.length < 64) : s.plugIn b = (s.autoBound b).openSession b (s.autoTicket b).number := by
  simp [State.plugIn, State.linkLost, h, hn, State.tableRoom, hroom, State.autoBound]

/-- A plug-in at an unbound bay raises NO_TICKET where the table is full (R33). -/
theorem State.plugIn_of_full {s : State} {b : BayNo} (h : (s.link b).link ≠ .lost) (hn : (s.bay b).ticket = none)
    (hfull : s.tickets.length = 64) : s.plugIn b = s.raise .s (.noTicket b) := by
  simp [State.plugIn, State.linkLost, h, hn, State.tableRoom, hfull]

/-- The session of an AUTO ticket (R33, R93). -/
theorem State.plugIn_opened_auto {s : State} {b : BayNo} (hf : TicketsFit s) (h : (s.link b).link ≠ .lost)
    (hn : (s.bay b).ticket = none) (hroom : s.tickets.length < 64) :
    s.SessionOpened (s.plugIn b) b (s.autoTicket b) := by
  have hfind : ∀ m, (s.autoBound b).ticket? m =
      if m = (s.autoTicket b).number then some (s.autoTicket b) else s.ticket? m :=
    State.issue_ticket_find s (s.autoTicket b) hf.nextTicket.1
  have hbay : ∀ c, (s.autoBound b).bay c = if c = b then { s.bay b with ticket := some s.nextTicket } else s.bay c :=
    fun c => State.setBay_bay _ b c _
  obtain ⟨h1, h2, h3, h4, h5, h6, h7, h8⟩ := State.openSession_opened (s := s.autoBound b) (b := b)
    (k := s.autoTicket b) ((hfind _).trans (if_pos rfl))
  rw [State.plugIn_of_unbound h hn hroom]
  refine ⟨?_, fun c hc => ?_, h3, h4, fun m hm => ?_, h6, fun p => ?_, ?_⟩
  · rw [h1, hbay, if_pos rfl]
    rfl
  · rw [h2 c hc, hbay, if_neg hc]
  · rw [h5 m hm, hfind, if_neg hm]
  · have hnotices : (s.autoBound b).openingNotices b (s.autoTicket b) p = s.openingNotices b (s.autoTicket b) p := by
      unfold State.openingNotices
      rw [hbay, if_pos rfl]
      rfl
    rw [h7, hnotices]
    rfl
  · rw [h8]
    rfl

/-- The session of the ticket that is bound to the bay (R14, R93). -/
theorem State.plugIn_opened_bound {s : State} {b : BayNo} {k : Ticket} (h : (s.link b).link ≠ .lost)
    (hn : (s.bay b).ticket = some k.number) (hk : s.ticket? k.number = some k) :
    s.SessionOpened (s.plugIn b) b k := by
  rw [State.plugIn_of_bound h hn]
  exact State.openSession_opened hk

/-- Settles O12: the four cases of a plug-in, by the link and the ticket of the bay. -/
theorem plugInOpensSession : Obligations.PlugInOpensSession := by
  unfold Obligations.PlugInOpensSession
  intro s b hc _ opened
  have hopened : ∀ {t : State} {k : Ticket}, s.SessionOpened t b k → opened t k := by
    intro t k h
    obtain ⟨hta, his, hac, hth⟩ := h.setpoint
    refine ⟨h.bay, h.other, h.admission, h.ticket, h.tickets, hta, his, hac, hth, fun p => ?_, h.frame⟩
    rw [h.queue, State.queueAfter_eq]
    rfl
  obtain ⟨hfits, -⟩ := hc
  exact ⟨fun hl k hn hk => hopened (State.plugIn_opened_bound hl hn hk),
    fun hl hn hroom => hopened (State.plugIn_opened_auto hfits hl hn hroom),
    fun hl hn hfull => State.plugIn_of_full hl hn hfull, fun hl => State.plugIn_of_lost hl⟩

end Sys2Proof.Machine
end

