-- ==== Sys2Proof/Proofs/Closings.lean ====
section
/-! SUPPORT. The close of a session with the placement of its bay (R16, R102, R122): O13. -/

namespace Sys2Proof.Machine

/-! ### What single operations tell -/

/-- A change of a bay record tells nothing but BAY_STATEs of that bay (R7). -/
theorem State.changeBay_tells (s : State) (b : BayNo) (f : Bay → Bay) :
    s.tellsOnly (s.changeBay b f) fun _ n => n.shownBay = some b := by
  unfold State.changeBay
  dsimp only
  split
  · exact (State.tellsOnly.raise (s := s.setBay b (f (s.bay b))) rfl).congr rfl rfl
  · exact .of_queues rfl _

/-- A notice that is not a BAY_STATE of the bay is not among those of that bay. -/
theorem State.tellsOnly.not_of_bay {s t : State} {b : BayNo} (h : s.tellsOnly t fun _ n => n.shownBay = some b)
    {m : Notice} (hm : m.shownBay = none) : s.tellsOnly t fun _ n => n ≠ m :=
  h.mono fun _ n hn e => by simp [e, hm] at hn

theorem State.recompute_tells_not (s : State) {m : Notice} (hm : ¬m.isThrottle) :
    s.tellsOnly s.recompute fun _ n => n ≠ m :=
  s.recompute_tells.mono fun _ _ hn e => hm (e ▸ hn)

theorem State.recompute_tells_not_bay (s : State) (b : BayNo) :
    s.tellsOnly s.recompute fun _ n => n.shownBay ≠ some b :=
  s.recompute_tells.mono fun _ _ hn => by
    obtain ⟨k, c, on, rfl⟩ := hn
    simp [Notice.shownBay]

/-- A lasting notice that a port gets, or does not get, where there is room (R158). -/
theorem NoticeQueue.count_takeAll_if {p : Port} {q : NoticeQueue} {m : Notice} (hm : m.lasting)
    (hl : q.notices.length < 24) (c : Prop) [Decidable c] :
    (q.takeAll p (if c then [m] else [])).notices.count m = q.notices.count m + if c then 1 else 0 := by
  split
  · exact NoticeQueue.count_take_self hm hl
  · rfl

/-! ### The steps of a close (R102) -/

/-- The notice of a close (R102, R104). -/
def State.closedNotice (s : State) (b : BayNo) (k : Session) (why : CloseReason) : Notice :=
  .sessionClosed k.ticket b why k.energy (s.duration k)

theorem State.closedNotice_lasting (s : State) (b : BayNo) (k : Session) (why : CloseReason) :
    (s.closedNotice b k why).lasting :=
  Notice.lasting_of (fun _ _ _ _ h => by cases h) (fun _ _ h => by cases h)

/-- The steps of a close before the bay is settled (R102, R122). -/
structure State.SessionEnded (s t : State) (b : BayNo) (k : Session) (why : CloseReason) (y : Ticket) : Prop where
  bay : t.bay b = { s.bay b with session := none, ticket := none }
  other : ∀ c, c ≠ b → t.bay c = s.bay c
  ticket : t.ticket? k.ticket = none
  tickets : ∀ m, m ≠ k.ticket → t.ticket? m = s.ticket? m
  setpoint : t.setpoint b = (s.setpoint b).ended
  queue : ∀ p, t.queue p =
    (s.queue p).takeAll p (if p = .s ∨ p = y.origin then [s.closedNotice b k why] else [])
  frame : t = { s with
    bays := t.bays, tickets := t.tickets, admission := s.admission.filter (fun c => c != b), queues := t.queues,
    power := { s.power with setpoints := t.power.setpoints } }

/-- The session of a bay, with the ticket that it serves (R91). -/
theorem AgreeBut.served {s : State} (h : AgreeBut none none s) {b : BayNo} {k : Session}
    (hk : (s.bay b).session = some k) : ((s.bay b).state = .active ∨ (s.bay b).state = .suspended) ∧
      (s.bay b).ticket = some k.ticket ∧ ∃ y, s.ticket? k.ticket = some y ∧ y.bay = some b ∧ y.state = .charging := by
  have hright := h.bay b (by simp)
  have hst := hright.session.mp (by simp [hk])
  have hn := (hright.holder k hk).1
  obtain ⟨y, hy, -, -, hyb, hc, -⟩ := h.claimant hn
  refine ⟨hst, hn, y, hy, hyb, ?_⟩
  rcases hst with e | e <;> rw [e] at hc
  · exact TicketState.of_claims.2.2.2.1 hc
  · exact TicketState.of_claims.2.2.2.2 hc

theorem State.noticeClosed_eq {s : State} {b : BayNo} {k : Session} {y : Ticket} (hy : s.ticket? k.ticket = some y)
    (why : CloseReason) : s.noticeClosed b k why = s.raiseBoth y.origin (s.closedNotice b k why) := by
  unfold State.noticeClosed
  rw [hy]
  rfl

/-- The ticket of a session leaves the table and its bay's field, and stands in no queue (R40). -/
theorem State.freeTicket_of_charging {s : State} {n : Nat} {y : Ticket} {b : BayNo} (hy : s.ticket? n = some y)
    (hb : y.bay = some b) (hst : y.state = .charging) : s.freeTicket n =
      { s.unname b n with tickets := s.tickets.filter (fun u => u.number != n) } := by
  rw [State.freeTicket_of_bay hy hb]
  simp [State.outOfQueue, hst]

theorem State.unname_bay_of_ne (s : State) {b c : BayNo} (h : c ≠ b) (n : Nat) : (s.unname b n).bay c = s.bay c := by
  unfold State.unname
  split
  · exact State.setBay_bay_of_ne s h _
  · rfl

theorem State.unname_bay_self (s : State) (b : BayNo) (n : Nat) : (s.unname b n).bay b =
    { s.bay b with ticket := if (s.bay b).ticket = some n then none else (s.bay b).ticket } := by
  unfold State.unname
  split <;> simp

theorem State.endSession_ended {s : State} {b : BayNo} {k : Session} {y : Ticket} (hy : s.ticket? k.ticket = some y)
    (hb : y.bay = some b) (hst : y.state = .charging) (why : CloseReason) :
    s.SessionEnded (s.endSession b k why) b k why y := by
  have hn := State.noticeClosed_eq (b := b) hy why
  have hd : ∀ c, ((s.noticeClosed b k why).dismiss b).bay c =
      if c = b then { s.bay b with session := none } else s.bay c := by
    intro c
    have hbay : ∀ c, (s.noticeClosed b k why).bay c = s.bay c := State.bay_of_bays (by simp)
    rw [← hbay b, ← hbay c]
    exact State.setBay_bay _ b c _
  have hfree : ((s.noticeClosed b k why).dismiss b).freeTicket k.ticket =
      { ((s.noticeClosed b k why).dismiss b).unname b k.ticket with
        tickets := s.tickets.filter (fun u => u.number != k.ticket) } := by
    have hfind : ((s.noticeClosed b k why).dismiss b).ticket? k.ticket = some y := by
      rw [← hy]
      exact State.ticket?_of_tickets (by simp [State.dismiss]) _
    rw [State.freeTicket_of_charging hfind hb hst]
    simp [State.dismiss]
  have hfreed : ∀ c, (((s.noticeClosed b k why).dismiss b).freeTicket k.ticket).bay c =
      (((s.noticeClosed b k why).dismiss b).unname b k.ticket).bay c := State.bay_of_bays (by rw [hfree])
  have hfind : ∀ m, (s.endSession b k why).ticket? m = if m = k.ticket then none else s.ticket? m := by
    intro m
    rw [show (s.endSession b k why).ticket? m =
      (((s.noticeClosed b k why).dismiss b).freeTicket k.ticket).ticket? m from rfl, State.freeTicket_ticket_find,
      State.ticket?_of_tickets (s := s) (by simp [State.dismiss])]
  have hset : ((((s.noticeClosed b k why).dismiss b).freeTicket k.ticket).setBay b
      { (((s.noticeClosed b k why).dismiss b).freeTicket k.ticket).bay b with ticket := none }).setpoint b =
        s.setpoint b := State.setpoint_of_setpoints (by simp [State.dismiss]) b
  refine ⟨?_, fun c hc => ?_, (hfind _).trans (if_pos rfl), fun m hm => (hfind m).trans (if_neg hm), ?_,
    fun p => ?_, ?_⟩
  · rw [show (s.endSession b k why).bay b = { (((s.noticeClosed b k why).dismiss b).freeTicket k.ticket).bay b with
      ticket := none } from State.setBay_bay_self _ b _, hfreed, State.unname_bay_self, hd, if_pos rfl]
  · rw [show (s.endSession b k why).bay c = (((s.noticeClosed b k why).dismiss b).freeTicket k.ticket).bay c from
      State.setBay_bay_of_ne _ hc _, hfreed, State.unname_bay_of_ne _ hc, hd, if_neg hc]
  · rw [← hset]
    exact State.setSetpoint_setpoint_self _ b _
  · have hq : (s.endSession b k why).queue p = (s.raiseBoth y.origin (s.closedNotice b k why)).queue p := by
      rw [← hn]
      exact State.queue_of_queues (by simp [State.endSession]) p
    rw [hq, State.raiseBoth_queue]
    split <;> rfl
  · have hpools : (s.endSession b k why).pools = s.pools := by
      have e : (s.endSession b k why).pools = (((s.noticeClosed b k why).dismiss b).freeTicket k.ticket).pools := rfl
      rw [e, hfree]
      simp [State.dismiss]
    have hadm : (s.endSession b k why).admission = s.admission.filter (fun c => c != b) := by
      simp [State.endSession]
    have hpow : (s.endSession b k why).power =
        { s.power with setpoints := (s.endSession b k why).power.setpoints } := by
      simp [State.endSession, State.setSetpoint]
    exact State.eq_of_fields (hadm := hadm) (hpoo := hpools) (hpow := hpow)

/-! ### A close with the placement of its bay (R16, R102) -/

/-- A bay record less its session (R102). -/
def Bay.withoutSession (x : Bay) : Bay := { x with session := none }

/-- What the close of a session with the placement of its bay comes to (R16, R102, R122). -/
structure State.ClosedAt (s t : State) (b : BayNo) (k : Session) (why : CloseReason) : Prop where
  bay : ((s.bay b).withoutSession.placed (s.linkLost b)).keptOrOffered (t.bay b)
  others : s.baysKept t b
  ticket : t.ticket? k.ticket = none
  tickets : s.ticketsKept t k.ticket
  admission : t.admission = s.admission.filter (fun c => c != b)
  setpoint : t.setpoint b = (s.setpoint b).ended
  pool : ∀ q, t.pool q = { s.pool q with pointer := (t.pool q).pointer }
  told : ∀ y, s.ticket? k.ticket = some y → ∀ p, (s.queue p).notices.length < 24 →
    (t.queue p).notices.count (s.closedNotice b k why) =
      (s.queue p).notices.count (s.closedNotice b k why) + (if p = .s ∨ p = y.origin then 1 else 0)
  shown : (s.queue .s).notices.length < 23 → t.Shown b
  frame : t = { s with
    bays := t.bays, admission := t.admission, tickets := t.tickets, pools := t.pools, queues := t.queues, power := { s.power with setpoints := t.power.setpoints } }

/-- A placed bay is not FAULTED, and is in no state of a session (R6). -/
theorem Bay.placed_state_ne (x : Bay) (lost : Bool) : (x.placed lost).state ≠ .faulted ∧
    (x.placed lost).state ≠ .active ∧ (x.placed lost).state ≠ .suspended := by
  rcases x.placed_state lost with e | ⟨e, -⟩ | e | e <;> simp [e]

/-- Placement leaves no name (R6). -/
theorem Bay.placed_of_unnamed (x : Bay) (lost : Bool) :
    ({ x with ticket := none } : Bay).placed lost = x.placed lost := by
  unfold Bay.placed
  cases x.presence <;> cases x.blockPending <;> rfl

/-- A bay that has lost its session is placed with one BAY_STATE (R6, R7). -/
theorem State.placeAt_of_used {s : State} {b : BayNo} (hst : (s.bay b).state = .active ∨ (s.bay b).state = .suspended) :
    s.placeAt b = (s.setBay b ((s.bay b).placed (s.linkLost b))).raise .s
      (.bayState b ((s.bay b).placed (s.linkLost b)).state (s.link b).link none) := by
  obtain ⟨hf, ha, hs⟩ := (s.bay b).placed_state_ne (s.linkLost b)
  rw [State.placeAt_eq]
  exact State.changeBay_to (by rcases hst with e | e <;> simp [e, ha, hs]) hf

/-- A bay that has lost its session is placed, with the matching run of a bay that enters FREE (R5, R6). -/
theorem State.placeClosed_settled {s : State} {b : BayNo}
    (hst : (s.bay b).state = .active ∨ (s.bay b).state = .suspended) :
    s.Settled (s.placeClosed b) b ((s.bay b).placed (s.linkLost b)) := by
  obtain ⟨-, ha, hs⟩ := (s.bay b).placed_state_ne (s.linkLost b)
  have hm := State.matched_matchIfFree (s.placeAt b) b
  rw [show (s.placeAt b).matchIfFree b = s.placeClosed b from rfl, State.placeAt_eq] at hm
  exact State.changeBay_settled (Bay.shows_of_state (by rcases hst with e | e <;> simp [e, ha, hs])) hm

theorem State.closePlaced_closed {s : State} {b : BayNo} {k : Session} (h : AgreeBut none none s)
    (hk : (s.bay b).session = some k) (why : CloseReason) : s.ClosedAt (s.closePlaced b why) b k why := by
  obtain ⟨hst, -, y, hy, hyb, hyc⟩ := h.served hk
  have hend := State.endSession_ended hy hyb hyc why
  have hclose : s.closePlaced b why = ((s.endSession b k why).placeClosed b).recompute := by
    simp [State.closePlaced, hk]
  have hplace := State.placeClosed_settled (s := s.endSession b k why) (b := b) (by rw [hend.bay]; exact hst)
  generalize s.endSession b k why = u at hend hclose hplace
  generalize u.placeClosed b = v at hclose hplace
  have hlink : ∀ c, u.link c = s.link c := State.link_of_links (by rw [hend.frame])
  have hrec : (u.bay b).placed (u.linkLost b) = (s.bay b).withoutSession.placed (s.linkLost b) := by
    rw [hend.bay, State.linkLost, hlink]
    exact Bay.placed_of_unnamed (s.bay b).withoutSession _
  rw [hrec] at hplace
  obtain ⟨-, hna, hns⟩ := Bay.placed_state_ne (s.bay b).withoutSession (s.linkLost b)
  rw [hclose]
  have tbay : ∀ c, v.recompute.bay c = v.bay c := State.bay_of_bays (by simp)
  have tfind : ∀ m, v.recompute.ticket? m = v.ticket? m := State.ticket?_of_tickets (by simp)
  have tpool : ∀ q, v.recompute.pool q = v.pool q := State.pool_of_pools (by simp)
  refine ⟨?_, fun c hc => ?_, ?_, fun m hm z hz => ?_, ?_, ?_, fun q => ?_, fun y' hy' p hp => ?_, fun hl => ?_, ?_⟩
  · exact tbay b ▸ hplace.bay
  · rw [tbay, ← hend.other c hc]
    exact hplace.other c hc
  · rw [tfind]
    exact hplace.dead _ hend.ticket
  · rw [tfind]
    exact hplace.ticket m z (by rw [hend.tickets m hm, hz])
  · rw [State.recompute_admission, hplace.frame]
    show u.admission = _
    rw [hend.frame]
  · have hina : (v.bay b).state ≠ .active := by
      rcases hplace.bay with e | ⟨-, n, e⟩ <;> rw [e]
      · exact hna
      · simp
    rw [State.recompute_setpoint_of_inactive hina, ← hend.setpoint]
    exact State.setpoint_of_setpoints (by rw [hplace.frame]) b
  · rw [tpool, hplace.pool q, State.pool_of_pools (s := s) (by rw [hend.frame]) q]
  · obtain rfl := Option.some.inj (hy.symm.trans hy')
    have hlast := s.closedNotice_lasting b k why
    rw [(v.recompute_tells_not (m := s.closedNotice b k why) (by rintro ⟨_, _, _, e⟩; cases e)).count hlast (by simp),
      (hplace.tells_not (m := s.closedNotice b k why) (by rintro (⟨_, _, _, e⟩ | e) <;> cases e)).count hlast (by simp),
      hend.queue, NoticeQueue.count_takeAll_if hlast hp]
  · have hroom : (u.queue .s).lists b ∨ (u.queue .s).notices.length < 24 := by
      rw [hend.queue]
      exact NoticeQueue.room_takeAll_if (.inr hl) _ _ _
    exact (hplace.shown hroom).keep (by rw [tbay]) (fun _ => by rw [tbay])
      (by rw [State.link_of_links (s := v) (by simp)]) (v.recompute_tells_not_bay b)
  · rw [State.recompute_eq, hplace.frame, hend.frame]

/-- The BAY_STATE of a bay that is not FAULTED carries no fault code (R7). -/
theorem State.bayNotice_of_sound {s : State} {b : BayNo} (h : (s.bay b).state ≠ .faulted) :
    s.bayNotice b = .bayState b (s.bay b).state (s.link b).link none := by
  simp [State.bayNotice, h]

theorem State.ClosedAt.state_ne_faulted {s t : State} {b : BayNo} {k : Session} {why : CloseReason}
    (h : s.ClosedAt t b k why) : (t.bay b).state ≠ .faulted := by
  rcases h.bay with e | ⟨-, n, e⟩ <;> rw [e]
  · exact (Bay.placed_state_ne _ _).1
  · simp

/-- Settles O13: the close of the session as it answers. -/
theorem forceCloseEndsSession : Obligations.ForceCloseEndsSession := by
  unfold Obligations.ForceCloseEndsSession
  intro s x b k hc hs hr hx hk
  have h := (agreeBut_none_iff s).mpr hc
  obtain ⟨hst, -⟩ := h.served hk
  have hown : ownForceClose .s [x] s =
      (s.closePlaced b .forced, .ok (u16 k.ticket ++ u32 k.energy ++ u32 (s.duration k).toNat)) := by
    rcases hst with e | e <;> simp [ownForceClose, hx, hr, hk, e]
  obtain ⟨t, he, hport, -, hframe⟩ := (forceClose_isRequest x).answered hs
    (State.portRefusal_none rfl (.inl rfl) (by simp [infoForceClose])) rfl hown rfl (by simp)
  have hclosed := State.closePlaced_closed h hk .forced
  generalize s.closePlaced b .forced = u at hframe hclosed
  have tbay : ∀ c, t.bay c = u.bay c := State.bay_of_bays (by rw [hframe])
  have tfind : ∀ m, t.ticket? m = u.ticket? m := State.ticket?_of_tickets (by rw [hframe])
  have tpool : ∀ q, t.pool q = u.pool q := State.pool_of_pools (by rw [hframe])
  have tset : t.setpoint b = (s.setpoint b).ended := by
    rw [State.setpoint_of_setpoints (s := u) (by rw [hframe]), hclosed.setpoint]
  have tqueue : ∀ p, t.queue p = u.queue p := State.queue_of_queues (by rw [hframe])
  refine ⟨t, he, hport, ?_, fun c hc => ?_, ?_, fun m hm z hz => ?_, ?_, ?_, ?_, ?_, ?_, fun q => ?_,
    ?_, fun hl => ?_, ?_⟩
  · exact tbay b ▸ hclosed.bay
  · exact tbay c ▸ hclosed.others c hc
  · rw [tfind, hclosed.ticket]
  · rw [tfind]
    exact hclosed.tickets m hm z hz
  · rw [hframe, ← hclosed.admission]
  · rw [tset]
    rfl
  · rw [tset]
    simp [Setpoint.ended, Setpoint.issue_spec]
  · rw [tset]
    simp [Setpoint.ended, Setpoint.issue_spec]
  · rw [tset]
    rfl
  · rw [tpool]
    exact hclosed.pool q
  · intro y hy closed p hp
    rw [tqueue]
    exact hclosed.told y hy p hp
  · rw [tqueue, tbay, ← State.link_of_links (t := u) (s := s) (by rw [hclosed.frame]),
      ← State.bayNotice_of_sound hclosed.state_ne_faulted]
    exact hclosed.shown hl
  · rw [hframe, hclosed.frame]

end Sys2Proof.Machine
end

