-- ==== Sys2Proof/Proofs/Releases.lean ====
section
/-! SUPPORT. A bay that gives up the ticket it is offered to or held for: the withdrawal of the offer (R61) or the requeue of
the ticket (R64), the settlement of the bay and the matching run that follows: O9. -/

namespace Sys2Proof.Machine

/-! ### The ticket is taken from the bay -/

/-- A ticket is taken from a bay with a notice to its origin; the queue of its pool may change (R61, R64). -/
structure State.Unclaimed (s t : State) (b : BayNo) (k y : Ticket) (note : Notice) (queue : List Nat) : Prop where
  bay : t.bay b = { s.bay b with ticket := none }
  other : ∀ c, c ≠ b → t.bay c = s.bay c
  ticket : t.ticket? k.number = some y
  tickets : ∀ m, m ≠ k.number → t.ticket? m = s.ticket? m
  pool : ∀ q, t.pool q = { s.pool q with queue := if q = k.pool then queue else (s.pool q).queue }
  queue : ∀ p, t.queue p = (s.queue p).takeAll p (if p = k.origin then [note] else [])
  frame : t = { s with bays := t.bays, tickets := t.tickets, pools := t.pools, queues := t.queues }

/-- The withdrawal of an offer (R61). -/
theorem State.withdraw_unclaimed {s : State} {b : BayNo} {k : Ticket} (hn : (s.bay b).ticket = some k.number)
    (hk : s.ticket? k.number = some k) (w : WithdrawReason) :
    s.Unclaimed (s.withdraw b w) b k k.withdrawn (.offerWithdrawn k.number b w) (s.pool k.pool).queue := by
  have hfind : ∀ m, ((s.modTicket k.number Ticket.withdrawn).setBay b { s.bay b with ticket := none }).ticket? m =
      (s.ticket? m).map (fun t => if m = k.number then t.withdrawn else t) :=
    fun m => State.modTicket_ticket_find s k.number m Ticket.withdrawn fun _ => rfl
  have hlive : ((s.modTicket k.number Ticket.withdrawn).setBay b { s.bay b with ticket := none }).ticket? k.number =
      some k.withdrawn := by
    rw [hfind, hk]
    simp
  have hbay : ∀ c, ((s.modTicket k.number Ticket.withdrawn).setBay b { s.bay b with ticket := none }).bay c =
      if c = b then { s.bay b with ticket := none } else s.bay c := fun c => State.setBay_bay _ b c _
  rw [State.withdraw_eq hn, State.raiseTo_of_live hlive]
  refine ⟨(hbay b).trans (if_pos rfl), fun c hc => (hbay c).trans (if_neg hc), hlive, fun m hm => ?_, fun q => ?_,
    fun p => ?_, rfl⟩
  · refine (hfind m).trans ?_
    simp [hm]
  · show s.pool q = _
    split
    · subst q
      rfl
    · rfl
  · rw [State.raise_queue_takeAll]
    rfl

/-- The entry of a held ticket is WAITING again and its bay unnamed, ahead of the queue (R64). -/
def State.takenBack (s : State) (b : BayNo) (k : Ticket) : State :=
  (s.modTicket k.number fun u => u.requeued k.requeuedClass).setBay b { s.bay b with ticket := none }

theorem State.takenBack_bay (s : State) (b : BayNo) (k : Ticket) (c : BayNo) :
    (s.takenBack b k).bay c = if c = b then { s.bay b with ticket := none } else s.bay c := State.setBay_bay _ b c _

theorem State.takenBack_ticket (s : State) (b : BayNo) (k : Ticket) (m : Nat) : (s.takenBack b k).ticket? m =
    (s.ticket? m).map (fun t => if m = k.number then t.requeued k.requeuedClass else t) :=
  State.modTicket_ticket_find s k.number m (fun u => u.requeued k.requeuedClass) fun _ => rfl

theorem State.requeuedState_eq {s : State} {b : BayNo} {k : Ticket} (hn : (s.bay b).ticket = some k.number) :
    s.requeuedState k b = (s.takenBack b k).joinQueue k.pool k.number := by
  have hr : (s.modTicket k.number fun u => u.requeued k.requeuedClass).unname b k.number = s.takenBack b k := by
    unfold State.unname
    exact if_pos hn
  rw [State.requeuedState, hr]

/-- A held ticket that is requeued stands behind its class and the classes ahead (R46, R47, R64). -/
theorem AgreeBut.takenBack_joins {s : State} (h : AgreeBut none none s) (b : BayNo) {k : Ticket}
    (hk : s.ticket? k.number = some k) (hst : k.state = .held) :
    ∃ front back, (s.pool k.pool).queue = front ++ back ∧ k.number ∉ front ∧
      (∀ m ∈ front, s.rankOf m ≤ k.requeuedClass.rank) ∧ (∀ m ∈ back, k.requeuedClass.rank < s.rankOf m) ∧
      joinAt (s.takenBack b k).rankOf k.number ((s.takenBack b k).rankOf k.number) (s.pool k.pool).queue =
        front ++ k.number :: back := by
  have hnot := h.not_mem_queue (State.mem_of_ticket? hk) (by simp [hst]) k.pool
  have hrank : (s.takenBack b k).rankOf k.number = k.requeuedClass.rank := by
    rw [State.rankOf, State.takenBack_ticket, hk]
    simp [Ticket.requeued]
  have hothers : ∀ m ∈ (s.pool k.pool).queue, (s.takenBack b k).rankOf m = s.rankOf m := by
    intro m hm
    have hne : m ≠ k.number := fun e => hnot (e ▸ hm)
    simp [State.rankOf, State.takenBack_ticket, hne]
  obtain ⟨-, -, hsorted, -⟩ := h.queue k.pool
  obtain ⟨front, back, hsplit, hjoin, hfront, hback⟩ := joinAt_sorted_split (s.takenBack b k).rankOf k.number
    ((s.takenBack b k).rankOf k.number) (s.pool k.pool).queue
    (hsorted.imp_of_mem fun ha hb hab => by rw [hothers _ ha, hothers _ hb]; exact hab)
  refine ⟨front, back, hsplit, fun hm => hnot (hsplit ▸ List.mem_append_left _ hm), fun m hm => ?_, fun m hm => ?_, hjoin⟩
  · rw [← hothers m (hsplit ▸ List.mem_append_left _ hm), ← hrank]
    exact hfront m hm
  · rw [← hothers m (hsplit ▸ List.mem_append_right _ hm), ← hrank]
    exact hback m hm

/-- The requeue of a held ticket (R64). -/
theorem AgreeBut.requeue_unclaimed {s : State} (h : AgreeBut none none s) {b : BayNo} {k : Ticket}
    (hn : (s.bay b).ticket = some k.number) (hk : s.ticket? k.number = some k) (hst : k.state = .held) :
    ∃ front back, (s.pool k.pool).queue = front ++ back ∧ k.number ∉ front ∧
      (∀ m ∈ front, s.rankOf m ≤ k.requeuedClass.rank) ∧ (∀ m ∈ back, k.requeuedClass.rank < s.rankOf m) ∧
      s.Unclaimed (s.requeue k.number b) b k (k.requeued k.requeuedClass)
        (.requeued k.number k.pool (front.length + 1)) (front ++ k.number :: back) := by
  obtain ⟨front, back, hsplit, hnf, hfront, hback, hjoin⟩ := h.takenBack_joins b hk hst
  have hjoined : ∀ q, ((s.takenBack b k).joinQueue k.pool k.number).pool q =
      { s.pool q with queue := if q = k.pool then front ++ k.number :: back else (s.pool q).queue } := by
    intro q
    have hp : ∀ q, (s.takenBack b k).pool q = s.pool q := fun _ => rfl
    simp only [State.joinQueue, State.setPool_pool, hp, hjoin]
    split
    · subst q
      rfl
    · rfl
  have hpos : (s.requeuedState k b).position k.pool k.number = front.length + 1 := by
    rw [State.position, State.requeuedState_eq hn, hjoined, if_pos rfl, List.idxOf_append_of_notMem hnf]
    simp
  refine ⟨front, back, hsplit, hnf, hfront, hback, ?_⟩
  rw [State.requeue_eq hk, hpos, State.requeuedState_eq hn]
  refine ⟨(s.takenBack_bay b k b).trans (if_pos rfl), fun c hc => (s.takenBack_bay b k c).trans (if_neg hc), ?_,
    fun m hm => ?_, hjoined, fun p => ?_, rfl⟩
  · refine (s.takenBack_ticket b k k.number).trans ?_
    rw [hk]
    simp
  · refine (s.takenBack_ticket b k m).trans ?_
    simp [hm]
  · rw [State.raise_queue_takeAll]
    rfl

/-! ### The bay is settled -/

/-- A ticket is taken from a bay, which becomes x, and matching follows. -/
structure State.Released (s t : State) (b : BayNo) (k y : Ticket) (note : Notice) (queue : List Nat) (x : Bay) :
    Prop where
  bay : t.bay b = x
  others : s.baysKept t b
  ticket : ∃ z, t.ticket? k.number = some z ∧ y.keptOrOffered z
  tickets : s.ticketsKept t k.number
  pool : ∀ q, t.pool q = { s.pool q with
    pointer := (t.pool q).pointer, queue := if q = k.pool then queue else (s.pool q).queue }
  isPrefix : k.origin ≠ .s → (s.queue k.origin).notices.length < 24 →
    (s.queue k.origin).notices ++ [note] <+: (t.queue k.origin).notices
  count : (s.queue k.origin).notices.length < 24 →
    (t.queue k.origin).notices.count note = (s.queue k.origin).notices.count note + 1
  shown : (s.queue .s).lists b ∨ (s.queue .s).notices.length < 23 → t.Shown b
  frame : t = { s with bays := t.bays, tickets := t.tickets, pools := t.pools, queues := t.queues }

theorem State.Unclaimed.released {s u t : State} {b : BayNo} {k y : Ticket} {note : Notice} {queue : List Nat} {x : Bay}
    (hu : s.Unclaimed u b k y note queue) (ht : u.Settled t b x) (hx : x.state ≠ .free) (hlast : note.lasting)
    (hnote : ¬note.ofSettling) : s.Released t b k y note queue x := by
  have hqueue : u.queue k.origin = (s.queue k.origin).take k.origin note := by rw [hu.queue, if_pos rfl]; rfl
  refine ⟨ht.bay_of_ne_free hx, fun c hc => ?_, ht.ticket _ _ hu.ticket, fun m hm z hz => ?_, fun q => ?_,
    fun hs hl => ?_, fun hl => ?_, fun hl => ht.shown ?_, by rw [ht.frame, hu.frame]⟩
  · rw [← hu.other c hc]
    exact ht.other c hc
  · exact ht.ticket m z (by rw [hu.tickets m hm, hz])
  · rw [ht.pool q, hu.pool q]
  · have hp := ht.tells.isPrefix hs
    rw [hqueue, NoticeQueue.take_notices_of_new (fun e => absurd e hs), if_pos hl] at hp
    exact hp
  · rw [(ht.tells_not hnote).count hlast (by simp), hqueue, NoticeQueue.count_take_self hlast hl]
  · rw [hu.queue]
    exact NoticeQueue.room_takeAll_if hl _ _ _

theorem Notice.offerWithdrawn_plain (n : Nat) (b : BayNo) (w : WithdrawReason) :
    (Notice.offerWithdrawn n b w).lasting ∧ ¬(Notice.offerWithdrawn n b w).ofSettling := by
  refine ⟨Notice.lasting_of (fun _ _ _ _ h => by cases h) (fun _ _ h => by cases h), ?_⟩
  rintro (⟨_, _, _, e⟩ | e) <;> cases e

theorem Notice.requeued_plain (n : Nat) (q : PoolNo) (i : Nat) :
    (Notice.requeued n q i).lasting ∧ ¬(Notice.requeued n q i).ofSettling := by
  refine ⟨Notice.lasting_of (fun _ _ _ _ h => by cases h) (fun _ _ h => by cases h), ?_⟩
  rintro (⟨_, _, _, e⟩ | e) <;> cases e

/-- The offer of a bay is withdrawn, and the bay's state changes, not to FREE (R21, R23, R63). -/
theorem State.withdraw_released {s t : State} {b : BayNo} {k : Ticket} (hn : (s.bay b).ticket = some k.number)
    (hk : s.ticket? k.number = some k) (hst : (s.bay b).state = .offered) {w : WithdrawReason} {f : Bay → Bay}
    (hf : ∀ x, (f x).state ≠ .free ∧ (f x).state ≠ .offered)
    (hm : ((s.withdraw b w).changeBay b f).Matched t) :
    s.Released t b k k.withdrawn (.offerWithdrawn k.number b w) (s.pool k.pool).queue
      (f { s.bay b with ticket := none }) := by
  have hu := State.withdraw_unclaimed hn hk w
  have hset := State.changeBay_settled (Bay.shows_of_state (by rw [hu.bay]; simp [hst, (hf _).2])) hm
  rw [hu.bay] at hset
  obtain ⟨hlast, hnot⟩ := Notice.offerWithdrawn_plain k.number b w
  exact hu.released hset (hf _).1 hlast hnot

/-- The ticket that a bay is held for is requeued, and the bay's state changes, not to FREE (R21, R23). -/
theorem AgreeBut.requeue_released {s t : State} (h : AgreeBut none none s) {b : BayNo} {k : Ticket}
    (hn : (s.bay b).ticket = some k.number) (hk : s.ticket? k.number = some k) (hst : (s.bay b).state = .held)
    {f : Bay → Bay} (hf : ∀ x, (f x).state ≠ .free ∧ (f x).state ≠ .held)
    (hm : ((s.requeue k.number b).changeBay b f).Matched t) :
    ∃ front back, (s.pool k.pool).queue = front ++ back ∧ k.number ∉ front ∧
      (∀ m ∈ front, s.rankOf m ≤ k.requeuedClass.rank) ∧ (∀ m ∈ back, k.requeuedClass.rank < s.rankOf m) ∧
      s.Released t b k (k.requeued k.requeuedClass) (.requeued k.number k.pool (front.length + 1))
        (front ++ k.number :: back) (f { s.bay b with ticket := none }) := by
  have hkst : k.state = .held := by
    obtain ⟨k', hk', -, -, -, hc, -⟩ := h.claimant hn
    obtain rfl := Option.some.inj (hk.symm.trans hk')
    exact TicketState.of_claims.2.1 (hst ▸ hc)
  obtain ⟨front, back, hsplit, hnf, hfront, hback, hu⟩ := h.requeue_unclaimed hn hk hkst
  have hset := State.changeBay_settled (Bay.shows_of_state (by rw [hu.bay]; simp [hst, (hf _).2])) hm
  rw [hu.bay] at hset
  obtain ⟨hlast, hnot⟩ := Notice.requeued_plain k.number k.pool (front.length + 1)
  exact ⟨front, back, hsplit, hnf, hfront, hback, hu.released hset (hf _).1 hlast hnot⟩

/-! ### BLOCK BAY at a claimed bay (R21) -/

theorem State.claimPool_of_live {s : State} {b : BayNo} {k : Ticket} (hn : (s.bay b).ticket = some k.number)
    (hk : s.ticket? k.number = some k) : s.claimPool b = some k.pool := by
  simp [State.claimPool, hn, hk]

theorem State.requeueRoom_of_live {s : State} {b : BayNo} {k : Ticket} (hn : (s.bay b).ticket = some k.number)
    (hk : s.ticket? k.number = some k) : s.requeueRoom b = decide ((s.pool k.pool).queue.length < 12) := by
  simp [State.requeueRoom, State.claimPool_of_live hn hk, State.queueRoom]

/-- A release survives the answer of a port and the LISTEN sweep that it makes due. -/
theorem State.Released.answered {s u t : State} {b : BayNo} {k y : Ticket} {note : Notice} {queue : List Nat} {x : Bay}
    (h : s.Released u b k y note queue x) (ht : t = { u with ports := t.ports, bus := t.bus }) :
    t.bay b = x ∧ s.baysKept t b ∧ (∃ z, t.ticket? k.number = some z ∧ y.keptOrOffered z) ∧
      s.ticketsKept t k.number ∧
      (∀ q, t.pool q = { s.pool q with
        pointer := (t.pool q).pointer, queue := if q = k.pool then queue else (s.pool q).queue }) ∧
      t = { s with bays := t.bays, tickets := t.tickets, pools := t.pools, queues := t.queues,
                   ports := t.ports, bus := t.bus } ∧
      ∀ p, t.queue p = u.queue p := by
  have tbay : ∀ c, t.bay c = u.bay c := State.bay_of_bays (by rw [ht])
  have tfind : ∀ m, t.ticket? m = u.ticket? m := State.ticket?_of_tickets (by rw [ht])
  have tpool : ∀ q, t.pool q = u.pool q := State.pool_of_pools (by rw [ht])
  refine ⟨(tbay b).trans h.bay, fun c hc => tbay c ▸ h.others c hc, ?_, fun m hm z hz => ?_, fun q => ?_, ?_,
    State.queue_of_queues (by rw [ht])⟩
  · rw [tfind]
    exact h.ticket
  · rw [tfind]
    exact h.tickets m hm z hz
  · rw [tpool]
    exact h.pool q
  · rw [ht, h.frame]

/-- Settles O9: the withdrawal, the requeue, and the refusal where the queue is full. -/
theorem blockClaimedBay : Obligations.BlockClaimedBay := by
  unfold Obligations.BlockClaimedBay
  intro s x b k hc hs hr hx hp hn hk after
  have h := (agreeBut_none_iff s).mpr hc
  refine ⟨fun hst => ?_, fun hst hroom => ?_, fun hst hfull => ?_⟩
  · have hrel := State.withdraw_released hn hk hst (w := .block) (fun _ => by simp)
      (((s.withdraw b .block).enterBlocked b).matched_matchIn (s.claimPool b))
    obtain ⟨t, he, ha, -, ht⟩ := blockBay_done hs (x := x)
      (u := ((s.withdraw b .block).enterBlocked b).matchIn (s.claimPool b))
      (by simp [ownBlockBay, hx, hr, hst, hp, State.blockBay]) (by simp [State.enterBlocked])
    obtain ⟨h1, h2, h3, h4, h5, h6, hq⟩ := hrel.answered ht
    exact ⟨t, ⟨he, ha, h1, h2, h3, h4, h5, h6⟩, hq k.origin ▸ hrel.isPrefix⟩
  · obtain ⟨front, back, hsplit, -, hfront, hback, hrel⟩ := h.requeue_released hn hk hst
      (fun _ => by simp)
      (((s.requeue k.number b).enterBlocked b).matched_matchIn (s.claimPool b))
    obtain ⟨t, he, ha, -, ht⟩ := blockBay_done hs (x := x)
      (u := ((s.requeue k.number b).enterBlocked b).matchIn (s.claimPool b))
      (by simp [ownBlockBay, hx, hr, hst, hp, State.blockBay, hn, State.requeueRoom_of_live hn hk, hroom])
      (by simp [State.enterBlocked])
    obtain ⟨h1, h2, h3, h4, h5, h6, hq⟩ := hrel.answered ht
    exact ⟨t, front, back, hsplit, hfront, hback, ⟨he, ha, h1, h2, h3, h4, h5, h6⟩, hq k.origin ▸ hrel.isPrefix⟩
  · exact blockBay_refused hs
      (by simp [ownBlockBay, hx, hr, hst, hp, State.blockBay, hn, State.requeueRoom_of_live hn hk, hfull])

end Sys2Proof.Machine
end

