-- ==== Sys2Proof/Proofs/SlotExchanges.lean ====
section
/-! SUPPORT. The outcomes of a slot exchange (R126), the link record that they write (R130 to R133), and the frame that the
controller sends next (R125). -/

namespace Sys2Proof.Machine

/-! ### The next frame (R125) -/

/-- The next frame writes the head bus alone. -/
theorem State.afterSlot_eq (s : State) (b : BayNo) : s.afterSlot b = { s with bus := (s.afterSlot b).bus } :=
  State.eq_of_fields

theorem State.enterSlot_link (s : State) (b d : BayNo) : (s.enterSlot b).link d =
    if d = b then { s.link b with lastLamp := s.lamp b } else s.link d :=
  State.setLink_link s b d _

/-- The next frame writes last lamps alone in the link records, and not that of the bay whose exchange has ended. -/
theorem State.afterSlot_link (s : State) (b d : BayNo) :
    (s.afterSlot b).link d = { s.link d with lastLamp := ((s.afterSlot b).link d).lastLamp } ∧
      (s.afterSlot b).link b = s.link b := by
  unfold State.afterSlot State.enterNext
  split
  · rename_i c hc
    have hlt : b < c := by simpa [allBays] using List.mem_of_find?_eq_some hc
    constructor
    · rw [State.enterSlot_link]
      split
      · subst d
        rfl
      · rfl
    · rw [State.enterSlot_link, if_neg (ne_of_lt hlt)]
  · exact ⟨rfl, rfl⟩

/-! ### The rows (R126) -/

section Rows

variable {s : State} {b : BayNo} (hw : s.bus.sweep = .slot b)
include hw

theorem exec_silent {c : Instr} (hc : c = .silence ∨ ∃ x, parseReply x = .corrupt ∧ c = .corrupt x) :
    exec c s = .next ((s.takeSilence b).afterSlot b) := by
  have hslot : ∀ o : State → BayNo → State, s.inSlot o = (o s b).afterSlot b := fun o => by
    simp [State.inSlot, hw]
  rcases hc with rfl | ⟨x, hx, rfl⟩
  · show Host.Outcome.next (s.inSlot State.takeSilence) = _
    rw [hslot]
  · show Host.Outcome.next (s.inSlot (fun y c => y.takeReplyBytes c x)) = _
    rw [hslot]
    simp [State.takeReplyBytes, hx]

theorem exec_busy : exec .busy s = .next ((s.takeBusy b).afterSlot b) := by
  show Host.Outcome.next (s.inSlot State.takeBusy) = _
  simp [State.inSlot, hw]

theorem exec_report {r : Report} (hr : reportDefined r = true) :
    exec (.report r) s = .next (((s.linkOnline b).takeReport b r).afterSlot b) := by
  show Host.Outcome.next (s.inSlot (fun x b => x.takeReportReply b r)) = _
  simp [State.inSlot, hw, State.takeReportReply, hr, State.takeReply]

end Rows

/-! ### A written link record (R133) -/

/-- The fault code that a BAY_STATE of the bay carries (R7). -/
theorem State.changeLink_told {s : State} {b : BayNo} {x : LinkRecord} (hx : x.link ≠ (s.link b).link)
    (he : (s.bay b).enrolled = true) (hr : s.opState = .run) : s.changeLink b x =
      (s.setLink b x).raise .s (.bayState b (s.bay b).state x.link
        (if (s.bay b).state = .faulted then (s.bay b).fault else none)) := by
  have hn : (s.setLink b x).bayNotice b = .bayState b (s.bay b).state x.link
      (if (s.bay b).state = .faulted then (s.bay b).fault else none) := by
    unfold State.bayNotice
    rw [State.setLink_link_self]
    rfl
  unfold State.changeLink
  rw [← hn]
  exact if_pos ⟨hx, he, hr⟩

theorem State.changeLink_quiet {s : State} {b : BayNo} {x : LinkRecord}
    (h : ¬(x.link ≠ (s.link b).link ∧ (s.bay b).enrolled = true ∧ s.opState = .run)) :
    s.changeLink b x = s.setLink b x := by
  unfold State.changeLink
  exact if_neg h

/-- A written link record writes the link records and the notice queues, and nothing else. -/
theorem State.changeLink_eq (s : State) (b : BayNo) (x : LinkRecord) : s.changeLink b x = { s with
    queues := (s.changeLink b x).queues, bus := { s.bus with links := s.bus.links.set b x } } := by
  unfold State.changeLink
  dsimp only
  split <;> rfl

theorem State.changeLink_link (s : State) (b c : BayNo) (x : LinkRecord) :
    (s.changeLink b x).link c = if c = b then x else s.link c := by
  rw [← State.setLink_link]
  exact State.link_of_links (by rw [State.changeLink_eq]; rfl) c

theorem State.changeLink_bay (s : State) (b c : BayNo) (x : LinkRecord) : (s.changeLink b x).bay c = s.bay c :=
  State.bay_of_bays (by rw [State.changeLink_eq]) c

theorem State.changeLink_ticket (s : State) (b : BayNo) (x : LinkRecord) (n : Nat) :
    (s.changeLink b x).ticket? n = s.ticket? n := State.ticket?_of_tickets (by rw [State.changeLink_eq]) n

theorem State.changeLink_pool (s : State) (b : BayNo) (x : LinkRecord) (q : PoolNo) :
    (s.changeLink b x).pool q = s.pool q := State.pool_of_pools (by rw [State.changeLink_eq]) q

theorem State.changeLink_setpoint (s : State) (b c : BayNo) (x : LinkRecord) :
    (s.changeLink b x).setpoint c = s.setpoint c := State.setpoint_of_setpoints (by rw [State.changeLink_eq]) c

/-- A written link record tells S nothing but a BAY_STATE of its bay (R133). -/
theorem State.changeLink_queue (s : State) (b : BayNo) (x : LinkRecord) : ∃ l : List Notice,
    (∀ n ∈ l, ∃ st k f, n = .bayState b st k f) ∧ l.length ≤ 1 ∧
    ∀ p, (s.changeLink b x).queue p = (s.queue p).takeAll p (if p = .s then l else []) := by
  by_cases h : x.link ≠ (s.link b).link ∧ (s.bay b).enrolled = true ∧ s.opState = .run
  · obtain ⟨hx, he, hr⟩ := h
    refine ⟨[.bayState b (s.bay b).state x.link (if (s.bay b).state = .faulted then (s.bay b).fault else none)],
      by simp, by simp, fun p => ?_⟩
    rw [State.changeLink_told hx he hr, State.raise_queue_takeAll]
    rfl
  · refine ⟨[], by simp, by simp, fun p => ?_⟩
    rw [State.changeLink_quiet h]
    split <;> rfl

theorem State.changeLink_tells (s : State) (b : BayNo) (x : LinkRecord) :
    s.tellsOnly (s.changeLink b x) fun _ n => n.shownBay = some b := by
  obtain ⟨l, hl, -, hq⟩ := s.changeLink_queue b x
  refine fun p => ⟨_, hq p, fun n hn => ?_⟩
  split at hn
  · obtain ⟨st, k, f, rfl⟩ := hl n hn
    rfl
  · cases hn

theorem State.changeLink_queue_of_ne (s : State) (b : BayNo) (x : LinkRecord) {p : Port} (hp : p ≠ .s) :
    (s.changeLink b x).queue p = s.queue p := by
  obtain ⟨l, -, -, hq⟩ := s.changeLink_queue b x
  rw [hq, if_neg hp, NoticeQueue.takeAll_nil]

/-- A written link record adds nothing to the load of a queue (R159). -/
theorem State.changeLink_load (s : State) (b : BayNo) (x : LinkRecord) (p : Port) :
    ((s.changeLink b x).queue p).load b ≤ (s.queue p).load b := by
  by_cases hp : p = .s
  · subst hp
    obtain ⟨l, hl, hlen, hq⟩ := s.changeLink_queue b x
    rw [hq, if_pos rfl]
    match l, hl, hlen with
    | [], _, _ => exact le_rfl
    | [n], hl, _ =>
      obtain ⟨st, k, f, rfl⟩ := hl n (List.mem_singleton_self n)
      exact NoticeQueue.load_take_bayState _ _ _ _ _
  · rw [State.changeLink_queue_of_ne s b x hp]

/-- Where the link of an enrolled bay changes in RUN and there is room, the bay is shown (R133). -/
theorem State.changeLink_shown {s : State} {b : BayNo} {x : LinkRecord} (hx : x.link ≠ (s.link b).link)
    (he : (s.bay b).enrolled = true) (hr : s.opState = .run)
    (hroom : (s.queue .s).lists b ∨ (s.queue .s).notices.length < 24) : (s.changeLink b x).Shown b := by
  have hn : (s.changeLink b x).bayNotice b = .bayState b (s.bay b).state x.link
      (if (s.bay b).state = .faulted then (s.bay b).fault else none) := by
    unfold State.bayNotice
    rw [State.changeLink_bay, State.changeLink_link, if_pos rfl]
  rw [State.Shown, hn, State.changeLink_told hx he hr, State.raise_queue, if_pos rfl]
  exact NoticeQueue.mem_take_bayState hroom _ _ _

/-- Room for a BAY_STATE of the bay and one notice more is there still, when the link record has been written. -/
theorem State.changeLink_room {s : State} (b : BayNo) (x : LinkRecord)
    (h : (s.queue .s).lists b ∨ (s.queue .s).notices.length < 23) :
    ((s.changeLink b x).queue .s).lists b ∨ ((s.changeLink b x).queue .s).notices.length < 23 := by
  obtain ⟨l, hl, hlen, hq⟩ := s.changeLink_queue b x
  rw [hq, if_pos rfl]
  match l, hl, hlen with
  | [], _, _ => exact h
  | [n], hl, _ =>
    obtain ⟨st, k, f, rfl⟩ := hl n (List.mem_singleton_self n)
    exact .inl (NoticeQueue.lists_of_mem (NoticeQueue.mem_take_bayState (h.imp id fun h => by omega) st k f))

end Sys2Proof.Machine
end

