-- ==== Sys2Proof/Proofs/ShownBays.lean ====
section
/-! SUPPORT. No step of a REPORT leaves a bay that the S queue shows with another state or fault code than the queue shows
(R7, R19, R159). -/

namespace Sys2Proof.Machine

namespace State.Shown

variable {s : State} {b : BayNo} (h : s.Shown b)
include h

/-- An operation that leaves the bay and the bus, and tells nothing of the bay. -/
theorem still {t : State} (hb : t.bays = s.bays) (hl : t.bus = s.bus)
    (ht : s.tellsOnly t fun _ n => n.shownBay ≠ some b) : t.Shown b :=
  h.keep (by rw [State.bay_of_bays hb]) (fun _ => by rw [State.bay_of_bays hb])
    (by rw [State.link_of_links (s := s) (by rw [hl])]) ht

/-- An operation that leaves the bays, the bus and the notice queues. -/
theorem silent {t : State} (hb : t.bays = s.bays := by simp) (hl : t.bus = s.bus := by simp)
    (hq : t.queues = s.queues := by simp) : t.Shown b := h.still hb hl (.of_queues hq _)

theorem setSetpoint (c : BayNo) (x : Setpoint) : (s.setSetpoint c x).Shown b := h.silent

theorem joinQueue (q : PoolNo) (n : Nat) : (s.joinQueue q n).Shown b := h.silent

theorem raise (p : Port) {n : Notice} (hn : n.shownBay ≠ some b) : (s.raise p n).Shown b :=
  h.still rfl rfl (.raise hn s)

theorem raiseBoth (p : Port) {n : Notice} (hn : n.shownBay ≠ some b) : (s.raiseBoth p n).Shown b := by
  unfold State.raiseBoth
  split
  · exact h.raise _ hn
  · exact State.Shown.raise (h.raise _ hn) _ hn

theorem raiseTo (k : Nat) {n : Notice} (hn : n.shownBay ≠ some b) : (s.raiseTo k n).Shown b := by
  unfold State.raiseTo
  split
  · exact h.raise _ hn
  · exact h

/-- A write of a bay record that leaves the bay's state and fault code. -/
theorem setBay (c : BayNo) {x : Bay} (hst : x.state = (s.bay c).state) (hf : x.fault = (s.bay c).fault) :
    (s.setBay c x).Shown b := by
  by_cases e : b = c
  · subst e
    exact h.keep (by rw [State.setBay_bay_self]; exact hst) (fun _ => by rw [State.setBay_bay_self]; exact hf) rfl
      (.of_queues rfl _)
  · exact h.keep (by rw [State.setBay_bay_of_ne s e]) (fun _ => by rw [State.setBay_bay_of_ne s e]) rfl (.of_queues rfl _)

theorem recompute : s.recompute.Shown b := h.still (by simp) (by simp) (s.recompute_tells_not_bay b)

theorem unname (c : BayNo) (n : Nat) : (s.unname c n).Shown b := by
  unfold State.unname
  split
  · exact h.setBay c rfl rfl
  · exact h

theorem freeTicket (n : Nat) : (s.freeTicket n).Shown b := by
  cases hk : s.ticket? n with
  | none =>
    simp only [State.freeTicket, hk]
    exact h
  | some k =>
    have hout : (s.outOfQueue k).Shown b := by
      unfold State.outOfQueue
      split
      · exact h.silent
      · exact h
    cases hb : k.bay with
    | none => exact State.freeTicket_of_unbayed hk hb ▸ hout.silent
    | some c => exact State.freeTicket_of_bay hk hb ▸ (hout.unname c n).silent

theorem freeWith (n : Nat) {m : Notice} (hm : m.shownBay ≠ some b) : (s.freeWith n m).Shown b :=
  State.Shown.freeTicket (h.raiseTo n hm) n

theorem matchIfFree (c : BayNo) : (s.matchIfFree c).Shown b := (s.matched_matchIfFree c).shown b h

theorem matchIn (q : Option PoolNo) : (s.matchIn q).Shown b := (s.matched_matchIn q).shown b h

theorem settleFree (c : BayNo) : (s.settleFree c).Shown b := by
  unfold State.settleFree
  repeat' split
  all_goals exact h.changeBay c _

theorem enterFree (c : BayNo) : (s.enterFree c).Shown b := State.Shown.matchIfFree (h.settleFree c) c

theorem placeAt (c : BayNo) : (s.placeAt c).Shown b := by
  rw [State.placeAt_eq]
  exact h.changeBay c _

/-- The opening of a session raises the BAY_STATE of its bay itself (R93). -/
theorem openSession (c : BayNo) (n : Nat) : (s.openSession c n).Shown b := by
  have hfinish : ∀ {u : State}, u.Shown b → (u.setSetpoint c (u.setpoint c).started).recompute.Shown b :=
    fun hu => State.Shown.recompute (hu.setSetpoint c _)
  have htold := (s.openedFor c n).raiseTo_tells n (.sessionOpened n c (nextTag (s.bay c).tagCounter))
  have hbus : ((s.openedFor c n).raiseTo n (.sessionOpened n c (nextTag (s.bay c).tagCounter))).bus = s.bus := by
    simp [State.openedFor, State.joinList]
  have hbay : ∀ d, ((s.openedFor c n).raiseTo n (.sessionOpened n c (nextTag (s.bay c).tagCounter))).bay d =
      (s.openedFor c n).bay d := State.bay_of_bays (by simp)
  refine hfinish (u := ((s.openedFor c n).raiseTo n (.sessionOpened n c (nextTag (s.bay c).tagCounter))).raise .s
    (((s.openedFor c n).raiseTo n (.sessionOpened n c (nextTag (s.bay c).tagCounter))).bayNotice c)) ?_
  generalize (s.openedFor c n).raiseTo n (.sessionOpened n c (nextTag (s.bay c).tagCounter)) = u at htold hbus hbay
  by_cases e : b = c
  · subst e
    exact State.Shown.raised (htold.lists (p := .s) h.lists)
  · have hb : u.bay b = s.bay b := by rw [hbay, State.openedFor_bay, if_neg e]
    have hu : u.Shown b := by
      refine h.keep (by rw [hb]) (fun _ => by rw [hb]) (by rw [State.link_of_links (s := s) (by rw [hbus])]) ?_
      exact (htold.mono fun _ m hm => by rw [hm]; simp [Notice.shownBay]).congr rfl rfl
    exact hu.raise _ (by simpa [State.bayNotice] using fun h => e h.symm)

theorem plugIn (c : BayNo) : (s.plugIn c).Shown b := by
  unfold State.plugIn
  split
  · exact h.setBay c rfl rfl
  · split
    · exact h.openSession c _
    · dsimp only
      split
      · refine State.Shown.openSession (State.Shown.setBay (s := s.issue (s.autoTicket c)) h.silent c ?_ ?_) c _ <;> rfl
      · exact h.raise _ (by simp [Notice.shownBay])

theorem plugInIfPlugged (c : BayNo) : (s.plugInIfPlugged c).Shown b := by
  unfold State.plugInIfPlugged
  split
  · exact h.plugIn c
  · exact h

theorem place (c : BayNo) : (s.place c).Shown b :=
  State.Shown.matchIfFree (State.Shown.plugInIfPlugged (h.placeAt c) c) c

theorem placeClosed (c : BayNo) : (s.placeClosed c).Shown b := State.Shown.matchIfFree (h.placeAt c) c

/-! ### Sessions (R100, R102) -/

theorem resume (c : BayNo) : (s.resume c).Shown b :=
  State.Shown.recompute (State.Shown.setSetpoint (h.changeBay c _) c _)

theorem endSession (c : BayNo) (k : Session) (why : CloseReason) : (s.endSession c k why).Shown b := by
  have hn : (s.noticeClosed c k why).Shown b := by
    unfold State.noticeClosed
    dsimp only
    split
    · exact h.raiseBoth _ (by simp [Notice.shownBay])
    · exact h.raise _ (by simp [Notice.shownBay])
  have hd : ((s.noticeClosed c k why).dismiss c).Shown b :=
    State.Shown.setBay (s := { s.noticeClosed c k why with
      admission := (s.noticeClosed c k why).admission.filter (fun d => d != c) }) hn.silent c rfl rfl
  exact State.Shown.setSetpoint (State.Shown.setBay (hd.freeTicket k.ticket) c
    (x := { (((s.noticeClosed c k why).dismiss c).freeTicket k.ticket).bay c with ticket := none }) rfl rfl) c _

theorem closePlaced (c : BayNo) (why : CloseReason) : (s.closePlaced c why).Shown b := by
  unfold State.closePlaced
  split
  · exact h
  · exact State.Shown.recompute (State.Shown.placeClosed (h.endSession c _ why) c)

/-! ### Head faults (R23) -/

theorem withdraw (c : BayNo) (w : WithdrawReason) : (s.withdraw c w).Shown b := by
  cases hn : (s.bay c).ticket with
  | none =>
    simp only [State.withdraw, hn]
    exact h
  | some n =>
    rw [State.withdraw_eq hn]
    exact State.Shown.raiseTo (State.Shown.setBay (s := s.modTicket n Ticket.withdrawn)
      (x := { s.bay c with ticket := none }) h.silent c rfl rfl) n (n := .offerWithdrawn n c w)
      (by simp [Notice.shownBay])

theorem requeue (n : Nat) (c : BayNo) : (s.requeue n c).Shown b := by
  cases hk : s.ticket? n with
  | none =>
    simp only [State.requeue, hk]
    exact h
  | some k =>
    rw [State.requeue_eq hk]
    refine State.Shown.raise ?_ _ (by simp [Notice.shownBay])
    exact State.Shown.joinQueue (State.Shown.unname
      (s := s.modTicket k.number fun u => u.requeued k.requeuedClass) h.silent c k.number) _ _

theorem enterFaulted (c : BayNo) (code : FaultCode) : (s.enterFaulted c code).Shown b := h.changeBay c _

theorem headFault (c : BayNo) (code : FaultCode) : (s.headFault c code).Shown b := by
  unfold State.headFault
  repeat' split
  · exact State.Shown.recompute (State.Shown.enterFaulted (h.endSession c _ _) c code)
  · exact h.enterFaulted c code
  · exact State.Shown.recompute (State.Shown.enterFaulted (h.endSession c _ _) c code)
  · exact h.enterFaulted c code
  · exact State.Shown.enterFaulted (h.freeWith _ (by simp [Notice.shownBay])) c code
  · exact h.enterFaulted c code
  · exact State.Shown.matchIn (State.Shown.enterFaulted (h.requeue _ c) c code) _
  · exact State.Shown.enterFaulted (h.freeWith _ (by simp [Notice.shownBay])) c code
  · exact h.enterFaulted c code
  · exact State.Shown.matchIn (State.Shown.enterFaulted (h.withdraw c _) c code) _
  · exact State.Shown.enterFaulted (h.setBay c (x := { s.bay c with blockPending := true }) rfl rfl) c code
  · exact h.enterFaulted c code
  · exact h.enterFaulted c code
  · exact h.enterFaulted c code

/-! ### The steps of a REPORT (R19) -/

theorem arrive (n : Nat) (c : BayNo) : (s.arrive n c).Shown b :=
  State.Shown.changeBay (State.Shown.raiseTo (s := s.modTicket n (fun t => { t with
    state := .arrived, holdDeadline := none })) h.silent n (by simp [Notice.shownBay])) c _

theorem depart (c : BayNo) : (s.depart c).Shown b := by
  unfold State.depart
  split
  · exact State.Shown.enterFree (h.freeWith _ (by simp [Notice.shownBay])) c
  · exact h.enterFree c

theorem plugStep (c : BayNo) (plug : Plug) (echo : Nat) : (s.plugStep c plug echo).Shown b := by
  have hw : (s.setBay c { s.bay c with plug := plug }).Shown b := h.setBay c rfl rfl
  unfold State.plugStep
  dsimp only
  split
  · split
    · exact hw.closePlaced c _
    · exact hw
  · split
    · exact hw.resume c
    · exact hw.closePlaced c _
  · split
    · exact hw.plugIn c
    · exact hw
  all_goals exact hw

theorem presenceStep (c : BayNo) (x : Presence) : (s.presenceStep c x).Shown b := by
  have hw : (s.setBay c { s.bay c with presence := x }).Shown b := h.setBay c rfl rfl
  unfold State.presenceStep
  dsimp only
  split
  · exact hw.place c
  · split
    · exact State.Shown.plugInIfPlugged (hw.changeBay c _) c
    · exact hw
  · split
    · split
      · exact State.Shown.plugInIfPlugged (hw.arrive _ c) c
      · exact hw
    · exact hw
  · split
    · exact hw.depart c
    · exact hw
  all_goals exact hw

theorem activateEarly (c : BayNo) (k : Booking) : (s.activateEarly c k).Shown b := by
  unfold State.activateEarly
  dsimp only
  split
  · exact State.Shown.plugInIfPlugged (State.Shown.raise (State.Shown.changeBay
      (s := (s.dropBooking c k.number).issue (s.bookedTicket c k)) h.silent c _) _ (by simp [Notice.shownBay])) c
  · exact h.raise _ (by simp [Notice.shownBay])

theorem codeStep (c : BayNo) (code : Nat) : (s.codeStep c code).Shown b := by
  unfold State.codeStep State.presentCode
  split
  · exact h
  split
  · exact State.Shown.plugInIfPlugged (h.arrive code c) c
  split
  · exact h
  split
  · exact h.activateEarly c _
  split
  · exact h.raise _ (by simp [Notice.shownBay])
  · exact h.raise _ (by simp [Notice.shownBay])

theorem demandStep (c : BayNo) (demand : Nat) : (s.demandStep c demand).Shown b := by
  unfold State.demandStep
  dsimp only
  split
  · have hw : (s.setBay c ((s.bay c).modSession (fun k => { k with demand := min demand 63 }))).Shown b :=
      h.setBay c rfl rfl
    split
    · exact hw.recompute
    · exact hw
  · exact h

theorem energyStep (c : BayNo) (increment echo : Nat) : (s.energyStep c increment echo).Shown b := by
  unfold State.energyStep
  split
  · exact h.setBay c rfl rfl
  · exact h

theorem takeEcho (c : BayNo) (echo : Nat) : (s.takeEcho c echo).Shown b := by
  unfold State.takeEcho
  dsimp only
  split
  · split
    · exact h
    · exact State.Shown.recompute (State.Shown.silent h)
  · exact h

/-- The work of a REPORT keeps a bay shown (R19). -/
theorem takeReport (c : BayNo) (r : Report) : (s.takeReport c r).Shown b := by
  unfold State.takeReport
  split
  · exact h.headFault c _
  · exact State.Shown.takeEcho (State.Shown.energyStep (State.Shown.demandStep (State.Shown.codeStep
      (State.Shown.presenceStep (h.plugStep c _ _) c _) c _) c _) c _ _) c _

end State.Shown

end Sys2Proof.Machine
end

