-- ==== Sys2Proof/Proofs/LinkLosses.lean ====
section
/-! SUPPORT. Silence, BUSY and REPORT in the link record, and the loss of a head at a bay without a session: O47. -/

namespace Sys2Proof.Machine

/-! ### Silence (R131) -/

/-- The link record after a silent exchange (R129, R131). -/
def LinkRecord.silenced (x : LinkRecord) : LinkRecord :=
  { x with link := linkAt (min (x.silence + 1) 3), silence := min (x.silence + 1) 3, busy := 0 }

theorem State.takeSilence_eq (s : State) (b : BayNo) : s.takeSilence b =
    if (s.link b).silence = 2 then (s.changeLink b (s.link b).silenced).loseHead b
    else s.changeLink b (s.link b).silenced := rfl

/-- The loss of a head writes no link record (R20). -/
theorem State.takeSilence_link (s : State) (b d : BayNo) :
    (s.takeSilence b).link d = if d = b then (s.link b).silenced else s.link d := by
  rw [← State.changeLink_link]
  exact State.link_of_links (by rw [State.takeSilence_eq]; split <;> simp) d

theorem LinkRecord.silenced_of_zero {x : LinkRecord} (h : x.silence = 0) :
    x.silenced = { x with link := .silent, silence := 1, busy := 0 } := by
  simp [LinkRecord.silenced, h, linkAt]

theorem LinkRecord.silenced_of_one {x : LinkRecord} (h : x.silence = 1) :
    x.silenced = { x with link := .silent, silence := 2, busy := 0 } := by
  simp [LinkRecord.silenced, h, linkAt]

theorem LinkRecord.silenced_of_two {x : LinkRecord} (h : 2 ≤ x.silence) :
    x.silenced = { x with link := .lost, silence := 3, busy := 0 } := by
  have : min (x.silence + 1) 3 = 3 := by omega
  simp [LinkRecord.silenced, this, linkAt]

/-- The link that a silence count means (R129). -/
def LinkRecord.Agrees (x : LinkRecord) : Prop :=
  x.silence ≤ 3 ∧ (x.link = .online ↔ x.silence = 0) ∧ (x.link = .lost ↔ x.silence = 3)

/-- A silent exchange leaves the link where the count was 1 or 3, and changes it else (R131). -/
theorem LinkRecord.Agrees.silenced_link {x : LinkRecord} (h : x.Agrees) :
    x.silenced.link = x.link ↔ x.silence = 1 ∨ x.silence = 3 := by
  obtain ⟨hs, hon, hlost⟩ := h
  rcases (by omega : x.silence = 0 ∨ x.silence = 1 ∨ x.silence = 2 ∨ x.silence = 3) with e | e | e | e
  · simp [LinkRecord.silenced_of_zero e, e, hon.mpr e]
  · rw [LinkRecord.silenced_of_one e]
    cases hx : x.link <;> simp_all
  · rw [LinkRecord.silenced_of_two (by omega)]
    cases hx : x.link <;> simp_all
  · simp [LinkRecord.silenced_of_two (x := x) (by omega), e, hlost.mpr e]

/-! ### The loss of a head (R20) -/

theorem State.loseHead_of_free {s : State} {b : BayNo} (h : (s.bay b).state = .free) : s.loseHead b =
    (s.setBay b { s.bay b with state := .offline }).raise .s (.bayState b .offline (s.link b).link none) := by
  have e : s.changeBay b (fun x => { x with state := .offline }) =
      (s.setBay b { s.bay b with state := .offline }).raise .s (.bayState b .offline (s.link b).link none) :=
    State.changeBay_to (by simp [h]) (by simp)
  rw [← e]
  simp [State.loseHead, h]

theorem State.loseHead_of_other {s : State} {b : BayNo} (h : (s.bay b).state = .held ∨ (s.bay b).state = .occupied ∨
    (s.bay b).state = .offline ∨ (s.bay b).state = .blocked ∨ (s.bay b).state = .faulted) : s.loseHead b = s := by
  rcases h with e | e | e | e | e <;> simp [State.loseHead, e]

theorem State.loseHead_of_offered {s : State} {b : BayNo} {k : Ticket} (h : (s.bay b).state = .offered)
    (hn : (s.bay b).ticket = some k.number) (hk : s.ticket? k.number = some k) :
    s.Released (s.loseHead b) b k k.withdrawn (.offerWithdrawn k.number b .link) (s.pool k.pool).queue
      { s.bay b with state := .offline, ticket := none } := by
  have e : s.loseHead b =
      ((s.withdraw b .link).changeBay b (fun x => { x with state := .offline })).matchIn (s.claimPool b) := by
    simp [State.loseHead, h]
  rw [e]
  exact State.withdraw_released (f := fun x => { x with state := .offline }) hn hk h (fun _ => by simp)
    (State.matched_matchIn _ _)

/-- Of two BAY_STATEs of one bay the second is what the queues hold (R159). -/
theorem State.raise_bayState_twice (s : State) (b : BayNo) (st st' : BayState) (l l' : Link) (f f' : Option FaultCode) :
    ((s.raise .s (.bayState b st l f)).raise .s (.bayState b st' l' f')).queues =
      (s.raise .s (.bayState b st' l' f')).queues := by
  have e : ∀ (u : State) (n : Notice), (u.raise .s n).queues = u.queues.set .s ((u.queue .s).take .s n) := fun _ _ => rfl
  rw [e, e, State.raise_queue, if_pos rfl, NoticeQueue.take_bayState_twice, e, PerPort.set_set]

section Silence

variable {s : State} {b : BayNo}

/-- A silent exchange that loses no head (R131). -/
theorem State.takeSilence_of_kept (h : (s.link b).silence ≠ 2) : s.takeSilence b = s.changeLink b (s.link b).silenced := by
  rw [State.takeSilence_eq, if_neg h]

theorem State.takeSilence_of_lost (h : (s.link b).silence = 2) :
    s.takeSilence b = (s.changeLink b (s.link b).silenced).loseHead b := by
  rw [State.takeSilence_eq, if_pos h]

/-- The loss of the head of a FREE bay (R20). -/
theorem State.takeSilence_of_free (h : (s.link b).silence = 2) (hst : (s.bay b).state = .free) : s.takeSilence b =
    ((s.changeLink b (s.link b).silenced).setBay b { s.bay b with state := .offline }).raise .s
      (.bayState b .offline .lost none) := by
  have hlost : (s.link b).silenced.link = .lost := by rw [LinkRecord.silenced_of_two (by omega)]
  rw [State.takeSilence_of_lost h, State.loseHead_of_free (by rw [State.changeLink_bay]; exact hst), State.changeLink_bay,
    State.changeLink_link, if_pos rfl, hlost]

/-- The loss of the head of a bay without an offer and without a session (R20). -/
theorem State.takeSilence_of_other (h : (s.link b).silence = 2) (hst : (s.bay b).state = .held ∨
    (s.bay b).state = .occupied ∨ (s.bay b).state = .offline ∨ (s.bay b).state = .blocked ∨
    (s.bay b).state = .faulted) : s.takeSilence b = s.changeLink b (s.link b).silenced := by
  rw [State.takeSilence_of_lost h, State.loseHead_of_other (by rw [State.changeLink_bay]; exact hst)]

/-- The loss of the head of an OFFERED bay withdraws the offer (R63). -/
theorem AgreeBut.takeSilence_of_offered (ha : AgreeBut none none s) (hl : (s.link b).Agrees)
    (h : (s.link b).silence = 2) (hst : (s.bay b).state = .offered) {k : Ticket} (hn : (s.bay b).ticket = some k.number)
    (hk : s.ticket? k.number = some k) :
    (s.takeSilence b).bay b = { s.bay b with state := .offline, ticket := none } ∧ s.baysKept (s.takeSilence b) b ∧
      (∃ y, (s.takeSilence b).ticket? k.number = some y ∧ k.withdrawn.keptOrOffered y) ∧
      s.ticketsKept (s.takeSilence b) k.number ∧ (∀ q, ((s.takeSilence b).pool q).queue = (s.pool q).queue) ∧
      (k.origin ≠ .s → (s.queue k.origin).notices.length < 24 →
        (s.queue k.origin).notices ++ [.offerWithdrawn k.number b .link] <+:
          ((s.takeSilence b).queue k.origin).notices) ∧
      ((s.queue .s).notices.length < 24 →
        .bayState b .offline .lost none ∈ ((s.takeSilence b).queue .s).notices) := by
  obtain ⟨hr, he⟩ := ha.enrolled_of_state (b := b) (by simp) (by simp [hst])
  have hlink := State.takeSilence_link s b b
  rw [if_pos rfl, LinkRecord.silenced_of_two (by omega)] at hlink
  have hchanged : (s.link b).silenced.link ≠ (s.link b).link := by
    rw [Ne, hl.silenced_link]
    omega
  have hshown := fun hroom => State.changeLink_shown (s := s) hchanged he hr (.inr hroom)
  have hne := fun p => State.changeLink_queue_of_ne s b (s.link b).silenced (p := p)
  rw [State.takeSilence_of_lost h] at hlink ⊢
  have hbay := fun c => State.changeLink_bay s b c (s.link b).silenced
  have hfind := State.changeLink_ticket s b (s.link b).silenced
  have hpool := State.changeLink_pool s b (s.link b).silenced
  generalize s.changeLink b (s.link b).silenced = u at hlink hshown hbay hfind hpool hne ⊢
  have hrel := State.loseHead_of_offered (s := u) (b := b) (k := k) (by rw [hbay, hst]) (by rw [hbay, hn]) (by rw [hfind, hk])
  rw [hbay] at hrel
  refine ⟨hrel.bay, fun c hc => ?_, hrel.ticket, fun m hm z hz => ?_, fun q => ?_, fun ho hroom => ?_, fun hroom => ?_⟩
  · rw [← hbay c]
    exact hrel.others c hc
  · exact hrel.tickets m hm z (by rw [hfind, hz])
  · rw [hrel.pool q, hpool]
    by_cases e : q = k.pool
    · rw [if_pos e, e, hpool]
    · rw [if_neg e]
  · have := hrel.isPrefix ho
    rw [hne _ ho] at this
    exact this hroom
  · have := hrel.shown (.inl (hshown hroom).lists)
    rwa [State.Shown, State.bayNotice_of_sound (by rw [hrel.bay]; simp), hrel.bay, hlink] at this

end Silence

/-! ### BUSY and REPORT (R130, R132) -/

theorem State.enterFaulted_bay (s : State) (b : BayNo) (code : FaultCode) : (s.enterFaulted b code).bay b =
    { s.bay b with state := .faulted, fault := some code, ticket := none } := by
  rw [State.enterFaulted, State.changeBay_bay, if_pos rfl]

/-- A head fault leaves the bay FAULTED with the code (R23). -/
theorem State.headFault_faulted (s : State) (b : BayNo) (code : FaultCode) :
    ((s.headFault b code).bay b).state = .faulted ∧ ((s.headFault b code).bay b).fault = some code := by
  have henter : ∀ u : State, ((u.enterFaulted b code).bay b).state = .faulted ∧
      ((u.enterFaulted b code).bay b).fault = some code := fun u => by simp [State.enterFaulted_bay]
  have hrecompute : ∀ u : State, ((u.enterFaulted b code).recompute.bay b).state = .faulted ∧
      ((u.enterFaulted b code).recompute.bay b).fault = some code := fun u => by
    rw [State.bay_of_bays (s := u.enterFaulted b code) (by simp)]
    exact henter u
  have hmatch : ∀ (u : State) q, (((u.enterFaulted b code).matchIn q).bay b).state = .faulted ∧
      (((u.enterFaulted b code).matchIn q).bay b).fault = some code := fun u q => by
    rw [((u.enterFaulted b code).matched_matchIn q).bay_of_ne_free (by simp [(henter u).1])]
    exact henter u
  unfold State.headFault
  repeat' split
  · exact hrecompute _
  · exact henter _
  · exact hrecompute _
  · exact henter _
  · exact henter _
  · exact henter _
  · exact hmatch _ _
  · exact henter _
  · exact henter _
  · exact hmatch _ _
  · exact henter _
  · exact henter _
  · exact henter _
  · exact henter _

/-- BUSY steps the busy count up to 10, and is a head fault at 10 (R132). -/
theorem State.takeBusy_eq (s : State) (b : BayNo) : s.takeBusy b =
    if 9 ≤ (s.link b).busy then (s.setLink b { s.link b with busy := 10 }).headFault b .headStall
    else s.setLink b { s.link b with busy := (s.link b).busy + 1 } := by
  unfold State.takeBusy
  dsimp only
  by_cases h : 9 ≤ (s.link b).busy
  · rw [if_pos h, if_pos (by omega), show min ((s.link b).busy + 1) 10 = 10 by omega]
  · rw [if_neg h, if_neg (by omega), show min ((s.link b).busy + 1) 10 = (s.link b).busy + 1 by omega]

theorem State.takeBusy_link (s : State) (b : BayNo) :
    (s.takeBusy b).link b = { s.link b with busy := min ((s.link b).busy + 1) 10 } := by
  rw [State.takeBusy_eq]
  split
  · rw [State.link_of_links (s := s.setLink b { s.link b with busy := 10 }) (by simp), State.setLink_link_self,
      show min ((s.link b).busy + 1) 10 = 10 by omega]
  · rw [State.setLink_link_self, show min ((s.link b).busy + 1) 10 = (s.link b).busy + 1 by omega]

/-- The link record after a REPORT (R130). -/
def LinkRecord.answered (x : LinkRecord) : LinkRecord := { x with link := .online, silence := 0, busy := 0 }

theorem State.linkOnline_eq (s : State) (b : BayNo) : s.linkOnline b = s.changeLink b (s.link b).answered := rfl

/-! ### The outcome of the exchange -/

/-- Settles O47: the link record by the outcome, and the loss of a head by the state of its bay. -/
theorem linkRecordsFollowReplies : Obligations.LinkRecordsFollowReplies := by
  unfold Obligations.LinkRecordsFollowReplies
  intro s b hw hlinks shown
  have hagrees : (s.link b).Agrees := by
    obtain ⟨h1, -, h2, h3⟩ := hlinks b
    exact ⟨h1, h2, h3⟩
  refine ⟨fun c hc => ?_, ?_, fun r hr => ?_⟩
  · obtain ⟨hafter, hkeep⟩ : (∀ d, ((s.takeSilence b).afterSlot b).link d =
        { (s.takeSilence b).link d with lastLamp := (((s.takeSilence b).afterSlot b).link d).lastLamp }) ∧
        ((s.takeSilence b).afterSlot b).link b = (s.takeSilence b).link b :=
      ⟨fun d => ((s.takeSilence b).afterSlot_link b d).1, ((s.takeSilence b).afterSlot_link b b).2⟩
    refine ⟨_, exec_silent hw hc, ?_⟩
    have hframe := (s.takeSilence b).afterSlot_eq b
    have hlink := s.takeSilence_link b
    generalize (s.takeSilence b).afterSlot b = t at hafter hkeep hframe ⊢
    rw [hlink, if_pos rfl] at hkeep
    have tqueues : t.queues = (s.takeSilence b).queues := by rw [hframe]
    have hquiet : (s.link b).silence = 1 ∨ (s.link b).silence = 3 →
        s.takeSilence b = s.setLink b (s.link b).silenced := fun h => by
      rw [State.takeSilence_of_kept (by omega), State.changeLink_quiet fun hx => hx.1 (hagrees.silenced_link.mpr h)]
    have htold : s.opState = .run → (s.bay b).enrolled = true → (s.link b).silence = 0 ∨ (s.link b).silence = 2 →
        s.changeLink b (s.link b).silenced = (s.setLink b (s.link b).silenced).raise .s
          (.bayState b (s.bay b).state (s.link b).silenced.link (shown (s.bay b))) := fun hrun hen h =>
      State.changeLink_told (by rw [Ne, hagrees.silenced_link]; omega) hen hrun
    refine ⟨fun h => ?_, fun h => ?_, fun h => ?_, fun d hd => ?_, fun h => ?_, fun h => ⟨fun hst => ?_,
      fun k hca hst hn hk => ?_, fun hst => ?_⟩, fun hrun hen => ⟨fun h => ?_, fun h => ?_,
      fun h => ⟨fun hst => ?_, fun hst => ?_⟩⟩⟩
    · rw [hkeep, LinkRecord.silenced_of_zero h]
    · rw [hkeep, LinkRecord.silenced_of_one h]
    · rw [hkeep, LinkRecord.silenced_of_two h]
    · rw [hafter d, hlink, if_neg hd]
    · rw [hframe, State.takeSilence_of_kept h, State.changeLink_eq]
    · rw [hframe, State.takeSilence_of_free h hst, State.changeLink_eq]
      rfl
    · have hall := AgreeBut.takeSilence_of_offered ((agreeBut_none_iff s).mpr hca) hagrees h hst hn hk
      have tbay : ∀ c, t.bay c = (s.takeSilence b).bay c := State.bay_of_bays (by rw [hframe])
      have tfind : ∀ m, t.ticket? m = (s.takeSilence b).ticket? m := State.ticket?_of_tickets (by rw [hframe])
      have tpool : ∀ q, t.pool q = (s.takeSilence b).pool q := State.pool_of_pools (by rw [hframe])
      have tqueue : ∀ p, t.queue p = (s.takeSilence b).queue p := State.queue_of_queues tqueues
      simp only [State.baysKept, State.ticketsKept, tbay, tfind, tpool, tqueue]
      exact hall
    · rw [hframe, State.takeSilence_of_other h hst, State.changeLink_eq]
    · rw [tqueues, State.takeSilence_of_kept (by omega), htold hrun hen (.inl h), LinkRecord.silenced_of_zero h]
      rfl
    · rw [tqueues, hquiet h]
      rfl
    · rw [tqueues, State.takeSilence_of_free h hst, htold hrun hen (.inr h)]
      have hnone : shown (s.bay b) = none := if_neg (by simp [hst])
      show _ = (s.raise .s (.bayState b .offline .lost (shown (s.bay b)))).queues
      rw [hnone]
      exact State.raise_bayState_twice (s.setLink b (s.link b).silenced) b _ _ _ _ _ _
    · rw [tqueues, State.takeSilence_of_other h hst, htold hrun hen (.inr h), LinkRecord.silenced_of_two (by omega)]
      rfl
  · refine ⟨_, exec_busy hw, ?_, fun h => ?_, fun h => ?_⟩
    · rw [((s.takeBusy b).afterSlot_link b b).2, State.takeBusy_link]
    · rw [State.afterSlot_eq, State.takeBusy_eq, if_neg (by omega)]
      rfl
    · rw [State.bay_of_bays (s := s.takeBusy b) (by simp), State.takeBusy_eq, if_pos h]
      exact State.headFault_faulted _ b _
  · have hlink : ((s.linkOnline b).takeReport b r).link b = (s.link b).answered := by
      rw [State.link_of_links (s := s.linkOnline b) (by simp), State.linkOnline_eq, State.changeLink_link, if_pos rfl]
    refine ⟨_, exec_report hw hr, ?_, fun hrun hen hs hroom => ?_⟩
    · rw [(State.afterSlot_link _ b b).2, hlink]
      rfl
    · have hchanged : (s.link b).answered.link ≠ (s.link b).link := fun e => hs (hagrees.2.1.mp e.symm)
      have hshown : ((s.linkOnline b).takeReport b r).Shown b :=
        State.Shown.takeReport (State.changeLink_shown hchanged hen hrun (.inr hroom)) b r
      rw [State.bay_of_bays (s := (s.linkOnline b).takeReport b r) (by simp),
        State.queue_of_queues (s := (s.linkOnline b).takeReport b r) (by simp)]
      unfold State.Shown State.bayNotice at hshown
      rwa [hlink] at hshown

end Sys2Proof.Machine
end

