-- ==== Sys2Proof/Proofs/HeadFaults.lean ====
section
/-! SUPPORT. A head fault at a bay by the claim on it (R23): O49. -/

namespace Sys2Proof.Machine

/-! ### The link record is written first (R130, R132) -/

/-- The link record of the bay of a slot exchange has been written, with the BAY_STATE that this raises (R130 to R133). -/
structure State.Exchanged (s t : State) (b : BayNo) : Prop where
  queue : ∀ p, p ≠ .s → t.queue p = s.queue p
  load : ∀ p, (t.queue p).load b ≤ (s.queue p).load b
  tells : s.tellsOnly t fun _ n => n.shownBay = some b
  room : (s.queue .s).lists b ∨ (s.queue .s).notices.length < 23 →
    (t.queue .s).lists b ∨ (t.queue .s).notices.length < 23
  frame : t = { s with queues := t.queues, bus := t.bus }

theorem State.changeLink_exchanged (s : State) (b : BayNo) (x : LinkRecord) : s.Exchanged (s.changeLink b x) b :=
  ⟨fun _ hp => State.changeLink_queue_of_ne s b x hp, s.changeLink_load b x, s.changeLink_tells b x, s.changeLink_room b x,
    by rw [State.changeLink_eq]⟩

theorem State.setLink_exchanged (s : State) (b : BayNo) (x : LinkRecord) : s.Exchanged (s.setLink b x) b :=
  ⟨fun _ _ => rfl, fun _ => le_rfl, .of_queues rfl _, id, rfl⟩

namespace State.Exchanged

variable {s t : State} {b : BayNo} (h : s.Exchanged t b)
include h

theorem bay (c : BayNo) : t.bay c = s.bay c := State.bay_of_bays (by rw [h.frame]) c

theorem ticket (n : Nat) : t.ticket? n = s.ticket? n := State.ticket?_of_tickets (by rw [h.frame]) n

theorem pool (q : PoolNo) : t.pool q = s.pool q := State.pool_of_pools (by rw [h.frame]) q

theorem setpoint (c : BayNo) : t.setpoint c = s.setpoint c := State.setpoint_of_setpoints (by rw [h.frame]) c

theorem opState : t.opState = s.opState := by rw [h.frame]

theorem admission : t.admission = s.admission := by rw [h.frame]

theorem deviceSeconds : t.deviceSeconds = s.deviceSeconds := by rw [h.frame]

theorem tickets : t.tickets = s.tickets := by rw [h.frame]

theorem agree (ha : AgreeBut none none s) (hw : t.bus.sweep = s.bus.sweep) : AgreeBut none none t :=
  ha.frame h.tickets (by rw [h.frame]) (by rw [h.frame]) (by rw [h.frame]) h.admission h.opState hw

/-- What is not a BAY_STATE stands as often as before. -/
theorem count {m : Notice} (hm : m.lasting) (hb : m.shownBay = none) (p : Port) :
    (t.queue p).notices.count m = (s.queue p).notices.count m :=
  (h.tells.not_of_bay hb).count hm (by simp)

/-- The exchange leaves room for a notice where there was room for two. -/
theorem length {p : Port} {n : Nat} (hl : (s.queue p).notices.length < n) : (t.queue p).notices.length < n + 1 := by
  have h1 := (t.queue p).length_le_load b
  have h2 := h.load p
  have h3 := (s.queue p).load_le b
  omega

end State.Exchanged

/-! ### A ticket is freed with a notice (R13, R23, R38) -/

/-- The ticket of a bay is freed with a notice to its origin; the bay becomes x, and matching may follow. -/
structure State.Vacated (s t : State) (b : BayNo) (k : Ticket) (note : Notice) (x : Bay) : Prop where
  bay : x.keptOrOffered (t.bay b)
  others : s.baysKept t b
  ticket : t.ticket? k.number = none
  tickets : s.ticketsKept t k.number
  count : (s.queue k.origin).notices.length < 24 →
    (t.queue k.origin).notices.count note = (s.queue k.origin).notices.count note + 1
  shown : (s.queue .s).lists b ∨ (s.queue .s).notices.length < 23 → t.Shown b
  frame : t = { s with bays := t.bays, tickets := t.tickets, pools := t.pools, queues := t.queues }

theorem State.freeWith_eq {s : State} {b : BayNo} {k : Ticket} (hk : s.ticket? k.number = some k) (hb : k.bay = some b)
    (hst : ¬(k.state = .waiting ∨ k.state = .offered)) (note : Notice) : s.freeWith k.number note =
      { (s.raise k.origin note).unname b k.number with
        tickets := s.tickets.filter (fun u => u.number != k.number) } := by
  rw [State.freeWith, State.raiseTo_of_live hk, State.freeTicket_of_bay (s := s.raise k.origin note) (t := k) (b := b) hk hb]
  simp [State.outOfQueue, hst]

theorem State.freeWith_bay {s : State} {b : BayNo} {k : Ticket} (hk : s.ticket? k.number = some k) (hb : k.bay = some b)
    (hst : ¬(k.state = .waiting ∨ k.state = .offered)) (hn : (s.bay b).ticket = some k.number) (note : Notice)
    (c : BayNo) : (s.freeWith k.number note).bay c = if c = b then { s.bay b with ticket := none } else s.bay c := by
  have hraise : ∀ d, (s.raise k.origin note).bay d = s.bay d := fun _ => rfl
  rw [State.freeWith_eq hk hb hst]
  show ((s.raise k.origin note).unname b k.number).bay c = _
  split
  · subst c
    rw [State.unname_bay_self, hraise, hn, if_pos rfl]
  · rw [State.unname_bay_of_ne _ (by assumption), hraise]

theorem State.freeWith_vacated {s t : State} {b : BayNo} {k : Ticket} (hn : (s.bay b).ticket = some k.number)
    (hk : s.ticket? k.number = some k) (hb : k.bay = some b) (hst : ¬(k.state = .waiting ∨ k.state = .offered))
    {note : Notice} (hlast : note.lasting) (hnot : ¬note.ofSettling) {f : Bay → Bay}
    (hs : ({ s.bay b with ticket := none } : Bay).shows (f { s.bay b with ticket := none }) = true)
    (hm : ((s.freeWith k.number note).changeBay b f).Matched t) :
    s.Vacated t b k note (f { s.bay b with ticket := none }) := by
  have hbay := State.freeWith_bay hk hb hst hn note
  have hfind : ∀ m, (s.freeWith k.number note).ticket? m = if m = k.number then none else s.ticket? m := by
    intro m
    rw [State.freeWith, State.freeTicket_ticket_find, State.ticket?_of_tickets (s := s) (by simp)]
  have hqueue : ∀ p, (s.freeWith k.number note).queue p =
      (s.queue p).takeAll p (if p = k.origin then [note] else []) := by
    intro p
    rw [← State.raise_queue_takeAll, ← State.raiseTo_of_live hk]
    exact State.queue_of_queues (by simp [State.freeWith]) p
  have hframe : s.freeWith k.number note = { s with
      bays := (s.freeWith k.number note).bays, tickets := (s.freeWith k.number note).tickets,
      queues := (s.freeWith k.number note).queues } := by
    have hpools : (s.freeWith k.number note).pools = s.pools := by rw [State.freeWith_eq hk hb hst]; simp
    exact State.eq_of_fields (hpoo := hpools)
  have hset := State.changeBay_settled (s := s.freeWith k.number note) (b := b) (f := f)
    (by rw [hbay, if_pos rfl]; exact hs) hm
  rw [hbay, if_pos rfl] at hset
  generalize s.freeWith k.number note = u at hbay hfind hqueue hframe hset
  refine ⟨hset.bay, fun c hc => ?_, hset.dead _ (by rw [hfind, if_pos rfl]), fun m hm z hz => ?_, fun hl => ?_,
    fun hl => hset.shown ?_, by rw [hset.frame, hframe]⟩
  · have := hset.other c hc
    rwa [hbay, if_neg hc] at this
  · exact hset.ticket m z (by rw [hfind, if_neg hm, hz])
  · rw [(hset.tells_not hnot).count hlast (by simp), hqueue, if_pos rfl]
    exact NoticeQueue.count_take_self hlast hl
  · rw [hqueue]
    exact NoticeQueue.room_takeAll_if hl _ _ _

/-! ### The bay and its claim (R23) -/

/-- The record of a bay that a head fault has taken (R23). -/
def Bay.faultedBy (x : Bay) (code : FaultCode) : Bay :=
  { x with state := .faulted, fault := some code, ticket := none, session := none,
           blockPending := x.blockPending || decide (x.state = .blocked) }

/-- What a head fault leaves of the bay and of the claims on other bays (R23). -/
structure State.FaultTaken (s t : State) (b : BayNo) (code : FaultCode) : Prop where
  bay : t.bay b = (s.bay b).faultedBy code
  others : s.baysKept t b
  admission : t.admission = s.admission.filter (fun d => d != b)
  tickets : ∀ n x, (s.bay b).ticket ≠ some n → s.ticket? n = some x → ∃ y, t.ticket? n = some y ∧ x.keptOrOffered y
  shown : (s.bay b).state ≠ .faulted ∨ (s.bay b).fault ≠ some code →
    (s.queue .s).lists b ∨ (s.queue .s).notices.length < 23 → t.Shown b
  frame : t = { s with
    bays := t.bays, tickets := t.tickets, pools := t.pools, admission := t.admission, queues := t.queues,
    power := { s.power with setpoints := t.power.setpoints } }

/-- The origin of a ticket has been told a notice (R158). -/
def State.toldOrigin (s t : State) (k : Ticket) (n : Notice) : Prop := (s.queue k.origin).notices.length < 24 →
  (t.queue k.origin).notices.count n = (s.queue k.origin).notices.count n + 1

/-- What a head fault makes of the ticket that the bay names (R23). -/
structure State.ClaimEnded (s t : State) (b : BayNo) (k : Ticket) : Prop where
  session : ∀ z, (s.bay b).session = some z → ∀ p, (s.queue p).notices.length < 24 →
    (t.queue p).notices.count (s.closedNotice b z .fault) =
      (s.queue p).notices.count (s.closedNotice b z .fault) + if p = .s ∨ p = k.origin then 1 else 0
  departed : k.state = .arrived → s.toldOrigin t k (.departed k.number b)
  withdrawn : k.state = .offered → s.toldOrigin t k (.offerWithdrawn k.number b .block) ∧
    ∃ y, t.ticket? k.number = some y ∧ k.withdrawn.keptOrOffered y
  expired : k.state = .held → (s.pool k.pool).queue.length = 12 → s.toldOrigin t k (.holdExpired k.number b)
  requeued : k.state = .held → (s.pool k.pool).queue.length < 12 →
    s.toldOrigin t k (.requeued k.number k.pool ((t.pool k.pool).queue.idxOf k.number + 1)) ∧
    ∃ y, t.ticket? k.number = some y ∧ k.number ∈ (t.pool k.pool).queue ∧
      (k.requeued k.requeuedClass).keptOrOffered y
  dead : k.state = .charging ∨ k.state = .arrived ∨ k.state = .held ∧ (s.pool k.pool).queue.length = 12 →
    t.ticket? k.number = none

section Faults

variable {s : State} (h : AgreeBut none none s) {b : BayNo}
include h

/-- A bay without a session is not in the admission list (R94). -/
theorem AgreeBut.admission_filter (hs : (s.bay b).session = none) : s.admission.filter (fun d => d != b) = s.admission := by
  refine List.filter_eq_self.mpr fun d hd => ?_
  have : d ≠ b := by
    rintro rfl
    simpa [hs] using (h.admission d).mp hd
  simpa using this

/-- The ticket that a bay names claims the bay's state. -/
theorem AgreeBut.claims {k : Ticket} (hn : (s.bay b).ticket = some k.number) (hk : s.ticket? k.number = some k) :
    k.bay = some b ∧ k.state.claims (s.bay b).state := by
  obtain ⟨k', hk', -, -, hb, hc, -⟩ := h.claimant hn
  obtain rfl := Option.some.inj (hk.symm.trans hk')
  exact ⟨hb, hc⟩

/-- A bay in a state without a session has none (R91). -/
theorem AgreeBut.session_none (ha : (s.bay b).state ≠ .active) (hs : (s.bay b).state ≠ .suspended) :
    (s.bay b).session = none := by
  have := (h.bay b (by simp)).session
  simpa [ha, hs] using this

end Faults

/-- A head fault at a bay that no ticket claims (R23). -/
theorem AgreeBut.enterFaulted_taken {s : State} (h : AgreeBut none none s) {b : BayNo} (hn : (s.bay b).ticket = none)
    {v : Bool} (hv : v = ((s.bay b).blockPending || decide ((s.bay b).state = .blocked))) (code : FaultCode) :
    s.FaultTaken ((s.setBay b { s.bay b with blockPending := v }).enterFaulted b code) b code := by
  have hses := (h.bay b (by simp)).session_none hn
  have hbay : ∀ c, ((s.setBay b { s.bay b with blockPending := v }).enterFaulted b code).bay c =
      if c = b then (s.bay b).faultedBy code else s.bay c := by
    intro c
    rw [State.enterFaulted, State.changeBay_bay, State.setBay_bay, State.setBay_bay, if_pos rfl]
    split
    · simp only [Bay.faultedBy, ← hv, ← hses]
    · rfl
  have hfind : ∀ m, ((s.setBay b { s.bay b with blockPending := v }).enterFaulted b code).ticket? m = s.ticket? m :=
    State.ticket?_of_tickets (by simp)
  refine ⟨by rw [hbay, if_pos rfl], fun c hc => ?_, ?_, fun m x _ hx => ⟨x, by rw [hfind, hx], .refl x⟩, fun hs hroom => ?_, ?_⟩
  · rw [hbay, if_neg hc]
    exact .refl _
  · rw [h.admission_filter hses]
    simp
  · have hshows : ((s.setBay b { s.bay b with blockPending := v }).bay b).shows
        { (s.setBay b { s.bay b with blockPending := v }).bay b with
          state := .faulted, fault := some code, ticket := none } = true := by
      rw [State.setBay_bay_self]
      rcases hs with hs | hs
      · exact Bay.shows_of_state (by simpa using hs.symm)
      · simp [Bay.shows, hs.symm]
    exact (State.changeBay_settled hshows (.refl _)).shown (hroom.imp id fun h => by
      rw [State.queue_of_queues (s := s) (by simp)]; omega)
  · rw [State.enterFaulted, State.changeBay_eq]
    rfl

theorem State.Released.faultTaken {s t : State} (h : AgreeBut none none s) {b : BayNo} {k y : Ticket} {note : Notice}
    {queue : List Nat} {code : FaultCode} (hn : (s.bay b).ticket = some k.number) (hs : (s.bay b).session = none)
    (hr : s.Released t b k y note queue ((s.bay b).faultedBy code)) : s.FaultTaken t b code :=
  ⟨hr.bay, hr.others, by rw [h.admission_filter hs, hr.frame],
    fun n x hne hx => hr.tickets n (fun e => hne (e ▸ hn)) x hx, fun _ => hr.shown, by rw [hr.frame]⟩

theorem State.Vacated.faultTaken {s t : State} (h : AgreeBut none none s) {b : BayNo} {k : Ticket} {note : Notice}
    {code : FaultCode} (hn : (s.bay b).ticket = some k.number) (hs : (s.bay b).session = none)
    (hr : s.Vacated t b k note ((s.bay b).faultedBy code)) : s.FaultTaken t b code :=
  ⟨hr.bay.eq_of_ne_free (by simp [Bay.faultedBy]), hr.others, by rw [h.admission_filter hs, hr.frame],
    fun n x hne hx => hr.tickets n (fun e => hne (e ▸ hn)) x hx, fun _ => hr.shown, by rw [hr.frame]⟩

/-- The record with which a bay enters FAULTED, unnamed and without a session, is the one of a head fault. -/
theorem Bay.faultedBy_of {x : Bay} (hst : x.state ≠ .blocked) (hs : x.session = none) (code : FaultCode) :
    ({ ({ x with ticket := none } : Bay) with state := .faulted, fault := some code, ticket := none } : Bay) =
      x.faultedBy code := by
  simp [Bay.faultedBy, hst, hs]

section Claimed

variable {s : State} (h : AgreeBut none none s) {b : BayNo} {k : Ticket} (hn : (s.bay b).ticket = some k.number)
  (hk : s.ticket? k.number = some k) (code : FaultCode)
include h hn hk

/-- A head fault at an OFFERED bay withdraws the offer (R23, R61). -/
theorem AgreeBut.headFault_of_offered (hst : (s.bay b).state = .offered) :
    s.FaultTaken (s.headFault b code) b code ∧ s.ClaimEnded (s.headFault b code) b k := by
  have hses := h.session_none (b := b) (by simp [hst]) (by simp [hst])
  have hks : k.state = .offered := TicketState.of_claims.1 (hst ▸ (h.claims hn hk).2)
  have e : s.headFault b code = ((s.withdraw b .block).enterFaulted b code).matchIn (s.claimPool b) := by
    simp [State.headFault, hst]
  have hr := State.withdraw_released (w := .block)
    (f := fun x => { x with state := .faulted, fault := some code, ticket := none }) hn hk hst (fun _ => by simp)
    (((s.withdraw b .block).enterFaulted b code).matched_matchIn (s.claimPool b))
  rw [← e] at hr
  rw [Bay.faultedBy_of (x := s.bay b) (by simp [hst]) hses] at hr
  exact ⟨hr.faultTaken h hn hses, fun z hz => by simp [hses] at hz, fun hc => by simp [hks] at hc,
    fun _ => ⟨hr.count, hr.ticket⟩, fun hc => by simp [hks] at hc, fun hc => by simp [hks] at hc,
    fun hc => by simp [hks] at hc⟩

/-- A head fault at a HELD bay requeues the ticket where its queue has room, and frees it else (R23, R64). -/
theorem AgreeBut.headFault_of_held (hst : (s.bay b).state = .held) :
    s.FaultTaken (s.headFault b code) b code ∧ s.ClaimEnded (s.headFault b code) b k := by
  have hses := h.session_none (b := b) (by simp [hst]) (by simp [hst])
  obtain ⟨hkb, hc⟩ := h.claims hn hk
  have hks : k.state = .held := TicketState.of_claims.2.1 (hst ▸ hc)
  have hroom := State.requeueRoom_of_live hn hk
  by_cases hl : (s.pool k.pool).queue.length < 12
  · have e : s.headFault b code = ((s.requeue k.number b).enterFaulted b code).matchIn (s.claimPool b) := by
      simp [State.headFault, hst, hn, hroom, hl]
    obtain ⟨front, back, -, hnf, -, -, hr⟩ := h.requeue_released
      (f := fun x => { x with state := .faulted, fault := some code, ticket := none }) hn hk hst (fun _ => by simp)
      (((s.requeue k.number b).enterFaulted b code).matched_matchIn (s.claimPool b))
    rw [← e] at hr
    rw [Bay.faultedBy_of (x := s.bay b) (by simp [hst]) hses] at hr
    have hq : ((s.headFault b code).pool k.pool).queue = front ++ k.number :: back := by
      rw [hr.pool, if_pos rfl]
    have hidx : ((s.headFault b code).pool k.pool).queue.idxOf k.number = front.length := by
      rw [hq, List.idxOf_append_of_notMem hnf]
      simp
    refine ⟨hr.faultTaken h hn hses, fun z hz => by simp [hses] at hz, fun hc => by simp [hks] at hc,
      fun hc => by simp [hks] at hc, fun _ hc => by omega, fun _ _ => ⟨?_, ?_⟩, fun hc => ?_⟩
    · rw [hidx]
      exact hr.count
    · obtain ⟨z, hz, hkz⟩ := hr.ticket
      exact ⟨z, hz, by rw [hq]; simp, hkz⟩
    · rw [hks] at hc
      simp only [reduceCtorEq, true_and, false_or] at hc
      omega
  · have e : s.headFault b code = (s.freeWith k.number (.holdExpired k.number b)).enterFaulted b code := by
      simp [State.headFault, hst, hn, hroom, hl]
    have hr := State.freeWith_vacated (note := .holdExpired k.number b)
      (f := fun x => { x with state := .faulted, fault := some code, ticket := none }) hn hk hkb (by simp [hks])
      (Notice.lasting_of (fun _ _ _ _ h => by cases h) (fun _ _ h => by cases h))
      (by rintro (⟨_, _, _, e⟩ | e) <;> cases e) (Bay.shows_of_state (by simp [hst]))
      (.refl ((s.freeWith k.number (.holdExpired k.number b)).enterFaulted b code))
    rw [← e] at hr
    rw [Bay.faultedBy_of (x := s.bay b) (by simp [hst]) hses] at hr
    exact ⟨hr.faultTaken h hn hses, fun z hz => by simp [hses] at hz, fun hc => by simp [hks] at hc,
      fun hc => by simp [hks] at hc, fun _ _ => hr.count, fun _ hc => absurd hc hl, fun _ => hr.ticket⟩

/-- A head fault at a bound OCCUPIED bay frees the ticket (R23). -/
theorem AgreeBut.headFault_of_bound (hst : (s.bay b).state = .occupied) :
    s.FaultTaken (s.headFault b code) b code ∧ s.ClaimEnded (s.headFault b code) b k := by
  have hses := h.session_none (b := b) (by simp [hst]) (by simp [hst])
  obtain ⟨hkb, hc⟩ := h.claims hn hk
  have hks : k.state = .arrived := TicketState.of_claims.2.2.1 (hst ▸ hc)
  have e : s.headFault b code = (s.freeWith k.number (.departed k.number b)).enterFaulted b code := by
    simp [State.headFault, hst, hn]
  have hr := State.freeWith_vacated (note := .departed k.number b)
    (f := fun x => { x with state := .faulted, fault := some code, ticket := none }) hn hk hkb (by simp [hks])
    (Notice.lasting_of (fun _ _ _ _ h => by cases h) (fun _ _ h => by cases h))
    (by rintro (⟨_, _, _, e⟩ | e) <;> cases e) (Bay.shows_of_state (by simp [hst]))
    (.refl ((s.freeWith k.number (.departed k.number b)).enterFaulted b code))
  rw [← e] at hr
  rw [Bay.faultedBy_of (x := s.bay b) (by simp [hst]) hses] at hr
  exact ⟨hr.faultTaken h hn hses, fun z hz => by simp [hses] at hz, fun _ => hr.count, fun hc => by simp [hks] at hc,
    fun hc => by simp [hks] at hc, fun hc => by simp [hks] at hc, fun _ => hr.ticket⟩

/-- A head fault at a bay with a session closes it (R23, R102). -/
theorem AgreeBut.headFault_of_session {z : Session} (hz : (s.bay b).session = some z) :
    s.FaultTaken (s.headFault b code) b code ∧ s.ClaimEnded (s.headFault b code) b k := by
  obtain ⟨hst, hzn, y, hy, hyb, hyc⟩ := h.served hz
  have hzk : z.ticket = k.number := Option.some.inj (hzn.symm.trans hn)
  rw [hzk] at hy
  obtain rfl := Option.some.inj (hk.symm.trans hy)
  have hend := State.endSession_ended (hzk ▸ hk) hyb hyc .fault
  have hused : (s.bay b).state ≠ .blocked ∧ (s.bay b).state ≠ .faulted := by rcases hst with e | e <;> simp [e]
  have e : s.headFault b code = ((s.endSession b z .fault).enterFaulted b code).recompute := by
    rcases hst with e | e <;> simp [State.headFault, e, hz]
  have hset := State.changeBay_settled (s := s.endSession b z .fault) (b := b)
    (f := fun x => { x with state := .faulted, fault := some code, ticket := none })
    (Bay.shows_of_state (by simpa [hend.bay] using hused.2.symm)) (.refl ((s.endSession b z .fault).enterFaulted b code))
  rw [e]
  rw [show ({ (s.endSession b z .fault).bay b with state := .faulted, fault := some code, ticket := none } : Bay) =
    (s.bay b).faultedBy code by simp [hend.bay, Bay.faultedBy, hused.1]] at hset
  generalize (s.endSession b z .fault).enterFaulted b code = v at hset
  generalize s.endSession b z .fault = u at hend hset
  have tbay : ∀ c, v.recompute.bay c = v.bay c := State.bay_of_bays (by simp)
  have tfind : ∀ m, v.recompute.ticket? m = v.ticket? m := State.ticket?_of_tickets (by simp)
  have hvb : v.bay b = (s.bay b).faultedBy code := hset.bay_of_ne_free (by simp [Bay.faultedBy])
  refine ⟨⟨by rw [tbay, hvb], fun c hc => ?_, ?_, fun n x hne hx => ?_, fun _ hroom => ?_, ?_⟩,
    fun z' hz' p hp => ?_, fun hc => by simp [hyc] at hc, fun hc => by simp [hyc] at hc, fun hc => by simp [hyc] at hc,
    fun hc => by simp [hyc] at hc, fun _ => ?_⟩
  · rw [tbay, ← hend.other c hc]
    exact hset.other c hc
  · rw [State.recompute_admission, hset.frame]
    show u.admission = _
    rw [hend.frame]
  · have hnz : n ≠ z.ticket := fun e' => hne (hzn.trans (congrArg some e'.symm))
    obtain ⟨y, hy, hk⟩ := hset.ticket n x (by rw [hend.tickets n hnz, hx])
    exact ⟨y, by rw [tfind, hy], hk⟩
  · have hv : v.Shown b := hset.shown (by rw [hend.queue]; exact NoticeQueue.room_takeAll_if hroom _ _ _)
    exact hv.recompute
  · rw [State.recompute_eq, hset.frame, hend.frame]
  · obtain rfl := Option.some.inj (hz.symm.trans hz')
    have hlast := s.closedNotice_lasting b z .fault
    rw [(v.recompute_tells_not (m := s.closedNotice b z .fault) (by rintro ⟨_, _, _, e⟩; cases e)).count hlast (by simp),
      (hset.tells_not (m := s.closedNotice b z .fault) (by rintro (⟨_, _, _, e⟩ | e) <;> cases e)).count hlast (by simp),
      hend.queue, NoticeQueue.count_takeAll_if hlast hp]
  · rw [tfind]
    exact hset.dead _ (by rw [← hzk]; exact hend.ticket)

end Claimed

/-- A head fault at a bay that names no ticket (R23). -/
theorem AgreeBut.headFault_of_unclaimed {s : State} (h : AgreeBut none none s) {b : BayNo}
    (hn : (s.bay b).ticket = none) (code : FaultCode) : s.FaultTaken (s.headFault b code) b code := by
  have hunclaimed := (h.bay b (by simp)).claimed
  have hplain : (s.bay b).state ≠ .blocked → s.FaultTaken (s.enterFaulted b code) b code := fun hst => by
    have := h.enterFaulted_taken hn (v := (s.bay b).blockPending) (by simp [hst]) code
    rwa [State.setBay_bay_eq] at this
  cases hst : (s.bay b).state with
  | blocked =>
    have e : s.headFault b code = (s.setBay b { s.bay b with blockPending := true }).enterFaulted b code := by
      simp [State.headFault, hst]
    exact e ▸ h.enterFaulted_taken hn (by simp [hst]) code
  | occupied =>
    have e : s.headFault b code = s.enterFaulted b code := by simp [State.headFault, hst, hn]
    exact e ▸ hplain (by simp [hst])
  | offline | free | faulted =>
    have e : s.headFault b code = s.enterFaulted b code := by simp [State.headFault, hst]
    exact e ▸ hplain (by simp [hst])
  | offered | held | active | suspended => simp [hst, hn] at hunclaimed

/-- A head fault takes the bay and ends the claim on it (R23). -/
theorem AgreeBut.headFault_taken {s : State} (h : AgreeBut none none s) (b : BayNo) (code : FaultCode) :
    s.FaultTaken (s.headFault b code) b code ∧
      ∀ k, (s.bay b).ticket = some k.number → s.ticket? k.number = some k → s.ClaimEnded (s.headFault b code) b k := by
  cases hn : (s.bay b).ticket with
  | none => exact ⟨h.headFault_of_unclaimed hn code, by simp⟩
  | some n =>
    obtain ⟨k, hk, -, rfl, -, hc, -⟩ := h.claimant hn
    have hboth : s.FaultTaken (s.headFault b code) b code ∧ s.ClaimEnded (s.headFault b code) b k := by
      cases hks : k.state with
      | waiting => simp [hks, TicketState.claims] at hc
      | offered => exact h.headFault_of_offered hn hk code (by simpa [hks, TicketState.claims] using hc)
      | held => exact h.headFault_of_held hn hk code (by simpa [hks, TicketState.claims] using hc)
      | arrived => exact h.headFault_of_bound hn hk code (by simpa [hks, TicketState.claims] using hc)
      | charging =>
        obtain ⟨z, hz⟩ := Option.isSome_iff_exists.mp
          ((h.bay b (by simp)).session.mpr (by simpa [hks, TicketState.claims] using hc))
        exact h.headFault_of_session hn hk code hz
    refine ⟨hboth.1, fun k' hn' hk' => ?_⟩
    obtain rfl : k = k' := Option.some.inj (hk.symm.trans (by rw [Option.some.inj hn', hk']))
    exact hboth.2

/-- Settles O49: the head fault, after the link record of the exchange has been written. -/
theorem headFaultTakesTheBay : Obligations.HeadFaultTakesTheBay := by
  unfold Obligations.HeadFaultTakesTheBay
  intro s b c code hc hw hevent
  obtain ⟨u, hx, hsweep, he⟩ : ∃ u, s.Exchanged u b ∧ u.bus.sweep = s.bus.sweep ∧
      exec c s = .next ((u.headFault b code).afterSlot b) := by
    rcases hevent with ⟨r, rfl, hr, hst, rfl⟩ | ⟨rfl, hbusy, rfl⟩
    · refine ⟨s.linkOnline b, s.changeLink_exchanged b _, by rw [State.linkOnline_eq]; simp, ?_⟩
      rw [exec_report hw hr, State.takeReport, if_pos hst]
    · exact ⟨_, s.setLink_exchanged b _, by simp, by rw [exec_busy hw, State.takeBusy_eq, if_pos hbusy]⟩
  obtain ⟨htaken, hclaim⟩ := (hx.agree ((agreeBut_none_iff s).mpr hc) hsweep).headFault_taken b code
  have hlink : ((u.headFault b code).afterSlot b).link b = (u.headFault b code).link b := (State.afterSlot_link _ b b).2
  have hframe := (u.headFault b code).afterSlot_eq b
  refine ⟨_, he, ?_⟩
  generalize u.headFault b code = v at htaken hclaim hlink hframe
  generalize v.afterSlot b = t at hlink hframe ⊢
  have tbay : ∀ d, t.bay d = v.bay d := State.bay_of_bays (by rw [hframe])
  have tfind : ∀ m, t.ticket? m = v.ticket? m := State.ticket?_of_tickets (by rw [hframe])
  have tpool : ∀ q, t.pool q = v.pool q := State.pool_of_pools (by rw [hframe])
  have tqueue : ∀ p, t.queue p = v.queue p := State.queue_of_queues (by rw [hframe])
  refine ⟨?_, fun d hd => ?_, ?_, fun n x hne hn => ?_, fun hchange hroom => ?_, fun k hn hk => ?_, ?_⟩
  · rw [tbay, htaken.bay, hx.bay]
    rfl
  · rw [tbay, ← hx.bay d]
    exact htaken.others d hd
  · rw [hframe, ← hx.admission]
    exact htaken.admission
  · rw [tfind]
    exact htaken.tickets n x (by rw [hx.bay]; exact hne) (by rw [hx.ticket, hn])
  · have hshown := htaken.shown (by rw [hx.bay]; exact hchange) (hx.room (.inr hroom))
    rw [State.Shown, State.bayNotice, htaken.bay, ← hlink] at hshown
    rw [tqueue]
    exact hshown
  · obtain ⟨hses, hdep, hwith, hexp, hreq, hdead⟩ := hclaim k (by rw [hx.bay, hn]) (by rw [hx.ticket, hk])
    have hcount : ∀ {n : Notice}, u.toldOrigin v k n → n.lasting → n.shownBay = none →
        (s.queue k.origin).notices.length < 23 →
        (t.queue k.origin).notices.count n = (s.queue k.origin).notices.count n + 1 := fun htold hlast hnb hl => by
      rw [tqueue, htold (hx.length hl), hx.count hlast hnb]
    rw [hx.pool] at hexp hreq hdead
    refine ⟨fun z hz => ?_, fun hs => hcount (hdep hs) ?_ rfl, fun hs => hcount (hwith hs).1 ?_ rfl,
      fun hs hl => hcount (hexp hs hl) ?_ rfl, fun hs hl => ?_, fun hs => by rw [tfind, hdead hs],
      fun hs => by rw [tfind]; exact (hwith hs).2, fun hs hl => ?_⟩
    · intro closed p hl
      have hzk : z.ticket = k.number := by
        obtain ⟨-, hzn, -⟩ := AgreeBut.served ((agreeBut_none_iff s).mpr hc) hz
        exact Option.some.inj (hzn.symm.trans hn)
      have hclosed : u.closedNotice b z .fault = closed := by
        simp only [State.closedNotice, State.duration, hzk, hx.deviceSeconds, closed]
      have := hses z (by rw [hx.bay, hz]) p (hx.length hl)
      rwa [hclosed, ← tqueue, hx.count (hclosed ▸ u.closedNotice_lasting b z .fault) rfl] at this
    · exact Notice.lasting_of (fun _ _ _ _ h => by cases h) (fun _ _ h => by cases h)
    · exact (Notice.offerWithdrawn_plain _ _ _).1
    · exact Notice.lasting_of (fun _ _ _ _ h => by cases h) (fun _ _ h => by cases h)
    · rw [tpool]
      exact hcount (hreq hs hl).1 (Notice.requeued_plain _ _ _).1 rfl
    · rw [tfind, tpool]
      exact (hreq hs hl).2
  · rw [hframe, htaken.frame, hx.frame]

end Sys2Proof.Machine
end

