-- ==== Sys2Proof/Proofs/ReportEnds.lean ====
section
/-! SUPPORT. The last steps of a REPORT: the demand, the energy and the echo (R17, R19, R95, R96, R118), and the frame that
follows (R125). -/

namespace Sys2Proof.Machine

/-! ### The echo (R118) -/

/-- The echo writes the setpoint records and the notice queues, and nothing else. -/
theorem State.takeEcho_eq (s : State) (b : BayNo) (e : Nat) : s.takeEcho b e = { s with
    queues := (s.takeEcho b e).queues, power := { s.power with setpoints := (s.takeEcho b e).power.setpoints } } := by
  unfold State.takeEcho
  dsimp only
  split
  · split
    · rfl
    · rw [State.recompute_eq]
      rfl
  · rfl

theorem State.takeEcho_tells (s : State) (b : BayNo) (e : Nat) : s.tellsOnly (s.takeEcho b e) fun _ n => n.isThrottle := by
  unfold State.takeEcho
  dsimp only
  split
  · split
    · exact .of_queues rfl _
    · exact (State.recompute_tells (s.setSetpoint b _)).congr rfl rfl
  · exact .of_queues rfl _

/-- A matching echo acknowledges the issued value (R118). -/
theorem State.takeEcho_acked (s : State) (b : BayNo) (e : Nat) : ((s.takeEcho b e).setpoint b).acked =
    if e = (s.setpoint b).seq then (s.setpoint b).issued else (s.setpoint b).acked := by
  unfold State.takeEcho
  dsimp only
  split
  · split
    · rename_i h
      exact h.symm
    · rw [State.recompute_acked, State.setSetpoint_setpoint_self]
  · rfl

/-- The echo of a bay that is not ACTIVE leaves its issued value (R117, R118). -/
theorem State.takeEcho_issued {s : State} {b : BayNo} (h : (s.bay b).state ≠ .active) (e : Nat) :
    ((s.takeEcho b e).setpoint b).issued = (s.setpoint b).issued := by
  unfold State.takeEcho
  dsimp only
  split
  · split
    · rfl
    · rw [State.recompute_setpoint_of_inactive (s := s.setSetpoint b _) h, State.setSetpoint_setpoint_self]
  · rfl

/-! ### The demand and the energy (R17, R95, R96) -/

/-- The session as a REPORT leaves it (R17, R95, R96). -/
def Session.reported (k : Session) (r : Report) : Session :=
  { k with demand := min r.demand.toNat 63,
           energy := if r.tagEcho.toNat = k.tag then min (k.energy + r.energy.toNat) 4294967295 else k.energy }

/-- The bay record as the demand and the energy of a REPORT leave it (R17). -/
def Bay.reported (x : Bay) (r : Report) : Bay := if x.state = .active then x.modSession (·.reported r) else x

theorem Bay.reported_of_active {x : Bay} {k : Session} (h : x.state = .active) (hk : x.session = some k) (r : Report) :
    x.reported r = { x with session := some (k.reported r) } := by
  simp [Bay.reported, h, Bay.modSession, hk]

theorem Bay.reported_of_inactive {x : Bay} (h : x.state ≠ .active) (r : Report) : x.reported r = x := if_neg h

theorem State.demandStep_eq (s : State) (b : BayNo) (d : Nat) : s.demandStep b d = { s with
    bays := (s.demandStep b d).bays, queues := (s.demandStep b d).queues,
    power := { s.power with setpoints := (s.demandStep b d).power.setpoints } } := by
  unfold State.demandStep
  dsimp only
  split
  · split
    · rw [State.recompute_eq]
      rfl
    · rfl
  · rfl

theorem State.demandStep_tells (s : State) (b : BayNo) (d : Nat) :
    s.tellsOnly (s.demandStep b d) fun _ n => n.isThrottle := by
  unfold State.demandStep
  dsimp only
  split
  · split
    · exact (State.recompute_tells (s.setBay b _)).congr rfl rfl
    · exact .of_queues rfl _
  · exact .of_queues rfl _

theorem State.demandStep_bay (s : State) (b : BayNo) (d : Nat) (c : BayNo) : (s.demandStep b d).bay c =
    if c = b ∧ (s.bay b).state = .active then (s.bay b).modSession (fun k => { k with demand := min d 63 })
    else s.bay c := by
  have hw : ∀ c, (s.setBay b ((s.bay b).modSession (fun k => { k with demand := min d 63 }))).bay c =
      if c = b then (s.bay b).modSession (fun k => { k with demand := min d 63 }) else s.bay c := fun c =>
    State.setBay_bay _ b c _
  unfold State.demandStep
  dsimp only
  split
  · rename_i hst
    simp only [hst, and_true]
    split
    · exact (State.bay_of_bays (s := s.setBay b _) (by simp) c).trans (hw c)
    · exact hw c
  · rename_i hst
    simp [hst]

/-- A demand that leaves the capped demand leaves the setpoint records (R17). -/
theorem State.demandStep_setpoint {s : State} {b : BayNo} {d : Nat}
    (h : ((s.bay b).modSession (fun k => { k with demand := min d 63 })).cappedDemand = (s.bay b).cappedDemand) :
    (s.demandStep b d).power.setpoints = s.power.setpoints := by
  unfold State.demandStep
  simp only [State.setBay_bay_self, h]
  simp only [ne_eq, not_true_eq_false, if_false]
  split <;> rfl

theorem State.energyStep_eq (s : State) (b : BayNo) (i e : Nat) :
    s.energyStep b i e = { s with bays := (s.energyStep b i e).bays } := by
  unfold State.energyStep
  split <;> rfl

theorem State.energyStep_bay (s : State) (b : BayNo) (i e : Nat) (c : BayNo) : (s.energyStep b i e).bay c =
    if c = b ∧ (s.bay b).state = .active ∧ (s.bay b).echoes e = true then
      (s.bay b).modSession (fun k => { k with energy := min (k.energy + i) energyTop })
    else s.bay c := by
  unfold State.energyStep
  split
  · rename_i h
    rw [State.setBay_bay]
    simp [h]
  · rename_i h
    rw [if_neg fun hc => h hc.2]

/-! ### The REPORT behind its code (R19) -/

/-- The demand, the energy and the echo of a REPORT (R19, steps 5 to 7). -/
def State.endReport (s : State) (b : BayNo) (r : Report) : State :=
  ((s.demandStep b r.demand.toNat).energyStep b r.energy.toNat r.tagEcho.toNat).takeEcho b r.echo.toNat

theorem State.endReport_bay (s : State) (b : BayNo) (r : Report) (c : BayNo) :
    (s.endReport b r).bay c = if c = b then (s.bay b).reported r else s.bay c := by
  have hlast : (s.endReport b r).bay c =
      ((s.demandStep b r.demand.toNat).energyStep b r.energy.toNat r.tagEcho.toNat).bay c :=
    State.bay_of_bays (by rw [State.endReport, State.takeEcho_eq]) c
  rw [hlast, State.energyStep_bay, State.demandStep_bay, State.demandStep_bay]
  by_cases hc : c = b
  · subst hc
    by_cases hst : (s.bay c).state = .active
    · cases hk : (s.bay c).session with
      | none => simp [hst, Bay.modSession, Bay.echoes, Bay.reported, hk]
      | some k =>
        simp only [hst, true_and, and_true, if_true, Bay.modSession, hk, Option.map_some, Bay.echoes, Bay.reported,
          Session.reported, eq_comm (a := r.tagEcho.toNat)]
        split <;> rename_i ht <;> simp only [decide_eq_true_eq] at ht <;> simp [ht, energyTop]
    · simp [hst, Bay.reported]
  · simp [hc]

/-- What the last steps of a REPORT come to, with the frame that follows. -/
structure State.ReportEnded (s t : State) (b : BayNo) (r : Report) : Prop where
  bay : ∀ c, t.bay c = if c = b then (s.bay b).reported r else s.bay c
  link : t.link b = s.link b
  tells : s.tellsOnly t fun _ n => n.isThrottle
  acked : ((s.bay b).modSession (fun k => { k with demand := min r.demand.toNat 63 })).cappedDemand =
    (s.bay b).cappedDemand → (t.setpoint b).acked =
      if r.echo.toNat = (s.setpoint b).seq then (s.setpoint b).issued else (s.setpoint b).acked
  issued : (s.bay b).state ≠ .active → (t.setpoint b).issued = (s.setpoint b).issued
  frame : t = { s with bays := t.bays, queues := t.queues, bus := t.bus,
                       power := { s.power with setpoints := t.power.setpoints } }

theorem State.endReport_ended (s : State) (b : BayNo) (r : Report) :
    s.ReportEnded ((s.endReport b r).afterSlot b) b r := by
  have hnext := (s.endReport b r).afterSlot_eq b
  have hlink := (State.afterSlot_link (s.endReport b r) b b).2
  have hset : ∀ c, ((s.endReport b r).afterSlot b).setpoint c = (s.endReport b r).setpoint c :=
    State.setpoint_of_setpoints (by rw [hnext])
  have henergy := (s.demandStep b r.demand.toNat).energyStep_eq b r.energy.toNat r.tagEcho.toNat
  have hmid : ∀ c, ((s.demandStep b r.demand.toNat).energyStep b r.energy.toNat r.tagEcho.toNat).setpoint c =
      (s.demandStep b r.demand.toNat).setpoint c := State.setpoint_of_setpoints (by rw [henergy])
  refine ⟨fun c => ?_, ?_, ?_, fun h => ?_, fun h => ?_, ?_⟩
  · rw [State.bay_of_bays (s := s.endReport b r) (by rw [hnext]), State.endReport_bay]
  · rw [hlink]
    exact State.link_of_links (by simp [State.endReport]) b
  · exact ((s.demandStep_tells b r.demand.toNat).trans ((State.takeEcho_tells
      ((s.demandStep b r.demand.toNat).energyStep b r.energy.toNat r.tagEcho.toNat) b r.echo.toNat).congr
        (by rw [henergy]) rfl)).congr rfl (by rw [hnext]; rfl)
  · have hfirst : (s.demandStep b r.demand.toNat).setpoint b = s.setpoint b :=
      State.setpoint_of_setpoints (State.demandStep_setpoint h) b
    rw [hset, State.endReport, State.takeEcho_acked, hmid, hfirst]
  · have hstill : s.demandStep b r.demand.toNat = s := by simp [State.demandStep, h]
    have hstill' : s.energyStep b r.energy.toNat r.tagEcho.toNat = s := by simp [State.energyStep, h]
    rw [hset, State.endReport, hstill, hstill', State.takeEcho_issued h]
  · rw [hnext, State.endReport, State.takeEcho_eq, State.energyStep_eq, State.demandStep_eq]

namespace State.ReportEnded

variable {s t : State} {b : BayNo} {r : Report} (h : s.ReportEnded t b r)
include h

theorem other {c : BayNo} (hc : c ≠ b) : t.bay c = s.bay c := by rw [h.bay, if_neg hc]

theorem ticket (n : Nat) : t.ticket? n = s.ticket? n := State.ticket?_of_tickets (by rw [h.frame]) n

/-- A bay that is not ACTIVE is left as it is (R17). -/
theorem inactive (hb : (s.bay b).state ≠ .active) (c : BayNo) : t.bay c = s.bay c := by
  rw [h.bay, Bay.reported_of_inactive hb]
  split
  · subst c
    rfl
  · rfl

/-- What is no THROTTLE stands as often as before. -/
theorem count {m : Notice} (hm : m.lasting) (ht : ¬m.isThrottle) (p : Port) :
    (t.queue p).notices.count m = (s.queue p).notices.count m := h.tells.count hm ht

/-- A bay that is shown stays so. -/
theorem shown (hs : s.Shown b) : t.Shown b := by
  have hst : (t.bay b).state = (s.bay b).state ∧ (t.bay b).fault = (s.bay b).fault := by
    rw [h.bay, if_pos rfl]
    unfold Bay.reported
    split <;> exact ⟨rfl, rfl⟩
  refine hs.keep hst.1 (fun _ => hst.2) (by rw [h.link]) (h.tells.mono fun _ n hn => ?_)
  obtain ⟨k, c, on, rfl⟩ := hn
  simp [Notice.shownBay]

end State.ReportEnded

/-! ### The outcome of a REPORT (R19, R126) -/

/-- The plug and the presence as a REPORT's fields give them (R9, R176). -/
theorem takenPresence_eq (r : Report) :
    takenPresence r = if r.plug = 2#8 ∨ r.presence = 2#8 then .present else .empty := by
  unfold takenPresence plugOf presenceOf
  by_cases h : r.plug = 2#8 <;> simp [h]

/-- A plug that is reported is PLUGGED or UNPLUGGED (R176). -/
theorem plugOf_of_defined {r : Report} (h : reportDefined r = true) :
    r.plug = 2#8 ∧ plugOf r.plug = .plugged ∨ r.plug = 1#8 ∧ plugOf r.plug = .unplugged := by
  have hp : r.plug = 1#8 ∨ r.plug = 2#8 := by
    simp only [reportDefined, Bool.and_eq_true, Bool.or_eq_true, beq_iff_eq] at h
    tauto
  rcases hp with e | e
  · exact .inr ⟨e, by simp [plugOf, e]⟩
  · exact .inl ⟨e, by simp [plugOf, e]⟩

/-- The first steps of a REPORT: the plug and the presence (R19). -/
def State.firstSteps (s : State) (b : BayNo) (r : Report) : State :=
  (s.plugStep b (plugOf r.plug) r.tagEcho.toNat).presenceStep b (takenPresence r)

/-- A REPORT without a fault writes the link record, and takes its steps in their order (R19, R126). -/
theorem exec_report_ended {s : State} {b : BayNo} {r : Report} (hw : s.bus.sweep = .slot b) (hr : reportDefined r = true)
    (hst : r.status = 0#8) : exec (.report r) s =
      .next (((((s.linkOnline b).firstSteps b r).codeStep b r.code.toNat).endReport b r).afterSlot b) := by
  rw [exec_report hw hr]
  simp only [State.takeReport, hst, State.endReport, State.firstSteps]
  rfl

end Sys2Proof.Machine
end

