-- ==== Sys2Proof/Proofs/FirstSteps.lean ====
section
/-! SUPPORT. The plug and the presence of a REPORT by the state of the bay (R10 to R15, R19, R99). -/

namespace Sys2Proof.Machine

/-! ### The fields as they are written (R9) -/

/-- The bay record with the plug and the presence of a REPORT (R9). -/
def Bay.seen (x : Bay) (r : Report) : Bay := { x with plug := plugOf r.plug, presence := takenPresence r }

/-- The bay record with the plug of a REPORT (R15). -/
def Bay.plugged (x : Bay) (r : Report) : Bay := { x with plug := plugOf r.plug }

/-- The bay record with the presence of a REPORT (R9). -/
def Bay.present (x : Bay) (r : Report) : Bay := { x with presence := takenPresence r }

theorem State.setBay_setBay (s : State) (b : BayNo) (x y : Bay) : (s.setBay b x).setBay b y = s.setBay b y := by
  simp [State.setBay]

theorem takenPresence_of_plugged {r : Report} (h : plugOf r.plug = .plugged) : takenPresence r = .present := if_pos h

theorem plugOf_of_empty {r : Report} (hr : reportDefined r = true) (h : takenPresence r = .empty) :
    plugOf r.plug = .unplugged := by
  rcases plugOf_of_defined hr with ⟨-, e⟩ | ⟨-, e⟩
  · rw [takenPresence_of_plugged e] at h
    cases h
  · exact e

/-- The record of a bay as the plug and the presence of a REPORT are written. -/
def State.sees (s : State) (b : BayNo) (r : Report) : State := s.setBay b ((s.bay b).seen r)

/-! ### The steps by the state of the bay -/

section Steps

variable {s : State} {b : BayNo} {r : Report}

/-- A plug that is not acted on is written (R15). -/
theorem State.plugStep_written (h : (s.bay b).state = .active ∧ plugOf r.plug = .plugged ∨
    (s.bay b).state = .occupied ∧ (plugOf r.plug = .unplugged ∨ (s.bay b).plug = .plugged) ∨
    (s.bay b).state ≠ .active ∧ (s.bay b).state ≠ .suspended ∧ (s.bay b).state ≠ .occupied) :
    s.plugStep b (plugOf r.plug) r.tagEcho.toNat = s.setBay b ((s.bay b).plugged r) := by
  rcases h with ⟨hst, hp⟩ | ⟨hst, hp⟩ | ⟨ha, hs, ho⟩
  · simp [State.plugStep, hst, hp, Bay.plugged]
  · rcases hp with hp | hp <;> simp [State.plugStep, hst, hp, Bay.plugged]
  · cases hst : (s.bay b).state with
    | active => exact absurd hst ha
    | suspended => exact absurd hst hs
    | occupied => exact absurd hst ho
    | _ => simp [State.plugStep, hst, Bay.plugged]

/-- The presence is written over a plug that has been written alone. -/
theorem State.setBay_seen : (s.setBay b ((s.bay b).plugged r)).setBay b
    { (s.setBay b ((s.bay b).plugged r)).bay b with presence := takenPresence r } = s.sees b r := by
  rw [State.setBay_setBay, State.setBay_bay_self]
  rfl

theorem State.plugged_state : ((s.setBay b ((s.bay b).plugged r)).bay b).state = (s.bay b).state := by
  rw [State.setBay_bay_self]
  rfl

theorem State.plugged_ticket : ((s.setBay b ((s.bay b).plugged r)).bay b).ticket = (s.bay b).ticket := by
  rw [State.setBay_bay_self]
  rfl

theorem State.firstSteps_written (h : s.plugStep b (plugOf r.plug) r.tagEcho.toNat = s.setBay b ((s.bay b).plugged r)) :
    s.firstSteps b r = (s.setBay b ((s.bay b).plugged r)).presenceStep b (takenPresence r) := by
  rw [State.firstSteps, h]

/-- A REPORT that changes nothing but the fields of the bay (R9). -/
theorem State.firstSteps_quiet (h : (s.bay b).state = .active ∧ plugOf r.plug = .plugged ∨
    (s.bay b).state = .occupied ∧ takenPresence r = .present ∧ (plugOf r.plug = .unplugged ∨ (s.bay b).plug = .plugged) ∨
    (s.bay b).state = .offered ∨ (s.bay b).state = .blocked ∨ (s.bay b).state = .faulted ∨
    ((s.bay b).state = .free ∨ (s.bay b).state = .held) ∧ takenPresence r = .empty) : s.firstSteps b r = s.sees b r := by
  have hp : s.plugStep b (plugOf r.plug) r.tagEcho.toNat = s.setBay b ((s.bay b).plugged r) := by
    refine State.plugStep_written ?_
    rcases h with h | ⟨h, -, hp⟩ | h | h | h | ⟨h | h, -⟩
    · exact .inl h
    · exact .inr (.inl ⟨h, hp⟩)
    all_goals exact .inr (.inr (by simp [h]))
  rw [State.firstSteps_written hp, State.presenceStep, State.setBay_seen, State.plugged_state]
  rcases h with ⟨h, -⟩ | ⟨h, e, -⟩ | h | h | h | ⟨h | h, e⟩
  · simp [h]
  · simp [h, e]
  · simp [h]
  · simp [h]
  · simp [h]
  · simp [h, e]
  · simp [h, e]

/-- An OFFLINE bay is placed (R10). -/
theorem State.firstSteps_offline (h : (s.bay b).state = .offline) : s.firstSteps b r = (s.sees b r).place b := by
  rw [State.firstSteps_written (State.plugStep_written (.inr (.inr (by simp [h])))), State.presenceStep, State.setBay_seen,
    State.plugged_state]
  simp [h]

/-- A FREE bay becomes OCCUPIED (R11). -/
theorem State.firstSteps_free (h : (s.bay b).state = .free) (hp : takenPresence r = .present) : s.firstSteps b r =
    ((s.sees b r).changeBay b fun x => { x with state := .occupied, ticket := none }).plugInIfPlugged b := by
  rw [State.firstSteps_written (State.plugStep_written (.inr (.inr (by simp [h])))), State.presenceStep, State.setBay_seen,
    State.plugged_state]
  simp [h, hp]

/-- The arrival at a HELD bay (R12). -/
theorem State.firstSteps_held {n : Nat} (h : (s.bay b).state = .held) (hn : (s.bay b).ticket = some n)
    (hp : takenPresence r = .present) : s.firstSteps b r = ((s.sees b r).arrive n b).plugInIfPlugged b := by
  rw [State.firstSteps_written (State.plugStep_written (.inr (.inr (by simp [h])))), State.presenceStep, State.setBay_seen,
    State.plugged_state, State.plugged_ticket]
  simp [h, hp, hn]

/-- The departure from an OCCUPIED bay (R13). -/
theorem State.firstSteps_departed (h : (s.bay b).state = .occupied) (hg : plugOf r.plug = .unplugged)
    (hp : takenPresence r = .empty) : s.firstSteps b r = (s.sees b r).depart b := by
  rw [State.firstSteps_written (State.plugStep_written (.inr (.inl ⟨h, .inl hg⟩))), State.presenceStep, State.setBay_seen,
    State.plugged_state]
  simp [h, hp]

/-- The plug-in at an OCCUPIED bay, which stands PRESENT (R14). -/
theorem State.firstSteps_pluggedIn (h : (s.bay b).state = .occupied) (hg : plugOf r.plug = .plugged)
    (hold : (s.bay b).plug ≠ .plugged) : s.firstSteps b r =
      ((s.setBay b ((s.bay b).plugged r)).plugIn b).setBay b
        (((s.setBay b ((s.bay b).plugged r)).plugIn b).bay b |>.present r) := by
  have hstep : s.plugStep b (plugOf r.plug) r.tagEcho.toNat = (s.setBay b ((s.bay b).plugged r)).plugIn b := by
    simp [State.plugStep, h, hg, hold, Bay.plugged]
  have hst := State.plugIn_state (s := s.setBay b ((s.bay b).plugged r)) (b := b) (by
    rw [State.setBay_bay_self]
    exact h)
  rw [State.firstSteps, hstep]
  have hp := takenPresence_of_plugged hg
  rcases hst with e | e <;> simp [State.presenceStep, e, hp, Bay.present]

/-- The close of a session by its bay's plug or tag (R16, R99). -/
theorem State.firstSteps_closed (h : (s.bay b).state = .active ∧ plugOf r.plug = .unplugged ∨
    (s.bay b).state = .suspended ∧ ¬(plugOf r.plug = .plugged ∧ (s.bay b).echoes r.tagEcho.toNat = true)) :
    s.firstSteps b r =
      ((s.setBay b ((s.bay b).plugged r)).closePlaced b .unplugged).presenceStep b (takenPresence r) := by
  have hstep : s.plugStep b (plugOf r.plug) r.tagEcho.toNat =
      (s.setBay b ((s.bay b).plugged r)).closePlaced b .unplugged := by
    rcases h with ⟨h, hg⟩ | ⟨h, hg⟩
    · simp [State.plugStep, h, hg, Bay.plugged]
    · simp only [State.plugStep, h, if_neg hg, Bay.plugged]
  rw [State.firstSteps, hstep]

/-- The resumption of a session (R100). -/
theorem State.firstSteps_resumed (h : (s.bay b).state = .suspended) (hg : plugOf r.plug = .plugged)
    (he : (s.bay b).echoes r.tagEcho.toNat = true) : s.firstSteps b r =
      ((s.setBay b ((s.bay b).plugged r)).resume b).presenceStep b (takenPresence r) := by
  have hstep : s.plugStep b (plugOf r.plug) r.tagEcho.toNat = (s.setBay b ((s.bay b).plugged r)).resume b := by
    simp [State.plugStep, h, hg, he, Bay.plugged]
  rw [State.firstSteps, hstep]

end Steps

/-! ### What the first steps reach -/

/-- The steps of a REPORT at a bay: other bays are kept or offered, and what no claim is stays (R19). -/
structure State.Confined (s t : State) (b : BayNo) : Prop where
  others : s.baysKept t b
  frame : t = { s with
    bays := t.bays, admission := t.admission, tickets := t.tickets, ticketCounter := t.ticketCounter, pools := t.pools,
    queues := t.queues, power := { s.power with setpoints := t.power.setpoints } }

namespace State.Confined

variable {s t u : State} {b : BayNo}

theorem refl (s : State) (b : BayNo) : s.Confined s b := ⟨fun _ _ => .refl _, rfl⟩

theorem trans (h : s.Confined t b) (h' : t.Confined u b) : s.Confined u b :=
  ⟨fun c hc => (h.others c hc).trans (h'.others c hc), by rw [h'.frame, h.frame]⟩

/-- A step that keeps the bays, and all but queues, tickets and setpoint records. -/
theorem of_bays (hb : t.bays = s.bays) (hf : t = { s with
    admission := t.admission, tickets := t.tickets, ticketCounter := t.ticketCounter, queues := t.queues,
    power := { s.power with setpoints := t.power.setpoints } }) : s.Confined t b :=
  ⟨fun c _ => by rw [State.bay_of_bays hb]; exact .refl _, by rw [hf]⟩

theorem setBay (s : State) (b : BayNo) (x : Bay) : s.Confined (s.setBay b x) b :=
  ⟨fun c hc => by rw [State.setBay_bay_of_ne s hc]; exact .refl _, rfl⟩

theorem changeBay (s : State) (b : BayNo) (f : Bay → Bay) : s.Confined (s.changeBay b f) b :=
  ⟨fun c hc => by rw [State.changeBay_bay, if_neg hc]; exact .refl _, by rw [State.changeBay_eq]⟩

theorem raise (s : State) (b : BayNo) (p : Port) (n : Notice) : s.Confined (s.raise p n) b := of_bays rfl rfl

theorem raiseTo (s : State) (b : BayNo) (k : Nat) (n : Notice) : s.Confined (s.raiseTo k n) b := by
  unfold State.raiseTo
  split
  · exact raise s b _ n
  · exact refl s b

theorem setSetpoint (s : State) (b c : BayNo) (x : Setpoint) : s.Confined (s.setSetpoint c x) b := of_bays rfl rfl

theorem recompute (s : State) (b : BayNo) : s.Confined s.recompute b := of_bays (by simp) (by rw [State.recompute_eq])

theorem of_matched (h : s.Matched t) (b : BayNo) : s.Confined t b := ⟨fun c _ => h.bay c, by rw [h.frame]⟩

theorem openSession (s : State) (b : BayNo) (n : Nat) : s.Confined (s.openSession b n) b := by
  have hopened : s.Confined (s.openedFor b n) b :=
    ⟨fun c hc => by rw [State.openedFor_bay, if_neg hc]; exact .refl _, rfl⟩
  have htold := (hopened.trans (raiseTo _ b n (.sessionOpened n b (nextTag (s.bay b).tagCounter)))).trans
    (raise _ b .s (((s.openedFor b n).raiseTo n (.sessionOpened n b (nextTag (s.bay b).tagCounter))).bayNotice b))
  exact (htold.trans (setSetpoint _ b b _)).trans (recompute _ b)

theorem plugIn (s : State) (b : BayNo) : s.Confined (s.plugIn b) b := by
  unfold State.plugIn
  split
  · exact setBay s b _
  split
  · exact openSession s b _
  dsimp only
  split
  · have hissued : s.Confined (s.issue (s.autoTicket b)) b := of_bays rfl rfl
    exact (hissued.trans (setBay _ b _)).trans (openSession _ b _)
  · exact raise s b .s _

theorem plugInIfPlugged (s : State) (b : BayNo) : s.Confined (s.plugInIfPlugged b) b := by
  unfold State.plugInIfPlugged
  split
  · exact plugIn s b
  · exact refl s b

theorem enterFree (s : State) (b : BayNo) : s.Confined (s.enterFree b) b := by
  have hsettle : s.Confined (s.settleFree b) b := by
    unfold State.settleFree
    repeat' split
    all_goals exact changeBay s b _
  exact hsettle.trans (of_matched (State.matched_matchIfFree _ b) b)

theorem place (s : State) (b : BayNo) : s.Confined (s.place b) b := by
  have hplaced : s.Confined (s.placeAt b) b := State.placeAt_eq s b ▸ changeBay s b _
  exact (hplaced.trans (plugInIfPlugged _ b)).trans (of_matched (State.matched_matchIfFree _ b) b)

theorem arrive (s : State) (n : Nat) (b : BayNo) : s.Confined (s.arrive n b) b := by
  have harrived : s.Confined (s.modTicket n (fun t => { t with state := .arrived, holdDeadline := none })) b :=
    of_bays rfl rfl
  exact (harrived.trans (raiseTo _ b n _)).trans (changeBay _ b _)

theorem resume (s : State) (b : BayNo) : s.Confined (s.resume b) b :=
  ((changeBay s b _).trans (setSetpoint _ b b _)).trans (recompute _ b)

theorem closePlaced (h : AgreeBut none none s) (b : BayNo) (why : CloseReason) : s.Confined (s.closePlaced b why) b := by
  cases hk : (s.bay b).session with
  | none =>
    simp only [State.closePlaced, hk]
    exact refl s b
  | some k =>
    have hclosed := State.closePlaced_closed h hk why
    exact ⟨hclosed.others, by rw [hclosed.frame]⟩

/-- The departure of the ticket that is bound to the bay (R13). -/
theorem depart (h : AgreeBut none none s) (hst : (s.bay b).state = .occupied) : s.Confined (s.depart b) b := by
  unfold State.depart
  split
  · rename_i n hn
    obtain ⟨k, hk, -, rfl, hkb, hc, -⟩ := h.claimant hn
    have hks : ¬(k.state = .waiting ∨ k.state = .offered) := by
      simp [show k.state = .arrived from TicketState.of_claims.2.2.1 (hst ▸ hc)]
    have hfreed : s.Confined (s.freeWith k.number (.departed k.number b)) b := by
      refine ⟨fun c hc => ?_, ?_⟩
      · rw [State.freeWith_bay hk hkb hks hn, if_neg hc]
        exact .refl _
      · rw [State.freeWith_eq hk hkb hks]
        unfold State.unname
        split <;> rfl
    exact hfreed.trans (enterFree _ b)
  · exact enterFree s b

theorem plugStep (h : AgreeBut none none s) (b : BayNo) (g : Plug) (e : Nat) : s.Confined (s.plugStep b g e) b := by
  have hw : AgreeBut none none (s.setBay b { s.bay b with plug := g }) := h.touch b rfl rfl rfl rfl rfl
  have h1 := setBay s b { s.bay b with plug := g }
  unfold State.plugStep
  dsimp only
  split
  · split
    · exact h1.trans (closePlaced hw b _)
    · exact h1
  · split
    · exact h1.trans (resume _ b)
    · exact h1.trans (closePlaced hw b _)
  · split
    · exact h1.trans (plugIn _ b)
    · exact h1
  all_goals exact h1

theorem presenceStep (h : AgreeBut none none s) (b : BayNo) (p : Presence) : s.Confined (s.presenceStep b p) b := by
  have hw : AgreeBut none none (s.setBay b { s.bay b with presence := p }) := h.touch b rfl rfl rfl rfl rfl
  have h1 := setBay s b { s.bay b with presence := p }
  unfold State.presenceStep
  dsimp only
  split
  · exact h1.trans (place _ b)
  · split
    · exact (h1.trans (changeBay _ b _)).trans (plugInIfPlugged _ b)
    · exact h1
  · split
    · split
      · exact (h1.trans (arrive _ _ b)).trans (plugInIfPlugged _ b)
      · exact h1
    · exact h1
  · split
    · rename_i hst _
      exact h1.trans (depart hw (by rw [State.setBay_bay_self]; exact hst))
    · exact h1
  all_goals exact h1

/-- The first steps of a REPORT (R19). -/
theorem firstSteps (h : AgreeBut none none s) (b : BayNo) (r : Report) : s.Confined (s.firstSteps b r) b :=
  (plugStep h b _ _).trans (presenceStep (h.plugStep b _ _) b _)

end State.Confined

end Sys2Proof.Machine
end

