-- ==== Sys2Proof/Proofs/SessionReports.lean ====
section
/-! SUPPORT. A REPORT at a bay with a session (R15 to R17, R95 to R100): O50. -/

namespace Sys2Proof.Machine

/-- A REPORT without a fault and without a code: its first steps, then its last (R19, R126). -/
theorem exec_report_plain {s : State} {b : BayNo} {r : Report} (hw : s.bus.sweep = .slot b) (hr : reportDefined r = true)
    (hst : r.status = 0#8) (hc : r.code = 0#16) :
    ∃ t, exec (.report r) s = .next t ∧ ((s.linkOnline b).firstSteps b r).ReportEnded t b r := by
  refine ⟨_, exec_report_ended hw hr hst, ?_⟩
  have hnone : ((s.linkOnline b).firstSteps b r).codeStep b r.code.toNat = (s.linkOnline b).firstSteps b r := by
    simp [State.codeStep, hc]
  rw [hnone]
  exact State.endReport_ended _ b r

theorem State.linkOnline_exchanged (s : State) (b : BayNo) : s.Exchanged (s.linkOnline b) b := s.changeLink_exchanged b _

theorem State.linkOnline_agree {s : State} {b : BayNo} (h : AgreeBut none none s) : AgreeBut none none (s.linkOnline b) :=
  (s.linkOnline_exchanged b).agree h (by rw [State.linkOnline_eq]; simp)

/-- A head that has sent a REPORT is ONLINE (R130). -/
theorem State.linkOnline_link (s : State) (b : BayNo) : ((s.linkOnline b).link b).link = .online := by
  rw [State.linkOnline_eq, State.changeLink_link, if_pos rfl]
  rfl

/-- The exchange leaves room for the BAY_STATE of its bay. -/
theorem State.Exchanged.roomForBay {s t : State} {b : BayNo} (h : s.Exchanged t b) (hl : (s.queue .s).notices.length < 24) :
    (t.queue .s).lists b ∨ (t.queue .s).notices.length < 24 := by
  by_cases hlist : (t.queue .s).lists b
  · exact .inl hlist
  · have h1 := h.load .s
    have h2 := (s.queue .s).load_le b
    rw [NoticeQueue.load, if_neg hlist] at h1
    exact .inr (by omega)

/-! ### Resumption (R100) -/

/-- The bay record of a resumed session (R100). -/
def Bay.resumed (x : Bay) : Bay := { x.modSession (fun k => { k with reconnect := none }) with state := .active }

theorem State.resume_bay (s : State) (b c : BayNo) :
    (s.resume b).bay c = if c = b then (s.bay b).resumed else s.bay c := by
  rw [← State.changeBay_bay]
  exact State.bay_of_bays (s := s.changeBay b Bay.resumed) (by simp only [State.resume, State.recompute_bays]; rfl) c

theorem State.resume_eq (s : State) (b : BayNo) : s.resume b = { s with
    bays := (s.resume b).bays, queues := (s.resume b).queues,
    power := { s.power with setpoints := (s.resume b).power.setpoints } } := by
  unfold State.resume
  dsimp only
  rw [State.recompute_eq, State.changeBay_eq]
  rfl

/-- A resumption shows the bay (R7, R100). -/
theorem State.resume_shown {s : State} {b : BayNo} (hst : (s.bay b).state = .suspended)
    (hroom : (s.queue .s).lists b ∨ (s.queue .s).notices.length < 24) : (s.resume b).Shown b := by
  have hchange : (s.changeBay b Bay.resumed).Shown b := (State.changeBay_settled (f := Bay.resumed)
    (Bay.shows_of_state (by rw [hst]; simp [Bay.resumed])) (.refl _)).shown hroom
  exact State.Shown.recompute (hchange.setSetpoint b _)

/-- The presence of a REPORT at a bay that has been placed OCCUPIED and unnamed (R13, R16). -/
structure State.PlacedAnew (s t : State) (b : BayNo) (x : Bay) : Prop where
  bay : x.keptOrOffered (t.bay b)
  others : s.baysKept t b
  ticket : ∀ m y, s.ticket? m = some y → ∃ z, t.ticket? m = some z ∧ y.keptOrOffered z
  dead : ∀ m, s.ticket? m = none → t.ticket? m = none
  tells : s.tellsOnly t fun _ n => n.ofSettling
  frame : t = { s with bays := t.bays, tickets := t.tickets, pools := t.pools, queues := t.queues }

/-- Entry to FREE is placement of an EMPTY bay (R5, R6). -/
theorem State.enterFree_eq {s : State} {b : BayNo} (hp : (s.bay b).presence = .empty) :
    s.enterFree b = (s.changeBay b fun x => x.placed (s.linkLost b)).matchIfFree b := by
  rw [← State.placeAt_eq]
  simp [State.enterFree, State.placeAt, hp]

/-- An EMPTY bay is not placed OCCUPIED (R6). -/
theorem Bay.placed_of_empty {x : Bay} (hp : x.presence = .empty) (lost : Bool) : (x.placed lost).state ≠ .occupied := by
  unfold Bay.placed
  rw [hp]
  cases x.blockPending <;> cases lost <;> simp

/-- An EMPTY bay that was OCCUPIED enters FREE (R5, R13). -/
theorem State.enterFree_settled {s : State} {b : BayNo} (hst : (s.bay b).state = .occupied)
    (hp : (s.bay b).presence = .empty) : s.Settled (s.enterFree b) b ((s.bay b).placed (s.linkLost b)) := by
  rw [State.enterFree_eq hp]
  refine State.changeBay_settled (Bay.shows_of_state ?_) (State.matched_matchIfFree _ b)
  rw [hst]
  exact Bay.placed_of_empty hp _

theorem State.presenceStep_unnamed {s : State} {b : BayNo} {p : Presence} (hst : (s.bay b).state = .occupied)
    (hn : (s.bay b).ticket = none) (hp : p = .present ∨ p = .empty) :
    s.PlacedAnew (s.presenceStep b p) b (({ s.bay b with presence := p } : Bay).placed (s.linkLost b)) := by
  have hother : ∀ c, c ≠ b → (s.setBay b { s.bay b with presence := p }).bay c = s.bay c := fun c hc =>
    State.setBay_bay_of_ne s hc _
  rcases hp with rfl | rfl
  · have e : s.presenceStep b .present = s.setBay b { s.bay b with presence := .present } := by
      simp [State.presenceStep, hst]
    have hrec : ({ s.bay b with presence := .present } : Bay).placed (s.linkLost b) =
        { s.bay b with presence := .present } := by
      unfold Bay.placed
      dsimp only
      rw [← hst, ← hn]
    rw [e, hrec]
    refine ⟨.inl (State.setBay_bay_self s b _), fun c hc => .inl (hother c hc), fun m y hy => ⟨y, hy, .refl y⟩,
      fun m => id, .of_queues rfl _, rfl⟩
  · have e : s.presenceStep b .empty = (s.setBay b { s.bay b with presence := .empty }).enterFree b := by
      simp [State.presenceStep, hst, State.depart, hn]
    have hset := State.enterFree_settled (s := s.setBay b { s.bay b with presence := .empty }) (b := b)
      (by rw [State.setBay_bay_self]; exact hst) (by rw [State.setBay_bay_self])
    rw [State.setBay_bay_self] at hset
    rw [e]
    refine ⟨hset.bay, fun c hc => ?_, hset.ticket, hset.dead, hset.tells.congr rfl rfl, by rw [hset.frame]; rfl⟩
    rw [← hother c hc]
    exact hset.other c hc

/-! ### The outcome by the plug and the tag -/

section Outcomes

variable {s : State} {b : BayNo} {k : Session} {r : Report}

/-- The record of a PRESENT bay as a REPORT of PLUGGED is written. -/
theorem Bay.seen_of_plugged {x : Bay} (hp : x.presence = .present) (hg : plugOf r.plug = .plugged) :
    x.seen r = { x with plug := .plugged } := by
  unfold Bay.seen
  rw [takenPresence_of_plugged hg, hg, ← hp]

/-- A suspended session takes up again, and the bay is shown where there is room (R7, R100). -/
theorem State.firstSteps_resume (hst : (s.bay b).state = .suspended) (hk : (s.bay b).session = some k)
    (hp : (s.bay b).presence = .present) (hg : plugOf r.plug = .plugged) (he : r.tagEcho.toNat = k.tag) :
    (∀ c, (s.firstSteps b r).bay c = if c = b then
      { s.bay b with state := .active, plug := .plugged, session := some { k with reconnect := none } } else s.bay c) ∧
    ((s.queue .s).lists b ∨ (s.queue .s).notices.length < 24 → (s.firstSteps b r).Shown b) ∧
    s.firstSteps b r = { s with bays := (s.firstSteps b r).bays, queues := (s.firstSteps b r).queues,
                                power := { s.power with setpoints := (s.firstSteps b r).power.setpoints } } := by
  have hw := State.setBay_bay_self s b ((s.bay b).plugged r)
  have hbay := State.resume_bay (s.setBay b ((s.bay b).plugged r)) b
  have hact : (((s.setBay b ((s.bay b).plugged r)).resume b).bay b).state = .active := by
    rw [hbay, if_pos rfl]
    rfl
  have hshown : (s.queue .s).lists b ∨ (s.queue .s).notices.length < 24 →
      ((s.setBay b ((s.bay b).plugged r)).resume b).Shown b :=
    State.resume_shown (s := s.setBay b ((s.bay b).plugged r)) (by rw [hw]; exact hst)
  have hframe := State.resume_eq (s.setBay b ((s.bay b).plugged r)) b
  rw [State.firstSteps_resumed hst hg (by simp [Bay.echoes, hk, he]), takenPresence_of_plugged hg]
  generalize (s.setBay b ((s.bay b).plugged r)).resume b = u at hbay hact hshown hframe
  have hstep : u.presenceStep b .present = u.setBay b { u.bay b with presence := .present } := by
    simp [State.presenceStep, hact]
  refine ⟨fun c => ?_, fun h => (hshown h).presenceStep b _, by rw [hstep, hframe]; rfl⟩
  rw [hstep, State.setBay_bay, hbay, if_pos rfl, hw, hbay]
  by_cases hc : c = b
  · rw [if_pos hc, if_pos hc]
    simp [Bay.resumed, Bay.plugged, Bay.modSession, hk, hg, hp]
  · rw [if_neg hc, if_neg hc, if_neg hc, State.setBay_bay_of_ne s hc]

/-- A bay that has been placed, and may have been offered, is not ACTIVE (R6, R55). -/
theorem Bay.keptOrOffered.ne_active {x y : Bay} {lost : Bool} (h : (x.placed lost).keptOrOffered y) : y.state ≠ .active := by
  rcases h with rfl | ⟨-, n, rfl⟩
  · exact (Bay.placed_state_ne x lost).2.1
  · simp

/-- Placement reads neither the state nor the ticket (R6). -/
theorem Bay.placed_of_state (x : Bay) (st : BayState) (lost : Bool) :
    ({ x with state := st, ticket := none } : Bay).placed lost = x.placed lost := by
  unfold Bay.placed
  cases x.presence <;> cases x.blockPending <;> rfl

/-- A session is closed by its bay's plug or tag, and the bay takes the presence (R16, R99). -/
theorem State.firstSteps_close (h : AgreeBut none none s) (hk : (s.bay b).session = some k)
    (hp : (s.bay b).presence = .present) (hclose : (s.bay b).state = .active ∧ plugOf r.plug = .unplugged ∨
      (s.bay b).state = .suspended ∧ ¬(plugOf r.plug = .plugged ∧ (s.bay b).echoes r.tagEcho.toNat = true)) :
    ∃ u, (s.setBay b ((s.bay b).plugged r)).ClosedAt u b k .unplugged ∧
      u.PlacedAnew (s.firstSteps b r) b (((s.bay b).seen r).withoutSession.placed (s.linkLost b)) := by
  have hw := State.setBay_bay_self s b ((s.bay b).plugged r)
  have hagree : AgreeBut none none (s.setBay b ((s.bay b).plugged r)) := h.touch b rfl rfl rfl rfl rfl
  have hclosed := State.closePlaced_closed (k := k) hagree (by rw [hw]; exact hk) .unplugged
  refine ⟨_, hclosed, ?_⟩
  rw [State.firstSteps_closed hclose]
  have hlost : ((s.setBay b ((s.bay b).plugged r)).closePlaced b .unplugged).linkLost b = s.linkLost b := by
    unfold State.linkLost
    rw [State.link_of_links (s := s) (by simp)]
  generalize (s.setBay b ((s.bay b).plugged r)).closePlaced b .unplugged = u at hclosed hlost
  have hub : u.bay b = { ((s.bay b).plugged r).withoutSession with state := .occupied, ticket := none } := by
    have hplaced : ((s.bay b).plugged r).withoutSession.placed (s.linkLost b) =
        { ((s.bay b).plugged r).withoutSession with state := .occupied, ticket := none } := by
      simp [Bay.placed, Bay.withoutSession, Bay.plugged, hp]
    have hbay := hclosed.bay
    rw [hw, show (s.setBay b ((s.bay b).plugged r)).linkLost b = s.linkLost b from rfl, hplaced] at hbay
    exact hbay.eq_of_ne_free (by simp)
  have hanew := State.presenceStep_unnamed (s := u) (b := b) (p := takenPresence r) (by rw [hub]) (by rw [hub]) (by
    rw [takenPresence_eq]
    split
    · exact .inl rfl
    · exact .inr rfl)
  rw [hub, hlost] at hanew
  rw [← Bay.placed_of_state _ .occupied]
  exact hanew

end Outcomes

/-- Settles O50: a REPORT at a bay with a session, by its plug and its tag echo. -/
theorem reportAtASession : Obligations.ReportAtASession := by
  unfold Obligations.ReportAtASession
  intro s b k r hc hw hk hp hr hstatus hcode taken added
  have h := (agreeBut_none_iff s).mpr hc
  have hx := s.linkOnline_exchanged b
  have ha := State.linkOnline_agree (b := b) h
  have hlink := s.linkOnline_link b
  have hlinks : ((s.linkOnline b).firstSteps b r).link b = (s.linkOnline b).link b :=
    State.link_of_links (by simp [State.firstSteps]) b
  obtain ⟨t, he, hend⟩ := exec_report_plain hw hr hstatus hcode
  generalize s.linkOnline b = u at hx ha hlink hlinks hend
  have hub := hx.bay b
  have hdefined := plugOf_of_defined hr
  refine ⟨fun hst hg => ⟨t, he, ?_⟩, fun hst hg htag => ⟨t, he, ?_⟩, fun hclose => ⟨t, he, ?_⟩⟩
  · have hg' : plugOf r.plug = .plugged := by simp [plugOf, hg]
    have hrec : k.reconnect = none := by
      have := ((h.bay b (by simp)).holder k hk).2
      simpa [hst] using this
    rw [State.firstSteps_quiet (.inl ⟨by rw [hub]; exact hst, hg'⟩), State.sees, hub, Bay.seen_of_plugged hp hg'] at hend
    refine ⟨?_, fun hdemand => ?_, fun d hd => ?_, ?_⟩
    · rw [hend.bay, if_pos rfl, State.setBay_bay_self, Bay.reported_of_active (x := { s.bay b with plug := .plugged }) hst hk]
      simp [Session.reported, taken, added, ← hrec]
    · have hset : ∀ c, (u.setBay b { s.bay b with plug := .plugged }).setpoint c = s.setpoint c := fun c =>
        hx.setpoint c
      rw [hend.acked, hset]
      rw [State.setBay_bay_self]
      simp [Bay.cappedDemand, Bay.modSession, hk, hst, hdemand]
    · rw [hend.other hd, State.setBay_bay_of_ne _ hd, hx.bay]
    · rw [hend.frame, hx.frame]
      rfl
  · have hg' : plugOf r.plug = .plugged := by simp [plugOf, hg]
    obtain ⟨hbay, hshown, hframe⟩ := State.firstSteps_resume (s := u) (r := r) (by rw [hub]; exact hst)
      (by rw [hub]; exact hk) (by rw [hub]; exact hp) hg' htag
    have hact := hbay b
    rw [if_pos rfl, hub] at hact
    generalize u.firstSteps b r = v at hend hlinks hbay hshown hframe hact
    have htb : t.bay b = { s.bay b with
        state := .active, plug := .plugged, session := some { taken with energy := added } } := by
      rw [hend.bay, if_pos rfl, hact, Bay.reported_of_active rfl rfl]
      simp [Session.reported, taken, added, htag]
    refine ⟨htb, fun d hd => ?_, fun hl => ?_, ?_⟩
    · rw [hend.other hd, hbay, if_neg hd, hx.bay]
    · have := hend.shown (hshown (hx.roomForBay hl))
      rw [State.Shown, State.bayNotice_of_sound (by simp [htb]), htb, hend.link, hlinks, hlink] at this
      exact this
    · rw [hend.frame, hframe, hx.frame]
  · obtain ⟨hst, -, y, hy, -⟩ := h.served hk
    have hends : (u.bay b).state = .active ∧ plugOf r.plug = .unplugged ∨
        (u.bay b).state = .suspended ∧ ¬(plugOf r.plug = .plugged ∧ (u.bay b).echoes r.tagEcho.toNat = true) := by
      rw [hub]
      rcases hclose with hg | ⟨hst, htag⟩
      · have hg' : plugOf r.plug = .unplugged := by simp [plugOf, hg]
        exact hst.imp (⟨·, hg'⟩) (⟨·, by simp [hg']⟩)
      · refine .inr ⟨hst, fun hboth => htag ?_⟩
        have : k.tag = r.tagEcho.toNat := by simpa [Bay.echoes, hk] using hboth.2
        exact this.symm
    obtain ⟨v, hclosed, hanew⟩ := State.firstSteps_close ha (by rw [hub]; exact hk) (by rw [hub]; exact hp) hends
    have hlost : u.linkLost b = false := by simp [State.linkLost, hlink]
    rw [hub, hlost] at hanew
    have hsees : ∀ c, c ≠ b → (u.setBay b ((u.bay b).plugged r)).bay c = s.bay c := fun c hc =>
      (State.setBay_bay_of_ne _ hc _).trans (hx.bay c)
    have hseen : ((s.bay b).seen r).withoutSession = { s.bay b with
        presence := if r.plug = 2#8 ∨ r.presence = 2#8 then .present else .empty,
        plug := if r.plug = 2#8 then .plugged else .unplugged, session := none } := by
      simp [Bay.seen, Bay.withoutSession, takenPresence_eq, plugOf]
    rw [← hseen]
    generalize u.firstSteps b r = x at hend hanew
    have hidle := Bay.keptOrOffered.ne_active hanew.bay
    refine ⟨?_, fun c hc => ?_, ?_, fun m hm z hz => ?_, ?_, ?_, ?_⟩
    · rw [hend.inactive hidle]
      exact hanew.bay
    · rw [hend.other hc, ← hsees c hc]
      exact (hclosed.others c hc).trans (hanew.others c hc)
    · rw [hend.ticket]
      exact hanew.dead _ hclosed.ticket
    · obtain ⟨y1, h1, hk1⟩ := hclosed.tickets m hm z ((hx.ticket m).trans hz)
      obtain ⟨y2, h2, hk2⟩ := hanew.ticket m y1 h1
      exact ⟨y2, (hend.ticket m).trans h2, hk1.trans hk2⟩
    · rw [hend.frame, hanew.frame, ← hx.admission]
      exact hclosed.admission
    · rw [hend.issued hidle, State.setpoint_of_setpoints (s := v) (by rw [hanew.frame]), hclosed.setpoint]
      simp [Setpoint.ended, Setpoint.issue_spec]
    · intro y' hy' closed p hl
      have hn : (u.setBay b ((u.bay b).plugged r)).closedNotice b k .unplugged = closed := by
        show Notice.sessionClosed k.ticket b .unplugged k.energy (u.deviceSeconds - k.opened) = closed
        rw [hx.deviceSeconds]
      have hlast : closed.lasting := hn ▸ State.closedNotice_lasting _ b k .unplugged
      have hsettle : ¬closed.ofSettling := by simp [closed, Notice.ofSettling, Notice.shownBay]
      have htold := hclosed.told y' ((hx.ticket k.ticket).trans hy') p (hx.length (n := 23) hl)
      rw [hn] at htold
      rw [hend.count hlast (by simp [closed, Notice.isThrottle]),
        (hanew.tells.mono (Q := fun _ n => n ≠ closed) fun _ n hn' e => hsettle (e ▸ hn')).count hlast (by simp), htold]
      congr 1
      exact hx.count hlast rfl p

end Sys2Proof.Machine
end

