-- ==== Sys2Proof/Proofs/PresentedCodes.lean ====
section
/-! SUPPORT. The dispatch of a presented code, and its place in a REPORT (R17 to R19, R86): O52. -/

namespace Sys2Proof.Machine

/-! ### The code in its REPORT (R19) -/

/-- The last steps of a REPORT at a bay that is not ACTIVE: the echo alone (R17, R19). -/
theorem State.endReport_inactive {s : State} {b : BayNo} (h : (s.bay b).state ≠ .active) (r : Report) :
    s.endReport b r = s.takeEcho b r.echo.toNat := by
  have hdemand : s.demandStep b r.demand.toNat = s := if_neg h
  have henergy : s.energyStep b r.energy.toNat r.tagEcho.toNat = s := if_neg fun hc => h hc.1
  rw [State.endReport, hdemand, henergy]

theorem exec_report_coded {s : State} {b : BayNo} {r : Report} (hw : s.bus.sweep = .slot b) (hr : reportDefined r = true)
    (hst : r.status = 0#8) (hc : r.code ≠ 0#16) : exec (.report r) s =
      .next (((((s.linkOnline b).firstSteps b r).presentCode b r.code.toNat).endReport b r).afterSlot b) := by
  have hcode : r.code.toNat ≠ 0 := fun e => hc (BitVec.eq_of_toNat_eq e)
  rw [exec_report_ended hw hr hst, State.codeStep, if_neg hcode]

/-! ### The tests of a code (R18) -/

section Tests

variable {s : State} {b : BayNo} {code : Nat}

theorem State.presentCode_held (h : (s.bay b).state = .held ∧ (s.bay b).ticket = some code) :
    s.presentCode b code = (s.arrive code b).plugInIfPlugged b := by
  simp [State.presentCode, Bay.holds, h]

theorem State.presentCode_bound (h : ((s.bay b).state = .occupied ∨ (s.bay b).state = .active ∨
    (s.bay b).state = .suspended) ∧ (s.bay b).ticket = some code) : s.presentCode b code = s := by
  obtain ⟨hst, hn⟩ := h
  have hheld : (s.bay b).holds code = false := by
    rcases hst with e | e | e <;> simp [Bay.holds, e]
  simp [State.presentCode, hheld, Bay.binds, hst, hn]

/-- The first booking of the bay, where its number is the code and it may activate early (R18). -/
def State.startsEarly (s : State) (b : BayNo) (code : Nat) (k : Booking) (back : List Booking) : Prop :=
  s.bookings b = k :: back ∧ k.number = code ∧ s.offset k < (s.booking.bands.frozen : Int) ∧
    ((s.bay b).state = .free ∨ (s.bay b).state = .occupied ∧ (s.bay b).ticket = none)

theorem State.presentCode_early {k : Booking} {back : List Booking} (h : s.startsEarly b code k back) :
    s.presentCode b code = s.activateEarly b k := by
  obtain ⟨hbook, hk, hoff, hst⟩ := h
  have hheld : (s.bay b).holds code = false := by
    rcases hst with e | ⟨e, -⟩ <;> simp [Bay.holds, e]
  have hbound : (s.bay b).binds code = false := by
    rcases hst with e | ⟨-, e⟩ <;> simp [Bay.binds, e]
  have hearly : s.earlyBooking b code = some k := by
    simp [State.earlyBooking, hbook, hk, hoff, hst]
  simp [State.presentCode, hheld, hbound, hearly]

theorem State.presentCode_other (hheld : ¬((s.bay b).state = .held ∧ (s.bay b).ticket = some code))
    (hbound : ¬(((s.bay b).state = .occupied ∨ (s.bay b).state = .active ∨ (s.bay b).state = .suspended) ∧
      (s.bay b).ticket = some code)) (hearly : ∀ k back, ¬s.startsEarly b code k back) : s.presentCode b code =
        if s.heldElsewhere b code then s.raise .s (.wrongBay b code) else s.raise .s (.codeUnknown b code) := by
  have hnone : s.earlyBooking b code = none := by
    unfold State.earlyBooking
    split
    · rename_i k back hbook
      refine if_neg fun hc => hearly k back ?_
      exact ⟨hbook, hc.1, hc.2.2, hc.2.1⟩
    · rfl
  simp only [State.presentCode, Bay.holds, hheld, Bay.binds, hbound, hnone]
  simp

end Tests

/-! ### What a code does (R12, R18, R86) -/

/-- A plug-in follows where an OCCUPIED bay is PLUGGED (R14). -/
theorem State.plugInIfPlugged_if {s : State} {b : BayNo} {x : Bay} {g : Plug} (h : s.bay b = x)
    (hst : x.state = .occupied) (hg : x.plug = g := by rfl) :
    s.plugInIfPlugged b = if g = .plugged then s.plugIn b else s := by
  simp [State.plugInIfPlugged, h, hst, hg]

/-- An arrival leaves the bay OCCUPIED (R12). -/
theorem State.arrive_bay (s : State) (n : Nat) (b : BayNo) :
    (s.arrive n b).bay b = { s.bay b with state := .occupied } := by
  have hbay : ((s.modTicket n Ticket.hasArrived).raiseTo n (.arrived n b)).bay b = s.bay b :=
    State.bay_of_bays (by simp) b
  have e : s.arrive n b = ((s.modTicket n Ticket.hasArrived).raiseTo n (.arrived n b)).changeBay b
    (fun x => { x with state := .occupied }) := rfl
  rw [e, State.changeBay_bay, if_pos rfl, hbay]

/-- An arrival makes its ticket ARRIVED (R12). -/
theorem State.arrive_ticket (s : State) (n : Nat) (b : BayNo) (m : Nat) :
    (s.arrive n b).ticket? m = (s.ticket? m).map (fun t => if m = n then t.hasArrived else t) := by
  rw [← State.modTicket_ticket_find s n m Ticket.hasArrived fun _ => rfl]
  exact State.ticket?_of_tickets (s := s.modTicket n Ticket.hasArrived) (by simp only [State.arrive]; simp; rfl) m

/-- The arrival of the ticket that is held at the bay (R12). -/
theorem State.arrive_eq {s : State} {b : BayNo} {n : Nat} {k : Ticket} (hst : (s.bay b).state = .held)
    (hk : s.ticket? n = some k) : s.arrive n b =
      (({ s with
          tickets := s.tickets.map (fun y => if y.number = n then y.hasArrived else y),
          bays := s.bays.set b { s.bay b with state := .occupied } } : State).raise k.origin (.arrived n b)).raise .s
        (.bayState b .occupied (s.link b).link none) := by
  have hlive : (s.modTicket n Ticket.hasArrived).ticket? n = some k.hasArrived := by
    rw [State.modTicket_ticket_find s n n Ticket.hasArrived fun _ => rfl, hk]
    simp
  have hraise := State.raiseTo_of_live hlive (.arrived n b)
  have e : s.arrive n b = ((s.modTicket n Ticket.hasArrived).raiseTo n (.arrived n b)).changeBay b
    (fun x => { x with state := .occupied }) := rfl
  rw [e, hraise, State.changeBay_to]
  · rfl
  · show BayState.occupied ≠ (s.bay b).state
    simp [hst]
  · simp

/-- A bay's numbers in the book are different (R70). -/
theorem BookFits.nodup {s : State} (h : BookFits s) (b : BayNo) : ((s.bookings b).map (·.number)).Nodup := by
  obtain ⟨-, -, hnodup, -⟩ := h
  exact (List.nodup_flatMap.mp hnodup).1 b (by simp [allBays])

/-- A first booking that is dropped leaves those behind it (R86). -/
theorem State.dropBooking_first {s : State} (h : BookFits s) {b : BayNo} {k : Booking} {back : List Booking}
    (hbook : s.bookings b = k :: back) : s.dropBooking b k.number = s.setBookings b back := by
  have hnodup := BookFits.nodup h b
  rw [hbook, List.map_cons, List.nodup_cons] at hnodup
  have hback : back.filter (fun j => j.number != k.number) = back := List.filter_eq_self.mpr fun j hj => by
    have : j.number ≠ k.number := fun e => hnodup.1 (e ▸ List.mem_map_of_mem hj)
    simpa using this
  rw [State.dropBooking, hbook, List.filter_cons_of_neg (by simp), hback]

/-- The records of an early activation, ahead of its notices (R86). -/
def State.activatedEarly (s : State) (b : BayNo) (k : Booking) (back : List Booking) : State :=
  { s with
    booking := { s.booking with book := s.booking.book.set b back },
    tickets := s.tickets ++ [s.bookedTicket b k],
    ticketCounter := nextNumber s.nextTicket,
    bays := s.bays.set b { s.bay b with state := .occupied, ticket := some s.nextTicket } }

/-- An early activation ahead of the plug-in that may follow (R7, R86, R89). -/
def State.activationTold (s : State) (b : BayNo) (k : Booking) (back : List Booking) : State :=
  (if (s.bay b).state = .free then
      (s.activatedEarly b k back).raise .s (.bayState b .occupied (s.link b).link none)
    else s.activatedEarly b k back).raise k.origin (.bookingActive k.number s.nextTicket b)

theorem State.activationTold_eq (s : State) (b : BayNo) (k : Booking) (back : List Booking) :
    s.activationTold b k back =
      { s.activatedEarly b k back with queues := (s.activationTold b k back).queues } := by
  unfold State.activationTold
  split <;> rfl

theorem State.activationTold_bay (s : State) (b : BayNo) (k : Booking) (back : List Booking) :
    (s.activationTold b k back).bay b = { s.bay b with state := .occupied, ticket := some s.nextTicket } := by
  rw [State.bay_of_bays (s := s.activatedEarly b k back) (by rw [State.activationTold_eq])]
  exact State.setBay_bay_self s b _

theorem State.activateEarly_eq {s : State} (h : BookFits s) {b : BayNo} {k : Booking} {back : List Booking}
    (hbook : s.bookings b = k :: back)
    (hst : (s.bay b).state = .free ∨ (s.bay b).state = .occupied ∧ (s.bay b).ticket = none)
    (hroom : s.tickets.length < 64) : s.activateEarly b k = (s.activationTold b k back).plugInIfPlugged b := by
  have hdrop := State.dropBooking_first h hbook
  have e : s.activateEarly b k = (((((s.dropBooking b k.number).issue (s.bookedTicket b k)).changeBay b
      (fun x => { x with state := .occupied, ticket := some s.nextTicket })).raise k.origin
        (.bookingActive k.number s.nextTicket b)).plugInIfPlugged b) := by
    simp [State.activateEarly, State.tableRoom, hroom, State.bookedTicket]
  rw [e, hdrop]
  have hbay : ((s.setBookings b back).issue (s.bookedTicket b k)).bay b = s.bay b := rfl
  have hchange : ((s.setBookings b back).issue (s.bookedTicket b k)).changeBay b
      (fun x => { x with state := .occupied, ticket := some s.nextTicket }) =
        if (s.bay b).state = .free then
          (s.activatedEarly b k back).raise .s (.bayState b .occupied (s.link b).link none)
        else s.activatedEarly b k back := by
    rcases hst with hst | ⟨hst, -⟩
    · rw [if_pos hst, State.changeBay_to]
      · rfl
      · rw [hbay, hst]
        simp
      · simp
    · rw [if_neg (by simp [hst]), State.changeBay_of_hidden]
      · rfl
      · simp [hbay, Bay.shows, hst]
  rw [hchange]
  rfl

/-- Settles O52: the code's place in its REPORT, and the tests of the code in their order. -/
theorem presentedCodesAreDispatched : Obligations.PresentedCodesAreDispatched := by
  unfold Obligations.PresentedCodesAreDispatched
  refine ⟨?_, ?_⟩
  · intro s b r hw hr hstatus hcode presence plug st u v
    have hpresence : presence = takenPresence r := (takenPresence_eq r).symm
    have hu : u = (s.linkOnline b).firstSteps b r := by
      show ((s.linkOnline b).plugStep b (plugOf r.plug) r.tagEcho.toNat).presenceStep b presence = _
      rw [hpresence]
      rfl
    have hexec : exec (.report r) s = .next ((v.endReport b r).afterSlot b) := by
      rw [exec_report_coded hw hr hstatus hcode, ← hu]
    have hend := v.endReport_ended b r
    refine ⟨fun hst => ?_, (v.endReport b r).afterSlot b, hexec, fun ha => ?_, fun k ha hk =>
      ⟨?_, fun d hd => hend.other hd, hend.frame⟩⟩
    · have hbay := (s.linkOnline_exchanged b).bay b
      have hquiet : (s.linkOnline b).firstSteps b r = (s.linkOnline b).sees b r := by
        refine State.firstSteps_quiet (.inr (.inr ?_))
        rw [hbay, ← hpresence]
        exact hst
      rw [hu, hquiet, State.sees, hbay, hpresence]
      rfl
    · rw [State.endReport_inactive ha]
    · rw [hend.bay, if_pos rfl, Bay.reported_of_active ha hk]
      rfl
  · intro s b code hc hbook t heldHere boundHere early follows
    obtain ⟨hfits, -⟩ := hc
    have hearly : ∀ {k back}, early k back → t = s.activateEarly b k := fun h => State.presentCode_early h
    refine ⟨fun k hheld hk => ?_, fun hheld hg => ?_, fun hbound => State.presentCode_bound hbound,
      fun k back he hfull => ?_, fun k back he hroom => ?_, fun hheld hbound hnone => ?_⟩
    · have ht : t = _ := State.presentCode_held hheld
      rw [State.arrive_eq hheld.1 hk] at ht
      exact ht.trans (State.plugInIfPlugged_if (State.setBay_bay_self s b _) rfl)
    · have hbay := State.arrive_bay s code b
      have ht : t = s.arrive code b := (State.presentCode_held hheld).trans
        (State.plugInIfPlugged_of_unplugged (by rw [hbay]; exact hg))
      rw [ht]
      refine ⟨hbay, fun k hk => ?_⟩
      rw [State.arrive_ticket, hk]
      simp [Ticket.hasArrived]
    · rw [hearly he]
      simp [State.activateEarly, State.tableRoom, hfull]
    · have hstep := hearly he
      obtain ⟨hfirst, -, -, hst⟩ := he
      have ht : t = _ := hstep.trans (State.activateEarly_eq hbook hfirst hst hroom)
      have hbay := s.activationTold_bay b k back
      have hframe := s.activationTold_eq b k back
      intro x w
      have hx : x = s.bookedTicket b k := by
        have hcls : (if k.cls = .access then .access else .standard) = k.cls.ticketClass := by cases k.cls <;> rfl
        simp only [x, State.bookedTicket, hcls]
      have hw : w = s.activatedEarly b k back := by
        simp only [w, hx]
        rfl
      rw [hw, hx]
      refine ⟨ht.trans (State.plugInIfPlugged_if hbay rfl), fun hg => ?_⟩
      rw [State.plugInIfPlugged_of_unplugged (by rw [hbay]; exact hg)] at ht
      rw [ht]
      refine ⟨?_, hbay, ?_⟩
      · rw [State.bookings_of_book (s := s.setBookings b back) (by rw [hframe]; rfl)]
        simp [State.setBookings, State.bookings]
      · rw [State.ticket?_of_tickets (s := s.issue (s.bookedTicket b k)) (by rw [hframe]; rfl)]
        exact (State.issue_ticket_find s (s.bookedTicket b k) hfits.nextTicket.1 _).trans (if_pos rfl)
    · have ht : t = _ := State.presentCode_other hheld hbound hnone
      refine ⟨fun ⟨k, hk, hst, hb⟩ => ?_, fun hno => ?_⟩
      · rw [ht, if_pos (by simp [State.heldElsewhere, hk, hst, hb])]
      · rw [ht, if_neg]
        unfold State.heldElsewhere
        split
        · rename_i k hk
          simp [hno k hk]
        · simp

end Sys2Proof.Machine
end

