-- ==== Sys2Proof/Proofs/ReportedOpenings.lean ====
section
/-! SUPPORT. The session that a REPORT opens (R14, R33, R92, R93), ahead of its demand and energy. -/

namespace Sys2Proof.Machine

/-! ### Before the plug-in -/

/-- What stands before a plug-in that a REPORT makes: the bay has been written, and one notice at most has been told beside
those of the bay (R7, R12, R19). -/
structure State.Preceded (s w : State) (b : BayNo) (x : Bay) : Prop where
  bay : w.bay b = x
  other : ∀ c, c ≠ b → w.bay c = s.bay c
  link : (w.link b).link = .online
  load : ∀ p, (w.queue p).load b ≤ (s.queue p).load b + 1
  tells : s.tellsOnly w fun _ n => n.shownBay = some b ∨ ∃ k, n = .arrived k b
  admission : w.admission = s.admission
  deviceSeconds : w.deviceSeconds = s.deviceSeconds

namespace State.Preceded

variable {s w : State} {b : BayNo} {x : Bay} (h : s.Preceded w b x)
include h

theorem setBay (y : Bay) : s.Preceded (w.setBay b y) b y :=
  ⟨State.setBay_bay_self w b y, fun _ hc => (State.setBay_bay_of_ne w hc y).trans (h.other _ hc), h.link, h.load,
    h.tells.congr rfl rfl, h.admission, h.deviceSeconds⟩

theorem changeBay (f : Bay → Bay) : s.Preceded (w.changeBay b f) b (f x) := by
  have hlink : ∀ c, (w.changeBay b f).link c = w.link c := State.link_of_links (by simp)
  refine ⟨by rw [State.changeBay_bay, if_pos rfl, h.bay], fun c hc => ?_, by rw [hlink]; exact h.link, fun p => ?_,
    h.tells.trans ((w.changeBay_tells b f).mono fun _ _ hn => .inl hn), by simpa using h.admission,
    by simpa using h.deviceSeconds⟩
  · rw [State.changeBay_bay, if_neg hc, h.other c hc]
  · have hload := h.load p
    unfold State.changeBay
    dsimp only
    split
    · rw [State.raise_queue]
      split
      · subst p
        exact (NoticeQueue.load_take_bayState _ b _ _ _).trans hload
      · exact hload
    · exact hload

theorem bay_eq {y : Bay} (e : x = y) : s.Preceded w b y := e ▸ h

/-- There is room for the notices of an opening (R158). -/
theorem length {p : Port} (hl : (s.queue p).notices.length < 22) : (w.queue p).notices.length < 24 := by
  have h1 := h.load p
  have h2 := (s.queue p).load_le b
  have h3 := (w.queue p).length_le_load b
  omega

end State.Preceded

/-- The exchange and the fields of the REPORT. -/
theorem State.linkOnline_preceded (s : State) (b : BayNo) : s.Preceded (s.linkOnline b) b (s.bay b) := by
  have hx := s.linkOnline_exchanged b
  exact ⟨hx.bay b, fun c _ => hx.bay c, s.linkOnline_link b, fun p => (hx.load p).trans (Nat.le_succ _),
    hx.tells.mono fun _ _ hn => .inl hn, hx.admission, hx.deviceSeconds⟩

/-! ### A session as it has opened -/

/-- The notice of an opening (R93, R104). -/
def State.openedNotice (s : State) (b : BayNo) (k : Ticket) : Notice :=
  .sessionOpened k.number b (nextTag (s.bay b).tagCounter)

/-- A REPORT has opened a session at a bay (R92 to R94). -/
structure State.TookSession (s t : State) (b : BayNo) (k : Ticket) (x : Bay) : Prop where
  bay : t.bay b = x.openedFor k s.deviceSeconds
  other : ∀ c, c ≠ b → t.bay c = s.bay c
  ticket : t.ticket? k.number = some { k with state := .charging, bay := some b, holdDeadline := none }
  tickets : ∀ m, m ≠ k.number → t.ticket? m = s.ticket? m
  admission : t.admission = s.admission ++ [b]
  told : (s.queue k.origin).notices.length < 22 → (t.queue k.origin).notices.count (s.openedNotice b k) =
    (s.queue k.origin).notices.count (s.openedNotice b k) + 1

/-- An opening tells the opening, the bay and the THROTTLE notices (R93, R115). -/
theorem State.SessionOpened.tells {s t : State} {b : BayNo} {k : Ticket} (h : s.SessionOpened t b k) :
    s.tellsOnly t fun _ n => n.shownBay = some b ∨ n.isThrottle ∨ n = s.openedNotice b k := by
  intro p
  refine ⟨_, h.queue p, fun n hn => ?_⟩
  rcases List.mem_append.mp hn with hn | hn
  · unfold State.openingNotices at hn
    rcases List.mem_append.mp hn with hn | hn <;> split at hn
    · exact .inr (.inr (List.mem_singleton.mp hn))
    · cases hn
    · rw [List.mem_singleton.mp hn]
      exact .inl rfl
    · cases hn
  · exact .inr (.inl (State.isThrottle_of_mem hn))

/-- An opening behind what preceded it in the REPORT. -/
theorem State.Preceded.took {s w t : State} {b : BayNo} {k k' : Ticket} {x : Bay} (hw : s.Preceded w b x)
    (ho : w.SessionOpened t b k') (hx : x.tagCounter = (s.bay b).tagCounter)
    (hk : k'.chargingAt b = { k with state := .charging, bay := some b, holdDeadline := none })
    (hothers : ∀ m, m ≠ k.number → w.ticket? m = s.ticket? m) : s.TookSession t b k x := by
  have hn : k'.number = k.number := by simpa [Ticket.chargingAt] using congrArg Ticket.number hk
  have horigin : k'.origin = k.origin := by simpa [Ticket.chargingAt] using congrArg Ticket.origin hk
  have hcls : k'.cls = k.cls := by simpa [Ticket.chargingAt] using congrArg Ticket.cls hk
  have hopened : x.openedFor k' w.deviceSeconds = x.openedFor k s.deviceSeconds := by
    simp only [Bay.openedFor, hn, hcls, hw.deviceSeconds]
  refine ⟨by rw [ho.bay, hw.bay, hopened], fun c hc => (ho.other c hc).trans (hw.other c hc), ?_, fun m hm => ?_,
    by rw [ho.admission, hw.admission], fun hl => ?_⟩
  · rw [← hk, ← hn]
    exact ho.ticket
  · rw [ho.tickets m (by rw [hn]; exact hm), hothers m hm]
  · have hnotice : w.openedNotice b k' = s.openedNotice b k := by
      simp only [State.openedNotice, hn, hw.bay, hx]
    have hlast : (s.openedNotice b k).lasting :=
      Notice.lasting_of (fun _ _ _ _ h => by cases h) (fun _ _ h => by cases h)
    have hcount := hw.tells.count hlast (p := k.origin) (by simp [State.openedNotice, Notice.shownBay])
    have hrest : s.openedNotice b k ∉ (if k.origin = .s then [.bayState b .active (w.link b).link none] else []) ++
        t.throttles (fun c => (w.setpoint c).throttled && decide (c ≠ b)) k.origin := by
      rw [List.mem_append, not_or]
      constructor
      · split <;> simp [State.openedNotice]
      · intro hm
        obtain ⟨_, _, _, e⟩ := State.isThrottle_of_mem hm
        cases e
    have hqueue := ho.queue k.origin
    rw [State.openingNotices, if_pos horigin.symm, List.append_assoc, NoticeQueue.takeAll_append,
      show Notice.sessionOpened k'.number b (nextTag (w.bay b).tagCounter) = s.openedNotice b k from hnotice] at hqueue
    rw [hqueue, NoticeQueue.count_takeAll hlast hrest, ← hcount]
    exact NoticeQueue.count_take_self hlast (hw.length hl)

/-- The presence that is written over an opened session (R9, R14). -/
theorem State.TookSession.present {s t : State} {b : BayNo} {k : Ticket} {x : Bay} (h : s.TookSession t b k x)
    (r : Report) : s.TookSession (t.setBay b ((t.bay b).present r)) b k (x.present r) := by
  refine ⟨?_, fun c hc => (State.setBay_bay_of_ne t hc _).trans (h.other c hc), h.ticket, h.tickets, h.admission, h.told⟩
  rw [State.setBay_bay_self, h.bay]
  rfl

/-! ### The plug-in of a REPORT (R14, R33) -/

/-- The AUTO ticket of a plug-in at an unbound bay (R33). -/
def State.autoFor (s : State) (b : BayNo) : Ticket :=
  { number := s.nextTicket, origin := .k, kind := .auto, cls := .standard, pool := (s.bay b).pool, stay := 8,
    state := .arrived, bay := some b, offerDeadline := none, holdDeadline := none, lastDeclined := none, booking := none }

section PlugIns

variable {s w : State} {b : BayNo} {x : Bay} (hw : s.Preceded w b x)
include hw

theorem State.Preceded.not_lost : (w.link b).link ≠ .lost := by simp [hw.link]

/-- The plug-in at a bound bay (R14). -/
theorem State.Preceded.plugIn_bound {k k' : Ticket} (hx : x.tagCounter = (s.bay b).tagCounter)
    (hn : x.ticket = some k'.number) (hk' : w.ticket? k'.number = some k')
    (hk : k'.chargingAt b = { k with state := .charging, bay := some b, holdDeadline := none })
    (hothers : ∀ m, m ≠ k.number → w.ticket? m = s.ticket? m) : s.TookSession (w.plugIn b) b k x :=
  hw.took (State.plugIn_opened_bound hw.not_lost (by rw [hw.bay]; exact hn) hk') hx hk hothers

/-- The plug-in at an unbound bay, where the table has room (R33). -/
theorem State.Preceded.plugIn_auto (hf : TicketsFit s) (hx : x.tagCounter = (s.bay b).tagCounter)
    (hp : x.pool = (s.bay b).pool) (hn : x.ticket = none) (ht : w.tickets = s.tickets)
    (hc : w.ticketCounter = s.ticketCounter) (hroom : s.tickets.length < 64) :
    s.TookSession (w.plugIn b) b (s.autoFor b) x := by
  have hfit : TicketsFit w := by
    unfold TicketsFit State.liveTickets
    rw [ht, hc]
    exact hf
  have hnext : w.nextTicket = s.nextTicket := by
    unfold State.nextTicket State.liveTickets
    rw [ht, hc]
  have hauto : w.autoTicket b = s.autoFor b := by
    unfold State.autoTicket State.autoFor
    rw [hnext, hw.bay, hp]
  have hopened := State.plugIn_opened_auto hfit hw.not_lost (by rw [hw.bay]; exact hn) (by rw [ht]; exact hroom)
  rw [hauto] at hopened
  exact hw.took hopened hx rfl fun m _ => State.ticket?_of_tickets ht m

/-- The plug-in at an unbound bay, where the table is full (R33). -/
theorem State.Preceded.plugIn_full (hn : x.ticket = none) (ht : w.tickets = s.tickets) (hfull : s.tickets.length = 64) :
    w.plugIn b = w.raise .s (.noTicket b) :=
  State.plugIn_of_full hw.not_lost (by rw [hw.bay]; exact hn) (by rw [ht]; exact hfull)

end PlugIns

/-! ### The opened session takes the REPORT (R17, assumption 13) -/

/-- The record of a bay whose session a REPORT has opened, with the demand and the energy of the REPORT (R17, R92, R93). -/
def Bay.openedBy (x : Bay) (k : Ticket) (now : Seconds) (r : Report) : Bay :=
  { x with
    tagCounter := nextTag x.tagCounter, state := .active, ticket := some k.number,
    session := some { tag := nextTag x.tagCounter, ticket := k.number,
                      cls := if k.cls = .access then .access else .standard, opened := now,
                      energy := if r.tagEcho.toNat = nextTag x.tagCounter then r.energy.toNat else 0,
                      demand := min r.demand.toNat 63, reconnect := none } }

theorem Bay.openedFor_reported (x : Bay) (k : Ticket) (now : Seconds) (r : Report) :
    (x.openedFor k now).reported r = x.openedBy k now r := by
  have henergy : min (0 + r.energy.toNat) 4294967295 = r.energy.toNat := by
    have := r.energy.isLt
    omega
  rw [Bay.reported_of_active rfl rfl]
  simp only [Session.reported, henergy]
  rfl

end Sys2Proof.Machine
end

