-- ==== Sys2Proof/Proofs/ReportedClaims.lean ====
section
/-! SUPPORT. The plug-in, the arrival and the departure that a REPORT makes (R11 to R14, R33). -/

namespace Sys2Proof.Machine

/-! ### A plug-in (R14, R33) -/

theorem State.TookSession.congr {s t : State} {b : BayNo} {k : Ticket} {x y : Bay} (h : s.TookSession t b k x)
    (e : x.openedFor k s.deviceSeconds = y.openedFor k s.deviceSeconds) : s.TookSession t b k y :=
  ⟨h.bay.trans e, h.other, h.ticket, h.tickets, h.admission, h.told⟩

/-- A REPORT has made a plug-in at a bay that is bound to a ticket, or to none (R14, R33). -/
structure State.TookPlug (s t : State) (b : BayNo) (x : Bay) (bound : Option Nat) : Prop where
  session : ∀ k, bound = some k.number → s.ticket? k.number = some k → s.TookSession t b k x
  auto : bound = none → s.tickets.length < 64 → s.TookSession t b (s.autoFor b) x
  full : bound = none → s.tickets.length = 64 →
    t.bay b = { x with state := .occupied, ticket := none } ∧ t.tickets = s.tickets ∧
      ((s.queue .s).notices.length < 22 →
        (t.queue .s).notices.count (.noTicket b) = (s.queue .s).notices.count (.noTicket b) + 1)

theorem Notice.noTicket_lasting (b : BayNo) : (Notice.noTicket b).lasting :=
  Notice.lasting_of (fun _ _ _ _ h => by cases h) (fun _ _ h => by cases h)

/-- The ticket that is bound to an OCCUPIED bay is ARRIVED, and no hold runs (R26). -/
theorem AgreeBut.bound {s : State} (h : AgreeBut none none s) {b : BayNo} {k : Ticket} (hst : (s.bay b).state = .occupied)
    (hn : (s.bay b).ticket = some k.number) (hk : s.ticket? k.number = some k) :
    k.bay = some b ∧ k.state = .arrived ∧ k.holdDeadline = none := by
  obtain ⟨hb, hc⟩ := h.claims hn hk
  have hks : k.state = .arrived := TicketState.of_claims.2.2.1 (hst ▸ hc)
  have hhold := (h.ticket k (State.mem_of_ticket? hk) (by simp)).hold
  exact ⟨hb, hks, by simpa [hks] using hhold⟩

theorem State.Preceded.tookPlug {s w : State} {b : BayNo} {x : Bay} (hw : s.Preceded w b x) (h : AgreeBut none none s)
    (hst : x.state = .occupied) (hx : x.tagCounter = (s.bay b).tagCounter) (hp : x.pool = (s.bay b).pool)
    (ht : w.tickets = s.tickets) (hc : w.ticketCounter = s.ticketCounter)
    (hbound : x.ticket = none ∨ (s.bay b).state = .occupied ∧ x.ticket = (s.bay b).ticket) :
    s.TookPlug (w.plugIn b) b x x.ticket := by
  refine ⟨fun k hn hk => ?_, fun hn hroom => hw.plugIn_auto h.fits hx hp hn ht hc hroom, fun hn hfull => ?_⟩
  · obtain ⟨hso, hsn⟩ := hbound.resolve_left (by simp [hn])
    obtain ⟨-, -, hhold⟩ := h.bound hso (hsn ▸ hn) hk
    refine hw.plugIn_bound hx hn ((State.ticket?_of_tickets ht _).trans hk) ?_ fun m _ => State.ticket?_of_tickets ht m
    rw [← hhold]
    rfl
  · rw [hw.plugIn_full hn ht hfull]
    refine ⟨?_, ht, fun hl => ?_⟩
    · rw [← hst, ← hn]
      exact hw.bay
    · rw [State.raise_queue, if_pos rfl, NoticeQueue.count_take_self (Notice.noTicket_lasting b) (hw.length hl),
        hw.tells.count (Notice.noTicket_lasting b) (by simp [Notice.shownBay])]

section PlugIns

variable {s : State} (h : AgreeBut none none s) {b : BayNo} {r : Report} (hg : plugOf r.plug = .plugged)
include h hg

/-- The plug-in at a bay that becomes OCCUPIED by the REPORT (R10, R11, R14). -/
theorem State.firstSteps_plugged_unbound (hst : (s.bay b).state = .offline ∨ (s.bay b).state = .free) :
    s.TookPlug ((s.linkOnline b).firstSteps b r) b ((s.bay b).seen r) none := by
  have hx := s.linkOnline_exchanged b
  have hpre : s.Preceded ((s.linkOnline b).sees b r) b ((s.bay b).seen r) :=
    ((s.linkOnline_preceded b).setBay _).bay_eq (by rw [hx.bay])
  have hw := hpre.changeBay fun x => { x with state := .occupied, ticket := none }
  have htake := hw.tookPlug h rfl rfl rfl (by simp [State.sees]) (by
    rw [State.changeBay_ticketCounter]
    show (s.linkOnline b).ticketCounter = _
    rw [hx.frame]) (.inl rfl)
  have hsteps : (s.linkOnline b).firstSteps b r =
      (((s.linkOnline b).sees b r).changeBay b fun x => { x with state := .occupied, ticket := none }).plugIn b := by
    have hp := takenPresence_of_plugged hg
    have hocc := hw.bay
    rcases hst with hst | hst
    · have hplace : ((s.linkOnline b).sees b r).placeAt b =
          ((s.linkOnline b).sees b r).changeBay b fun x => { x with state := .occupied, ticket := none } := by
        simp [State.placeAt, hpre.bay, Bay.seen, hp]
      rw [State.firstSteps_offline (by rw [hx.bay]; exact hst), State.place, hplace, State.settle_eq, hocc]
      simp [Bay.seen, hg]
    · rw [State.firstSteps_free (by rw [hx.bay]; exact hst) hp,
        State.plugInIfPlugged_of_plugged (by rw [hocc]) (by rw [hocc]; exact hg)]
  rw [hsteps]
  exact ⟨fun k hn => by simp at hn, fun hn hroom => (htake.auto hn hroom).congr rfl, fun hn hfull => htake.full hn hfull⟩

/-- The plug-in at an OCCUPIED bay (R14). -/
theorem State.firstSteps_plugged_occupied (hst : (s.bay b).state = .occupied) (hold : (s.bay b).plug ≠ .plugged) :
    s.TookPlug ((s.linkOnline b).firstSteps b r) b ((s.bay b).seen r) (s.bay b).ticket := by
  have hx := s.linkOnline_exchanged b
  have hw : s.Preceded ((s.linkOnline b).setBay b (((s.linkOnline b).bay b).plugged r)) b ((s.bay b).plugged r) :=
    ((s.linkOnline_preceded b).setBay _).bay_eq (by rw [hx.bay])
  have htake := hw.tookPlug h hst rfl rfl hx.tickets (by
    show (s.linkOnline b).ticketCounter = _
    rw [hx.frame]) (.inr ⟨hst, rfl⟩)
  rw [State.firstSteps_pluggedIn (by rw [hx.bay]; exact hst) hg (by rw [hx.bay]; exact hold)]
  generalize ((s.linkOnline b).setBay b (((s.linkOnline b).bay b).plugged r)).plugIn b = u at htake
  refine ⟨fun k hn hk => (htake.session k hn hk).present r, fun hn hroom => (htake.auto hn hroom).present r,
    fun hn hfull => ?_⟩
  obtain ⟨hbay, htickets, htold⟩ := htake.full hn hfull
  refine ⟨?_, htickets, htold⟩
  rw [State.setBay_bay_self, hbay]
  rfl

end PlugIns

/-! ### Arrival (R12) -/

/-- The arrival of a ticket has been told to its origin (R12, R158). -/
structure State.ToldArrival (s t : State) (b : BayNo) (k : Ticket) : Prop where
  count : (s.queue k.origin).notices.length < 22 → (t.queue k.origin).notices.count (.arrived k.number b) =
    (s.queue k.origin).notices.count (.arrived k.number b) + 1
  isPrefix : k.origin ≠ .s → (s.queue k.origin).notices.length < 24 →
    (s.queue k.origin).notices ++ [.arrived k.number b] <+: (t.queue k.origin).notices

theorem Notice.arrived_lasting (n : Nat) (b : BayNo) : (Notice.arrived n b).lasting :=
  Notice.lasting_of (fun _ _ _ _ h => by cases h) (fun _ _ h => by cases h)

theorem State.ToldArrival.trans {s t u : State} {b : BayNo} {k : Ticket} (h : s.ToldArrival t b k)
    (ht : t.tellsOnly u fun _ n => n ≠ .arrived k.number b) : s.ToldArrival u b k :=
  ⟨fun hl => (ht.count (Notice.arrived_lasting _ b) (by simp)).trans (h.count hl),
    fun hp hl => (h.isPrefix hp hl).trans (ht.isPrefix hp)⟩

/-- A HELD bay as the arrival leaves it, ahead of the plug-in that may follow (R12, R14). -/
def State.arrived (s : State) (b : BayNo) (r : Report) (k : Ticket) : State :=
  ((s.linkOnline b).sees b r).arrive k.number b

section Arrivals

variable {s : State} {b : BayNo} {r : Report} {k : Ticket} (hk : s.ticket? k.number = some k)
include hk

theorem State.arrived_ticket (m : Nat) : (s.arrived b r k).ticket? m =
    if m = k.number then some k.hasArrived else s.ticket? m := by
  have hfind : ((s.linkOnline b).sees b r).ticket? m = s.ticket? m :=
    State.ticket?_of_tickets (s.linkOnline_exchanged b).tickets m
  rw [State.arrived, State.arrive_ticket, hfind]
  split
  · subst m
    rw [hk]
    rfl
  · simp

/-- The arrival is told before the bay is shown (R7, R12). -/
theorem State.arrived_eq : s.arrived b r k =
    ((((s.linkOnline b).sees b r).modTicket k.number Ticket.hasArrived).raise k.origin (.arrived k.number b)).changeBay b
      fun x => { x with state := .occupied } := by
  have hlive : (((s.linkOnline b).sees b r).modTicket k.number Ticket.hasArrived).ticket? k.number =
      some k.hasArrived := by
    rw [State.modTicket_ticket_find _ _ _ Ticket.hasArrived fun _ => rfl,
      State.ticket?_of_tickets (t := (s.linkOnline b).sees b r) (s := s) (s.linkOnline_exchanged b).tickets, hk]
    simp
  have hraise := State.raiseTo_of_live hlive (.arrived k.number b)
  exact congrArg (fun u => State.changeBay u b fun x => { x with state := .occupied }) hraise

theorem State.arrived_preceded :
    s.Preceded (s.arrived b r k) b { (s.bay b).seen r with state := .occupied } := by
  have hx := s.linkOnline_exchanged b
  have hseen : s.Preceded ((s.linkOnline b).sees b r) b ((s.bay b).seen r) :=
    ((s.linkOnline_preceded b).setBay _).bay_eq (by rw [hx.bay])
  have hload : ∀ p, (((s.linkOnline b).sees b r).queue p).load b ≤ (s.queue p).load b := hx.load
  rw [State.arrived_eq hk]
  generalize (s.linkOnline b).sees b r = u at hseen hload
  have htold : s.Preceded ((u.modTicket k.number Ticket.hasArrived).raise k.origin (.arrived k.number b)) b
      ((s.bay b).seen r) := by
    refine ⟨hseen.bay, hseen.other, hseen.link, fun p => ?_, hseen.tells.trans
      ((State.tellsOnly.raise (.inr ⟨_, rfl⟩) (u.modTicket k.number Ticket.hasArrived)).congr rfl rfl), hseen.admission,
      hseen.deviceSeconds⟩
    rw [State.raise_queue]
    split
    · exact (NoticeQueue.load_take _ b p _).trans (Nat.succ_le_succ (hload p))
    · exact (hload p).trans (Nat.le_succ _)
  exact htold.changeBay _

theorem State.arrived_told : s.ToldArrival (s.arrived b r k) b k := by
  have hx := s.linkOnline_exchanged b
  have hlast := Notice.arrived_lasting k.number b
  have hqueue : ((((s.linkOnline b).sees b r).modTicket k.number Ticket.hasArrived).raise k.origin
      (.arrived k.number b)).queue k.origin =
        ((s.linkOnline b).queue k.origin).take k.origin (.arrived k.number b) := by
    rw [State.raise_queue, if_pos rfl]
    rfl
  have htold : s.ToldArrival ((((s.linkOnline b).sees b r).modTicket k.number Ticket.hasArrived).raise k.origin
      (.arrived k.number b)) b k := by
    refine ⟨fun hl => ?_, fun hp hl => ?_⟩
    · have hroom := hx.length hl
      rw [hqueue, NoticeQueue.count_take_self hlast (by omega), hx.count hlast rfl]
    · rw [hqueue, hx.queue _ hp, NoticeQueue.take_notices_of_new fun _ m _ => (hlast m).2, if_pos hl]
  exact State.arrived_eq hk ▸ htold.trans ((State.changeBay_tells _ b _).not_of_bay rfl)

/-- The plug-in that follows an arrival tells no arrival (R14, R93). -/
theorem State.arrived_took (hn : (s.bay b).ticket = some k.number) :
    s.TookSession ((s.arrived b r k).plugIn b) b k ((s.bay b).seen r) ∧
      s.ToldArrival ((s.arrived b r k).plugIn b) b k := by
  have hw := State.arrived_preceded (b := b) (r := r) hk
  have hlive : (s.arrived b r k).ticket? k.number = some k.hasArrived := (State.arrived_ticket hk _).trans (if_pos rfl)
  have hopened := State.plugIn_opened_bound (b := b) (k := k.hasArrived) hw.not_lost (by rw [hw.bay]; exact hn) hlive
  refine ⟨((hw.took (k := k) hopened rfl rfl fun m hm => ?_).congr rfl), (State.arrived_told hk).trans
    (hopened.tells.mono fun _ n hm e => ?_)⟩
  · rw [State.arrived_ticket hk, if_neg hm]
  · subst e
    rcases hm with e | ⟨_, _, _, e⟩ | e <;> cases e

end Arrivals

/-! ### Departure (R13) -/

theorem State.depart_of_unbound {s : State} {b : BayNo} (hn : (s.bay b).ticket = none) : s.depart b = s.enterFree b := by
  simp only [State.depart, hn]

theorem Notice.departed_lasting (n : Nat) (b : BayNo) : (Notice.departed n b).lasting :=
  Notice.lasting_of (fun _ _ _ _ h => by cases h) (fun _ _ h => by cases h)

/-- The departure from a bound bay frees the ticket with DEPARTED (R13). -/
theorem State.depart_vacated {s : State} {b : BayNo} {k : Ticket} (hst : (s.bay b).state = .occupied)
    (hp : (s.bay b).presence = .empty) (hn : (s.bay b).ticket = some k.number) (hk : s.ticket? k.number = some k)
    (hb : k.bay = some b) (hks : k.state = .arrived) :
    s.Vacated (s.depart b) b k (.departed k.number b) ((s.bay b).placed (s.linkLost b)) := by
  have hwait : ¬(k.state = .waiting ∨ k.state = .offered) := by simp [hks]
  have hbay := State.freeWith_bay hk hb hwait hn (.departed k.number b) b
  rw [if_pos rfl] at hbay
  have hlost : (s.freeWith k.number (.departed k.number b)).linkLost b = s.linkLost b := by
    unfold State.linkLost
    rw [State.link_of_links (s := s) (by simp)]
  have hm : ((s.freeWith k.number (.departed k.number b)).changeBay b fun x => x.placed (s.linkLost b)).Matched
      (s.depart b) := by
    have e : s.depart b = (s.freeWith k.number (.departed k.number b)).enterFree b := by simp only [State.depart, hn]
    rw [e, State.enterFree_eq (by rw [hbay]; exact hp), hlost]
    exact State.matched_matchIfFree _ b
  have hvacated := State.freeWith_vacated hn hk hb hwait (Notice.departed_lasting k.number b)
    (by simp [Notice.ofSettling, Notice.shownBay]) (Bay.shows_of_state (by
      rw [Bay.placed_of_unnamed, hst]
      exact Bay.placed_of_empty hp _)) hm
  rwa [Bay.placed_of_unnamed] at hvacated

/-- The departure that a REPORT makes (R5, R13). -/
theorem State.firstSteps_departure {s : State} {b : BayNo} {r : Report} (h : AgreeBut none none s)
    (hr : reportDefined r = true) (hst : (s.bay b).state = .occupied) (hp : takenPresence r = .empty) :
    (((s.bay b).seen r).placed false).keptOrOffered (((s.linkOnline b).firstSteps b r).bay b) ∧
    ∀ k, (s.bay b).ticket = some k.number → s.ticket? k.number = some k →
      ((s.linkOnline b).firstSteps b r).ticket? k.number = none ∧
      ((s.queue k.origin).notices.length < 22 →
        (((s.linkOnline b).firstSteps b r).queue k.origin).notices.count (.departed k.number b) =
          (s.queue k.origin).notices.count (.departed k.number b) + 1) := by
  have hx := s.linkOnline_exchanged b
  have hbay : ((s.linkOnline b).sees b r).bay b = (s.bay b).seen r := by
    rw [State.sees, State.setBay_bay_self, hx.bay]
  have hlost : ((s.linkOnline b).sees b r).linkLost b = false := by
    show decide (((s.linkOnline b).link b).link = .lost) = false
    simp [State.linkOnline_link]
  have hocc : (((s.linkOnline b).sees b r).bay b).state = .occupied := by rw [hbay]; exact hst
  have hempty : (((s.linkOnline b).sees b r).bay b).presence = .empty := by rw [hbay]; exact hp
  have hname : (((s.linkOnline b).sees b r).bay b).ticket = (s.bay b).ticket := by rw [hbay]; rfl
  have hfind : ∀ m, ((s.linkOnline b).sees b r).ticket? m = s.ticket? m := State.ticket?_of_tickets hx.tickets
  have hqueue : ∀ p, ((s.linkOnline b).sees b r).queue p = (s.linkOnline b).queue p := fun _ => rfl
  rw [State.firstSteps_departed (by rw [hx.bay]; exact hst) (plugOf_of_empty hr hp) hp]
  generalize (s.linkOnline b).sees b r = u at hbay hlost hocc hempty hname hfind hqueue
  cases hn : (s.bay b).ticket with
  | none =>
    have hset := State.enterFree_settled hocc hempty
    rw [hbay, hlost] at hset
    rw [State.depart_of_unbound (hname.trans hn)]
    exact ⟨hset.bay, by simp⟩
  | some n =>
    obtain ⟨k, hk, -, rfl, -⟩ := h.claimant hn
    obtain ⟨hkb, hks, -⟩ := h.bound hst hn hk
    have hvacated := State.depart_vacated hocc hempty (hname.trans hn) ((hfind _).trans hk) hkb hks
    rw [hbay, hlost] at hvacated
    refine ⟨hvacated.bay, fun k' hn' hk' => ?_⟩
    obtain rfl : k = k' := Option.some.inj (hk.symm.trans (by rw [Option.some.inj hn', hk']))
    refine ⟨hvacated.ticket, fun hl => ?_⟩
    have hroom := hx.length hl
    rw [hvacated.count (by rw [hqueue]; omega), hqueue, hx.count (Notice.departed_lasting _ b) rfl]

end Sys2Proof.Machine
end

