-- ==== Sys2Proof/Proofs/ReportsOfPresence.lean ====
section
/-! SUPPORT. A REPORT without a code at a bay without a session, by the state of the bay (R9 to R14): O51. -/

namespace Sys2Proof.Machine

/-- An OFFLINE bay is placed by a REPORT of UNPLUGGED (R6, R10). -/
theorem State.firstSteps_placed {s : State} {b : BayNo} {r : Report} (hst : (s.bay b).state = .offline)
    (hg : plugOf r.plug = .unplugged) :
    (((s.bay b).seen r).placed false).keptOrOffered (((s.linkOnline b).firstSteps b r).bay b) := by
  have hx := s.linkOnline_exchanged b
  have hbay : ((s.linkOnline b).sees b r).bay b = (s.bay b).seen r := by
    rw [State.sees, State.setBay_bay_self, hx.bay]
  have hlost : ((s.linkOnline b).sees b r).linkLost b = false := by
    show decide (((s.linkOnline b).link b).link = .lost) = false
    simp [State.linkOnline_link]
  rw [State.firstSteps_offline (by rw [hx.bay]; exact hst), State.place, State.placeAt_eq, hlost]
  generalize (s.linkOnline b).sees b r = u at hbay
  have hplaced : (u.changeBay b fun x => x.placed false).bay b = ((s.bay b).seen r).placed false := by
    rw [State.changeBay_bay, if_pos rfl, hbay]
  have hplug : (((s.bay b).seen r).placed false).plug = .unplugged := by
    rw [← hg]
    unfold Bay.placed
    cases ((s.bay b).seen r).presence <;> cases ((s.bay b).seen r).blockPending <;> rfl
  rw [State.plugInIfPlugged_of_unplugged (by rw [hplaced, hplug]; simp), ← hplaced]
  exact (State.matched_matchIfFree _ b).bay b

/-- A FREE bay becomes OCCUPIED by a REPORT of PRESENT and UNPLUGGED (R11). -/
theorem State.firstSteps_occupied {s : State} (h : AgreeBut none none s) {b : BayNo} {r : Report}
    (hst : (s.bay b).state = .free) (hg : plugOf r.plug = .unplugged) (hp : takenPresence r = .present) :
    ((s.linkOnline b).firstSteps b r).bay b = { (s.bay b).seen r with state := .occupied } ∧
      ((s.linkOnline b).firstSteps b r).tickets = s.tickets := by
  have hx := s.linkOnline_exchanged b
  have hn : ((s.bay b).seen r).ticket = none := (h.bay b (by simp)).unclaimed (.inr (.inl hst))
  have hocc : (((s.linkOnline b).sees b r).changeBay b fun x => { x with state := .occupied, ticket := none }).bay b =
      { (s.bay b).seen r with state := .occupied } := by
    rw [State.changeBay_bay, if_pos rfl, State.sees, State.setBay_bay_self, hx.bay, ← hn]
  rw [State.firstSteps_free (by rw [hx.bay]; exact hst) hp, State.plugInIfPlugged_of_unplugged]
  · exact ⟨hocc, by simp [State.sees]⟩
  · rw [hocc]
    show plugOf r.plug ≠ _
    simp [hg]

/-- The arrival at a HELD bay, with the plug-in that may follow (R12, R14). -/
theorem State.firstSteps_arrival {s : State} {b : BayNo} {r : Report} {k : Ticket} (hst : (s.bay b).state = .held)
    (hn : (s.bay b).ticket = some k.number) (hk : s.ticket? k.number = some k) (hp : takenPresence r = .present) :
    (s.linkOnline b).firstSteps b r =
      if plugOf r.plug = .plugged then (s.arrived b r k).plugIn b else s.arrived b r k := by
  have hbay := (s.linkOnline_exchanged b).bay b
  rw [State.firstSteps_held (by rw [hbay]; exact hst) (by rw [hbay]; exact hn) hp]
  exact State.plugInIfPlugged_if (State.arrived_preceded (b := b) (r := r) hk).bay rfl

/-- A REPORT that changes nothing but the fields of a bay that is not ACTIVE (R9). -/
theorem State.ReportEnded.quiet {s t : State} {b : BayNo} {r : Report}
    (hend : ((s.linkOnline b).firstSteps b r).ReportEnded t b r)
    (h : (s.bay b).state = .occupied ∧ takenPresence r = .present ∧
        (plugOf r.plug = .unplugged ∨ (s.bay b).plug = .plugged) ∨
      (s.bay b).state = .offered ∨ (s.bay b).state = .blocked ∨ (s.bay b).state = .faulted ∨
      ((s.bay b).state = .free ∨ (s.bay b).state = .held) ∧ takenPresence r = .empty) :
    t.bay b = (s.bay b).seen r ∧ t.tickets = s.tickets := by
  have hx := s.linkOnline_exchanged b
  have hidle : ((s.bay b).seen r).state ≠ .active := by
    show (s.bay b).state ≠ .active
    rcases h with ⟨h, -⟩ | h | h | h | ⟨h | h, -⟩ <;> simp [h]
  rw [State.firstSteps_quiet (.inr (by rw [hx.bay]; exact h))] at hend
  have hbay : ((s.linkOnline b).sees b r).bay b = (s.bay b).seen r := by
    rw [State.sees, State.setBay_bay_self, hx.bay]
  rw [hend.inactive (by rw [hbay]; exact hidle), hbay, hend.frame]
  exact ⟨rfl, hx.tickets⟩

/-- The last steps of a REPORT leave what has been told at its plug-in and its presence (R19). -/
theorem State.ReportEnded.told {v t : State} {b : BayNo} {r : Report} (h : v.ReportEnded t b r) {n : Notice}
    (hn : n.lasting) (ht : ¬n.isThrottle) {p : Port} {i j : Nat} (hl : i < 22 → (v.queue p).notices.count n = j + 1) :
    i < 22 → (t.queue p).notices.count n = j + 1 := fun hi => (h.count hn ht p).trans (hl hi)

section Ends

variable {s v t : State} {b : BayNo} {r : Report} (hend : v.ReportEnded t b r)
include hend

/-- An opened session at the end of the REPORT (R17, R93). -/
theorem State.TookSession.ended {k : Ticket} {x : Bay} (h : s.TookSession v b k x) :
    t.bay b = x.openedBy k s.deviceSeconds r ∧
    t.ticket? k.number = some { k with state := .charging, bay := some b, holdDeadline := none } ∧
    (∀ m, m ≠ k.number → t.ticket? m = s.ticket? m) ∧ (∀ d, d ≠ b → t.bay d = s.bay d) ∧
    t.admission = s.admission ++ [b] ∧
    ((s.queue k.origin).notices.length < 22 → (t.queue k.origin).notices.count (s.openedNotice b k) =
      (s.queue k.origin).notices.count (s.openedNotice b k) + 1) := by
  refine ⟨?_, by rw [hend.ticket, h.ticket], fun m hm => by rw [hend.ticket, h.tickets m hm],
    fun d hd => by rw [hend.other hd, h.other d hd], by rw [hend.frame]; exact h.admission,
    hend.told (Notice.lasting_of (fun _ _ _ _ h => by cases h) (fun _ _ h => by cases h))
      (by simp [State.openedNotice, Notice.isThrottle]) h.told⟩
  rw [hend.bay, if_pos rfl, h.bay, Bay.openedFor_reported]

/-- A bay that has not become ACTIVE stands at the end of the REPORT as its plug and its presence left it (R17). -/
theorem State.ReportEnded.stood {x : Bay} (h : v.bay b = x) (hx : x.state ≠ .active) : t.bay b = x := by
  rw [hend.inactive (by rw [h]; exact hx), h]

end Ends

/-- Settles O51: a REPORT without a code at a bay without a session, by the state of the bay. -/
theorem reportOfPresence : Obligations.ReportOfPresence := by
  unfold Obligations.ReportOfPresence
  intro s b r hc hw hr hstatus hcode presence x st
  have h := (agreeBut_none_iff s).mpr hc
  have hx := s.linkOnline_exchanged b
  have hagree := State.linkOnline_agree (b := b) h
  obtain ⟨t, he, hend⟩ := exec_report_plain hw hr hstatus hcode
  have hconfined := State.Confined.firstSteps hagree b r
  have hpresence : presence = takenPresence r := (takenPresence_eq r).symm
  have hseen : x = (s.bay b).seen r := by
    simp only [x, hpresence]
    rfl
  clear_value x presence
  subst hseen hpresence
  have hplug : r.plug = 1#8 → plugOf r.plug = .unplugged := fun e => by simp [plugOf, e]
  have hplugged : r.plug = 2#8 → plugOf r.plug = .plugged := fun e => by simp [plugOf, e]
  refine ⟨t, he, fun c hc => ?_, ?_, ?_⟩
  · rw [hend.other hc, ← hx.bay c]
    exact hconfined.others c hc
  · rw [hend.frame, hconfined.frame, hx.frame]
  intro told opens plugsIn
  have hopens : ∀ {k : Ticket}, s.TookSession ((s.linkOnline b).firstSteps b r) b k ((s.bay b).seen r) → opens k :=
    fun hk => hk.ended hend
  have hplugs : ∀ {bound : Option Nat},
      s.TookPlug ((s.linkOnline b).firstSteps b r) b ((s.bay b).seen r) bound → plugsIn bound := fun hp => by
    refine ⟨fun k hn hk => hopens (hp.session k hn hk), fun hn hroom => hopens (hp.auto hn hroom), fun hn hfull => ?_⟩
    obtain ⟨hbay, htickets, htold⟩ := hp.full hn hfull
    exact ⟨hend.stood hbay (by simp), by rw [hend.frame]; exact htickets,
      hend.told (Notice.noTicket_lasting b) (by simp [Notice.isThrottle]) htold⟩
  refine ⟨fun hst hg => ?_, fun hst hg => hplugs (State.firstSteps_plugged_unbound h (hplugged hg) (by
    exact hst)), fun hst hp => ?_, fun hst hg hp => ?_, fun hst => ?_, fun hst hp => ?_, fun k hst hp hn hk => ?_,
    fun hst hp => ?_, fun hst hp hg => ?_,
    fun hst hg hold => hplugs (State.firstSteps_plugged_occupied h (hplugged hg) hst hold)⟩
  · have hplaced := State.firstSteps_placed hst (hplug hg)
    rw [hend.inactive (Bay.keptOrOffered.ne_active hplaced)]
    exact hplaced
  · exact (hend.quiet (.inr (.inr (.inr (.inr ⟨.inl hst, hp⟩))))).1
  · obtain ⟨hocc, htickets⟩ := State.firstSteps_occupied h hst (hplug hg) hp
    exact ⟨hend.stood hocc (by simp), by rw [hend.frame]; exact htickets⟩
  · exact hend.quiet (.inr (by
      rcases hst with e | e | e
      · exact .inl e
      · exact .inr (.inl e)
      · exact .inr (.inr (.inl e))))
  · exact hend.quiet (.inr (.inr (.inr (.inr ⟨.inr hst, hp⟩))))
  · have hsteps := State.firstSteps_arrival hst hn hk hp
    have hfirst : s.ToldArrival ((s.linkOnline b).firstSteps b r) b k := by
      rw [hsteps]
      split
      · exact (State.arrived_took hk hn).2
      · exact State.arrived_told hk
    have hall : s.ToldArrival t b k := hfirst.trans (hend.tells.mono fun _ n hthrottle e => by
      obtain ⟨_, _, _, e'⟩ := hthrottle
      cases e'.symm.trans e)
    refine ⟨fun hg => ?_, fun hg => ?_, hall.count, hall.isPrefix⟩
    · rw [hsteps, hplug hg, if_neg (by simp)] at hend
      refine ⟨hend.stood (State.arrived_preceded hk).bay (by simp), ?_⟩
      rw [hend.ticket, State.arrived_ticket hk, if_pos rfl]
      rfl
    · rw [hplugged hg, if_pos rfl] at hsteps
      exact hopens (hsteps ▸ (State.arrived_took hk hn).1)
  · obtain ⟨hplaced, hfreed⟩ := State.firstSteps_departure h hr hst hp
    rw [hend.inactive (Bay.keptOrOffered.ne_active hplaced)]
    refine ⟨hplaced, fun n hn => ?_, fun k hn hk => ?_⟩
    · obtain ⟨k, hk, -, rfl, -⟩ := h.claimant hn
      rw [hend.ticket]
      exact (hfreed k hn hk).1
    · exact hend.told (Notice.departed_lasting _ b) (by simp [Notice.isThrottle]) (hfreed k hn hk).2
  · exact hend.quiet (.inl ⟨hst, hp, hg.imp hplug id⟩)

end Sys2Proof.Machine
end

