-- ==== Sys2Proof/Proofs/TicketChecks.lean ====
section
/-! SUPPORT. The rows of the ticket commands, and their checks in their order (R29, R31, R36, R56, R57): O15 and O16; and
the first number that is not live (R28, R70): O23. -/

namespace Sys2Proof.Machine

/-! ### The next number (R28, R70) -/

/-- The number taken is the first at or after the counter that is not live, but for the last that is tested. -/
theorem freeNumber_first (live : List Nat) (k n : Nat) :
    ∃ i ≤ k, freeNumber live k n = nextNumber^[i] n ∧ ∀ j < i, nextNumber^[j] n ∈ live := by
  induction k generalizing n with
  | zero => exact ⟨0, le_rfl, rfl, by simp⟩
  | succ k ih =>
    unfold freeNumber
    split
    · rename_i hn
      obtain ⟨i, hi, e, hlive⟩ := ih (nextNumber n)
      refine ⟨i + 1, by omega, e, fun j hj => ?_⟩
      cases j with
      | zero => exact hn
      | succ j => exact hlive j (by omega)
    · exact ⟨0, by omega, rfl, by simp⟩

/-- With fewer than 65535 live numbers the number taken is the first that is not live, and is 1 to 65535. -/
theorem freeNumber_spec {live : List Nat} {n m : Nat} (hn : 1 ≤ n ∧ n ≤ 65535) (hl : live.length ≤ m)
    (hm : m < 65535) : ∃ i ≤ m, freeNumber live live.length n = nextNumber^[i] n ∧
      freeNumber live live.length n ∉ live ∧ (∀ j < i, nextNumber^[j] n ∈ live) ∧
      1 ≤ freeNumber live live.length n ∧ freeNumber live live.length n ≤ 65535 := by
  obtain ⟨i, hi, e, hlive⟩ := freeNumber_first live live.length n
  exact ⟨i, by omega, e, freeNumber_not_mem hn (by omega), hlive, freeNumber_bounds _ _ hn⟩

/-- Settles O23: both counters are tested as `freeNumber` does, over at most 64 and at most 160 live numbers. -/
theorem numbersAreTheFirstNotLive : Obligations.NumbersAreTheFirstNotLive := by
  unfold Obligations.NumbersAreTheFirstNotLive
  intro after s
  constructor
  · rintro ⟨hlen, -, -, hcount⟩
    exact freeNumber_spec hcount (by simpa [State.liveTickets] using hlen) (by omega)
  · rintro ⟨hlen, -, -, -, hcount⟩
    exact freeNumber_spec hcount hlen (by omega)

/-! ### The rows of the ticket commands -/

section Rows

variable {s : State} {p : Port} (hs : s.ready p) (hp : p = .s ∨ s.opState = .run)
include hs hp

theorem requestBay_answered {x y z : Byte} {u : State} {r : Reply} (e : ownRequestBay p [x, y, z] s = (u, r))
    (hc : r.clearsOverrun = false) (hb : u.bus = s.bus) : ∃ t, exec (.requestBay p [x, y, z]) s = .next t ∧
      s.answeredWith u t p r.status r.payload (r.clamped && r.status.carriedOut) :=
  IsRequest.answered ⟨fun _ => rfl, by simp, fun t P => ownRequestBay_withPorts t P p [x, y, z]⟩ hs
    (State.portRefusal_none (by cases p <;> rfl) (hp.imp_right .inl) (by simp [infoRequestBay])) rfl e hc hb

theorem cancelTicket_answered {h l : Byte} {u : State} {r : Reply} (e : ownCancelTicket p [h, l] s = (u, r))
    (hc : r.clearsOverrun = false) (hb : u.bus = s.bus) : ∃ t, exec (.cancelTicket p [h, l]) s = .next t ∧
      s.answeredWith u t p r.status r.payload (r.clamped && r.status.carriedOut) :=
  IsRequest.answered ⟨fun _ => rfl, by simp, fun t P => ownCancelTicket_withPorts t P p [h, l]⟩ hs
    (State.portRefusal_none (by cases p <;> rfl) (hp.imp_right .inl) (by simp [infoCancelTicket])) rfl e hc hb

theorem acceptOffer_answered {h l x : Byte} {u : State} {r : Reply} (e : ownAcceptOffer p [h, l, x] s = (u, r))
    (hc : r.clearsOverrun = false) (hb : u.bus = s.bus) : ∃ t, exec (.acceptOffer p [h, l, x]) s = .next t ∧
      s.answeredWith u t p r.status r.payload (r.clamped && r.status.carriedOut) :=
  IsRequest.answered ⟨fun _ => rfl, by simp, fun t P => ownAcceptOffer_withPorts t P p [h, l, x]⟩ hs
    (State.portRefusal_none (by cases p <;> rfl) (hp.imp_right .inl) (by simp [infoAcceptOffer])) rfl e hc hb

theorem declineOffer_answered {h l x : Byte} {u : State} {r : Reply} (e : ownDeclineOffer p [h, l, x] s = (u, r))
    (hc : r.clearsOverrun = false) (hb : u.bus = s.bus) : ∃ t, exec (.declineOffer p [h, l, x]) s = .next t ∧
      s.answeredWith u t p r.status r.payload (r.clamped && r.status.carriedOut) :=
  IsRequest.answered ⟨fun _ => rfl, by simp, fun t P => ownDeclineOffer_withPorts t P p [h, l, x]⟩ hs
    (State.portRefusal_none (by cases p <;> rfl) (hp.imp_right .inl) (by simp [infoDeclineOffer])) rfl e hc hb

theorem requestBay_refused {x y z : Byte} {st : Status} (e : ownRequestBay p [x, y, z] s = (s, .refuse st)) :
    s.refusedBy (.requestBay p [x, y, z]) p st [] :=
  requestBay_answered hs hp e rfl rfl

end Rows

theorem assignBay_answered {s : State} (hs : s.ready .s) {h l x : Byte} {u : State} {r : Reply}
    (e : ownAssignBay .s [h, l, x] s = (u, r)) (hc : r.clearsOverrun = false) (hb : u.bus = s.bus) :
    ∃ t, exec (.assignBay .s [h, l, x]) s = .next t ∧
      s.answeredWith u t .s r.status r.payload (r.clamped && r.status.carriedOut) :=
  IsRequest.answered ⟨fun _ => rfl, by simp, fun t P => ownAssignBay_withPorts t P .s [h, l, x]⟩ hs
    (State.portRefusal_none rfl (.inl rfl) (by simp [infoAssignBay])) rfl e hc hb

theorem queryTicket_refused {s : State} {p : Port} (hs : s.ready p) {h l : Byte} {st : Status}
    (e : ownQueryTicket p [h, l] s = (s, .refuse st)) : s.turnedAway (.queryTicket p [h, l]) p st :=
  IsRequest.asked ⟨fun _ => rfl, by simp, fun t P => ownQueryTicket_withPorts t P p [h, l]⟩ hs
    (State.portRefusal_none (by cases p <;> rfl) (.inr (.inr rfl)) (by simp [infoQueryTicket])) rfl e rfl

/-! ### The checks of REQUEST BAY (R31) -/

theorem State.configuredPool_of_val (s : State) {x : Byte} {q : PoolNo} (h : q.val = x.toNat) :
    s.configuredPool x = if (s.pool q).configured then some q else none := by
  simp [State.configuredPool, poolNo_of_val h]

theorem State.configuredPool_of_ge (s : State) {x : Byte} (h : 8 ≤ x.toNat) : s.configuredPool x = none := by
  simp [State.configuredPool, poolNo_of_ge h]

/-- ACCESS is refused to N (R31). -/
theorem priorityOf_access {z : Byte} (h : z.toNat = 2) : priorityOf z = some .access := by
  simp [priorityOf, h]

/-- Settles O15: each refusal from the first check that fails. -/
theorem requestBayChecks : Obligations.RequestBayChecks := by
  unfold Obligations.RequestBayChecks
  intro s p x stay z hs hp refused
  refine ⟨fun hc => requestBay_refused hs hp (by simp [ownRequestBay, hc]),
    fun hr h0 h2 => requestBay_refused hs hp (by simp [ownRequestBay, hr, priorityOf_none h0 h2]),
    fun hr h2 hn => requestBay_refused hs hp (by simp [ownRequestBay, hr, priorityOf_access h2, hn]), fun hr hz => ?_⟩
  obtain ⟨c, hc, hstd⟩ := priorityOf_some (hz.imp_right And.left)
  have hright : ¬(c = .access ∧ p = .n) := by
    rintro ⟨rfl, hn⟩
    rcases hz with h | ⟨-, h⟩
    · exact absurd (hstd.mpr h) (by simp)
    · exact h hn
  have hnoSuch : s.configuredPool x = none → refused .noSuch := fun hx =>
    requestBay_refused hs hp (by simp [ownRequestBay, hr, hc, hright, hx])
  refine ⟨fun hx => hnoSuch (s.configuredPool_of_ge hx), fun q hq => ?_⟩
  have hpool := s.configuredPool_of_val hq
  refine ⟨fun hconf => hnoSuch (by simp [hpool, hconf]), fun hconf hk h0 => ?_, fun hconf hk hfull => ?_⟩
  · obtain rfl := hstd.mpr h0
    exact requestBay_refused hs hp (by simp [ownRequestBay, hr, hc, hpool, hconf, hk])
  · have hroom : s.tableRoom = false := by simpa [State.tableRoom] using hfull
    rw [← hstd] at hk
    exact requestBay_refused hs hp (by simp [ownRequestBay, hr, hc, hright, hpool, hconf, hk, hroom])

/-! ### The checks on a named ticket (R29, R36, R56, R57) -/

/-- The number names no live ticket (R29). -/
theorem State.ownTicket_noSuch {s : State} {n : Nat} (h : n = 0 ∨ s.ticket? n = none) (p : Port) :
    s.ownTicket p n = .error .noSuch := by
  rcases h with h | h <;> simp [State.ownTicket, h]

/-- The ticket is of another origin (R29). -/
theorem State.ownTicket_notOwner {s : State} {p : Port} {n : Nat} {k : Ticket} (hn : n ≠ 0)
    (hk : s.ticket? n = some k) (hp : p ≠ .s) (ho : k.origin ≠ p) : s.ownTicket p n = .error .notOwner := by
  simp [State.ownTicket, hn, hk, hp, ho]

/-- S and the ticket's origin may name the ticket (R29). -/
theorem State.ownTicket_ok {s : State} {p : Port} {n : Nat} {k : Ticket} (hn : n ≠ 0) (hk : s.ticket? n = some k)
    (ho : p = .s ∨ k.origin = p) : s.ownTicket p n = .ok k := by
  have : ¬(p ≠ .s ∧ k.origin ≠ p) := by tauto
  simp [State.ownTicket, hn, hk, this]

/-- A byte that is above 47 or names an unenrolled bay names no bay (R1, R3). -/
theorem State.enrolledBay_none {s : State} {x : Byte}
    (h : 48 ≤ x.toNat ∨ ∀ a : BayNo, a.val = x.toNat → (s.bay a).enrolled = false) : s.enrolledBay x = none := by
  by_cases hx : x.toNat < 48
  · have he := h.resolve_left (by omega) ⟨x.toNat, hx⟩ rfl
    simp [s.enrolledBay_of_val (b := ⟨x.toNat, hx⟩) rfl, he]
  · exact s.enrolledBay_of_ge (by omega)

section Checks

variable {s : State} {p : Port} {h l b : Byte} (hs : s.ready p) (hp : p = .s ∨ s.opState = .run)
include hs hp

/-- A check of the offer fails in ACCEPT OFFER and in DECLINE OFFER alike (R56, R57). -/
theorem offer_refused {st : Status} (e : s.openOffer p (of16 h l) b = .error st) :
    s.refusedBy (.acceptOffer p [h, l, b]) p st [] ∧ s.refusedBy (.declineOffer p [h, l, b]) p st [] :=
  ⟨acceptOffer_answered hs hp (r := .refuse st) (by simp [ownAcceptOffer, e]) rfl rfl,
    declineOffer_answered hs hp (r := .refuse st) (by simp [ownDeclineOffer, e]) rfl rfl⟩

/-- A check of the ticket fails in the four commands alike (R29). -/
theorem ticket_refused {st : Status} (e : s.ownTicket p (of16 h l) = .error st) :
    s.refusedBy (.cancelTicket p [h, l]) p st [] ∧ s.turnedAway (.queryTicket p [h, l]) p st ∧
      s.refusedBy (.acceptOffer p [h, l, b]) p st [] ∧ s.refusedBy (.declineOffer p [h, l, b]) p st [] :=
  ⟨cancelTicket_answered hs hp (r := .refuse st) (by simp [ownCancelTicket, e]) rfl rfl,
    queryTicket_refused hs (by simp [ownQueryTicket, e]), offer_refused hs hp (by simp [State.openOffer, e])⟩

end Checks

theorem assignBay_refused {s : State} {h l b : Byte} (hs : s.ready .s) {st : Status}
    (e : ownAssignBay .s [h, l, b] s = (s, .refuse st)) : s.refusedBy (.assignBay .s [h, l, b]) .s st [] :=
  assignBay_answered hs e rfl rfl

/-- Settles O16: the ticket, then the bay, then the states of both. -/
theorem namedTicketChecks : Obligations.NamedTicketChecks := by
  unfold Obligations.NamedTicketChecks
  intro s p h l b hs hp offer all assign
  have hassign : ∀ {st : Status}, ownAssignBay .s [h, l, b] s = (s, .refuse st) → assign st := by
    rintro st e rfl
    exact assignBay_refused hs e
  refine ⟨fun hc => hassign (by simp [ownAssignBay, hc]), fun hno => ⟨ticket_refused hs hp (State.ownTicket_noSuch hno p),
    fun hr => hassign (by simp [ownAssignBay, hr, State.ownTicket_noSuch hno])⟩, fun k hn hk => ⟨fun hps ho =>
      ticket_refused hs hp (State.ownTicket_notOwner hn hk hps ho), fun hb => ?_, fun a ha he => ?_⟩⟩
  all_goals have hsown := State.ownTicket_ok (p := .s) hn hk (.inl rfl)
  · have hbay := State.enrolledBay_none hb
    exact ⟨fun ho => offer_refused hs hp (by simp [State.openOffer, State.ownTicket_ok hn hk ho, hbay]),
      fun hr => hassign (by simp [ownAssignBay, hr, hsown, hbay])⟩
  · have hbay : s.enrolledBay b = some a := by simp [s.enrolledBay_of_val ha, he]
    refine ⟨fun ho hopen => offer_refused hs hp (by simp [State.openOffer, State.ownTicket_ok hn hk ho, hbay, hopen]),
      fun hr hst => hassign ?_⟩
    by_cases hw : k.state = .waiting
    · simp [ownAssignBay, hr, hsown, hbay, hw, hst.resolve_left (not_not_intro hw)]
    · simp [ownAssignBay, hr, hsown, hbay, hw]

end Sys2Proof.Machine
end

