-- ==== Sys2Proof/Proofs/Holds.lean ====
section
/-! SUPPORT. How a ticket becomes HELD at a bay (R35): by a direct grant, by ASSIGN BAY and by ACCEPT OFFER; and the place
of a new ticket in its queue (R47): O14 and O18. -/

namespace Sys2Proof.Machine

/-- A ticket becomes HELD at a bay that was not: its entry, the bay's record and one BAY_STATE (R7, R35). -/
theorem State.holdAt_eq {s : State} {b : BayNo} (n : Nat) (hst : (s.bay b).state ≠ .held) : s.holdAt n b =
    ((s.modTicket n (fun t => t.heldAt b (s.deadline s.timers.grace))).setBay b
      { s.bay b with state := .held, ticket := some n }).raise .s (.bayState b .held (s.link b).link none) :=
  State.changeBay_to (s := s.modTicket n fun t => t.heldAt b (s.deadline s.timers.grace))
    (f := fun x => { x with state := .held, ticket := some n }) (by simpa using hst.symm) (by simp)

/-! ### A new ticket (R28, R47) -/

/-- A number that is not live is that of no entry (R28). -/
theorem State.number_ne_of_fresh {s : State} {n : Nat} (hn : n ∉ s.liveTickets) : ∀ t ∈ s.tickets, t.number ≠ n :=
  fun _ ht e => hn (e ▸ List.mem_map_of_mem ht)

/-- A change of the last entry alone, whose number no other carries. -/
theorem State.modTicket_of_last {u : State} {l : List Ticket} {t : Ticket} (hu : u.tickets = l ++ [t])
    (hl : ∀ x ∈ l, x.number ≠ t.number) (f : Ticket → Ticket) :
    u.modTicket t.number f = { u with tickets := l ++ [f t] } := by
  have hkeep : l.map (fun x => if x.number = t.number then f x else x) = l :=
    (List.map_congr_left fun x hx => if_neg (hl x hx)).trans (List.map_id' _)
  simp [State.modTicket, hu, hkeep]

/-- The ranks once a ticket has been issued (R46). -/
theorem State.issue_rankOf (s : State) {t : Ticket} (hn : t.number ∉ s.liveTickets) (m : Nat) :
    (s.issue t).rankOf m = if m = t.number then t.cls.rank else s.rankOf m := by
  rw [State.rankOf, State.issue_ticket_find s t hn]
  by_cases e : m = t.number
  · rw [if_pos e, if_pos e]
  · rw [if_neg e, if_neg e, State.rankOf]

/-- A new ticket joins the queue of its pool behind its class and the classes ahead (R46, R47). -/
theorem AgreeBut.issue_joins {s : State} (h : AgreeBut none none s) {t : Ticket} (hn : t.number ∉ s.liveTickets) :
    ∃ front back, (s.pool t.pool).queue = front ++ back ∧ t.number ∉ front ∧
      (∀ m ∈ front, s.rankOf m ≤ t.cls.rank) ∧ (∀ m ∈ back, t.cls.rank < s.rankOf m) ∧
      (s.issue t).joinQueue t.pool t.number =
        (s.issue t).setPool t.pool { s.pool t.pool with queue := front ++ t.number :: back } := by
  have hnot := h.fresh_not_mem_queue hn t.pool
  have hself : (s.issue t).rankOf t.number = t.cls.rank := by rw [s.issue_rankOf hn, if_pos rfl]
  have hothers : ∀ m ∈ (s.pool t.pool).queue, (s.issue t).rankOf m = s.rankOf m := fun m hm => by
    rw [s.issue_rankOf hn, if_neg fun e : m = t.number => hnot (e ▸ hm)]
  obtain ⟨-, -, hsorted, -⟩ := h.queue t.pool
  obtain ⟨front, back, hsplit, hjoin, hfront, hback⟩ := joinAt_sorted_split (s.issue t).rankOf t.number
    ((s.issue t).rankOf t.number) (s.pool t.pool).queue
    (hsorted.imp_of_mem fun ha hb hab => by rwa [hothers _ ha, hothers _ hb])
  rw [hself] at hfront hback
  refine ⟨front, back, hsplit, fun hm => hnot (hsplit ▸ List.mem_append_left _ hm), fun m hm => ?_, fun m hm => ?_, ?_⟩
  · exact hothers m (hsplit ▸ List.mem_append_left _ hm) ▸ hfront m hm
  · exact hothers m (hsplit ▸ List.mem_append_right _ hm) ▸ hback m hm
  · rw [State.joinQueue, ← hjoin]
    rfl

/-- A pool record written over itself changes nothing. -/
theorem State.setPool_pool_eq (s : State) (q : PoolNo) : s.setPool q (s.pool q) = s := by
  simp [State.setPool, State.pool]

/-- A new WAITING ticket that is freed at once leaves nothing but its spent number (R28, R40). -/
theorem AgreeBut.issue_freed {s : State} (h : AgreeBut none none s) {t : Ticket} (hn : t.number ∉ s.liveTickets)
    (hst : t.state = .waiting) (hb : t.bay = none) :
    (s.issue t).freeTicket t.number = { s with ticketCounter := nextNumber t.number } := by
  have hqueue : (s.pool t.pool).queue.filter (fun m => m != t.number) = (s.pool t.pool).queue :=
    List.filter_eq_self.mpr fun m hm => by
      simpa using fun e : m = t.number => h.fresh_not_mem_queue hn t.pool (e ▸ hm)
  have hout : (s.issue t).outOfQueue t = s.issue t := by
    rw [State.outOfQueue, if_pos (.inl hst), State.leaveQueue]
    show (s.issue t).setPool t.pool { s.pool t.pool with
      queue := (s.pool t.pool).queue.filter (fun m => m != t.number) } = s.issue t
    rw [hqueue]
    exact (s.issue t).setPool_pool_eq t.pool
  have hlive : s.tickets.filter (fun u => u.number != t.number) = s.tickets :=
    List.filter_eq_self.mpr fun u hu => by simpa using State.number_ne_of_fresh hn u hu
  rw [State.freeTicket_of_unbayed (t := t) (by rw [State.issue_ticket_find s t hn, if_pos rfl]) hb, hout]
  simp [State.issue, hlive]

/-! ### ASSIGN BAY and ACCEPT OFFER (R36, R56) -/

/-- An open offer that the port may accept or decline (R56, R57). -/
theorem State.openOffer_ok {s : State} {p : Port} {n : Nat} {x : Byte} {k : Ticket} {b : BayNo}
    (hown : s.ownTicket p n = .ok k) (hx : s.enrolledBay x = some b) (hst : k.state = .offered) (hb : k.bay = some b) :
    s.openOffer p n x = .ok (k, b) := by
  simp [State.openOffer, hown, hx, hst, hb]

/-- A ticket that agrees with its bay is offered where the bay is OFFERED (section 2.2). -/
theorem ClaimsAgree.offered_bay {s : State} (h : ClaimsAgree s) {k : Ticket} {b : BayNo} (hk : k ∈ s.tickets)
    (hst : k.state = .offered) (hb : k.bay = some b) : (s.bay b).state = .offered := by
  have hs := ((agreeBut_none_iff s).mpr h).ticket k hk (by simp)
  simpa [hst, TicketState.claims] using (hs.named b hb).1

/-- The number of a live ticket is not 0 (R28). -/
theorem ClaimsAgree.number_ne_zero {s : State} (h : ClaimsAgree s) {k : Ticket} (hk : k ∈ s.tickets) :
    k.number ≠ 0 := by
  obtain ⟨⟨-, -, hbounds, -⟩, -⟩ := h
  have := hbounds k.number (List.mem_map_of_mem hk)
  omega

/-- Settles O18: both commands take the ticket out of its queue and hold it at the bay, which was not HELD. -/
theorem holdsBeginByCommand : Obligations.HoldsBeginByCommand := by
  unfold Obligations.HoldsBeginByCommand
  intro s p h l x b k hc hs hr hx hn hk deadline u fields
  have hmem := State.mem_of_ticket? hk
  have hown : ∀ {p}, p = .s ∨ k.origin = p → s.ownTicket p (of16 h l) = .ok k := fun ho =>
    State.ownTicket_ok (hn ▸ hc.number_ne_zero hmem) (hn ▸ hk) ho
  have hheld : (s.bay b).state ≠ .held → s.holdQueued k b = u := fun hst =>
    State.holdAt_eq (s := s.leaveQueue k.pool k.number) k.number hst
  constructor
  · rintro rfl hst hfree
    have e : ownAssignBay .s [h, l, x] s = (u, .ok fields) := by
      rw [← hheld (by simp [hfree])]
      simp [ownAssignBay, hr, hown (.inl rfl), hx, hst, hfree, fields, deadline, State.deadline]
    exact assignBay_answered hs e rfl rfl
  · intro ho hst hb
    have e : ownAcceptOffer p [h, l, x] s = (u, .ok fields) := by
      rw [← hheld (by simp [hc.offered_bay hmem hst hb])]
      simp [ownAcceptOffer, State.openOffer_ok (hown ho) hx hst hb, fields, deadline, State.deadline]
    exact acceptOffer_answered hs (.inr hr) e rfl rfl

/-! ### REQUEST BAY (R31, R52) -/

/-- REQUEST BAY that passes its checks issues a ticket and takes the grant decision for it (R31). -/
theorem ownRequestBay_done {s : State} {p : Port} {x stay z : Byte} {q : PoolNo} {c : Priority}
    (hr : s.opState = .run) (hz : priorityOf z = some c) (hx : s.configuredPool x = some q)
    (hn : ¬(c = .access ∧ p = .n)) (hk : ¬((s.pool q).kind = .restricted ∧ c = .standard))
    (hroom : s.tickets.length < 64) : ownRequestBay p [x, stay, z] s =
      (s.issue (s.walkIn p q stay.toNat c)).grant (s.walkIn p q stay.toNat c) (stayClamped stay.toNat) := by
  simp [ownRequestBay, hr, hz, hx, hn, hk, State.tableRoom, hroom]

/-- REQUEST BAY that is carried out is answered with its fields and its CLAMPED flag (R153). -/
theorem requestBay_done {s : State} {p : Port} (hs : s.ready p) (hp : p = .s ∨ s.opState = .run) {x y z : Byte}
    {u : State} {st : Status} {fields : List Byte} {clamped : Bool}
    (e : ownRequestBay p [x, y, z] s = (u, ⟨st, fields, clamped, false⟩)) (hst : st.carriedOut = true)
    (hb : u.bus = s.bus) : ∃ t, exec (.requestBay p [x, y, z]) s = .next t ∧
      s.answeredWith u t p st fields clamped := by
  simpa [hst] using requestBay_answered hs hp e rfl hb

/-- The first eligible bay for a new ticket is that of the state that the request finds (R52). -/
theorem State.issue_grantBay (s : State) (t : Ticket) :
    (s.issue t).grantBay t = (s.rotation t.pool).find? (fun b => s.eligible b t) := rfl

/-- A direct grant: the ticket is HELD at the bay, to which the rotation pointer moves (R35, R51, R52). -/
theorem State.grant_held {s : State} {t : Ticket} {b : BayNo} (hn : t.number ∉ s.liveTickets)
    (hb : (s.rotation t.pool).find? (fun a => s.eligible a t) = some b) (clamped : Bool) :
    (s.issue t).grant t clamped =
      (({ s with
          tickets := s.tickets ++ [t.heldAt b (s.deadline s.timers.grace)], ticketCounter := nextNumber t.number,
          bays := s.bays.set b { s.bay b with state := .held, ticket := some t.number },
          pools := s.pools.set t.pool { s.pool t.pool with pointer := some b } } : State).raise .s
        (.bayState b .held (s.link b).link none),
        .okClamped (u16 t.number ++ u8 b :: u32 (s.deadline s.timers.grace).toNat) clamped) := by
  have hfree : (s.bay b).state = .free := State.free_of_eligible (t := t) (by simpa using List.find?_some hb)
  have hheld := State.holdAt_eq (s := (s.issue t).pointTo t.pool b) (b := b) t.number (by
    show (s.bay b).state ≠ .held
    simp [hfree])
  rw [State.modTicket_of_last (u := (s.issue t).pointTo t.pool b) rfl (State.number_ne_of_fresh hn)] at hheld
  simp only [State.grant, State.issue_grantBay, hb, hheld]
  rfl

/-- Settles O14: the grant decision by the first eligible bay, or by the room of the queue. -/
theorem requestBayIsGranted : Obligations.RequestBayIsGranted := by
  unfold Obligations.RequestBayIsGranted
  intro s p x stay z q c hc hs hr hz hx hright hkind hroom n taken clamped k deadline counter
  have h := (agreeBut_none_iff s).mpr hc
  have hn : k.number ∉ s.liveTickets := hc.1.nextTicket.1
  have hwalk : s.walkIn p q stay.toNat c = k := by cases c <;> rfl
  have hown := ownRequestBay_done (stay := stay) hr hz hx hright hkind hroom
  rw [hwalk] at hown
  have hnone : (∀ b, s.eligible b k = false) → (s.issue k).grantBay k = none := fun hno => by
    rw [State.issue_grantBay]
    exact List.find?_eq_none.mpr fun b _ => by simp [hno b]
  refine ⟨fun b hb => ?_, fun hno hlen => ?_, fun hno hlen => ?_⟩
  · have e := hown.trans (State.grant_held hn hb _)
    exact requestBay_done hs (.inr hr) e rfl rfl
  · obtain ⟨front, back, hsplit, hnf, hfront, hback, hjoin⟩ := h.issue_joins hn
    have hpos : ((s.issue k).joinQueue k.pool k.number).position k.pool k.number = front.length + 1 := by
      rw [hjoin, State.position, State.setPool_pool_self, List.idxOf_append_of_notMem hnf]
      simp
    have hlen' : ((s.issue k).pool k.pool).queue.length < 12 := hlen
    have e : ownRequestBay p [x, stay, z] s =
        ((s.issue k).setPool k.pool { s.pool k.pool with queue := front ++ k.number :: back },
          ⟨.queued, u16 k.number ++ [u8 (front.length + 1)], clamped, false⟩) := by
      rw [hown]
      simp only [State.grant, hnone hno, State.queueRoom, decide_eq_true_eq, hlen', if_true, hpos]
      rw [hjoin]
      rfl
    obtain ⟨t, he, ha⟩ := requestBay_done hs (.inr hr) e rfl rfl
    exact ⟨t, front, back, hsplit, hfront, hback, he, ha⟩
  · have hlen' : ((s.issue k).pool k.pool).queue.length = 12 := hlen
    have e : ownRequestBay p [x, stay, z] s = ({ s with ticketCounter := counter }, .refuse .full) := by
      rw [hown]
      simp only [State.grant, hnone hno, State.queueRoom, hlen', h.issue_freed hn rfl rfl, lt_irrefl, decide_false]
      rfl
    exact requestBay_answered hs (.inr hr) e rfl rfl

end Sys2Proof.Machine
end

