-- ==== Sys2Proof/Proofs/Cancellations.lean ====
section
/-! SUPPORT. The ends of a claim without a session: CANCEL TICKET by the state of the ticket (R41, R60), and the expiry of a
hold (R38): O20. -/

namespace Sys2Proof.Machine

/-! ### A ticket is struck (R40) -/

/-- The table and the queues without a ticket; its bay still names it (R40). -/
def State.struck (s : State) (k : Ticket) : State :=
  { s.outOfQueue k with tickets := s.tickets.filter (fun u => u.number != k.number) }

/-- A ticket that stands in no queue by its state is struck from the table alone. -/
theorem State.struck_of_unqueued (s : State) {k : Ticket} (hst : ¬(k.state = .waiting ∨ k.state = .offered)) :
    s.struck k = { s with tickets := s.tickets.filter (fun u => u.number != k.number) } := by
  rw [State.struck, State.outOfQueue, if_neg hst]

/-- A WAITING or OFFERED ticket is struck from its queue too (R48). -/
theorem State.struck_of_queued (s : State) {k : Ticket} (hst : k.state = .waiting ∨ k.state = .offered) :
    s.struck k = { s with
      tickets := s.tickets.filter (fun u => u.number != k.number),
      pools := s.pools.set k.pool { s.pool k.pool with
        queue := (s.pool k.pool).queue.filter (fun m => m != k.number) } } := by
  rw [State.struck, State.outOfQueue, if_pos hst]
  rfl

theorem State.struck_bay (s : State) (k : Ticket) (b : BayNo) : (s.struck k).bay b = s.bay b := by
  unfold State.struck State.outOfQueue
  split <;> rfl

theorem State.outOfQueue_tickets (s : State) (k : Ticket) : (s.outOfQueue k).tickets = s.tickets := by
  unfold State.outOfQueue
  split <;> rfl

theorem State.freeTicket_eq_struck {s : State} {k : Ticket} (hk : s.ticket? k.number = some k) (hb : k.bay = none) :
    s.freeTicket k.number = s.struck k := by
  rw [State.freeTicket_of_unbayed hk hb, State.outOfQueue_tickets]
  rfl

/-- A ticket that its bay names is struck, and the bay's field is removed (R40). -/
theorem State.freeTicket_of_named {s : State} {k : Ticket} {b : BayNo} (hk : s.ticket? k.number = some k)
    (hb : k.bay = some b) (hn : (s.bay b).ticket = some k.number) :
    s.freeTicket k.number = (s.struck k).setBay b { s.bay b with ticket := none } := by
  have hbay : (s.outOfQueue k).bay b = s.bay b := s.struck_bay k b
  rw [State.freeTicket_of_bay hk hb, State.unname, hbay, if_pos hn, State.setBay_tickets, State.outOfQueue_tickets]
  rfl

/-! ### The bay is settled (R5, R6, R14) -/

/-- A bay is placed by its last report with one BAY_STATE, and the matching run or the plug-in follows. -/
def State.vacated (s : State) (b : BayNo) : State :=
  let y := (s.bay b).placed (s.linkLost b)
  let u := (s.setBay b y).raise .s (.bayState b y.state (s.link b).link none)
  if y.state = .free then u.matchRun y.pool
  else if y.state = .occupied ∧ y.plug = .plugged then u.plugIn b else u

/-- An OFFERED or HELD bay that no longer names its ticket changes its state when it is placed (R6, R7). -/
theorem State.place_of_claimed {s : State} {b : BayNo} (hst : (s.bay b).state = .offered ∨ (s.bay b).state = .held) :
    (s.setBay b { s.bay b with ticket := none }).place b = s.vacated b := by
  have hbay : (s.setBay b { s.bay b with ticket := none }).bay b = { s.bay b with ticket := none } :=
    s.setBay_bay_self b _
  have hplaced : ((s.setBay b { s.bay b with ticket := none }).bay b).placed
      ((s.setBay b { s.bay b with ticket := none }).linkLost b) = (s.bay b).placed (s.linkLost b) := by
    rw [hbay, Bay.placed_of_unnamed]
    rfl
  have hstate := Bay.placed_state (s.bay b) (s.linkLost b)
  have hat : (s.setBay b { s.bay b with ticket := none }).placeAt b =
      (s.setBay b ((s.bay b).placed (s.linkLost b))).raise .s
        (.bayState b ((s.bay b).placed (s.linkLost b)).state (s.link b).link none) := by
    rw [State.placeAt_eq, State.changeBay_to]
    · rw [hplaced, State.setBay_setBay]
      rfl
    · rw [hplaced, hbay]
      rcases hst with e | e <;> rcases hstate with h | ⟨h, -⟩ | h | h <;> simp [e, h]
    · rw [hplaced]
      rcases hstate with h | ⟨h, -⟩ | h | h <;> simp [h]
  have hbay' : ((s.setBay b ((s.bay b).placed (s.linkLost b))).raise .s
      (.bayState b ((s.bay b).placed (s.linkLost b)).state (s.link b).link none)).bay b =
        (s.bay b).placed (s.linkLost b) := s.setBay_bay_self b _
  rw [State.place, hat, State.settle_eq, hbay']
  rfl

/-- A ticket that is OFFERED or HELD at a bay is freed, and the bay is settled (R38, R41, R60). -/
theorem State.freed_place {s : State} {k : Ticket} {b : BayNo} (hk : s.ticket? k.number = some k)
    (hb : k.bay = some b) (hn : (s.bay b).ticket = some k.number)
    (hst : (s.bay b).state = .offered ∨ (s.bay b).state = .held) :
    (s.freeTicket k.number).place b = (s.struck k).vacated b := by
  have hbay := s.struck_bay k b
  rw [State.freeTicket_of_named hk hb hn, ← hbay]
  exact State.place_of_claimed (hbay ▸ hst)

/-! ### CANCEL TICKET and the expiry of a hold -/

/-- The ticket that has run out its hold (R38, R178). -/
theorem State.dueTicket_of_held {s : State} {k : Ticket} {b : BayNo} {d : Seconds}
    (hk : s.ticket? k.number = some k) (hst : k.state = .held) (hb : k.bay = some b) (hd : k.holdDeadline = some d)
    (hdue : s.reached d = true) : s.dueTicket k.number .held Ticket.holdDeadline = some (k, b) := by
  simp [State.dueTicket, hk, hb, hst, hd, hdue]

/-- CANCEL TICKET of a ticket that the port may name and that has no session (R41). -/
theorem cancelTicket_done {s : State} {p : Port} (hs : s.ready p) (hr : s.opState = .run) {h l : Byte} {k : Ticket}
    (hown : s.ownTicket p (of16 h l) = .ok k) (hst : k.state ≠ .charging) {u : State} (e : s.cancel k = u) :
    ∃ t, exec (.cancelTicket p [h, l]) s = .next t ∧ s.answeredWith u t p .ok [] false :=
  cancelTicket_answered hs (.inr hr) (r := .ok []) (by simp [ownCancelTicket, hown, hst, e]) rfl
    (e ▸ State.cancel_bus s k)

/-- Settles O20: what is struck and how the bay is settled, by the state of the ticket. -/
theorem claimsWithdrawn : Obligations.ClaimsWithdrawn := by
  unfold Obligations.ClaimsWithdrawn
  intro s p h l k hc hnum hk gone unqueued placed
  have hmem := State.mem_of_ticket? hk
  have hstands := ((agreeBut_none_iff s).mpr hc).ticket k hmem (by simp)
  constructor
  · intro hs hr ho cancels
    have hown : s.ownTicket p (of16 h l) = .ok k := State.ownTicket_ok (hnum ▸ hc.number_ne_zero hmem) (hnum ▸ hk) ho
    refine ⟨fun hst => ?_, fun b hst hb => ?_, fun b hst hb => ?_, fun b hst hb => ?_, fun hst => ?_⟩
    · refine cancelTicket_done hs hr hown (by simp [hst]) ?_
      have hb := hstands.bay.mpr hst
      rw [State.cancel, hst, hb, State.freeTicket_eq_struck hk hb, s.struck_of_queued (.inl hst)]
    · obtain ⟨hclaim, hn⟩ := hstands.named b hb
      have hoff : (s.bay b).state = .offered := by simpa [hst, TicketState.claims] using hclaim
      have e := State.freed_place hk hb hn (.inl hoff)
      rw [s.struck_of_queued (.inr hst)] at e
      exact cancelTicket_done hs hr hown (by simp [hst]) (by rw [State.cancel, hst, hb]; exact e)
    · obtain ⟨hclaim, hn⟩ := hstands.named b hb
      have hheld : (s.bay b).state = .held := by simpa [hst, TicketState.claims] using hclaim
      have e := State.freed_place hk hb hn (.inr hheld)
      rw [s.struck_of_unqueued (by simp [hst])] at e
      exact cancelTicket_done hs hr hown (by simp [hst]) (by rw [State.cancel, hst, hb]; exact e)
    · obtain ⟨-, hn⟩ := hstands.named b hb
      have e := State.freeTicket_of_named hk hb hn
      rw [s.struck_of_unqueued (by simp [hst])] at e
      exact cancelTicket_done hs hr hown (by simp [hst]) (by rw [State.cancel, hst, hb]; exact e)
    · exact cancelTicket_answered hs (.inr hr) (r := .refuse .wrongState) (by simp [ownCancelTicket, hown, hst]) rfl rfl
  · intro b d hst hb hd hdue
    obtain ⟨hclaim, hn⟩ := hstands.named b hb
    have hheld : (s.bay b).state = .held := by simpa [hst, TicketState.claims] using hclaim
    have hexec : exec (.holdExpiry k.number) s = .next (s.expireHold k.number b).settleBus := by
      simp only [exec, execHoldExpiry, State.dueTicket_of_held hk hst hb hd hdue]
    have e := State.freed_place (s := s.raise k.origin (.holdExpired k.number b)) (k := k) hk hb hn (.inr hheld)
    rw [State.struck_of_unqueued _ (by simp [hst])] at e
    rw [hexec, State.expireHold, State.freeWith, State.raiseTo_of_live hk, e]
    rfl

end Sys2Proof.Machine
end

