-- ==== Sys2Proof/Proofs/SlotExpiries.lean ====
section
/-! SUPPORT. A slot expiry in RUN (R81 to R84): what the activation of one booking makes of the state, what the activations
of a run of bays leave alone, and the matching runs that follow: O31. -/

namespace Sys2Proof.Machine

/-! ### Matching in the configured pools (R81, step 3) -/

/-- A matching run leaves which pools are configured, so that those are run which were configured before. -/
theorem State.foldl_matchConfigured (l : List PoolNo) (s : State) : l.foldl State.matchConfigured s =
    (l.filter (fun q => (s.pool q).configured)).foldl (fun r q => r.matchRun q) s := by
  induction l generalizing s with
  | nil => rfl
  | cons q l ih =>
    by_cases h : (s.pool q).configured = true
    · have hpool : ∀ r, ((s.matchRun q).pool r).configured = (s.pool r).configured := fun r => by
        rw [(s.matched_matchRun q).pool r]
      rw [List.foldl_cons, State.matchConfigured, if_pos h, ih, List.filter_cons, if_pos h, List.foldl_cons]
      simp only [hpool]
    · rw [List.foldl_cons, State.matchConfigured, if_neg h, ih, List.filter_cons, if_neg h]

theorem State.matched_foldl_matchRun (l : List PoolNo) (s : State) :
    s.Matched (l.foldl (fun r q => r.matchRun q) s) :=
  List.foldlRecOn (motive := s.Matched) l _ (.refl s) fun u hu q _ => hu.trans (u.matched_matchRun q)

/-- The matching runs of a slot expiry. -/
def State.matchPools (s : State) : State :=
  (allPools.filter (fun q => (s.pool q).configured)).foldl (fun r q => r.matchRun q) s

theorem State.matched_matchPools (s : State) : s.Matched s.matchPools := State.matched_foldl_matchRun _ s

/-- A slot expiry in RUN: the step of the slot clock, the activations, the matching runs (R81). -/
theorem State.expireSlot_of_run {s : State} (hr : s.opState = .run) :
    s.expireSlot = (allBays.foldl State.activateDue s.stepSlot).matchPools := by
  rw [State.expireSlot, if_pos hr, State.foldl_matchConfigured]
  rfl

/-! ### The hold of an activated booking (R83) -/

/-- The ticket of a booking whose bay is held for it (R27, R35, R83). -/
def Booking.heldTicket (k : Booking) (n : Nat) (b : BayNo) (q : PoolNo) (d : Seconds) : Ticket :=
  { number := n, origin := k.origin, kind := .booked, cls := if k.cls = .access then .access else .standard, pool := q,
    stay := k.length, state := .held, bay := some b, offerDeadline := none, holdDeadline := some d, lastDeclined := none,
    booking := some k.number }

/-- The records of a hold for a booking, ahead of its notices (R83). -/
def State.heldFor (s : State) (b : BayNo) (k : Booking) : State :=
  { s with
    tickets := s.tickets ++
      [k.heldTicket s.nextTicket b (s.bay b).pool (s.deviceSeconds + BitVec.ofNat 32 s.timers.grace)],
    ticketCounter := nextNumber s.nextTicket,
    bays := s.bays.set b { s.bay b with state := .held, ticket := some s.nextTicket } }

theorem State.bookedTicket_heldAt (s : State) (b : BayNo) (k : Booking) (d : Seconds) :
    (s.bookedTicket b k).heldAt b d = k.heldTicket s.nextTicket b (s.bay b).pool d := by
  unfold State.bookedTicket Ticket.heldAt Booking.heldTicket
  cases k.cls <;> rfl

/-- A bay that was not HELD is held for a booking: its records, BAY_STATE and BOOKING_ACTIVE (R83, R89). -/
theorem State.holdBooked_eq {s : State} {b : BayNo} (hn : s.nextTicket ∉ s.liveTickets) (hst : (s.bay b).state ≠ .held)
    (k : Booking) : s.holdBooked b k = ((s.heldFor b k).raise .s (.bayState b .held (s.link b).link none)).raise k.origin
      (.bookingActive k.number s.nextTicket b) := by
  have hheld := State.holdAt_eq (s := s.issue (s.bookedTicket b k)) (s.bookedTicket b k).number hst
  rw [State.modTicket_of_last (u := s.issue (s.bookedTicket b k)) rfl (State.number_ne_of_fresh hn),
    State.bookedTicket_heldAt] at hheld
  rw [State.holdBooked, hheld]
  rfl

/-! ### The displacement of a booking (R84) -/

/-- The ticket of a displaced booking (R84). -/
def State.displacedTicket (s : State) (b : BayNo) (k : Booking) : Ticket :=
  { s.bookedTicket b k with state := .waiting, bay := none, cls := k.cls.displacedClass }

/-- The ticket of a displaced booking joins the queue of the bay's pool, where there is room (R47, R84). -/
theorem AgreeBut.displace_queued {s : State} (h : AgreeBut none none s) {b : BayNo} (k : Booking)
    (hlen : (s.pool (s.bay b).pool).queue.length < 12) :
    ∃ front rear, (s.pool (s.bay b).pool).queue = front ++ rear ∧
      (∀ m ∈ front, s.rankOf m ≤ k.cls.displacedClass.rank) ∧ (∀ m ∈ rear, k.cls.displacedClass.rank < s.rankOf m) ∧
      s.displace b k = ((s.issue (s.displacedTicket b k)).setPool (s.bay b).pool { s.pool (s.bay b).pool with
        queue := front ++ s.nextTicket :: rear }).raiseBoth k.origin
          (.bookingDisplaced k.number s.nextTicket (s.bay b).pool) := by
  obtain ⟨front, rear, hsplit, -, hfront, hrear, hjoin⟩ := h.issue_joins (t := s.displacedTicket b k)
    h.fits.nextTicket.1
  refine ⟨front, rear, hsplit, hfront, hrear, ?_⟩
  have hroom : (s.issue (s.displacedTicket b k)).queueRoom (s.displacedTicket b k).pool = true :=
    decide_eq_true (p := (s.pool (s.bay b).pool).queue.length < 12) hlen
  have e : s.displace b k = ((s.issue (s.displacedTicket b k)).joinQueue (s.displacedTicket b k).pool
      (s.displacedTicket b k).number).raiseBoth k.origin (.bookingDisplaced k.number (s.displacedTicket b k).number
        (s.displacedTicket b k).pool) := if_pos hroom
  rw [e, hjoin]
  rfl

/-- A displaced booking is dropped where the queue is full, with its number spent (R84). -/
theorem AgreeBut.displace_dropped {s : State} (h : AgreeBut none none s) {b : BayNo} (k : Booking)
    (hlen : ¬(s.pool (s.bay b).pool).queue.length < 12) :
    s.displace b k = ({ s with ticketCounter := nextNumber s.nextTicket } : State).noticeDropped k .queueFull := by
  have hroom : ¬(s.issue (s.displacedTicket b k)).queueRoom (s.displacedTicket b k).pool = true :=
    fun e => hlen (of_decide_eq_true (p := (s.pool (s.bay b).pool).queue.length < 12) e)
  have e : s.displace b k = ((s.issue (s.displacedTicket b k)).freeTicket (s.displacedTicket b k).number).noticeDropped k
      .queueFull := if_neg hroom
  rw [e, h.issue_freed h.fits.nextTicket.1 rfl rfl]
  rfl

/-! ### The withdrawal ahead of a hold (R61, R83) -/

/-- The withdrawal of an offer to a live ticket (R61). -/
theorem State.withdraw_of_live {s : State} {b : BayNo} {z : Ticket} (hn : (s.bay b).ticket = some z.number)
    (hz : s.ticket? z.number = some z) (w : WithdrawReason) : s.withdraw b w =
      ((s.modTicket z.number Ticket.withdrawn).setBay b { s.bay b with ticket := none }).raise z.origin
        (.offerWithdrawn z.number b w) := by
  have hlive : ((s.modTicket z.number Ticket.withdrawn).setBay b { s.bay b with ticket := none }).ticket? z.number =
      some z.withdrawn := by
    rw [State.setBay_ticket_find, State.modTicket_ticket_find s _ _ Ticket.withdrawn fun _ => rfl, hz]
    simp
  rw [State.withdraw_eq hn, State.raiseTo_of_live hlive]
  rfl

/-- A withdrawal takes no number out of the table. -/
theorem State.withdraw_liveTickets (s : State) (b : BayNo) (w : WithdrawReason) :
    (s.withdraw b w).liveTickets = s.liveTickets := by
  have hnum : ∀ (n : Nat) (t : Ticket), (if t.number = n then t.withdrawn else t).number = t.number := fun n t => by
    split <;> rfl
  cases hn : (s.bay b).ticket with
  | none => simp [State.withdraw, hn]
  | some n => simp [State.withdraw_eq hn, State.liveTickets, State.modTicket, hnum, Function.comp_def]

theorem State.withdraw_nextTicket (s : State) (b : BayNo) (w : WithdrawReason) :
    (s.withdraw b w).nextTicket = s.nextTicket := by
  rw [State.nextTicket, State.withdraw_liveTickets, State.withdraw_ticketCounter]
  rfl

/-! ### The activation of a booking (R82) -/

section Activation

variable {s : State} {b : BayNo} {k : Booking}

theorem State.activate_of_full (hfull : s.tickets.length = 64) :
    s.activate b k = (s.dropBooking b k.number).noticeDropped k .tableFull := by
  simp [State.activate, State.tableRoom, hfull]

variable (hroom : s.tickets.length < 64)
include hroom

theorem State.activate_of_free (hst : (s.bay b).state = .free) :
    s.activate b k = (s.dropBooking b k.number).holdBooked b k := by
  have hbay : (s.dropBooking b k.number).bay b = s.bay b := rfl
  simp [State.activate, State.tableRoom, hroom, hbay, hst]

theorem State.activate_of_offered (hst : (s.bay b).state = .offered) :
    s.activate b k = ((s.dropBooking b k.number).withdraw b .booking).holdBooked b k := by
  have hbay : (s.dropBooking b k.number).bay b = s.bay b := rfl
  simp [State.activate, State.tableRoom, hroom, hbay, hst]

theorem State.activate_of_other (hf : (s.bay b).state ≠ .free) (ho : (s.bay b).state ≠ .offered) :
    s.activate b k = (s.dropBooking b k.number).displace b k := by
  have hbay : (s.dropBooking b k.number).bay b = s.bay b := rfl
  cases hst : (s.bay b).state with
  | free => exact absurd hst hf
  | offered => exact absurd hst ho
  | offline | held | occupied | active | suspended | blocked | faulted =>
    simp [State.activate, State.tableRoom, hroom, hbay, hst]

end Activation

/-- The activation of a booking writes the book at its bay alone, where the booking is dropped (R82). -/
theorem State.activate_booking (s : State) (b : BayNo) (k : Booking) :
    (s.activate b k).booking = (s.dropBooking b k.number).booking := by
  unfold State.activate
  dsimp only
  split
  · split <;> simp
  · simp

/-! ### What the work at some bays leaves alone -/

/-- The bays outside l and their bookings are as they were, no more than n tickets have joined the table, and every
HELD ticket is as it was. -/
structure State.KeepsBut (s t : State) (l : List BayNo) (n : Nat) : Prop where
  bay : ∀ c, c ∉ l → t.bay c = s.bay c
  bookings : ∀ c, c ∉ l → t.bookings c = s.bookings c
  length : t.tickets.length ≤ s.tickets.length + n
  held : ∀ x : Ticket, s.ticket? x.number = some x → x.state = .held → t.ticket? x.number = some x
  frame : t = { s with
    booking := { s.booking with book := t.booking.book }, bays := t.bays, tickets := t.tickets,
    ticketCounter := t.ticketCounter, pools := t.pools, queues := t.queues }

namespace State.KeepsBut

variable {s t u : State} {l l' : List BayNo} {n n' : Nat}

theorem refl (s : State) (l : List BayNo) (n : Nat) : s.KeepsBut s l n :=
  ⟨fun _ _ => rfl, fun _ _ => rfl, Nat.le_add_right _ _, fun _ h _ => h, rfl⟩

theorem trans (h : s.KeepsBut t l n) (h' : t.KeepsBut u l' n') : s.KeepsBut u (l ++ l') (n + n') where
  bay c hc := by
    rw [List.mem_append, not_or] at hc
    rw [h'.bay c hc.2, h.bay c hc.1]
  bookings c hc := by
    rw [List.mem_append, not_or] at hc
    rw [h'.bookings c hc.2, h.bookings c hc.1]
  length := by
    have := h.length
    have := h'.length
    omega
  held x hx hst := h'.held x (h.held x hx hst) hst
  frame := by rw [h'.frame, h.frame]

theorem mono (h : s.KeepsBut t l n) (hl : l ⊆ l') (hn : n ≤ n') : s.KeepsBut t l' n' :=
  ⟨fun c hc => h.bay c fun e => hc (hl e), fun c hc => h.bookings c fun e => hc (hl e), by
    have := h.length
    omega, h.held, h.frame⟩

/-- Two works at one bay. -/
theorem andThen {b : BayNo} (h : s.KeepsBut t [b] n) (h' : t.KeepsBut u [b] n') : s.KeepsBut u [b] (n + n') :=
  (h.trans h').mono (by simp) le_rfl

/-- Raised notices leave all that is kept. -/
theorem of_queues (h : s.KeepsBut t l n) {q : PerPort NoticeQueue} : s.KeepsBut { t with queues := q } l n :=
  ⟨h.bay, h.bookings, h.length, h.held, by rw [h.frame]⟩

theorem raise (h : s.KeepsBut t l n) (p : Port) (m : Notice) : s.KeepsBut (t.raise p m) l n := h.of_queues

theorem raiseBoth (h : s.KeepsBut t l n) (p : Port) (m : Notice) : s.KeepsBut (t.raiseBoth p m) l n := by
  unfold State.raiseBoth
  split
  · exact h.raise _ _
  · exact (h.raise _ _).raise _ _

end State.KeepsBut

theorem State.keepsBut_dropBooking (s : State) (b : BayNo) (n : Nat) : s.KeepsBut (s.dropBooking b n) [b] 0 :=
  ⟨fun _ _ => rfl, fun c hc => State.setBookings_bookings_of_ne s (by simpa using hc) _, le_rfl, fun _ h _ => h, rfl⟩

/-- A ticket that joins the table leaves every other as it was. -/
theorem State.ticket?_of_joined {s t : State} {k : Ticket} (h : t.tickets = s.tickets ++ [k]) {x : Ticket} {m : Nat}
    (hx : s.ticket? m = some x) : t.ticket? m = some x := by
  simp only [State.ticket?] at hx ⊢
  rw [h, List.find?_append, hx]
  rfl

theorem State.keepsBut_heldFor (s : State) (b : BayNo) (k : Booking) : s.KeepsBut (s.heldFor b k) [b] 1 where
  bay c hc := State.setBay_bay_of_ne s (by simpa using hc) _
  bookings _ _ := rfl
  length := by simp [State.heldFor]
  held _ hx _ := State.ticket?_of_joined rfl hx
  frame := rfl

/-- The ticket of an offer that is withdrawn was not HELD, nor were the others touched (R61). -/
theorem AgreeBut.keepsBut_withdraw {s : State} (h : AgreeBut none none s) {b : BayNo}
    (hst : (s.bay b).state = .offered) (w : WithdrawReason) : s.KeepsBut (s.withdraw b w) [b] 0 := by
  obtain ⟨n, hn⟩ := h.claim_isSome (.inl hst)
  obtain ⟨z, hz, -, rfl, -, hclaim, -⟩ := h.claimant hn
  have hoffered : z.state = .offered := TicketState.of_claims.1 (hst ▸ hclaim)
  have hu := State.withdraw_unclaimed hn hz w
  refine ⟨fun c hc => hu.other c (by simpa using hc), fun c _ => State.bookings_of_book (by simp) c,
    (s.withdraw_tickets_length b w).le, fun x hx hheld => ?_, by rw [hu.frame]⟩
  have hne : x.number ≠ z.number := fun e => by
    rw [e, hz] at hx
    obtain rfl := Option.some.inj hx
    simp [hheld] at hoffered
  rw [hu.tickets _ hne, hx]

theorem AgreeBut.keepsBut_displace {s : State} (h : AgreeBut none none s) (b : BayNo) (k : Booking) :
    s.KeepsBut (s.displace b k) [] 1 := by
  by_cases hlen : (s.pool (s.bay b).pool).queue.length < 12
  · obtain ⟨front, rear, -, -, -, e⟩ := h.displace_queued k hlen
    rw [e]
    refine State.KeepsBut.raiseBoth ?_ _ _
    exact ⟨fun _ _ => rfl, fun _ _ => rfl, by simp [State.issue], fun _ hx _ => State.ticket?_of_joined rfl hx, rfl⟩
  · rw [h.displace_dropped k hlen]
    refine State.KeepsBut.raiseBoth ?_ _ _
    exact ⟨fun _ _ => rfl, fun _ _ => rfl, by simp, fun _ hx _ => hx, rfl⟩

/-- A FREE or OFFERED bay without its offer: the hold for a booking (R83). -/
theorem State.keepsBut_holdBooked {s : State} {b : BayNo} (hn : s.nextTicket ∉ s.liveTickets)
    (hst : (s.bay b).state ≠ .held) (k : Booking) : s.KeepsBut (s.holdBooked b k) [b] 1 := by
  rw [State.holdBooked_eq hn hst]
  exact ((s.keepsBut_heldFor b k).raise _ _).raise _ _

/-- The bay's state and the next number ahead of the hold that follows a withdrawal (R83). -/
theorem AgreeBut.withdraw_ready {s : State} (h : AgreeBut none none s) {b : BayNo} (hst : (s.bay b).state = .offered)
    (w : WithdrawReason) : (s.withdraw b w).nextTicket ∉ (s.withdraw b w).liveTickets ∧
      (s.withdraw b w).bay b = { s.bay b with ticket := none } := by
  obtain ⟨n, hn⟩ := h.claim_isSome (.inl hst)
  obtain ⟨z, hz, -, rfl, -⟩ := h.claimant hn
  exact ⟨(h.withdraw hst w).fits.nextTicket.1, (State.withdraw_unclaimed hn hz w).bay⟩

/-- The hold of a bay for a booking: the ticket and the bay's record (R83). -/
theorem State.holdBooked_held {s : State} {b : BayNo} (hn : s.nextTicket ∉ s.liveTickets)
    (hst : (s.bay b).state ≠ .held) (k : Booking) : ∃ x : Ticket, (s.holdBooked b k).ticket? x.number = some x ∧
      (s.holdBooked b k).bay b = { s.bay b with state := .held, ticket := some x.number } ∧
      x = k.heldTicket x.number b (s.bay b).pool (s.deviceSeconds + BitVec.ofNat 32 s.timers.grace) := by
  rw [State.holdBooked_eq hn hst]
  refine ⟨k.heldTicket s.nextTicket b (s.bay b).pool (s.deviceSeconds + BitVec.ofNat 32 s.timers.grace), ?_,
    s.setBay_bay_self b _, rfl⟩
  exact (State.issue_ticket_find s (k.heldTicket s.nextTicket b (s.bay b).pool
    (s.deviceSeconds + BitVec.ofNat 32 s.timers.grace)) hn s.nextTicket).trans (if_pos rfl)

section Activation

variable {s : State} (h : AgreeBut none none s) (b : BayNo) (k : Booking)
include h

theorem AgreeBut.keepsBut_activate : s.KeepsBut (s.activate b k) [b] 1 := by
  have hdrop := s.keepsBut_dropBooking b k.number
  have hd : AgreeBut none none (s.dropBooking b k.number) := h.dropBooking b k.number
  by_cases hroom : s.tickets.length < 64
  · by_cases hfree : (s.bay b).state = .free
    · rw [State.activate_of_free hroom hfree]
      refine hdrop.andThen (State.keepsBut_holdBooked hd.fits.nextTicket.1 ?_ k)
      show (s.bay b).state ≠ .held
      simp [hfree]
    · by_cases hoff : (s.bay b).state = .offered
      · obtain ⟨hnext, hbay⟩ := hd.withdraw_ready (b := b) hoff .booking
        rw [State.activate_of_offered hroom hoff]
        refine (hdrop.andThen (hd.keepsBut_withdraw (b := b) hoff .booking)).andThen
          (State.keepsBut_holdBooked hnext ?_ k)
        rw [hbay]
        show (s.bay b).state ≠ .held
        simp [hoff]
      · rw [State.activate_of_other hroom hfree hoff]
        exact hdrop.andThen ((hd.keepsBut_displace b k).mono (by simp) le_rfl)
  · obtain ⟨hlen, -⟩ := h.fits
    rw [State.activate_of_full (by omega)]
    exact (State.KeepsBut.raiseBoth hdrop _ _).mono (by simp) (by omega)

/-- The bay of an activated booking is left as it stands, where it is not FREE or OFFERED (R84). -/
theorem AgreeBut.activate_bay_other (hf : (s.bay b).state ≠ .free) (ho : (s.bay b).state ≠ .offered) :
    (s.activate b k).bay b = s.bay b := by
  by_cases hroom : s.tickets.length < 64
  · rw [State.activate_of_other hroom hf ho]
    exact ((h.dropBooking b k.number).keepsBut_displace b k).bay b (by simp)
  · obtain ⟨hlen, -⟩ := h.fits
    rw [State.activate_of_full (by omega)]
    exact State.bay_of_bays (by simp) b

/-- The bay of an activated booking is HELD for its ticket, where it was FREE or OFFERED and the table has room (R83). -/
theorem AgreeBut.activate_held (hst : (s.bay b).state = .free ∨ (s.bay b).state = .offered)
    (hroom : s.tickets.length < 64) : ∃ x : Ticket, (s.activate b k).ticket? x.number = some x ∧
      (s.activate b k).bay b = { s.bay b with state := .held, ticket := some x.number } ∧
      x = k.heldTicket x.number b (s.bay b).pool (s.deviceSeconds + BitVec.ofNat 32 s.timers.grace) := by
  have hd : AgreeBut none none (s.dropBooking b k.number) := h.dropBooking b k.number
  rcases hst with hst | hst
  · rw [State.activate_of_free hroom hst]
    refine State.holdBooked_held (s := s.dropBooking b k.number) hd.fits.nextTicket.1 ?_ k
    show (s.bay b).state ≠ .held
    simp [hst]
  · rw [State.activate_of_offered hroom hst]
    obtain ⟨hnext, hbay⟩ := hd.withdraw_ready (b := b) hst .booking
    have hdbay : (s.dropBooking b k.number).bay b = s.bay b := rfl
    rw [hdbay] at hbay
    obtain ⟨x, hx, hxb, hxt⟩ := State.holdBooked_held (b := b) hnext (by simp [hbay, hst]) k
    rw [hbay] at hxb hxt
    refine ⟨x, hx, hxb, ?_⟩
    simpa using hxt

end Activation

/-! ### The activations of all bays (R81, step 2) -/

/-- The due bookings of all bays are activated, in ascending order of bay (R81). -/
def State.activateAll (s : State) : State := allBays.foldl State.activateDue s

theorem State.activateDue_of_none {s : State} {b : BayNo} (hd : s.due b = none) : s.activateDue b = s := by
  rw [State.activateDue, hd]

theorem State.activateDue_of_some {s : State} {b : BayNo} {k : Booking} (hd : s.due b = some k) :
    s.activateDue b = s.activate b k := by
  rw [State.activateDue, hd]

/-- What is due at a bay rests on its list and on the slot number (R81). -/
theorem State.due_congr {s t : State} {b : BayNo} (hb : t.bookings b = s.bookings b)
    (hs : t.booking.slotNow = s.booking.slotNow) : t.due b = s.due b := by
  have ho : t.offset = s.offset := funext fun k => by rw [State.offset, hs, State.offset]
  unfold State.due
  rw [hb, ho]

section Run

variable {s : State} (h : AgreeBut none none s) (hr : s.opState = .run)
include h

theorem AgreeBut.keepsBut_activateDue (b : BayNo) : s.KeepsBut (s.activateDue b) [b] 1 := by
  cases hd : s.due b with
  | none =>
    rw [State.activateDue_of_none hd]
    exact .refl s _ _
  | some k =>
    rw [State.activateDue_of_some hd]
    exact h.keepsBut_activate b k

include hr

theorem AgreeBut.activateDue (b : BayNo) : AgreeBut none none (s.activateDue b) := by
  cases hd : s.due b with
  | none => rwa [State.activateDue_of_none hd]
  | some k =>
    rw [State.activateDue_of_some hd]
    exact h.activate hr b k

theorem AgreeBut.foldl_activateDue (l : List BayNo) :
    AgreeBut none none (l.foldl State.activateDue s) ∧ s.KeepsBut (l.foldl State.activateDue s) l l.length := by
  induction l generalizing s with
  | nil => exact ⟨h, .refl s _ _⟩
  | cons b l ih =>
    obtain ⟨ha, hk⟩ := ih (h.activateDue hr b) (by simpa using hr)
    exact ⟨ha, ((h.keepsBut_activateDue b).trans hk).mono (by simp) (by simp; omega)⟩

/-- The activations seen from one bay: what comes before it and after it leaves the bay and its bookings (R81). -/
theorem AgreeBut.activateAll_at (b : BayNo) : ∃ v front back, AgreeBut none none v ∧ s.KeepsBut v front 47 ∧
    (v.activateDue b).KeepsBut s.activateAll back 47 ∧ b ∉ front ∧ b ∉ back := by
  obtain ⟨front, back, hsplit⟩ := List.append_of_mem (show b ∈ allBays by simp [allBays])
  have hlen : front.length + (back.length + 1) = 48 := by
    rw [← List.length_cons, ← List.length_append, ← hsplit]
    simp [allBays]
  have hnodup : (front ++ b :: back).Nodup := hsplit ▸ List.nodup_finRange 48
  obtain ⟨hnot, -⟩ := List.nodup_cons.mp (List.nodup_middle.mp hnodup)
  rw [List.mem_append, not_or] at hnot
  obtain ⟨hv, hkeep⟩ := h.foldl_activateDue hr front
  have hvr : (front.foldl State.activateDue s).opState = .run := by
    rw [hkeep.frame]
    exact hr
  obtain ⟨-, hrest⟩ := (hv.activateDue hvr b).foldl_activateDue (by simpa using hvr) back
  refine ⟨_, front, back, hv, hkeep.mono (List.Subset.refl _) (by omega), ?_, hnot.1, hnot.2⟩
  rw [State.activateAll, hsplit, List.foldl_append, List.foldl_cons]
  exact hrest.mono (List.Subset.refl _) (by omega)

theorem AgreeBut.activateAll_of_none {b : BayNo} (hd : s.due b = none) :
    s.activateAll.bay b = s.bay b ∧ s.activateAll.bookings b = s.bookings b := by
  obtain ⟨v, front, back, -, hv, ha, hf, hb⟩ := h.activateAll_at hr b
  rw [State.activateDue_of_none ((State.due_congr (hv.bookings b hf) (by rw [hv.frame])).trans hd)] at ha
  exact ⟨(ha.bay b hb).trans (hv.bay b hf), (ha.bookings b hb).trans (hv.bookings b hf)⟩

variable {b : BayNo} {k : Booking} (hd : s.due b = some k)
include hd

/-- An activated booking leaves its bay's list (R82). -/
theorem AgreeBut.activateAll_bookings : s.activateAll.bookings b = (s.dropBooking b k.number).bookings b := by
  obtain ⟨v, front, back, -, hv, ha, hf, hb⟩ := h.activateAll_at hr b
  rw [State.activateDue_of_some ((State.due_congr (hv.bookings b hf) (by rw [hv.frame])).trans hd)] at ha
  rw [ha.bookings b hb, State.bookings_of_book (s := v.dropBooking b k.number) (by rw [State.activate_booking]),
    State.dropBooking, State.dropBooking, State.setBookings_bookings_self, State.setBookings_bookings_self,
    hv.bookings b hf]

theorem AgreeBut.activateAll_other (hf : (s.bay b).state ≠ .free) (ho : (s.bay b).state ≠ .offered) :
    s.activateAll.bay b = s.bay b := by
  obtain ⟨v, front, back, hagree, hv, ha, hnf, hnb⟩ := h.activateAll_at hr b
  rw [State.activateDue_of_some ((State.due_congr (hv.bookings b hnf) (by rw [hv.frame])).trans hd)] at ha
  have hbay := hv.bay b hnf
  rw [ha.bay b hnb, hagree.activate_bay_other b k (hbay ▸ hf) (hbay ▸ ho), hbay]

/-- Where the table has room for every bay's activation, the bay is HELD (R83). -/
theorem AgreeBut.activateAll_held (hst : (s.bay b).state = .free ∨ (s.bay b).state = .offered)
    (hroom : s.tickets.length + 48 ≤ 64) : ∃ x : Ticket, s.activateAll.ticket? x.number = some x ∧
      s.activateAll.bay b = { s.bay b with state := .held, ticket := some x.number } ∧
      x = k.heldTicket x.number b (s.bay b).pool (s.deviceSeconds + BitVec.ofNat 32 s.timers.grace) := by
  obtain ⟨v, front, back, hagree, hv, ha, hnf, hnb⟩ := h.activateAll_at hr b
  rw [State.activateDue_of_some ((State.due_congr (hv.bookings b hnf) (by rw [hv.frame])).trans hd)] at ha
  have hlen := hv.length
  have hbay := hv.bay b hnf
  have hclock : v.deviceSeconds = s.deviceSeconds ∧ v.timers = s.timers := by
    rw [hv.frame]
    exact ⟨rfl, rfl⟩
  obtain ⟨x, hx, hxb, hxt⟩ := hagree.activate_held b k (hbay ▸ hst) (by omega)
  rw [hbay] at hxb hxt
  rw [hclock.1, hclock.2] at hxt
  exact ⟨x, ha.held x hx (by rw [hxt]; rfl), by rw [ha.bay b hnb, hxb], hxt⟩

omit hr

/-- Where one booking is due, its activation is all (R81). -/
theorem AgreeBut.activateAll_of_single (hothers : ∀ c, c ≠ b → s.due c = none) : s.activateAll = s.activate b k := by
  have hstill : ∀ (u : State) (l : List BayNo), (∀ c ∈ l, u.due c = none) → l.foldl State.activateDue u = u := by
    intro u l hl
    induction l with
    | nil => rfl
    | cons c l ih =>
      obtain ⟨hc, hl⟩ := List.forall_mem_cons.mp hl
      rw [List.foldl_cons, State.activateDue_of_none hc, ih hl]
  obtain ⟨front, back, hsplit⟩ := List.append_of_mem (show b ∈ allBays by simp [allBays])
  have hnodup : (front ++ b :: back).Nodup := hsplit ▸ List.nodup_finRange 48
  obtain ⟨hnot, -⟩ := List.nodup_cons.mp (List.nodup_middle.mp hnodup)
  rw [List.mem_append, not_or] at hnot
  have hact := h.keepsBut_activate b k
  rw [State.activateAll, hsplit, List.foldl_append, hstill s front fun c hc => hothers c fun e => hnot.1 (e ▸ hc),
    List.foldl_cons, State.activateDue_of_some hd]
  refine hstill _ back fun c hc => ?_
  have hne : c ≠ b := fun e => hnot.2 (e ▸ hc)
  exact (State.due_congr (hact.bookings c (by simpa using hne)) (by rw [hact.frame])).trans (hothers c hne)

end Run

/-! ### The step of the slot clock (R71, R81) -/

/-- A booking of a later slot comes one slot nearer (R71). -/
theorem State.stepSlot_offset {s : State} {k : Booking} (hk : 1 ≤ s.offset k) :
    s.stepSlot.offset k = s.offset k - 1 := by
  have e : k.start - (s.booking.slotNow + 1#32) = k.start - s.booking.slotNow - 1#32 := by bv_omega
  have hlt := BitVec.toInt_lt (x := k.start - s.booking.slotNow)
  simp only [State.offset, offsetFrom, State.stepSlot] at hk ⊢
  rw [e, BitVec.toInt_sub]
  generalize (k.start - s.booking.slotNow).toInt = d at hk hlt
  rw [show (1#32).toInt = 1 from rfl, Int.bmod_eq_of_le (by omega) (by omega)]

/-- The booking of a bay that is due after the step of the slot clock is the first of its list and no other, or there is
none (R69, R81). -/
theorem BookOrdered.due_cases {s : State} (h : BookOrdered s) (b : BayNo) :
    (s.stepSlot.due b = none ∧ ∀ k ∈ s.bookings b, s.stepSlot.offset k ≠ 0) ∨
    ∃ k back, s.bookings b = k :: back ∧ s.stepSlot.due b = some k ∧ s.stepSlot.offset k = 0 ∧
      ∀ m ∈ back, s.stepSlot.offset m ≠ 0 := by
  obtain ⟨hrange, horder⟩ := h b
  have hdue : s.stepSlot.due b = match s.bookings b with
      | k :: _ => if s.stepSlot.offset k = 0 then some k else none
      | [] => none := rfl
  cases hb : s.bookings b with
  | nil => exact .inl ⟨by rw [hdue, hb], by simp⟩
  | cons k back =>
    rw [hb] at hrange horder
    obtain ⟨⟨hk, -, hlen, -⟩, -⟩ := List.forall_mem_cons.mp hrange
    have hback : ∀ m ∈ back, s.stepSlot.offset m ≠ 0 := fun m hm => by
      have hgap := (List.pairwise_cons.mp horder).1 m hm
      rw [State.stepSlot_offset (by omega)]
      omega
    by_cases h0 : s.stepSlot.offset k = 0
    · exact .inr ⟨k, back, rfl, by rw [hdue, hb]; exact if_pos h0, h0, hback⟩
    · exact .inl ⟨by rw [hdue, hb]; exact if_neg h0, List.forall_mem_cons.mpr ⟨h0, hback⟩⟩

/-- A booking that is due after the step of the slot clock is the one that its bay activates (R81). -/
theorem BookOrdered.due_of_mem {s : State} (h : BookOrdered s) {b : BayNo} {k : Booking} (hk : k ∈ s.bookings b)
    (h0 : s.stepSlot.offset k = 0) : s.stepSlot.due b = some k := by
  rcases h.due_cases b with ⟨-, hnone⟩ | ⟨first, back, hb, hd, -, hback⟩
  · exact absurd h0 (hnone k hk)
  · rw [hb] at hk
    rcases List.mem_cons.mp hk with rfl | hk
    · exact hd
    · exact absurd h0 (hback k hk)

theorem BookOrdered.due_eq_none {s : State} (h : BookOrdered s) {b : BayNo}
    (hk : ∀ k ∈ s.bookings b, s.stepSlot.offset k ≠ 0) : s.stepSlot.due b = none := by
  rcases h.due_cases b with ⟨hd, -⟩ | ⟨first, back, hb, -, h0, -⟩
  · exact hd
  · exact absurd h0 (hk first (by simp [hb]))

/-- The activations take the due bookings from the book and no others (R82). -/
theorem BookOrdered.activateAll_bookings {s : State} (hord : BookOrdered s) (hfits : BookFits s)
    (h : AgreeBut none none s.stepSlot) (hr : s.opState = .run) (b : BayNo) :
    s.stepSlot.activateAll.bookings b = (s.bookings b).filter (fun k => decide (s.stepSlot.offset k ≠ 0)) := by
  rcases hord.due_cases b with ⟨hd, hnone⟩ | ⟨k, back, hb, hd, h0, hback⟩
  · rw [(h.activateAll_of_none hr hd).2]
    exact (List.filter_eq_self.mpr fun k hk => by simpa using hnone k hk).symm
  · rw [h.activateAll_bookings hr hd, State.dropBooking_first (s := s.stepSlot) hfits hb,
      State.setBookings_bookings_self, hb, List.filter_cons_of_neg (by simpa using h0)]
    exact (List.filter_eq_self.mpr fun m hm => by simpa using hback m hm).symm

/-! ### The expiry as a whole -/

/-- The offer of a bay is withdrawn and the bay is held for a booking, ahead of the notices of the hold (R61, R83). -/
theorem State.heldFor_withdraw {s : State} {b : BayNo} {z : Ticket} (hn : (s.bay b).ticket = some z.number)
    (hz : s.ticket? z.number = some z) (w : WithdrawReason) (k : Booking) : (s.withdraw b w).heldFor b k =
      { (s.modTicket z.number Ticket.withdrawn).raise z.origin (.offerWithdrawn z.number b w) with
        tickets := (s.modTicket z.number Ticket.withdrawn).tickets ++
          [k.heldTicket s.nextTicket b (s.bay b).pool (s.deviceSeconds + BitVec.ofNat 32 s.timers.grace)],
        ticketCounter := nextNumber s.nextTicket,
        bays := s.bays.set b { s.bay b with state := .held, ticket := some s.nextTicket } } := by
  unfold State.heldFor
  rw [State.withdraw_nextTicket, (State.withdraw_unclaimed hn hz w).bay, State.withdraw_of_live hn hz]
  have hbays : (((s.modTicket z.number Ticket.withdrawn).setBay b { s.bay b with ticket := none }).raise z.origin
      (.offerWithdrawn z.number b w)).bays.set b { s.bay b with state := .held, ticket := some s.nextTicket } =
        s.bays.set b { s.bay b with state := .held, ticket := some s.nextTicket } := by
    simp [State.setBay]
  simp only [hbays]
  rfl

theorem Priority.displacedClass_eq (c : Priority) :
    c.displacedClass = if c = .access then .access else .displaced := by
  cases c <;> rfl

/-- What the matching runs and the test of the bus leave of the activations (R81, R136). -/
theorem State.expired_of_activated {s t : State} (hr : s.opState = .run) (ht : t = s.expireSlot.settleBus) :
    (∀ b, (s.stepSlot.activateAll.bay b).keptOrOffered (t.bay b)) ∧
    (∀ m x, s.stepSlot.activateAll.ticket? m = some x → ∃ y, t.ticket? m = some y ∧ x.keptOrOffered y) ∧
    t.booking = s.stepSlot.activateAll.booking := by
  have hm := s.stepSlot.activateAll.matched_matchPools
  have hbays := State.bay_of_bays (s := s.stepSlot.activateAll.matchPools) (t := t)
    (by rw [ht, State.expireSlot_of_run hr, State.settleBus_bays, State.activateAll])
  have htickets := State.ticket?_of_tickets (s := s.stepSlot.activateAll.matchPools) (t := t)
    (by rw [ht, State.expireSlot_of_run hr, State.settleBus_tickets, State.activateAll])
  refine ⟨fun b => ?_, fun m x hx => ?_, ?_⟩
  · rw [hbays]
    exact hm.bay b
  · rw [htickets]
    exact hm.ticket m x hx
  · rw [ht, State.expireSlot_of_run hr, State.settleBus_booking, ← State.activateAll, hm.frame]

/-- A write of a pool record that keeps whether the pool is configured. -/
theorem State.setPool_configured {s : State} {q : PoolNo} {x : Pool} (hx : x.configured = (s.pool q).configured)
    (r : PoolNo) : ((s.setPool q x).pool r).configured = (s.pool r).configured := by
  by_cases hr : r = q
  · rw [hr, State.setPool_pool_self, hx]
  · rw [State.setPool_pool_of_ne _ hr]

/-- Where one booking is due, its activation is followed by the matching runs in the pools that were configured (R81). -/
theorem State.expired_of_single {s w : State} {b : BayNo} {k : Booking} (h : AgreeBut none none s.stepSlot)
    (hr : s.opState = .run) (hd : s.stepSlot.due b = some k) (hothers : ∀ c, c ≠ b → s.stepSlot.due c = none)
    (e : s.stepSlot.activate b k = w) (hw : ∀ q, (w.pool q).configured = (s.pool q).configured) :
    s.expireSlot.settleBus =
      ((allPools.filter (fun q => (s.pool q).configured)).foldl (fun r q => r.matchRun q) w).settleBus := by
  rw [State.expireSlot_of_run hr, ← State.activateAll, h.activateAll_of_single hd hothers, e, State.matchPools]
  simp only [hw]

/-- Settles O31: the activations bay by bay, and the whole expiry where one booking is due. -/
theorem slotExpiryInRunActivates : Obligations.SlotExpiryInRunActivates := by
  unfold Obligations.SlotExpiryInRunActivates
  intro s hc hfits hord hr hdue
  have h : AgreeBut none none s.stepSlot := ((agreeBut_none_iff s).mpr hc).frame
  obtain ⟨t, ht⟩ : ∃ t, t = s.expireSlot.settleBus := ⟨_, rfl⟩
  obtain ⟨hbay, hticket, hbooking⟩ := State.expired_of_activated hr ht
  have hbook : t.booking = { s.stepSlot.booking with book := t.booking.book } := by
    rw [hbooking, State.activateAll, (h.foldl_activateDue hr allBays).2.frame]
  have hoffset : ∀ k, t.offset k = s.stepSlot.offset k := fun k => by
    rw [State.offset, State.offset, hbook]
  have hbookings : ∀ b, t.bookings b = s.stepSlot.activateAll.bookings b :=
    State.bookings_of_book (by rw [hbooking])
  refine ⟨t, ?_, fun b => ?_, fun b k hk h0 => ?_, fun b hk => ?_, ?_, ?_⟩
  · rw [ht]
    simp [exec, execSlotExpiry, hdue]
  · simp only [hbookings, hoffset]
    exact hord.activateAll_bookings hfits h hr b
  · have hd := hord.due_of_mem hk ((hoffset k).symm.trans h0)
    refine ⟨fun hst hroom => ?_, fun hf ho => ?_⟩
    · obtain ⟨x, hx, hxb, hxt⟩ := h.activateAll_held hr hd hst hroom
      obtain ⟨y, hy, hxy⟩ := hticket _ _ hx
      obtain rfl : y = x := hxy.resolve_right fun e => by
        rw [hxt] at e
        cases e.1
      refine ⟨y, hy, ?_, hxt⟩
      rw [(hbay b).eq_of_ne_free (by simp [hxb]), hxb]
      rfl
    · have he := h.activateAll_other hr hd hf ho
      rw [(hbay b).eq_of_ne_free (by rw [he]; exact hf), he]
      rfl
  · have hd := hord.due_eq_none fun k hm => hoffset k ▸ hk k hm
    have := hbay b
    rwa [(h.activateAll_of_none hr hd).1] at this
  · intro b k back hb h0 hothers u n counter pool x y both held leaves
    have hd := hord.due_of_mem (hb ▸ List.mem_cons_self) ((hoffset k).symm.trans h0)
    have hdothers : ∀ c, c ≠ b → s.stepSlot.due c = none := fun c hc =>
      hord.due_eq_none fun m hm => hoffset m ▸ hothers c hc m hm
    have hdrop : s.stepSlot.dropBooking b k.number = u := State.dropBooking_first (s := s.stepSlot) hfits hb
    have hu : AgreeBut none none u := hdrop ▸ h.dropBooking b k.number
    have hn : u.nextTicket ∉ u.liveTickets := hu.fits.nextTicket.1
    have hleaves : ∀ {w : State}, s.stepSlot.activate b k = w →
        (∀ q, (w.pool q).configured = (s.pool q).configured) → leaves w := fun e hw =>
      ht.trans (State.expired_of_single h hr hd hdothers e hw)
    refine ⟨fun hfull => hleaves ?_ ?_, fun hroom => ⟨fun hst => hleaves ?_ ?_, fun z hst hz hlive => hleaves ?_ ?_,
      fun hf ho => ⟨fun hlen => ?_, fun hlen => hleaves ?_ ?_⟩⟩⟩
    · rw [State.activate_of_full (s := s.stepSlot) hfull, hdrop]
      rfl
    · exact fun q => congrArg Pool.configured (State.pool_of_pools (State.raiseBoth_pools u k.origin _) q)
    · rw [State.activate_of_free (s := s.stepSlot) hroom hst, hdrop, State.holdBooked_eq hn (by
        show (s.bay b).state ≠ .held
        simp [hst])]
      rfl
    · exact fun q => rfl
    · have hready := hu.withdraw_ready (b := b) hst .booking
      rw [State.activate_of_offered (s := s.stepSlot) hroom hst, hdrop, State.holdBooked_eq hready.1 (by
        rw [hready.2]
        show (s.bay b).state ≠ .held
        simp [hst]), State.heldFor_withdraw (s := u) hz hlive, State.withdraw_nextTicket,
        State.link_of_links (s := u) (by simp) b]
      rfl
    · exact fun q => rfl
    · obtain ⟨front, rear, hsplit, hfront, hrear, e⟩ := hu.displace_queued (b := b) k hlen
      rw [Priority.displacedClass_eq] at hfront hrear
      refine ⟨front, rear, hsplit, hfront, hrear, hleaves ?_ ?_⟩
      · rw [State.activate_of_other (s := s.stepSlot) hroom hf ho, hdrop, e]
        have hy : u.displacedTicket b k = y := by
          unfold State.displacedTicket
          rw [Priority.displacedClass_eq]
          rfl
        rw [hy]
        rfl
      · exact fun q => (congrArg Pool.configured (State.pool_of_pools (State.raiseBoth_pools _ k.origin _) q)).trans
          (State.setPool_configured (s := u.issue y) (q := pool)
            (x := { s.pool pool with queue := front ++ n :: rear }) rfl q)
    · rw [State.activate_of_other (s := s.stepSlot) hroom hf ho, hdrop, hu.displace_dropped k (by
        show ¬(s.pool pool).queue.length < 12
        omega)]
      rfl
    · exact fun q => congrArg Pool.configured (State.pool_of_pools (State.raiseBoth_pools _ k.origin _) q)
  · refine State.eq_of_fields (hboo := hbook) (hop := ?_) (hsec := ?_) (htim := ?_) (hadm := ?_) (hpow := ?_)
      (hpor := ?_) (hpen := ?_) <;> rw [ht] <;> simp

end Sys2Proof.Machine
end

