-- ==== Sys2Proof/Proofs/OfferEndings.lean ====
section
/-! SUPPORT. An offer that is given up, by DECLINE OFFER or by its lapse (R57, R58): the ticket goes behind its class, the
bay is placed, and one matching run follows: O19. -/

namespace Sys2Proof.Machine

/-! ### The back of a class (R48) -/

/-- A change of an entry that keeps its number and its class keeps every rank (R46). -/
theorem State.modTicket_rankOf (s : State) (n : Nat) {f : Ticket → Ticket} (hn : ∀ t, (f t).number = t.number)
    (hc : ∀ t, (f t).cls = t.cls) (m : Nat) : (s.modTicket n f).rankOf m = s.rankOf m := by
  unfold State.rankOf
  rw [State.modTicket_ticket_find s n m f hn]
  cases s.ticket? m with
  | none => rfl
  | some t =>
    show (if m = n then f t else t).cls.rank = t.cls.rank
    split
    · rw [hc]
    · rfl

/-- A live ticket goes to the back of its class: ahead of it the others of its class and of the classes ahead, behind it
the classes behind (R46, R48). -/
theorem AgreeBut.toBack_eq {s : State} (h : AgreeBut none none s) {k : Ticket} (hk : s.ticket? k.number = some k) :
    ∃ front back, (s.pool k.pool).queue.filter (fun m => m != k.number) = front ++ back ∧
      (∀ m ∈ front, s.rankOf m ≤ k.cls.rank) ∧ (∀ m ∈ back, k.cls.rank < s.rankOf m) ∧
      s.toBack k.pool k.number =
        s.setPool k.pool { s.pool k.pool with queue := front ++ k.number :: back } := by
  have hrank : s.rankOf k.number = k.cls.rank := by rw [State.rankOf, hk]
  obtain ⟨-, -, hsorted, -⟩ := h.queue k.pool
  obtain ⟨front, back, hsplit, hjoin, hfront, hback⟩ := joinAt_sorted_split s.rankOf k.number (s.rankOf k.number)
    ((s.pool k.pool).queue.filter (fun m => m != k.number)) (hsorted.filter _)
  rw [hrank] at hfront hback
  refine ⟨front, back, hsplit, hfront, hback, ?_⟩
  rw [← hjoin]
  simp only [State.toBack, State.leaveQueue, State.joinQueue, State.setPool_pool_self]
  simp only [State.setPool, Vector.set_set]
  rfl

/-- A change of an entry that keeps its number and its class may come before or after a move to the back. -/
theorem State.modTicket_toBack (s : State) (q : PoolNo) (m n : Nat) {f : Ticket → Ticket}
    (hn : ∀ t, (f t).number = t.number) (hc : ∀ t, (f t).cls = t.cls) :
    (s.modTicket n f).toBack q m = (s.toBack q m).modTicket n f := by
  have hrank : ((s.modTicket n f).leaveQueue q m).rankOf = (s.leaveQueue q m).rankOf :=
    funext fun i => s.modTicket_rankOf n hn hc i
  unfold State.toBack State.joinQueue
  rw [hrank]
  rfl

/-! ### The bay of an offer is placed (R6, R14) -/

/-- A bay is placed by its last report with one BAY_STATE, and the plug-in of a bay that enters OCCUPIED follows. -/
def State.placedTold (s : State) (b : BayNo) : State :=
  let y := (s.bay b).placed (s.linkLost b)
  let u := (s.setBay b y).raise .s (.bayState b y.state (s.link b).link none)
  if y.state = .occupied ∧ y.plug = .plugged then u.plugIn b else u

/-- An OFFERED bay changes its state when it is placed, so that BAY_STATE is raised (R6, R7). -/
theorem State.placeUnmatched_of_offered {s : State} {b : BayNo} (hst : (s.bay b).state = .offered) :
    (s.setBay b { s.bay b with ticket := none }).placeUnmatched b = s.placedTold b := by
  have hplaced : ((s.setBay b { s.bay b with ticket := none }).bay b).placed
      ((s.setBay b { s.bay b with ticket := none }).linkLost b) = (s.bay b).placed (s.linkLost b) := by
    rw [State.setBay_bay_self, Bay.placed_of_unnamed]
    rfl
  have hstate := (s.bay b).placed_state (s.linkLost b)
  have hat : (s.setBay b { s.bay b with ticket := none }).placeAt b =
      (s.setBay b ((s.bay b).placed (s.linkLost b))).raise .s
        (.bayState b ((s.bay b).placed (s.linkLost b)).state (s.link b).link none) := by
    rw [State.placeAt_eq, State.changeBay_to]
    · rw [hplaced, State.setBay_setBay]
      rfl
    · rw [hplaced, State.setBay_bay_self]
      rcases hstate with e | ⟨e, -⟩ | e | e <;> simp [e, hst]
    · rw [hplaced]
      exact ((s.bay b).placed_state_ne _).1
  have hbay : ((s.setBay b ((s.bay b).placed (s.linkLost b))).raise .s
      (.bayState b ((s.bay b).placed (s.linkLost b)).state (s.link b).link none)).bay b =
        (s.bay b).placed (s.linkLost b) := s.setBay_bay_self b _
  rw [State.placeUnmatched, hat, State.plugInIfPlugged, hbay]
  rfl

/-! ### The offer is given up (R57, R58) -/

/-- The entry of a ticket that gives up a bay, and its queue (R48, R57). -/
def State.gaveUp (s : State) (k : Ticket) (b : BayNo) (queue : List Nat) : State :=
  (s.setPool k.pool { s.pool k.pool with queue := queue }).modTicket k.number (fun u => u.gaveUp b)

/-- An offer that is given up: the entry and the queue, OFFER_LAPSED at a lapse, the placement and the run. -/
theorem State.giveUpOffer_eq {s : State} {k : Ticket} {b : BayNo} (hst : (s.bay b).state = .offered)
    (hn : (s.bay b).ticket = some k.number) {queue : List Nat}
    (hq : s.toBack k.pool k.number = s.setPool k.pool { s.pool k.pool with queue := queue }) (lapsed : Bool) :
    s.giveUpOffer k b lapsed = ((if lapsed then (s.gaveUp k b queue).raise k.origin (.offerLapsed k.number b)
      else s.gaveUp k b queue).placedTold b).matchRun k.pool := by
  have hback : (s.modTicket k.number (fun u => u.gaveUp b)).toBack k.pool k.number = s.gaveUp k b queue := by
    rw [State.modTicket_toBack (f := fun u => u.gaveUp b) s k.pool k.number k.number (fun _ => rfl) (fun _ => rfl), hq]
    rfl
  have hunname : (s.gaveUp k b queue).unname b k.number =
      (s.gaveUp k b queue).setBay b { s.bay b with ticket := none } := if_pos hn
  have e : s.giveUpOffer k b lapsed = ((if lapsed then
      (((s.modTicket k.number (fun u => u.gaveUp b)).toBack k.pool k.number).unname b k.number).raise k.origin
        (.offerLapsed k.number b)
      else ((s.modTicket k.number (fun u => u.gaveUp b)).toBack k.pool k.number).unname b k.number).placeUnmatched
        b).matchRun k.pool := rfl
  rw [e, hback, hunname]
  cases lapsed with
  | false => exact congrArg (State.matchRun · k.pool) (State.placeUnmatched_of_offered (s := s.gaveUp k b queue) hst)
  | true =>
    exact congrArg (State.matchRun · k.pool)
      (State.placeUnmatched_of_offered (s := (s.gaveUp k b queue).raise k.origin (.offerLapsed k.number b)) hst)

/-- The ticket that has run out its offer (R58, R178). -/
theorem State.dueTicket_of_offered {s : State} {k : Ticket} {b : BayNo} {d : Seconds}
    (hk : s.ticket? k.number = some k) (hst : k.state = .offered) (hb : k.bay = some b) (hd : k.offerDeadline = some d)
    (hdue : s.reached d = true) : s.dueTicket k.number .offered Ticket.offerDeadline = some (k, b) := by
  simp [State.dueTicket, hk, hb, hst, hd, hdue]

/-- A lapse at or after the deadline (R58, R178). -/
theorem exec_lapse {s : State} {k : Ticket} {b : BayNo} {d : Seconds} (hk : s.ticket? k.number = some k)
    (hst : k.state = .offered) (hb : k.bay = some b) (hd : k.offerDeadline = some d) (hdue : s.reached d = true) :
    exec (.lapse k.number) s = .next (s.giveUpOffer k b true).settleBus := by
  simp only [exec, execLapse, State.dueTicket_of_offered hk hst hb hd hdue]

/-- Settles O19: both ends of an offer are `State.giveUpOffer`, without and with OFFER_LAPSED. -/
theorem offersGivenUp : Obligations.OffersGivenUp := by
  unfold Obligations.OffersGivenUp
  intro s p h l x b k hc hx hnum hk hst hb
  have hagree := (agreeBut_none_iff s).mpr hc
  have hmem := State.mem_of_ticket? hk
  have hoffered := hc.offered_bay hmem hst hb
  obtain ⟨-, hnamed⟩ := (hagree.ticket k hmem (by simp)).named b hb
  obtain ⟨front, back, hsplit, hfront, hback, hq⟩ := hagree.toBack_eq hk
  have hgive := State.giveUpOffer_eq hoffered hnamed hq
  refine ⟨front, back, hsplit, hfront, hback, fun hs hr ho => ?_, fun d hd hdue => ?_⟩
  · have hown : s.ownTicket p (of16 h l) = .ok k := State.ownTicket_ok (hnum ▸ hc.number_ne_zero hmem) (hnum ▸ hk) ho
    have e : ownDeclineOffer p [h, l, x] s = (s.giveUpOffer k b false,
        .ok [u8 ((s.giveUpOffer k b false).position k.pool k.number)]) := by
      simp [ownDeclineOffer, State.openOffer_ok hown hx hst hb]
    obtain ⟨t, he, ha⟩ := declineOffer_answered hs (.inr hr) e rfl (by simp)
    obtain ⟨-, -, hframe⟩ := id ha
    have hpool : t.pool k.pool = (s.giveUpOffer k b false).pool k.pool := State.pool_of_pools (by rw [hframe]) k.pool
    refine ⟨t, he, ?_⟩
    rw [hpool]
    rw [hgive false] at ha ⊢
    exact ha
  · rw [exec_lapse hk hst hb hd hdue, hgive]
    rfl

end Sys2Proof.Machine
end

