-- ==== Sys2Proof/Proofs/PoolMasks.lean ====
section
/-! SUPPORT. MASK POOL and UNMASK POOL (R65, R66): O21. -/

namespace Sys2Proof.Machine

theorem maskPool_isRequest (p : Port) (x : Byte) : IsRequest (.maskPool p [x]) p infoMaskPool ownMaskPool [x] :=
  ⟨fun _ => rfl, by simp, fun t P => ownMaskPool_withPorts t P p [x]⟩

theorem unmaskPool_isRequest (p : Port) (x : Byte) :
    IsRequest (.unmaskPool p [x]) p infoUnmaskPool ownUnmaskPool [x] :=
  ⟨fun _ => rfl, by simp, fun t P => ownUnmaskPool_withPorts t P p [x]⟩

/-- A request that the role may not use is turned away before any other check (R148, R149). -/
theorem IsRequest.noRight {c : Instr} {p : Port} {i : CommandInfo} {own : Owner} {pl : List Byte} {s : State}
    (h : IsRequest c p i own pl) (hs : s.ready p) (hm : i.mayUse p = false) : s.turnedAway c p .noRight :=
  State.request_turnedAway (h.row s) hs h.fits (by simp [State.portRefusal, hm])

section Masks

variable {s : State} {x : Byte} (hs : s.ready .s)
include hs

theorem maskPool_answered {u : State} {r : Reply} (e : ownMaskPool .s [x] s = (u, r)) (hc : r.clearsOverrun = false)
    (hb : u.bus = s.bus) : ∃ t, exec (.maskPool .s [x]) s = .next t ∧
      s.answeredWith u t .s r.status r.payload (r.clamped && r.status.carriedOut) :=
  (maskPool_isRequest .s x).answered hs (State.portRefusal_none rfl (.inl rfl) (by simp [infoMaskPool])) rfl e hc hb

theorem unmaskPool_answered {u : State} {r : Reply} (e : ownUnmaskPool .s [x] s = (u, r))
    (hc : r.clearsOverrun = false) (hb : u.bus = s.bus) : ∃ t, exec (.unmaskPool .s [x]) s = .next t ∧
      s.answeredWith u t .s r.status r.payload (r.clamped && r.status.carriedOut) :=
  (unmaskPool_isRequest .s x).answered hs (State.portRefusal_none rfl (.inl rfl) (by simp [infoUnmaskPool])) rfl e hc hb

/-- Both commands are refused alike in CONFIG (R65, R66). -/
theorem mask_config (hc : s.opState = .config) : s.refusedBy (.maskPool .s [x]) .s .wrongState [] ∧
    s.refusedBy (.unmaskPool .s [x]) .s .wrongState [] :=
  ⟨maskPool_answered hs (r := .refuse .wrongState) (by simp [ownMaskPool, hc]) rfl rfl,
    unmaskPool_answered hs (r := .refuse .wrongState) (by simp [ownUnmaskPool, hc]) rfl rfl⟩

/-- Both commands are refused alike where the request names no configured pool (R43). -/
theorem mask_noSuch (hr : s.opState = .run) (hx : s.configuredPool x = none) :
    s.refusedBy (.maskPool .s [x]) .s .noSuch [] ∧ s.refusedBy (.unmaskPool .s [x]) .s .noSuch [] :=
  ⟨maskPool_answered hs (r := .refuse .noSuch) (by simp [ownMaskPool, hr, hx]) rfl rfl,
    unmaskPool_answered hs (r := .refuse .noSuch) (by simp [ownUnmaskPool, hr, hx]) rfl rfl⟩

end Masks

/-- Settles O21: the role, the operating state, the pool and its mask, in this order. -/
theorem maskAndUnmask : Obligations.MaskAndUnmask := by
  unfold Obligations.MaskAndUnmask
  intro s x hs both
  refine ⟨fun p hp hready => ?_, mask_config hs, fun hr hx => mask_noSuch hs hr (s.configuredPool_of_ge hx),
    fun q hr hq => ?_⟩
  · have hm : infoMaskPool.mayUse p = false ∧ infoUnmaskPool.mayUse p = false := by
      cases p with
      | s => exact absurd rfl hp
      | k | n => exact ⟨rfl, rfl⟩
    exact ⟨(maskPool_isRequest p x).noRight hready hm.1, (unmaskPool_isRequest p x).noRight hready hm.2⟩
  · have hpool := s.configuredPool_of_val hq
    refine ⟨fun hconf => mask_noSuch hs hr (by simp [hpool, hconf]), fun hconf hm => ⟨?_, ?_⟩, fun hconf hm => ⟨?_, ?_⟩⟩
    · exact maskPool_answered hs (r := .refuse .wrongState) (by simp [ownMaskPool, hr, hpool, hconf, hm]) rfl rfl
    · exact unmaskPool_answered hs (u := (s.setMask q false).matchRun q) (r := .ok [])
        (by simp [ownUnmaskPool, hr, hpool, hconf, hm]) rfl (by simp [State.setMask])
    · exact unmaskPool_answered hs (r := .refuse .wrongState) (by simp [ownUnmaskPool, hr, hpool, hconf, hm]) rfl rfl
    · exact maskPool_answered hs (u := s.setMask q true) (r := .ok [])
        (by simp [ownMaskPool, hr, hpool, hconf, hm]) rfl rfl

end Sys2Proof.Machine
end

