-- ==== Sys2Proof/Proofs/MatchingPairs.lean ====
section
/-! SUPPORT. A matching run bay by bay (R51 to R55): which ticket a bay in its turn is offered to, what the turns before and
after it leave alone, and the notices of the run: O22. -/

namespace Sys2Proof.Machine

/-! ### The order of a run (R51) -/

/-- A matching run over these bays in this order. -/
def State.matchOver (s : State) (q : PoolNo) (l : List BayNo) : State := l.foldl (fun r b => r.matchBay q b) s

theorem State.matchRun_eq (s : State) (q : PoolNo) : s.matchRun q = s.matchOver q (s.rotation q) := rfl

@[simp] theorem State.matchOver_nil (s : State) (q : PoolNo) : s.matchOver q [] = s := rfl

@[simp] theorem State.matchOver_cons (s : State) (q : PoolNo) (b : BayNo) (l : List BayNo) :
    s.matchOver q (b :: l) = (s.matchBay q b).matchOver q l := rfl

theorem State.matchOver_append (s : State) (q : PoolNo) (l m : List BayNo) :
    s.matchOver q (l ++ m) = (s.matchOver q l).matchOver q m := List.foldl_append

theorem State.matched_matchOver (s : State) (q : PoolNo) (l : List BayNo) : s.Matched (s.matchOver q l) :=
  List.foldlRecOn (motive := s.Matched) l _ (.refl s) fun u hu b _ => hu.trans (u.matched_matchBay q b)

theorem AgreeBut.matchOver {s : State} (h : AgreeBut none none s) (q : PoolNo) (l : List BayNo) :
    AgreeBut none none (s.matchOver q l) := h.foldl _ (fun b hu => hu.matchBay q b) l

theorem State.nodup_rotation (s : State) (q : PoolNo) : (s.rotation q).Nodup := by
  have hpool : (s.poolBays q).Nodup := (List.nodup_finRange 48).filter _
  unfold State.rotation
  split
  · rename_i r _
    refine (hpool.filter _).append (hpool.filter _) fun b hb hb' => ?_
    simp only [List.mem_filter, decide_eq_true_eq] at hb hb'
    exact absurd hb.2 (not_lt.mpr hb'.2)
  · exact hpool

/-! ### An offer, record by record (R55) -/

section Offers

variable {s : State} {b : BayNo} (hb : (s.bay b).state = .free) (q : PoolNo) (k : Ticket)
include hb

theorem State.offerBay_bay (c : BayNo) : (s.offerBay q b k).bay c =
    if c = b then { s.bay b with state := .offered, ticket := some k.number } else s.bay c := by
  rw [State.offerBay_eq hb]
  exact State.setBay_bay s b c _

theorem State.offerBay_ticket (n : Nat) : (s.offerBay q b k).ticket? n = (s.ticket? n).map
    (fun t => if n = k.number then t.offeredAt b (s.deadline s.timers.offer) else t) := by
  rw [State.offerBay_eq hb]
  exact State.modTicket_ticket_find s k.number n (fun u => u.offeredAt b (s.deadline s.timers.offer)) fun _ => rfl

theorem State.offerBay_pool (r : PoolNo) : (s.offerBay q b k).pool r =
    if r = q then { s.pool q with pointer := some b } else s.pool r := by
  rw [State.offerBay_eq hb]
  exact State.setPool_pool s q r _

/-- BAY_STATE to S, then OFFER to the ticket's origin (R55, assumption 6). -/
theorem State.offerBay_queue (p : Port) : (s.offerBay q b k).queue p = (s.queue p).takeAll p
    ((if p = .s then [.bayState b .offered (s.link b).link none] else []) ++
      if k.origin = p then [.offer k.number b s.timers.offer] else []) := by
  have hstate := State.raise_queue_takeAll (s.setBay b { s.bay b with state := .offered, ticket := some k.number }) .s p
    (.bayState b .offered (s.link b).link none)
  rw [State.offerBay_eq hb, State.raise_queue_takeAll, NoticeQueue.takeAll_append]
  simp only [eq_comm (a := p) (b := k.origin)]
  exact congrArg (NoticeQueue.takeAll p · _) hstate

end Offers

/-! ### One turn of a run (R54) -/

/-- A bay is eligible for the WAITING ticket of this number (R49, R54). -/
def State.takes (s : State) (b : BayNo) (n : Nat) : Prop :=
  ∃ k, s.ticket? n = some k ∧ k.state = .waiting ∧ s.eligible b k = true

theorem State.firstEligible_eq_none {s : State} {b : BayNo} {l : List Nat} :
    s.firstEligible b l = none ↔ ∀ n ∈ l, ¬s.takes b n := by
  unfold State.firstEligible State.takes
  rw [List.findSome?_eq_none_iff]
  refine forall₂_congr fun n _ => ?_
  cases s.ticket? n <;> simp

/-- A bay is offered to the first ticket of the queue that it takes. -/
theorem State.firstEligible_of_split {s : State} {b : BayNo} {first rest : List Nat} {n : Nat} {k : Ticket}
    (hfirst : ∀ m ∈ first, ¬s.takes b m) (hk : s.ticket? n = some k) (hw : k.state = .waiting)
    (he : s.eligible b k = true) : s.firstEligible b (first ++ n :: rest) = some k := by
  have hnone := State.firstEligible_eq_none.mpr hfirst
  unfold State.firstEligible at hnone ⊢
  rw [List.findSome?_append, hnone]
  simp [hk, hw, he]

/-- A turn offers the bay to a WAITING ticket of the queue for which it is eligible, or changes nothing. -/
theorem State.matchBay_cases (s : State) (q : PoolNo) (b : BayNo) :
    (s.firstEligible b (s.pool q).queue = none ∧ s.matchBay q b = s) ∨
      ∃ k, s.matchBay q b = s.offerBay q b k ∧ s.ticket? k.number = some k ∧ k.number ∈ (s.pool q).queue ∧
        k.state = .waiting ∧ s.eligible b k = true := by
  unfold State.matchBay
  cases hk : s.firstEligible b (s.pool q).queue with
  | none => exact .inl ⟨rfl, rfl⟩
  | some k =>
    obtain ⟨hw, he, n, hn, hf⟩ := State.firstEligible_spec hk
    obtain rfl := State.ticket?_number hf
    exact .inr ⟨k, rfl, hf, hn, hw, he⟩

theorem State.matchBay_bay_of_ne (s : State) (q : PoolNo) {b c : BayNo} (hc : c ≠ b) :
    (s.matchBay q b).bay c = s.bay c := by
  rcases s.matchBay_cases q b with ⟨-, e⟩ | ⟨k, e, -, -, -, he⟩
  · rw [e]
  · rw [e, State.offerBay_bay (State.free_of_eligible he), if_neg hc]

theorem State.matchBay_pool_of_ne (s : State) {q r : PoolNo} (hr : r ≠ q) (b : BayNo) :
    (s.matchBay q b).pool r = s.pool r := by
  rcases s.matchBay_cases q b with ⟨-, e⟩ | ⟨k, e, -, -, -, he⟩
  · rw [e]
  · rw [e, State.offerBay_pool (State.free_of_eligible he), if_neg hr]

/-- A turn that leaves the bay leaves everything. -/
theorem State.matchBay_of_kept {s : State} {q : PoolNo} {b : BayNo} (h : (s.matchBay q b).bay b = s.bay b) :
    s.matchBay q b = s := by
  rcases s.matchBay_cases q b with ⟨-, e⟩ | ⟨k, e, -, -, -, he⟩
  · exact e
  · have hfree := State.free_of_eligible he
    rw [e, State.offerBay_bay hfree, if_pos rfl] at h
    simpa [hfree] using congrArg Bay.state h

/-! ### The turns before and after -/

theorem State.matchOver_bay_of_not_mem (s : State) (q : PoolNo) {l : List BayNo} {c : BayNo} (hc : c ∉ l) :
    (s.matchOver q l).bay c = s.bay c :=
  List.foldlRecOn (motive := fun (u : State) => u.bay c = s.bay c) l _ rfl fun u hu b hb =>
    (u.matchBay_bay_of_ne q fun e : c = b => hc (e ▸ hb)).trans hu

theorem State.matchOver_pool_of_ne (s : State) {q r : PoolNo} (hr : r ≠ q) (l : List BayNo) :
    (s.matchOver q l).pool r = s.pool r :=
  List.foldlRecOn (motive := fun (u : State) => u.pool r = s.pool r) l _ rfl fun u hu b _ =>
    (u.matchBay_pool_of_ne hr b).trans hu

/-- Turns that leave their bays leave everything. -/
theorem State.matchOver_of_kept {s : State} {q : PoolNo} {l : List BayNo} (hl : l.Nodup)
    (h : ∀ c ∈ l, (s.matchOver q l).bay c = s.bay c) : s.matchOver q l = s := by
  induction l generalizing s with
  | nil => rfl
  | cons b l ih =>
    obtain ⟨hb, hl⟩ := List.nodup_cons.mp hl
    have hturn : s.matchBay q b = s := State.matchBay_of_kept (by
      rw [← State.matchOver_bay_of_not_mem _ q hb]
      exact h b List.mem_cons_self)
    rw [State.matchOver_cons, hturn] at h ⊢
    exact ih hl fun c hc => h c (List.mem_cons_of_mem _ hc)

/-- Eligibility for a ticket reads of a run only the bay's own record (R49). -/
theorem State.Matched.eligible {s t : State} (h : s.Matched t) {b : BayNo} (hb : t.bay b = s.bay b) (k : Ticket) :
    t.eligible b k = s.eligible b k := by
  have hpool : (t.pool k.pool).masked = (s.pool k.pool).masked ∧ (t.pool k.pool).kind = (s.pool k.pool).kind := by
    rw [h.pool k.pool]
    exact ⟨rfl, rfl⟩
  have hguard : t.guardHolds b k.stay = s.guardHolds b k.stay := by
    rw [h.frame]
    rfl
  simp only [State.eligible, hb, hpool, hguard]

/-- A run keeps the origin of every ticket. -/
theorem State.Matched.origin {s t : State} (h : s.Matched t) (n : Nat) :
    (t.ticket? n).map Ticket.origin = (s.ticket? n).map Ticket.origin := by
  cases hn : s.ticket? n with
  | none => rw [h.dead n hn]
  | some x =>
    obtain ⟨y, hy, hk⟩ := h.ticket n x hn
    rw [hy]
    rcases hk with rfl | ⟨-, b, d, rfl⟩ <;> rfl

/-- A ticket that waits after a run has waited before it. -/
theorem State.Matched.waited {s t : State} (h : s.Matched t) {n : Nat} {k : Ticket} (hk : t.ticket? n = some k)
    (hw : k.state = .waiting) : s.ticket? n = some k := by
  cases hn : s.ticket? n with
  | none => simp [h.dead n hn] at hk
  | some x =>
    obtain ⟨y, hy, hkept⟩ := h.ticket n x hn
    obtain rfl := Option.some.inj (hk.symm.trans hy)
    rcases hkept with rfl | ⟨-, b, d, rfl⟩
    · rfl
    · cases hw

/-- No bay names a ticket that waits (R2). -/
theorem AgreeBut.unnamed_of_waiting {s : State} (h : AgreeBut none none s) {n : Nat} {k : Ticket}
    (hk : s.ticket? n = some k) (hw : k.state = .waiting) (c : BayNo) : (s.bay c).ticket ≠ some n := by
  intro hc
  obtain ⟨x, hx, -, -, hbay, -, hstands⟩ := h.claimant hc
  obtain rfl := Option.some.inj (hk.symm.trans hx)
  simp [hstands.bay.mpr hw] at hbay

/-- The tickets that wait after some turns are those that waited before and that no bay of these turns names. -/
theorem AgreeBut.waits_iff {s : State} (h : AgreeBut none none s) (q : PoolNo) (l : List BayNo) {n : Nat} {k : Ticket}
    (hw : k.state = .waiting) : (s.matchOver q l).ticket? n = some k ↔
      s.ticket? n = some k ∧ ∀ c ∈ l, ((s.matchOver q l).bay c).ticket ≠ some n := by
  have hrun := s.matched_matchOver q l
  have hafter := h.matchOver q l
  constructor
  · exact fun hk => ⟨hrun.waited hk hw, fun c _ => hafter.unnamed_of_waiting hk hw c⟩
  · rintro ⟨hk, hfree⟩
    obtain ⟨y, hy, rfl | ⟨-, c, d, rfl⟩⟩ := hrun.ticket n k hk
    · exact hy
    · obtain ⟨-, hnamed⟩ := (hafter.ticket _ (State.mem_of_ticket? hy) (by simp)).named c rfl
      obtain rfl : k.number = n := State.ticket?_number hk
      by_cases hc : c ∈ l
      · exact absurd hnamed (hfree c hc)
      · rw [s.matchOver_bay_of_not_mem q hc] at hnamed
        exact absurd hnamed (h.unnamed_of_waiting hk hw c)

/-- The ticket of a number in a wait queue (R46). -/
theorem AgreeBut.queued {s : State} (h : AgreeBut none none s) {q : PoolNo} {n : Nat} (hn : n ∈ (s.pool q).queue) :
    ∃ k, s.ticket? n = some k ∧ k.pool = q := by
  obtain ⟨-, -, -, hall⟩ := h.queue q
  obtain ⟨k, hk, rfl, hq, -⟩ := hall n hn
  exact ⟨k, h.fits.ticket?_of_mem hk, hq⟩

/-- A run leaves the tickets of the other pools. -/
theorem AgreeBut.matchOver_ticket_of_ne {s : State} (h : AgreeBut none none s) (q : PoolNo) (l : List BayNo) {n : Nat}
    {x : Ticket} (hx : s.ticket? n = some x) (hq : x.pool ≠ q) : (s.matchOver q l).ticket? n = some x := by
  induction l generalizing s with
  | nil => exact hx
  | cons b l ih =>
    rw [State.matchOver_cons]
    refine ih (h.matchBay q b) ?_
    rcases s.matchBay_cases q b with ⟨-, e⟩ | ⟨k, e, hk, hmem, -, he⟩
    · rw [e]
      exact hx
    · have hne : n ≠ k.number := by
        rintro rfl
        obtain ⟨y, hy, hyq⟩ := h.queued hmem
        exact hq (Option.some.inj (hx.symm.trans hy) ▸ hyq)
      rw [e, State.offerBay_ticket (State.free_of_eligible he), hx, Option.map_some, if_neg hne]

/-! ### The notices of a run (assumption 6) -/

/-- What a run from s to t raises to a port for one bay: BAY_STATE and OFFER where the bay has been offered (R7, R55). -/
def State.offerTold (s t : State) (p : Port) (b : BayNo) : List Notice :=
  match (t.bay b).ticket with
  | some n =>
    if t.bay b = s.bay b then [] else
      (if p = .s then [.bayState b .offered (s.link b).link none] else []) ++
      (if (s.ticket? n).map Ticket.origin = some p then [.offer n b s.timers.offer] else [])
  | none => []

theorem State.offerTold_of_kept {s t : State} {b : BayNo} (h : t.bay b = s.bay b) (p : Port) :
    s.offerTold t p b = [] := by
  unfold State.offerTold
  split
  · rw [if_pos h]
  · rfl

/-- What is told of a bay reads only that bay before the run, and what matching keeps. -/
theorem State.Matched.offerTold {s u : State} (h : s.Matched u) {b : BayNo} (hb : u.bay b = s.bay b) (t : State)
    (p : Port) : u.offerTold t p b = s.offerTold t p b := by
  have hlink : u.link b = s.link b := State.link_of_links (by rw [h.frame]) b
  have htimers : u.timers = s.timers := by rw [h.frame]
  simp only [State.offerTold, hb, hlink, htimers, h.origin]

/-- One turn raises what is told of its bay. -/
theorem State.matchBay_queue (s : State) {t : State} {q : PoolNo} {b : BayNo}
    (hb : t.bay b = (s.matchBay q b).bay b) (p : Port) :
    (s.matchBay q b).queue p = (s.queue p).takeAll p (s.offerTold t p b) := by
  rcases s.matchBay_cases q b with ⟨-, e⟩ | ⟨k, e, hk, -, -, he⟩
  · rw [e] at hb ⊢
    rw [State.offerTold_of_kept hb, NoticeQueue.takeAll_nil]
  · have hfree := State.free_of_eligible he
    rw [e, State.offerBay_bay hfree, if_pos rfl] at hb
    have hne : t.bay b ≠ s.bay b := fun h => by simpa [hfree] using congrArg Bay.state (hb.symm.trans h)
    have hname : (t.bay b).ticket = some k.number := by rw [hb]
    rw [e, State.offerBay_queue hfree]
    simp [State.offerTold, hname, hne, hk]

/-- A run raises what is told of its bays, in their order. -/
theorem State.matchOver_queue (s : State) (q : PoolNo) {l : List BayNo} (hl : l.Nodup) (p : Port) :
    (s.matchOver q l).queue p = (s.queue p).takeAll p (l.flatMap (s.offerTold (s.matchOver q l) p)) := by
  induction l generalizing s with
  | nil => rfl
  | cons b l ih =>
    obtain ⟨hb, hl⟩ := List.nodup_cons.mp hl
    have hrest : l.flatMap ((s.matchBay q b).offerTold ((s.matchBay q b).matchOver q l) p) =
        l.flatMap (s.offerTold ((s.matchBay q b).matchOver q l) p) :=
      List.flatMap_congr fun c hc => (s.matched_matchBay q b).offerTold
        (s.matchBay_bay_of_ne q fun e : c = b => hb (e ▸ hc)) _ p
    rw [State.matchOver_cons, ih _ hl, hrest, s.matchBay_queue (State.matchOver_bay_of_not_mem _ q hb) p,
      List.flatMap_cons, NoticeQueue.takeAll_append]

/-! ### Who fits a bay (R44, R49, R50) -/

/-- A bay is eligible for the WAITING ticket of this number in the pool's queue, clause by clause (R49). -/
def State.fits (s : State) (q : PoolNo) (b : BayNo) (n : Nat) : Prop :=
  ∃ k, s.ticket? n = some k ∧ k.state = .waiting ∧ (s.bay b).state = .free ∧ (s.pool q).masked = false ∧
    ((s.pool q).kind = .general ∨ k.cls = .access ∨ k.kind = .booked) ∧ k.lastDeclined ≠ some b ∧
    ∀ m ∈ s.bookings b, (k.stay : Int) < s.offset m

theorem PoolKind.admitsTicket_iff (x : PoolKind) (k : Ticket) :
    x.admitsTicket k = true ↔ x = .general ∨ k.cls = .access ∨ k.kind = .booked := by
  cases x <;> simp [PoolKind.admitsTicket]

/-- Eligibility of a bay for a ticket of its pool (R49). -/
theorem State.eligible_iff {s : State} {q : PoolNo} {b : BayNo} (he : (s.bay b).enrolled = true)
    (hq : (s.bay b).pool = q) {k : Ticket} (hk : k.pool = q) : s.eligible b k = true ↔
      (s.bay b).state = .free ∧ (s.pool q).masked = false ∧
        ((s.pool q).kind = .general ∨ k.cls = .access ∨ k.kind = .booked) ∧ k.lastDeclined ≠ some b ∧
        ∀ m ∈ s.bookings b, (k.stay : Int) < s.offset m := by
  subst hk
  simp only [State.eligible, State.guardHolds, he, hq, Bool.and_eq_true, Bool.not_eq_true', decide_eq_true_eq,
    PoolKind.admitsTicket_iff, List.all_eq_true, and_assoc, true_and]

/-- A bay that is eligible for a ticket is a bay of the ticket's pool (R43, R49). -/
theorem State.mem_rotation_of_eligible {s : State} {b : BayNo} {k : Ticket} (h : s.eligible b k = true) :
    b ∈ s.rotation k.pool := by
  simp only [State.eligible, Bool.and_eq_true, decide_eq_true_eq] at h
  obtain ⟨⟨⟨⟨⟨⟨-, henrolled⟩, hpool⟩, -⟩, -⟩, -⟩, -⟩ := h
  exact (s.mem_rotation _ b).mpr ⟨henrolled, hpool⟩

theorem AgreeBut.fits_iff {s : State} (h : AgreeBut none none s) {q : PoolNo} {b : BayNo} (hb : b ∈ s.rotation q)
    {n : Nat} (hn : n ∈ (s.pool q).queue) : s.fits q b n ↔ s.takes b n := by
  obtain ⟨henrolled, hpool⟩ := (s.mem_rotation q b).mp hb
  obtain ⟨x, hx, hxq⟩ := h.queued hn
  refine exists_congr fun k => and_congr_right fun hk => and_congr_right fun _ => ?_
  obtain rfl := Option.some.inj (hk.symm.trans hx)
  exact (State.eligible_iff henrolled hpool hxq).symm

/-! ### A bay in its turn -/

section Turn

variable {s : State} {q : PoolNo} {front back : List BayNo} {b : BayNo} (horder : s.rotation q = front ++ b :: back)
include horder

/-- The run up to a bay's turn, the turn, and the run behind it. -/
theorem State.matchRun_split : s.matchRun q = ((s.matchOver q front).matchBay q b).matchOver q back := by
  rw [State.matchRun_eq, horder, State.matchOver_append, State.matchOver_cons]

/-- No bay has two turns. -/
theorem State.turn_apart : (b :: back).Nodup ∧ ∀ c ∈ front, c ∉ b :: back := by
  have hnodup := s.nodup_rotation q
  rw [horder, List.nodup_append] at hnodup
  obtain ⟨-, hback, hapart⟩ := hnodup
  exact ⟨hback, fun c hc hc' => hapart c hc c hc' rfl⟩

/-- The bay is as the run finds it until its turn. -/
theorem State.turn_before : (s.matchOver q front).bay b = s.bay b :=
  s.matchOver_bay_of_not_mem q fun hb => (State.turn_apart horder).2 b hb List.mem_cons_self

/-- The run leaves the bay as its turn does. -/
theorem State.turn_after : (s.matchRun q).bay b = ((s.matchOver q front).matchBay q b).bay b := by
  rw [State.matchRun_split horder]
  exact State.matchOver_bay_of_not_mem _ q (List.nodup_cons.mp (State.turn_apart horder).1).1

/-- A bay ahead of the turn is left by the run as the turns up to then leave it. -/
theorem State.turn_ahead {c : BayNo} (hc : c ∈ front) : (s.matchRun q).bay c = (s.matchOver q front).bay c := by
  rw [State.matchRun_split horder, ← State.matchOver_cons]
  exact State.matchOver_bay_of_not_mem _ q ((State.turn_apart horder).2 c hc)

/-- In its turn a bay takes the tickets that fit it and that no bay ahead of it has taken (R54). -/
theorem AgreeBut.left_iff (h : AgreeBut none none s) {n : Nat} (hn : n ∈ (s.pool q).queue) :
    (s.fits q b n ∧ ∀ c ∈ front, ((s.matchRun q).bay c).ticket ≠ some n) ↔ (s.matchOver q front).takes b n := by
  have hahead : (∀ c ∈ front, ((s.matchRun q).bay c).ticket ≠ some n) ↔
      ∀ c ∈ front, ((s.matchOver q front).bay c).ticket ≠ some n :=
    forall₂_congr fun c hc => by rw [State.turn_ahead horder hc]
  have heligible := (s.matched_matchOver q front).eligible (State.turn_before horder)
  rw [h.fits_iff (horder ▸ by simp) hn, hahead]
  constructor
  · rintro ⟨⟨k, hk, hw, he⟩, hfree⟩
    exact ⟨k, (h.waits_iff q front hw).mpr ⟨hk, hfree⟩, hw, (heligible k).trans he⟩
  · rintro ⟨k, hk, hw, he⟩
    obtain ⟨hk, hfree⟩ := (h.waits_iff q front hw).mp hk
    exact ⟨⟨k, hk, hw, (heligible k).symm.trans he⟩, hfree⟩

/-- A bay that takes no ticket of the queue in its turn is left as it was. -/
theorem State.turn_keeps (hnone : ∀ n ∈ (s.pool q).queue, ¬(s.matchOver q front).takes b n) :
    (s.matchRun q).bay b = s.bay b := by
  rw [State.turn_after horder, State.matchBay, (s.matched_matchOver q front).queue,
    State.firstEligible_eq_none.mpr hnone]
  exact State.turn_before horder

/-- A bay that is left as it was takes no ticket of the queue in its turn. -/
theorem State.turn_kept (hkept : (s.matchRun q).bay b = s.bay b) :
    ∀ n ∈ (s.pool q).queue, ¬(s.matchOver q front).takes b n := by
  rw [State.turn_after horder, ← State.turn_before horder] at hkept
  rw [← (s.matched_matchOver q front).queue q, ← State.firstEligible_eq_none]
  rcases (s.matchOver q front).matchBay_cases q b with ⟨hnone, -⟩ | ⟨k, e, -, -, -, he⟩
  · exact hnone
  · have hfree := State.free_of_eligible he
    rw [e, State.offerBay_bay hfree, if_pos rfl] at hkept
    simpa [hfree] using congrArg Bay.state hkept

variable {first rest : List Nat} {n : Nat} {k : Ticket} (hqueue : (s.pool q).queue = first ++ n :: rest)
  (hfirst : ∀ m ∈ first, ¬(s.matchOver q front).takes b m) (hn : (s.matchOver q front).takes b n)
  (hk : s.ticket? n = some k)
include hqueue hfirst hn hk

/-- The turn of a bay that takes a ticket is an offer to the first that it takes. -/
theorem State.turn_offers : (s.bay b).state = .free ∧ (s.matchOver q front).ticket? n = some k ∧
    (s.matchOver q front).matchBay q b = (s.matchOver q front).offerBay q b k := by
  have hrun := s.matched_matchOver q front
  obtain ⟨x, hx, hw, he⟩ := hn
  obtain rfl := Option.some.inj (hk.symm.trans (hrun.waited hx hw))
  refine ⟨State.turn_before horder ▸ State.free_of_eligible he, hx, ?_⟩
  rw [State.matchBay, hrun.queue, hqueue, State.firstEligible_of_split hfirst hx hw he]

/-- What the run leaves of a bay and a ticket that it pairs, and of the pointer (R51, R55). -/
theorem State.turn_paired : (s.matchRun q).bay b = { s.bay b with state := .offered, ticket := some n } ∧
    (s.matchRun q).ticket? n = some (k.offeredAt b (s.deadline s.timers.offer)) ∧
    ((∀ c ∈ back, (s.matchRun q).bay c = s.bay c) → ((s.matchRun q).pool q).pointer = some b) := by
  obtain ⟨hfree, hx, hturn⟩ := State.turn_offers horder hqueue hfirst hn hk
  obtain rfl := State.ticket?_number hk
  have hbefore := State.turn_before horder
  have hfree' : ((s.matchOver q front).bay b).state = .free := hbefore ▸ hfree
  have hdeadline : (s.matchOver q front).deadline (s.matchOver q front).timers.offer = s.deadline s.timers.offer := by
    rw [(s.matched_matchOver q front).frame]
    rfl
  have hsplit := State.matchRun_split horder
  rw [hturn] at hsplit
  refine ⟨?_, ?_, fun hkept => ?_⟩
  · rw [State.turn_after horder, hturn, State.offerBay_bay hfree', if_pos rfl, hbefore]
  · have hoffered := State.offerBay_ticket hfree' q k k.number
    rw [hx, Option.map_some, if_pos rfl, hdeadline] at hoffered
    obtain ⟨y, hy, rfl | ⟨hw, -⟩⟩ := (State.matched_matchOver _ q back).ticket k.number _ hoffered
    · rw [hsplit]
      exact hy
    · cases hw
  · obtain ⟨hnodup, hapart⟩ := State.turn_apart horder
    obtain ⟨hback, hnodup⟩ := List.nodup_cons.mp hnodup
    have hrest : ((s.matchOver q front).offerBay q b k).matchOver q back = (s.matchOver q front).offerBay q b k := by
      refine State.matchOver_of_kept hnodup fun c hc => ?_
      rw [← hsplit, hkept c hc, State.offerBay_bay hfree', if_neg fun e : c = b => hback (e ▸ hc),
        s.matchOver_bay_of_not_mem q fun hc' => hapart c hc' (List.mem_cons_of_mem _ hc)]
    rw [hsplit, hrest, State.offerBay_pool hfree', if_pos rfl]

end Turn

/-! ### What a run leaves -/

/-- A run leaves no pairing in its pool (R53). -/
theorem AgreeBut.matchRun_none_missed {s : State} (h : AgreeBut none none s) {q : PoolNo} {k : Ticket}
    (hk : k ∈ (s.matchRun q).tickets) (hw : k.state = .waiting) (hq : k.pool = q) (b : BayNo) :
    (s.matchRun q).eligible b k = false := by
  subst hq
  have hafter := h.matchRun k.pool
  have hrun := s.matched_matchRun k.pool
  by_contra hne
  have he : (s.matchRun k.pool).eligible b k = true := by simpa using hne
  have hkept : (s.matchRun k.pool).bay b = s.bay b := by
    refine (hrun.bay b).resolve_right ?_
    rintro ⟨-, n, e⟩
    simpa [e] using State.free_of_eligible he
  have heligible : s.eligible b k = true := (hrun.eligible hkept k).symm.trans he
  obtain ⟨front, back, horder⟩ := List.append_of_mem (State.mem_rotation_of_eligible heligible)
  have hqueue : k.number ∈ (s.pool k.pool).queue := by
    rw [← hrun.queue]
    exact (hafter.ticket k hk (by simp)).queued (.inl hw)
  have hrest : (s.matchOver k.pool front).Matched (s.matchRun k.pool) := by
    rw [State.matchRun_split horder]
    exact (State.matched_matchBay _ k.pool b).trans (State.matched_matchOver _ k.pool back)
  exact State.turn_kept horder hkept k.number hqueue ⟨k, hrest.waited (hafter.fits.ticket?_of_mem hk) hw, hw,
    ((s.matched_matchOver k.pool front).eligible (State.turn_before horder) k).trans heligible⟩

/-- In a masked pool a run changes nothing (R53). -/
theorem AgreeBut.matchRun_of_masked {s : State} (h : AgreeBut none none s) {q : PoolNo}
    (hm : (s.pool q).masked = true) : s.matchRun q = s := by
  refine List.foldlRecOn (motive := fun (u : State) => u = s) (s.rotation q) _ rfl fun u hu b hb => ?_
  subst hu
  rcases u.matchBay_cases q b with ⟨-, e⟩ | ⟨k, -, hk, hmem, -, he⟩
  · exact e
  · obtain ⟨x, hx, hxq⟩ := h.queued hmem
    obtain rfl := Option.some.inj (hk.symm.trans hx)
    simp [State.eligible, hxq, hm] at he

/-- Settles O22: the turn of each bay, then the notices, and what is left alone. -/
theorem matchingRunPairs : Obligations.MatchingRunPairs := by
  unfold Obligations.MatchingRunPairs
  intro s q hc t mine order fits
  have h := (agreeBut_none_iff s).mpr hc
  have hrun : s.Matched t := s.matched_matchRun q
  have horder : order = s.rotation q := rfl
  have hnodup := s.nodup_rotation q
  refine ⟨?_, fun hkept => ?_, fun p => ?_, fun k hk hw hq b =>
    h.matchRun_none_missed hk hw hq b, fun b => ⟨hrun.bay b, fun hb => ?_⟩, fun n x hx => ?_, fun r => ?_,
    h.matchRun_of_masked, hrun.frame⟩
  · intro front b back hsplit left
    rw [horder] at hsplit
    have hleft : ∀ n ∈ (s.pool q).queue, left n ↔ (s.matchOver q front).takes b n := fun n hn => h.left_iff hsplit hn
    refine ⟨fun first n rest k hqueue hfirst hn hk => ?_, fun hnone => ?_⟩
    · exact State.turn_paired hsplit hqueue (fun m hm => (hleft m (by simp [hqueue, hm])).not.mp (hfirst m hm))
        ((hleft n (by simp [hqueue])).mp hn) hk
    · exact State.turn_keeps hsplit fun n hn => (hleft n hn).not.mp (hnone n hn)
  · exact State.matchOver_of_kept hnodup fun c _ => hkept c
  · rw [State.queueAfter_eq]
    exact s.matchOver_queue q hnodup p
  · refine s.matchOver_bay_of_not_mem q fun hmem => ?_
    obtain ⟨he, hq⟩ := (s.mem_rotation q b).mp hmem
    rcases hb with hb | hb
    · exact hb hq
    · simp [he] at hb
  · obtain ⟨y, hy, hkept⟩ := hrun.ticket n x hx
    exact ⟨y, hy, hkept, fun hq => Option.some.inj (hy.symm.trans (h.matchOver_ticket_of_ne q _ hx hq))⟩
  · split
    · subst r
      exact hrun.pool q
    · exact s.matchOver_pool_of_ne ‹_› _

end Sys2Proof.Machine
end

