-- ==== Sys2Proof/Proofs/MissedPairings.lean ====
section
/-! SUPPORT. A pairing that is missed (R49, R53): an offer that is given up settles its bay in the bay's own pool, and the
one matching run is made in the pool of the ticket. ClaimsAgree lets the two differ: O60. -/

namespace Sys2Proof.Machine

/-- A bay record of pool 1, EMPTY by its last report, OFFERED to ticket 1. -/
def Bay.foreign : Bay :=
  { Bay.powerOn with enrolled := true, pool := 1, state := .offered, presence := .empty, plug := .unplugged,
                     ticket := some 1 }

/-- Ticket 1 of pool 0, which bay 0 of pool 1 is offered to. -/
def Ticket.foreign : Ticket :=
  { number := 1, origin := .k, kind := .walkIn, cls := .standard, pool := 0, stay := 4, state := .offered,
    bay := some 0, offerDeadline := some 0#32, holdDeadline := none, lastDeclined := none, booking := none }

/-- Ticket 2, which waits in pool 1. -/
def Ticket.passedOver : Ticket :=
  { Ticket.foreign with number := 2, pool := 1, state := .waiting, bay := none, offerDeadline := none }

/-- The level in RUN with pools 0 and 1 configured, bay 0 in pool 1 and bay 1, OFFLINE, in pool 0: bay 0 is offered to
ticket 1 of pool 0 while ticket 2 waits in pool 1, and the offer lapses. -/
def State.foreignOffer : State :=
  { State.reset with
    opState := .run,
    bays := (State.reset.bays.set 0 Bay.foreign).set 1 { Bay.powerOn with enrolled := true },
    tickets := [Ticket.foreign, Ticket.passedOver],
    pools := (State.reset.pools.set 0 { Pool.powerOn with configured := true, queue := [1] }).set 1
      { Pool.powerOn with configured := true, queue := [2] },
    bus := { HeadBus.powerOn with links := HeadBus.powerOn.links.set 0 ⟨.online, 0, 0, .off⟩ },
    pending := [.lapse 1] }

theorem configurationValid_foreignOffer : ConfigurationValid State.foreignOffer := by decide +kernel

theorem noneMissed_foreignOffer : NoneMissed State.foreignOffer := by decide +kernel

/-- Both tickets stand where their states say: the foreign one at the bay that names it. -/
theorem stands_foreignOffer : ∀ t ∈ State.foreignOffer.tickets, State.foreignOffer.Stands t := by
  have hoffered : State.foreignOffer.Stands Ticket.foreign :=
    State.stands_at (b := 0) (by decide) rfl (show (State.foreignOffer.bay 0).state = .offered by decide +kernel)
      (by decide +kernel) (fun _ => by decide +kernel) (by decide) (by decide)
  have hwaits : State.foreignOffer.Stands Ticket.passedOver :=
    State.stands_waiting rfl rfl rfl rfl (by decide +kernel)
  intro t ht
  rcases List.mem_pair.mp ht with rfl | rfl
  · exact hoffered
  · exact hwaits

/-- Nothing in the agreement of claims ties the pool of an OFFERED ticket to the pool of its bay. -/
theorem claimsAgree_foreignOffer : ClaimsAgree State.foreignOffer :=
  ⟨by decide +kernel, fun t ht => (State.ticketPlaced_iff _ t).mpr (stands_foreignOffer t ht), by decide +kernel,
    by decide +kernel, by decide, by decide +kernel, by decide, by decide⟩

/-- The state that the lapse leaves. -/
def State.foreignLapsed : State :=
  (({ State.foreignOffer with pending := [] } : State).giveUpOffer Ticket.foreign 0 true).settleBus

theorem step_foreignOffer : step State.foreignOffer = .next State.foreignLapsed :=
  exec_lapse (s := { State.foreignOffer with pending := [] }) (k := Ticket.foreign) (b := 0) (d := 0#32)
    rfl rfl rfl rfl (by decide +kernel)

/-- The bay is FREE in pool 1, where ticket 2 still waits: the run was made in pool 0. -/
theorem foreignLapsed_missed : Ticket.passedOver ∈ State.foreignLapsed.tickets ∧
    State.foreignLapsed.eligible 0 Ticket.passedOver = true := by decide +kernel

/-- Refutes O60: with a bay of pool 1 OFFERED to a ticket of pool 0, which ClaimsAgree allows, the lapse frees the bay and
runs pool 0 only, so that the bay is eligible for the ticket that waits in pool 1. -/
theorem not_noPairingIsMissed : ¬Obligations.NoPairingIsMissed := by
  unfold Obligations.NoPairingIsMissed
  intro h
  obtain ⟨-, hkept⟩ := h State.foreignOffer State.foreignLapsed configurationValid_foreignOffer step_foreignOffer
  obtain ⟨hmem, heligible⟩ := foreignLapsed_missed
  have hnot := hkept claimsAgree_foreignOffer noneMissed_foreignOffer (by decide +kernel) Ticket.passedOver hmem rfl 0
  exact absurd heligible (by simp [hnot])

end Sys2Proof.Machine
end

