-- ==== Sys2Proof/Proofs/Bookings.lean ====
section
/-! SUPPORT. What becomes of the book (R68 to R70): the work of the blocks only thins it, and BOOK places a record by
its start under a number that is not live. -/

namespace Sys2Proof.Machine

/-! ### Work that places no booking -/

/-- The work has placed no booking and left the slot number and the number counter: each bay's list has lost bookings at
most. -/
structure State.Thins (s t : State) : Prop where
  slotNow : t.booking.slotNow = s.booking.slotNow
  counter : t.booking.counter = s.booking.counter
  bookings : ∀ b, (t.bookings b).Sublist (s.bookings b)

namespace State.Thins

variable {s t u : State}

theorem refl (s : State) : s.Thins s := ⟨rfl, rfl, fun _ => .refl _⟩

theorem trans (h : s.Thins t) (h' : t.Thins u) : s.Thins u :=
  ⟨h'.slotNow.trans h.slotNow, h'.counter.trans h.counter, fun b => (h'.bookings b).trans (h.bookings b)⟩

theorem of_booking (h : t.booking = s.booking) : s.Thins t :=
  ⟨by rw [h], by rw [h], fun b => by rw [State.bookings_of_book (s := s) (by rw [h])]⟩

/-- Work that leaves the booking unit thins on. -/
theorem frame (h : s.Thins t) (hu : u.booking = t.booking := by simp) : s.Thins u := h.trans (.of_booking hu)

theorem dropBooking (h : s.Thins t) (b : BayNo) (n : Nat) : s.Thins (t.dropBooking b n) := by
  refine h.trans ⟨rfl, rfl, fun c => ?_⟩
  rw [State.dropBooking, State.setBookings_bookings]
  split
  · subst c
    exact List.filter_sublist
  · exact .refl _

theorem foldl {α : Type} (f : State → α → State) (hf : ∀ {u} a, s.Thins u → s.Thins (f u a)) (h : s.Thins t)
    (l : List α) : s.Thins (l.foldl f t) :=
  List.foldlRecOn l f h fun _ hu a _ => hf a hu

/-! ### What the rules of the book make of it -/

theorem liveBookings (h : s.Thins t) : t.liveBookings.Sublist s.liveBookings :=
  List.Sublist.flatMap_right _ fun b _ => (h.bookings b).map _

theorem bookFits (h : s.Thins t) (hs : BookFits s) : BookFits t := by
  obtain ⟨hsize, hbay, hnodup, hrange, hcounter⟩ := hs
  exact ⟨h.liveBookings.length_le.trans hsize, fun b => (h.bookings b).length_le.trans (hbay b),
    hnodup.sublist h.liveBookings, fun n hn => hrange n (h.liveBookings.subset hn), h.counter ▸ hcounter⟩

theorem offset (h : s.Thins t) : t.offset = s.offset := funext fun k => by rw [State.offset, h.slotNow, State.offset]

theorem bookOrdered (h : s.Thins t) (hs : BookOrdered s) : BookOrdered t := by
  intro b
  obtain ⟨hrange, horder⟩ := hs b
  rw [h.offset]
  exact ⟨fun k hk => hrange k ((h.bookings b).subset hk), horder.sublist (h.bookings b)⟩

end State.Thins

/-! ### REPORTs (R18, R86) -/

theorem State.presentCode_thins (s : State) (b : BayNo) (code : Nat) : s.Thins (s.presentCode b code) := by
  have h := State.Thins.refl s
  unfold State.presentCode
  split
  · exact h.frame
  split
  · exact h
  split
  · rename_i k _
    unfold State.activateEarly
    split
    · exact (h.dropBooking b k.number).frame
    · exact h.frame
  split
  all_goals exact h.frame

theorem State.codeStep_thins (s : State) (b : BayNo) (code : Nat) : s.Thins (s.codeStep b code) := by
  unfold State.codeStep
  split
  · exact .refl s
  · exact s.presentCode_thins b code

/-- A REPORT takes a booking from the book by its code alone (R18, R86). -/
theorem State.takeReport_thins (s : State) (b : BayNo) (r : Report) : s.Thins (s.takeReport b r) := by
  have h := State.Thins.refl s
  unfold State.takeReport
  split
  · exact h.frame
  · have hp : s.Thins ((s.plugStep b (plugOf r.plug) r.tagEcho.toNat).presenceStep b (takenPresence r)) := h.frame
    exact (hp.trans (State.codeStep_thins _ b r.code.toNat)).frame

theorem State.takeReply_thins (s : State) (b : BayNo) (r : Report) : s.Thins (s.takeReply b r) := by
  have h : s.Thins (s.linkOnline b) := (State.Thins.refl s).frame
  exact h.trans (State.takeReport_thins _ b r)

/-! ### Requests -/

/-- The owners that write the booking unit: BOOK, CANCEL BOOKING, SET SLOT CLOCK, SET BANDS and START (R72, R74, R76,
R77, R88). -/
inductive WritesBook : Owner → Prop where
  | book : WritesBook ownBook
  | cancelBooking : WritesBook ownCancelBooking
  | setSlotClock : WritesBook ownSetSlotClock
  | setBands : WritesBook ownSetBands
  | start : WritesBook ownStart

@[simp] theorem State.grant_booking (s : State) (t : Ticket) (c : Bool) : (s.grant t c).1.booking = s.booking := by
  unfold State.grant
  repeat' split
  all_goals simp

@[simp] theorem State.adopt_booking (s : State) (p : Port) (b : BayNo) (n : Nat) (c : Priority) :
    (s.adopt p b n c).1.booking = s.booking := by
  simp [State.adopt]

@[simp] theorem State.blockBay_booking (s : State) (b : BayNo) : (s.blockBay b).1.booking = s.booking := by
  unfold State.blockBay
  repeat' split
  all_goals simp

@[simp] theorem State.raiseFeed_booking (r s : State) : (r.raiseFeed s).booking = s.booking := by
  unfold State.raiseFeed
  split <;> simp

@[simp] theorem State.setCapTo_booking (s : State) (k : Nat) : (s.setCapTo k).booking = s.booking := by
  simp [State.setCapTo]

@[simp] theorem State.setLevelTo_booking (s : State) (c b f : Nat) : (s.setLevelTo c b f).booking = s.booking := by
  simp [State.setLevelTo, State.refall, apply_ite State.booking]

@[simp] theorem State.takeCandidate_booking (s : State) : s.takeCandidate.booking = s.booking := by
  simp [State.takeCandidate, apply_ite State.booking]

/-- Every other owner leaves the booking unit as it is (R151). -/
theorem IsOwner.leaves_booking {own : Owner} (ho : IsOwner own) (hn : ¬WritesBook own) (p : Port) (pl : List Byte)
    (s : State) : (own p pl s).1.booking = s.booking := by
  cases ho
  case book => exact absurd .book hn
  case cancelBooking => exact absurd .cancelBooking hn
  case setSlotClock => exact absurd .setSlotClock hn
  case setBands => exact absurd .setBands hn
  case start => exact absurd .start hn
  case queryBay => unfold ownQueryBay; (repeat' split) <;> rfl
  case queryTicket => unfold ownQueryTicket; (repeat' split) <;> rfl
  case queryPool => unfold ownQueryPool; (repeat' split) <;> rfl
  case queryBookings => unfold ownQueryBookings; (repeat' split) <;> rfl
  case queryBooking => unfold ownQueryBooking; (repeat' split) <;> rfl
  case queryPower => unfold ownQueryPower; (repeat' split) <;> rfl
  case queryConfig => unfold ownQueryConfig; (repeat' split) <;> rfl
  case readNotices => unfold ownReadNotices; (repeat' split) <;> rfl
  case openWindow => unfold ownOpenWindow; (repeat' split) <;> rfl
  case readWindow => unfold ownReadWindow; (repeat' split) <;> rfl
  case setBay => unfold ownSetBay; (repeat' split) <;> rfl
  case setPool => unfold ownSetPool; (repeat' split) <;> rfl
  case setTimers => unfold ownSetTimers; (repeat' split) <;> rfl
  case blockBay => unfold ownBlockBay; (repeat' split) <;> simp
  case unblockBay => unfold ownUnblockBay; (repeat' split) <;> simp
  case clearFault => unfold ownClearFault; (repeat' split) <;> simp
  case requestBay => unfold ownRequestBay; (repeat' split) <;> simp
  case adoptBay => unfold ownAdoptBay; (repeat' split) <;> simp
  case assignBay => unfold ownAssignBay; (repeat' split) <;> simp
  case cancelTicket => unfold ownCancelTicket; (repeat' split) <;> simp
  case acceptOffer => unfold ownAcceptOffer; (repeat' split) <;> simp
  case declineOffer => unfold ownDeclineOffer; (repeat' split) <;> simp
  case maskPool => unfold ownMaskPool; (repeat' split) <;> simp
  case unmaskPool => unfold ownUnmaskPool; (repeat' split) <;> simp
  case forceClose => unfold ownForceClose; (repeat' split) <;> simp
  case setCap => unfold ownSetCap; split <;> simp
  case setLevel => unfold ownSetLevel; split <;> simp
  case reconfigure => unfold ownReconfigure; (repeat' split) <;> simp [State.reconfigured_eq]
  case restart => unfold ownRestart; split <;> simp [State.restarted_eq]

/-! ### A booking is placed (R69, R70, R76) -/

/-- The live numbers with a booking placed among them, in some order (R70). -/
theorem State.liveBookings_of_joined {s t : State} {b : BayNo} {k : Booking}
    (hb : (t.bookings b).Perm (k :: s.bookings b)) (hc : ∀ c, c ≠ b → t.bookings c = s.bookings c) :
    t.liveBookings.Perm (k.number :: s.liveBookings) := by
  obtain ⟨front, back, hsplit⟩ := List.append_of_mem (show b ∈ allBays by simp [allBays])
  have hnodup : (front ++ b :: back).Nodup := hsplit ▸ List.nodup_finRange 48
  obtain ⟨hnot, -⟩ := List.nodup_cons.mp (List.nodup_middle.mp hnodup)
  rw [List.mem_append, not_or] at hnot
  have hsame : ∀ l : List BayNo, b ∉ l → l.flatMap (fun c => (t.bookings c).map (·.number)) =
      l.flatMap (fun c => (s.bookings c).map (·.number)) := fun l hl =>
    List.flatMap_congr fun c hm => by rw [hc c fun e => hl (e ▸ hm)]
  unfold State.liveBookings
  rw [hsplit, List.flatMap_append, List.flatMap_append, List.flatMap_cons, List.flatMap_cons, hsame front hnot.1,
    hsame back hnot.2]
  refine (List.Perm.append_left _ ((hb.map _).append_right _)).trans ?_
  exact List.perm_middle

theorem State.placeBooking_bookings (s : State) (b c : BayNo) (k : Booking) : (s.placeBooking b k).bookings c =
    if c = b then insertBooking s.offset k (s.bookings b) else s.bookings c :=
  s.setBookings_bookings b c _

theorem insertBooking_perm (offset : Booking → Int) (k : Booking) (l : List Booking) :
    (insertBooking offset k l).Perm (k :: l) := by
  obtain ⟨front, back, rfl, e, -⟩ := insertBooking_split offset k l
  rw [e]
  exact List.perm_middle

/-- The next booking number is not live and is 1 to 65535 (R70). -/
theorem BookFits.nextBooking {s : State} (h : BookFits s) :
    s.nextBooking ∉ s.liveBookings ∧ 1 ≤ s.nextBooking ∧ s.nextBooking ≤ 65535 := by
  obtain ⟨hsize, -, -, -, hcounter⟩ := h
  have hlen : s.liveBookings.length < 65535 := by
    unfold State.bookSize at hsize
    omega
  exact ⟨freeNumber_not_mem hcounter hlen, freeNumber_bounds _ _ hcounter⟩

/-- A booking that takes the next number is placed where the book and the bay's list have room (R68, R70). -/
theorem BookFits.placeBooking {s : State} (h : BookFits s) {b : BayNo} {k : Booking} (hk : k.number = s.nextBooking)
    (hbay : (s.bookings b).length < 6) (hbook : s.bookSize < 160) : BookFits (s.placeBooking b k) := by
  have hperm : (s.placeBooking b k).liveBookings.Perm (k.number :: s.liveBookings) :=
    State.liveBookings_of_joined (by rw [s.placeBooking_bookings, if_pos rfl]; exact insertBooking_perm _ _ _)
      fun c hc => by rw [s.placeBooking_bookings, if_neg hc]
  obtain ⟨hnew, hrange⟩ := h.nextBooking
  obtain ⟨-, hbays, hnodup, hnumbers, -⟩ := h
  refine ⟨?_, fun c => ?_, ?_, fun n hn => ?_, nextNumber_bounds k.number⟩
  · rw [State.bookSize, hperm.length_eq, List.length_cons]
    exact hbook
  · rw [s.placeBooking_bookings]
    split
    · rw [(insertBooking_perm _ _ _).length_eq, List.length_cons]
      omega
    · exact hbays c
  · exact hperm.nodup_iff.mpr (List.nodup_cons.mpr ⟨hk ▸ hnew, hnodup⟩)
  · rcases List.mem_cons.mp (hperm.subset hn) with rfl | hn
    · exact hk ▸ hrange
    · exact hnumbers n hn

/-- No booking of a bay shares a slot with a run of l slots from offset o (R75). -/
def State.slotsFree (s : State) (b : BayNo) (o : Int) (l : Nat) : Prop :=
  ∀ m ∈ s.bookings b, o + (l : Int) ≤ s.offset m ∨ s.offset m + (m.length : Int) ≤ o

/-- A booking that overlaps no booking of its bay stands between those that end before it and those that start after it
(R69). -/
theorem BookOrdered.insert_split {s : State} (h : BookOrdered s) (b : BayNo) {k : Booking} (hk : 1 ≤ k.length)
    (hfree : s.slotsFree b (s.offset k) k.length) :
    ∃ front back, s.bookings b = front ++ back ∧
      insertBooking s.offset k (s.bookings b) = front ++ k :: back ∧
      (∀ m ∈ front, s.offset m + (m.length : Int) ≤ s.offset k) ∧
      ∀ m ∈ back, s.offset k + (k.length : Int) ≤ s.offset m := by
  obtain ⟨hrange, horder⟩ := h b
  obtain ⟨front, back, hsplit, e, hfront, hback⟩ := insertBooking_split s.offset k (s.bookings b)
  rw [State.slotsFree, hsplit, List.forall_mem_append] at hfree
  rw [hsplit] at hrange horder
  refine ⟨front, back, hsplit, e, fun m hm => ?_, fun m hm => ?_⟩
  · have := hfront m hm
    have := hfree.1 m hm
    omega
  · obtain ⟨-, horder, -⟩ := List.pairwise_append.mp horder
    cases back with
    | nil => cases hm
    | cons first rest =>
      have hfirst := hback first rfl
      obtain ⟨-, -, hlen, -⟩ := hrange first (by simp)
      have hafter := hfree.2 first (by simp)
      rcases List.mem_cons.mp hm with rfl | hm
      · omega
      · have := (List.pairwise_cons.mp horder).1 m hm
        omega

theorem BookOrdered.placeBooking {s : State} (h : BookOrdered s) {b : BayNo} {k : Booking}
    (ho : 1 ≤ s.offset k ∧ s.offset k ≤ 95) (hk : 1 ≤ k.length ∧ k.length ≤ 16)
    (hfree : s.slotsFree b (s.offset k) k.length) :
    BookOrdered (s.placeBooking b k) := by
  intro c
  have hoffset : (s.placeBooking b k).offset = s.offset := rfl
  rw [s.placeBooking_bookings, hoffset]
  split
  · obtain ⟨hrange, horder⟩ := h b
    refine ⟨fun m hm => ?_, ?_⟩
    · rcases List.mem_cons.mp ((insertBooking_perm _ _ _).subset hm) with rfl | hm
      · exact ⟨ho.1, ho.2, hk⟩
      · exact hrange m hm
    · obtain ⟨front, back, hsplit, e, hfront, hback⟩ := h.insert_split b hk.1 hfree
      rw [hsplit] at horder
      obtain ⟨hf, hb, hfb⟩ := List.pairwise_append.mp horder
      rw [e]
      refine List.pairwise_append.mpr ⟨hf, List.pairwise_cons.mpr ⟨hback, hb⟩, fun j hj m hm => ?_⟩
      rcases List.mem_cons.mp hm with rfl | hm
      · exact hfront j hj
      · exact hfb j hj m hm
  · exact h c

/-- Two runs that share no slot (R75). -/
theorem runsOverlap_eq_false {o o' : Int} {l l' : Nat} :
    runsOverlap o l o' l' = false ↔ o + (l : Int) ≤ o' ∨ o' + (l' : Int) ≤ o := by
  unfold runsOverlap
  rw [Bool.and_eq_false_iff, decide_eq_false_iff_not, decide_eq_false_iff_not]
  omega

theorem State.firstOverlap_eq_none {s : State} {b : BayNo} {o : Int} {l : Nat} :
    s.firstOverlap b o l = none ↔ s.slotsFree b o l := by
  simp only [State.slotsFree, State.firstOverlap, List.find?_eq_none, Bool.not_eq_true, runsOverlap_eq_false]

/-- The offsets that have a band are 0 to 95 (R73). -/
theorem Bands.bandOf_range {p : Bands} {o : Int} {band : Band} (h : p.bandOf o = some band) : 0 ≤ o ∧ o ≤ 95 := by
  unfold Bands.bandOf at h
  split at h
  · cases h
  · omega

/-- The checks of BOOK that are passed by a request that they do not refuse (R75). -/
theorem State.bookRefusal_none {s : State} {p : Port} {b : BayNo} {start : SlotNo} {len : Nat}
    (h : s.bookRefusal p b start len = none) :
    (1 ≤ offsetFrom s.booking.slotNow start ∧ offsetFrom s.booking.slotNow start ≤ 95) ∧
      s.firstOverlap b (offsetFrom s.booking.slotNow start) len = none ∧
      (s.bookings b).length < 6 ∧ s.bookSize < 160 := by
  unfold State.bookRefusal at h
  dsimp only at h
  split at h
  · cases h
  split at h
  · cases h
  split at h
  swap
  · cases h
  split at h
  · cases h
  split at h
  · cases h
  · rename_i _ _ hband _ _ hfree hroom
    have := Bands.bandOf_range hband
    exact ⟨by omega, hfree, by omega, by omega⟩

/-- BOOK places a booking that takes the next number and has passed the checks, or changes nothing (R75, R76). -/
theorem ownBook_cases (p : Port) (pl : List Byte) (s : State) : (ownBook p pl s).1 = s ∨
    ∃ b k, (ownBook p pl s).1 = s.placeBooking b k ∧ k.number = s.nextBooking ∧ (1 ≤ k.length ∧ k.length ≤ 16) ∧
      s.bookRefusal p b k.start k.length = none := by
  unfold ownBook
  dsimp only
  split
  swap
  · exact .inl rfl
  split
  · exact .inl rfl
  split
  · exact .inl rfl
  split
  · exact .inl rfl
  split
  · exact .inl rfl
  split
  · exact .inl rfl
  · rename_i b _ hlen _ hnone
    exact .inr ⟨b, _, rfl, rfl, by simp only [State.newBooking]; omega, hnone⟩

end Sys2Proof.Machine
end

