-- ==== Sys2Proof/Proofs/BookKept.lean ====
section
/-! SUPPORT. The slot clock and the slot expiry as the book sees them (R71, R72, R81, R85), and the rules of the book
kept by every step (R68 to R70): O56. -/

namespace Sys2Proof.Machine

/-! ### The slot clock is set (R72) -/

theorem offsetFrom_of_nonneg {now start : SlotNo} (h : 0 ≤ offsetFrom now start) :
    offsetFrom now start = ((start - now).toNat : Int) := by
  have hlt := (start - now).isLt
  unfold offsetFrom at h ⊢
  rw [BitVec.toInt_eq_toNat_cond] at h ⊢
  split
  · rfl
  · rw [if_neg (by assumption)] at h
    omega

/-- Two starts that lie ahead of either slot are as far apart from both (R71). -/
theorem offsetFrom_distance {now now' x y : SlotNo} (hx : 0 ≤ offsetFrom now x) (hy : 0 ≤ offsetFrom now y)
    (hx' : 0 ≤ offsetFrom now' x ∧ offsetFrom now' x ≤ 95) (hy' : 0 ≤ offsetFrom now' y ∧ offsetFrom now' y ≤ 95)
    (hle : offsetFrom now x ≤ 95 ∧ offsetFrom now y ≤ 95) :
    offsetFrom now' y - offsetFrom now' x = offsetFrom now y - offsetFrom now x := by
  have ex := offsetFrom_of_nonneg hx
  have ey := offsetFrom_of_nonneg hy
  have ex' := offsetFrom_of_nonneg hx'.1
  have ey' := offsetFrom_of_nonneg hy'.1
  rw [BitVec.toNat_sub] at ex ey ex' ey'
  omega

theorem State.firstOutside_eq_none {s : State} {now : SlotNo} : s.firstOutside now = none ↔
    ∀ b, ∀ k ∈ s.bookings b, 1 ≤ offsetFrom now k.start ∧ offsetFrom now k.start ≤ 95 := by
  simp [State.firstOutside, allBays, List.findSome?_eq_none_iff]

/-- A slot number that leaves every booking within the horizon keeps their order (R69, R72). -/
theorem BookOrdered.setClock {s : State} (h : BookOrdered s) {now : SlotNo} (hnow : s.firstOutside now = none)
    (seconds : Nat) : BookOrdered (s.setClock now seconds) := by
  rw [State.firstOutside_eq_none] at hnow
  intro b
  obtain ⟨hrange, horder⟩ := h b
  refine ⟨fun k hk => ?_, horder.imp_of_mem fun {j k} hj hk hjk => ?_⟩
  · obtain ⟨-, -, hlen⟩ := hrange k hk
    exact ⟨(hnow b k hk).1, (hnow b k hk).2, hlen⟩
  obtain ⟨hj1, hj95, -⟩ := hrange j hj
  obtain ⟨hk1, hk95, -⟩ := hrange k hk
  have hjn := hnow b j hj
  have hkn := hnow b k hk
  unfold State.offset at hj1 hj95 hk1 hk95 hjk
  have := offsetFrom_distance (now := s.booking.slotNow) (now' := now) (x := j.start) (y := k.start) (by omega)
    (by omega) ⟨by omega, hjn.2⟩ ⟨by omega, hkn.2⟩ ⟨hj95, hk95⟩
  show offsetFrom now j.start + (j.length : Int) ≤ offsetFrom now k.start
  omega

/-- SET SLOT CLOCK sets a slot number that leaves every booking within the horizon, or changes nothing (R72). -/
theorem ownSetSlotClock_cases (p : Port) (pl : List Byte) (s : State) : (ownSetSlotClock p pl s).1 = s ∨
    ∃ now seconds, (ownSetSlotClock p pl s).1 = s.setClock now seconds ∧ s.firstOutside now = none := by
  unfold ownSetSlotClock
  dsimp only
  split
  swap
  · exact .inl rfl
  split
  · exact .inl rfl
  split
  · exact .inl rfl
  · rename_i hnone
    exact .inr ⟨_, _, rfl, hnone⟩

/-! ### The due bookings leave the book (R81, R85) -/

/-- A bay's bookings without the one that is due (R81). -/
def State.undue (s : State) (b : BayNo) : List Booking :=
  match s.due b with
  | some k => (s.bookings b).filter (fun m => m.number != k.number)
  | none => s.bookings b

theorem State.undue_sublist (s : State) (b : BayNo) : (s.undue b).Sublist (s.bookings b) := by
  unfold State.undue
  split
  · exact List.filter_sublist
  · exact .refl _

/-- Work at one bay after another takes each bay's due booking from the book and leaves the rest of the booking unit. -/
structure ClearsDue (f : State → BayNo → State) : Prop where
  bookings : ∀ u b c, (f u b).bookings c = if c = b then u.undue b else u.bookings c
  frame : ∀ u b, (f u b).booking = { u.booking with book := (f u b).booking.book }

/-- The booking unit after work at a bay that drops the due booking, or does nothing where none is due. -/
theorem ClearsDue.of_booking {f : State → BayNo → State}
    (hsome : ∀ u b k, u.due b = some k → (f u b).booking = (u.dropBooking b k.number).booking)
    (hnone : ∀ u b, u.due b = none → (f u b).booking = u.booking) : ClearsDue f where
  bookings u b c := by
    unfold State.undue
    cases hd : u.due b with
    | some k =>
      rw [State.bookings_of_book (s := u.dropBooking b k.number) (by rw [hsome u b k hd])]
      exact u.setBookings_bookings b c _
    | none =>
      rw [State.bookings_of_book (s := u) (by rw [hnone u b hd])]
      split
      · subst c
        rfl
      · rfl
  frame u b := by
    cases hd : u.due b with
    | some k =>
      rw [hsome u b k hd]
      rfl
    | none => rw [hnone u b hd]

theorem clearsDue_activateDue : ClearsDue State.activateDue :=
  .of_booking (fun u b k hd => by rw [State.activateDue_of_some hd, State.activate_booking])
    fun u b hd => by rw [State.activateDue_of_none hd]

theorem clearsDue_dropDue : ClearsDue State.dropDue :=
  .of_booking (fun u b k hd => by simp [State.dropDue, hd]) fun u b hd => by simp [State.dropDue, hd]

/-- Each of the bays loses its due booking as it stood when the work began (R81, R85). -/
theorem ClearsDue.foldl {f : State → BayNo → State} (hf : ClearsDue f) (l : List BayNo) (hl : l.Nodup) (s : State) :
    (∀ c, (l.foldl f s).bookings c = if c ∈ l then s.undue c else s.bookings c) ∧
      (l.foldl f s).booking = { s.booking with book := (l.foldl f s).booking.book } := by
  induction l generalizing s with
  | nil => exact ⟨fun c => by simp, rfl⟩
  | cons b l ih =>
    obtain ⟨hb, hl⟩ := List.nodup_cons.mp hl
    obtain ⟨hbookings, hframe⟩ := ih hl (f s b)
    refine ⟨fun c => ?_, ?_⟩
    · rw [List.foldl_cons, hbookings]
      by_cases hc : c = b
      · subst c
        rw [if_neg hb, hf.bookings, if_pos rfl, if_pos List.mem_cons_self]
      · have hsame : (f s b).bookings c = s.bookings c := by rw [hf.bookings, if_neg hc]
        have hundue : (f s b).undue c = s.undue c := by
          unfold State.undue
          rw [State.due_congr hsame (by rw [hf.frame]), hsame]
        rw [hundue, hsame]
        simp [hc]
    · rw [List.foldl_cons, hframe, hf.frame]

/-- The booking unit after a slot expiry: the clock has stepped, the due bookings have left the book, and nothing else
has changed in it (R71, R81, R85). -/
theorem State.expireSlot_book (s : State) : (∀ b, s.expireSlot.bookings b = s.stepSlot.undue b) ∧
    s.expireSlot.booking = { s.stepSlot.booking with book := s.expireSlot.booking.book } := by
  have hall : ∀ {f}, ClearsDue f → (∀ b, (allBays.foldl f s.stepSlot).bookings b = s.stepSlot.undue b) ∧
      (allBays.foldl f s.stepSlot).booking =
        { s.stepSlot.booking with book := (allBays.foldl f s.stepSlot).booking.book } := fun hf => by
    obtain ⟨hbookings, hframe⟩ := hf.foldl allBays (List.nodup_finRange 48) s.stepSlot
    exact ⟨fun b => by rw [hbookings, if_pos (by simp [allBays])], hframe⟩
  by_cases hr : s.opState = .run
  · have hmatch : s.expireSlot.booking = (allBays.foldl State.activateDue s.stepSlot).booking := by
      rw [State.expireSlot_of_run hr, (State.matched_matchPools _).frame]
    obtain ⟨hbookings, hframe⟩ := hall clearsDue_activateDue
    exact ⟨fun b => (State.bookings_of_book (by rw [hmatch]) b).trans (hbookings b), by rw [hmatch, hframe]⟩
  · have hdrop : s.expireSlot = allBays.foldl State.dropDue s.stepSlot := by rw [State.expireSlot, if_neg hr]
    rw [hdrop]
    exact hall clearsDue_dropDue

theorem State.expireSlot_thins (s : State) : s.stepSlot.Thins s.expireSlot := by
  obtain ⟨hbookings, hframe⟩ := s.expireSlot_book
  exact ⟨by rw [hframe], by rw [hframe], fun b => hbookings b ▸ s.stepSlot.undue_sublist b⟩

/-- What is left of a bay's list after the step of the slot clock stands ahead of the new slot (R69, R81). -/
theorem BookOrdered.offset_of_undue {s : State} (h : BookOrdered s) {b : BayNo} {m : Booking}
    (hm : m ∈ s.stepSlot.undue b) : s.stepSlot.offset m ≠ 0 := by
  unfold State.undue at hm
  rcases h.due_cases b with ⟨hd, hnone⟩ | ⟨k, back, hb, hd, -, hback⟩ <;> rw [hd] at hm
  · exact hnone m hm
  · obtain ⟨hmem, hne⟩ := List.mem_filter.mp hm
    have hmem : m ∈ k :: back := hb ▸ hmem
    rcases List.mem_cons.mp hmem with rfl | hmem
    · simp at hne
    · exact hback m hmem

/-- The bookings that are not due come one slot nearer and keep their order (R69, R71). -/
theorem BookOrdered.expireSlot {s : State} (h : BookOrdered s) : BookOrdered s.expireSlot := by
  have hthins := s.expireSlot_thins
  intro b
  obtain ⟨hrange, horder⟩ := h b
  have hnear : ∀ k ∈ s.bookings b, s.stepSlot.offset k = s.offset k - 1 := fun k hk =>
    State.stepSlot_offset (hrange k hk).1
  rw [hthins.offset, s.expireSlot_book.1]
  refine ⟨fun k hk => ?_, (horder.sublist (s.stepSlot.undue_sublist b)).imp_of_mem fun {j k} hj hk hjk => ?_⟩
  · have hmem := (s.stepSlot.undue_sublist b).subset hk
    have hahead := h.offset_of_undue hk
    obtain ⟨h1, h95, hlen⟩ := hrange k hmem
    rw [hnear k hmem] at hahead ⊢
    exact ⟨by omega, by omega, hlen⟩
  · rw [hnear j ((s.stepSlot.undue_sublist b).subset hj), hnear k ((s.stepSlot.undue_sublist b).subset hk)]
    omega

/-! ### The rules of the book are kept (R68 to R70) -/

theorem State.dropUnenrolled_thins (s : State) (b : BayNo) : s.Thins (s.dropUnenrolled b) := by
  unfold State.dropUnenrolled
  split
  · exact .refl s
  · exact .foldl _ (fun k hu => (hu.dropBooking b k.number).frame) (.refl s) _

theorem State.startUp_thins (s : State) : s.Thins s.startUp := by
  have h : s.Thins (allBays.foldl State.dropUnenrolled s) :=
    .foldl _ (fun b hu => hu.trans (State.dropUnenrolled_thins _ b)) (.refl s) _
  exact h.frame (by simp [State.startUp])

/-- A rule of the book that stands while the book is thinned is kept by every event, where BOOK, SET SLOT CLOCK and the
slot expiry keep it. -/
theorem keptByEvents_of_thins {P : State → Prop} (thins : ∀ {s t : State}, s.Thins t → P s → P t)
    (powerOn : ∀ feed, P (State.powerOn feed)) (book : ∀ p pl s, P s → P (ownBook p pl s).1)
    (setSlotClock : ∀ p pl s, P s → P (ownSetSlotClock p pl s).1) (expireSlot : ∀ s, P s → P s.expireSlot) :
    KeptByEvents P where
  outside s _ _ _ h := thins (s := s) (.of_booking rfl) h
  owner own ho p pl s h := by
    by_cases hw : WritesBook own
    · cases hw with
      | book => exact book p pl s h
      | setSlotClock => exact setSlotClock p pl s h
      | cancelBooking =>
        have hs := State.Thins.refl s
        refine thins ?_ h
        unfold ownCancelBooking
        dsimp only
        split
        · split
          · exact hs
          · rename_i b k _
            have hdrop := hs.dropBooking b k.number
            repeat' split
            · exact hs
            · exact hdrop.frame
            · exact hdrop
        · exact hs
      | setBands =>
        refine thins ?_ h
        unfold ownSetBands
        dsimp only
        repeat' split
        all_goals exact ⟨rfl, rfl, fun _ => .refl _⟩
      | start =>
        refine thins ?_ h
        unfold ownStart
        repeat' split
        all_goals first | exact .refl s | exact s.startUp_thins
    · exact thins (.of_booking (ho.leaves_booking hw p pl s)) h
  bus s _ _ _ h := thins (s := s) (.of_booking rfl) h
  enterNext _ _ _ h := thins (.of_booking (by simp)) h
  powerOn := powerOn
  tick s h := by
    refine thins ?_ h
    unfold State.tick
    dsimp only
    split <;> exact ⟨rfl, rfl, fun _ => .refl _⟩
  feedCodeIs _ _ h := thins (.of_booking (by simp)) h
  takeCandidate _ h := thins (.of_booking (by simp)) h
  expireHold _ _ _ _ _ _ h := thins (.of_booking (by simp)) h
  giveUpOffer _ _ _ _ _ _ h := thins (.of_booking (by simp)) h
  closeLost _ _ _ h := thins (.of_booking (by simp)) h
  expireSlot := expireSlot
  takeReply s b r _ h := thins (s.takeReply_thins b r) h
  takeBusy _ _ _ h := thins (.of_booking (by simp)) h
  takeSilence _ _ _ h := thins (.of_booking (by simp)) h

theorem bookFits_keptByEvents : KeptByEvents BookFits := by
  refine keptByEvents_of_thins (fun h => h.bookFits) bookFits_powerOn (fun p pl s h => ?_) (fun p pl s h => ?_)
    fun s h => s.expireSlot_thins.bookFits h
  · rcases ownBook_cases p pl s with e | ⟨b, k, e, hk, -, hnone⟩ <;> rw [e]
    · exact h
    · obtain ⟨-, -, hbay, hbook⟩ := State.bookRefusal_none hnone
      exact h.placeBooking hk hbay hbook
  · rcases ownSetSlotClock_cases p pl s with e | ⟨now, seconds, e, -⟩ <;> rw [e] <;> exact h

theorem bookOrdered_keptByEvents : KeptByEvents BookOrdered := by
  refine keptByEvents_of_thins (fun h => h.bookOrdered) bookOrdered_powerOn (fun p pl s h => ?_) (fun p pl s h => ?_)
    fun s h => h.expireSlot
  · rcases ownBook_cases p pl s with e | ⟨b, k, e, -, hlen, hnone⟩ <;> rw [e]
    · exact h
    · obtain ⟨hoffset, hfree, -⟩ := State.bookRefusal_none hnone
      exact h.placeBooking hoffset hlen (State.firstOverlap_eq_none.mp hfree)
  · rcases ownSetSlotClock_cases p pl s with e | ⟨now, seconds, e, hnow⟩ <;> rw [e]
    · exact h
    · exact h.setClock hnow seconds

/-- Settles O56: the numbers and the capacity, and the order, each by its own induction over what an event can do. -/
theorem bookKept : Obligations.BookKept := by
  unfold Obligations.BookKept
  exact fun s t he => ⟨fun h => bookFits_keptByEvents.step h he, fun h => bookOrdered_keptByEvents.step h he⟩

end Sys2Proof.Machine
end

