-- ==== Sys2Proof/Proofs/BookingRequests.lean ====
section
/-! SUPPORT. The requests of the booking unit that change it (R72, R74 to R77): BOOK with its checks, CANCEL BOOKING,
SET SLOT CLOCK and SET BANDS: O24 to O28. -/

namespace Sys2Proof.Machine

/-! ### The rows of the booking commands -/

theorem book_isRequest (p : Port) (x s3 s2 s1 s0 len z : Byte) :
    IsRequest (.book p [x, s3, s2, s1, s0, len, z]) p infoBook ownBook [x, s3, s2, s1, s0, len, z] :=
  ⟨fun _ => rfl, by simp, fun t P => ownBook_withPorts t P p _⟩

theorem cancelBooking_isRequest (p : Port) (h l : Byte) :
    IsRequest (.cancelBooking p [h, l]) p infoCancelBooking ownCancelBooking [h, l] :=
  ⟨fun _ => rfl, by simp, fun t P => ownCancelBooking_withPorts t P p _⟩

theorem setSlotClock_isRequest (s3 s2 s1 s0 h l : Byte) : IsRequest (.setSlotClock .s [s3, s2, s1, s0, h, l]) .s
    infoSetSlotClock ownSetSlotClock [s3, s2, s1, s0, h, l] :=
  ⟨fun _ => rfl, by simp, fun t P => ownSetSlotClock_withPorts t P .s _⟩

theorem setBands_isRequest (p : Port) (f o t : Byte) :
    IsRequest (.setBands p [f, o, t]) p infoSetBands ownSetBands [f, o, t] :=
  ⟨fun _ => rfl, by simp, fun u P => ownSetBands_withPorts u P p _⟩

/-- In CONFIG a request of K or N is turned away, but for the reading commands that the role may use (R148). -/
theorem IsRequest.notReady {c : Instr} {p : Port} {i : CommandInfo} {own : Owner} {pl : List Byte} {s : State}
    (h : IsRequest c p i own pl) (hs : s.ready p) (hm : i.mayUse p = true) (hp : p ≠ .s) (hc : s.opState = .config)
    (hr : i.reading = false) : s.turnedAway c p .notReady :=
  State.request_turnedAway (h.row s) hs h.fits (by simp [State.portRefusal, hm, hp, hc, hr])

theorem infoBook_mayUse (p : Port) : infoBook.mayUse p = true := by cases p <;> rfl

theorem infoCancelBooking_mayUse (p : Port) : infoCancelBooking.mayUse p = true := by cases p <;> rfl

section Rows

variable {s : State}

theorem book_answered {p : Port} {x s3 s2 s1 s0 len z : Byte} (hs : s.ready p) (hp : p = .s ∨ s.opState = .run)
    {u : State} {r : Reply} (e : ownBook p [x, s3, s2, s1, s0, len, z] s = (u, r)) (hc : r.clearsOverrun = false)
    (hb : u.bus = s.bus) : ∃ t, exec (.book p [x, s3, s2, s1, s0, len, z]) s = .next t ∧
      s.answeredWith u t p r.status r.payload (r.clamped && r.status.carriedOut) :=
  (book_isRequest p x s3 s2 s1 s0 len z).answered hs
    (State.portRefusal_none (infoBook_mayUse p) (hp.imp_right .inl) (by simp [infoBook])) rfl e hc hb

theorem book_refused {p : Port} {x s3 s2 s1 s0 len z : Byte} (hs : s.ready p) (hp : p = .s ∨ s.opState = .run)
    {st : Status} {fields : List Byte}
    (e : ownBook p [x, s3, s2, s1, s0, len, z] s = (s, .refuseWith st fields)) :
    s.refusedBy (.book p [x, s3, s2, s1, s0, len, z]) p st fields :=
  book_answered hs hp e rfl rfl

theorem cancelBooking_answered {p : Port} {h l : Byte} (hs : s.ready p) (hp : p = .s ∨ s.opState = .run) {u : State}
    {r : Reply} (e : ownCancelBooking p [h, l] s = (u, r)) (hc : r.clearsOverrun = false) (hb : u.bus = s.bus) :
    ∃ t, exec (.cancelBooking p [h, l]) s = .next t ∧
      s.answeredWith u t p r.status r.payload (r.clamped && r.status.carriedOut) :=
  (cancelBooking_isRequest p h l).answered hs
    (State.portRefusal_none (infoCancelBooking_mayUse p) (hp.imp_right .inl) (by simp [infoCancelBooking])) rfl e hc hb

theorem setSlotClock_answered {s3 s2 s1 s0 h l : Byte} (hs : s.ready .s) {u : State} {r : Reply}
    (e : ownSetSlotClock .s [s3, s2, s1, s0, h, l] s = (u, r)) (hc : r.clearsOverrun = false) (hb : u.bus = s.bus) :
    ∃ t, exec (.setSlotClock .s [s3, s2, s1, s0, h, l]) s = .next t ∧
      s.answeredWith u t .s r.status r.payload (r.clamped && r.status.carriedOut) :=
  (setSlotClock_isRequest s3 s2 s1 s0 h l).answered hs
    (State.portRefusal_none rfl (.inl rfl) (by simp [infoSetSlotClock])) rfl e hc hb

theorem setBands_answered {f o t : Byte} (hs : s.ready .s) {u : State} {r : Reply}
    (e : ownSetBands .s [f, o, t] s = (u, r)) (hc : r.clearsOverrun = false) (hb : u.bus = s.bus) :
    ∃ t', exec (.setBands .s [f, o, t]) s = .next t' ∧
      s.answeredWith u t' .s r.status r.payload (r.clamped && r.status.carriedOut) :=
  (setBands_isRequest .s f o t).answered hs (State.portRefusal_none rfl (.inl rfl) (by simp [infoSetBands])) rfl e hc hb

end Rows

/-! ### SET BANDS (R73, R74) -/

theorem Bands.valid_iff (p : Bands) : p.valid = true ↔ p.frozen + p.opened + p.far = 96 ∧ 1 ≤ p.frozen ∧ p.frozen ≤ 8 ∧
    40 ≤ p.opened ∧ p.far ≤ 48 := by
  simp [Bands.valid, and_assoc]

/-- Settles O28: the role, the operating state, then the conditions on the sizes. -/
theorem setBandsTakesThePartition : Obligations.SetBandsTakesThePartition := by
  unfold Obligations.SetBandsTakesThePartition
  intro s f o t hs good c
  have hvalid : ({ frozen := f.toNat, opened := o.toNat, far := t.toNat } : Bands).valid = true ↔ good :=
    Bands.valid_iff _
  refine ⟨fun p hp hready => (setBands_isRequest p f o t).noRight hready ?_, fun hr => ?_, fun hc hbad => ?_,
    fun hc hgood => ?_⟩
  · cases p with
    | s => exact absurd rfl hp
    | k | n => rfl
  · exact setBands_answered hs (r := .refuse .wrongState) (by simp [ownSetBands, hr]) rfl rfl
  · exact setBands_answered hs (r := .refuse .badArg) (by simp [ownSetBands, hc, mt hvalid.mp hbad]) rfl rfl
  · exact setBands_answered hs (r := .ok []) (by simp [ownSetBands, hc, hvalid.mpr hgood]) rfl rfl

/-! ### SET SLOT CLOCK (R72) -/

/-- The first of the records of one kind for which a search finds something. -/
theorem findSome?_finRange {α : Type} {n : Nat} {f : Fin n → Option α} {i : Fin n} {v : α} (h : f i = some v)
    (hlt : ∀ j < i, f j = none) : (List.finRange n).findSome? f = some v := by
  refine List.findSome?_eq_some_iff.mpr ⟨(List.finRange n).take i, i, (List.finRange n).drop (i + 1), ?_, h, ?_⟩
  · have hdrop := List.drop_eq_getElem_cons (l := List.finRange n) (i := i) (by simp)
    rw [List.getElem_finRange] at hdrop
    exact (List.take_append_drop i _).symm.trans (congrArg _ hdrop)
  · intro j hj
    obtain ⟨m, hm, rfl⟩ := List.mem_take_iff_getElem.mp hj
    refine hlt _ ?_
    rw [List.getElem_finRange]
    exact Fin.mk_lt_of_lt_val (hm.trans_le (Nat.min_le_left _ _))

theorem find?_middle {α : Type} {f : α → Bool} {front back : List α} {k : α} (hfront : ∀ m ∈ front, f m = false)
    (hk : f k = true) : (front ++ k :: back).find? f = some k := by
  rw [List.find?_append, List.find?_eq_none.mpr (by simpa using hfront), List.find?_cons_of_pos hk, Option.none_or]

/-- Settles O27: the operating state, then the first booking that would leave the horizon. -/
theorem setSlotClockSetsTheClock : Obligations.SetSlotClockSetsTheClock := by
  unfold Obligations.SetSlotClockSetsTheClock
  intro s s3 s2 s1 s0 h l hs now stays c
  refine ⟨fun hr => ?_, fun hc b front k back hlt hb hfront hk => ?_, fun hc hall => ?_⟩
  · exact setSlotClock_answered hs (r := .refuse .wrongState) (by simp [ownSetSlotClock, hr]) rfl rfl
  · have hin : ∀ m, stays m →
        (decide (offsetFrom now m.start < 1) || decide (95 < offsetFrom now m.start)) = false := by
      rintro m ⟨h1, h95⟩
      simp [h1, h95]
    have hout : (decide (offsetFrom now k.start < 1) || decide (95 < offsetFrom now k.start)) = true := by
      by_contra hno
      exact hk (by simpa using hno)
    have hfirst : s.firstOutside now = some k :=
      findSome?_finRange (i := b) (by rw [hb]; exact find?_middle (fun m hm => hin m (hfront m hm)) hout) fun a ha =>
        List.find?_eq_none.mpr fun m hm => by simp only [hin m (hlt a ha m hm), Bool.false_eq_true, not_false_eq_true]
    exact setSlotClock_answered hs (r := .refuseWith .wrongState (u16 k.number))
      (by simp [ownSetSlotClock, hc, hfirst, now]) rfl rfl
  · have hnone : s.firstOutside (BitVec.ofNat 32 (of32 s3 s2 s1 s0)) = none := State.firstOutside_eq_none.mpr hall
    have hclamped : (decide (899 < of16 h l) && Status.ok.carriedOut) = decide (899 < of16 h l) := Bool.and_true _
    rw [← hclamped]
    exact setSlotClock_answered hs (u := s.setClock now (min (of16 h l) 899))
      (r := .okClamped [] (decide (899 < of16 h l)))
      (by simp only [ownSetSlotClock, hc, reduceCtorEq, if_false, now, hnone]) rfl rfl

/-! ### CANCEL BOOKING (R77) -/

/-- A live booking is the only one of its number (R70). -/
theorem BookFits.findBooking {s : State} (h : BookFits s) {b : BayNo} {k : Booking} (hk : k ∈ s.bookings b) :
    s.findBooking k.number = some (b, k) := by
  obtain ⟨-, -, hnodup, -⟩ := h
  obtain ⟨hbay, hapart⟩ := List.nodup_flatMap.mp hnodup
  have hself : (s.bookings b).find? (fun m => m.number == k.number) = some k := by
    cases e : (s.bookings b).find? (fun m => m.number == k.number) with
    | none => exact absurd (List.find?_eq_none.mp e k hk) (by simp)
    | some m =>
      rw [List.inj_on_of_nodup_map (hbay b (by simp [allBays])) (List.mem_of_find?_eq_some e) hk
        (by simpa using List.find?_some e)]
  refine findSome?_finRange (i := b) (by rw [hself]; rfl) fun a ha => ?_
  have hnot : (s.bookings a).find? (fun m => m.number == k.number) = none := List.find?_eq_none.mpr fun m hm hn => by
    have hdisjoint := List.pairwise_iff_getElem.mp hapart a b (by simp [allBays]) (by simp [allBays]) ha
    simp only [allBays, List.getElem_finRange, Fin.cast_mk, Fin.eta] at hdisjoint
    exact hdisjoint (List.mem_map_of_mem hm) (by simpa [beq_iff_eq.mp hn] using ⟨k, hk, rfl⟩)
  rw [hnot]
  rfl

theorem BookFits.live_range {s : State} (h : BookFits s) {b : BayNo} {k : Booking} (hk : k ∈ s.bookings b) :
    1 ≤ k.number ∧ k.number ≤ 65535 := by
  obtain ⟨-, -, -, hrange, -⟩ := h
  exact hrange _ (List.mem_flatMap.mpr ⟨b, by simp [allBays], List.mem_map_of_mem hk⟩)

theorem Bands.bandOf_opened (p : Bands) (o : Int) : p.bandOf o = some .opened ↔
    (p.frozen : Int) ≤ o ∧ o < p.frozen + p.opened ∧ 0 ≤ o ∧ o ≤ 95 := by
  unfold Bands.bandOf
  repeat' split
  all_goals simp; omega

/-- Settles O26: the number, the owner and the band, then the removal. -/
theorem cancelBookingRemoves : Obligations.CancelBookingRemoves := by
  unfold Obligations.CancelBookingRemoves
  intro s p h l hs refused
  refine ⟨fun hp hc => (cancelBooking_isRequest p h l).notReady hs (infoCancelBooking_mayUse p) hp hc rfl,
    fun hp => ⟨fun hno => ?_, ?_⟩⟩
  · have hown : s.ownBooking p (of16 h l) = .error .noSuch := by
      rcases hno with e | e
      · simp [State.ownBooking, e]
      · simp [State.ownBooking, State.findBooking_none e]
    exact cancelBooking_answered hs hp (r := .refuse .noSuch) (by simp [ownCancelBooking, hown]) rfl rfl
  · intro b k hk hfits hnum inOpen
    have hpos : of16 h l ≠ 0 := by
      have := (hfits.live_range hk).1
      omega
    have hfound := State.ownBooking_of (p := p) hpos (hnum ▸ hfits.findBooking hk)
    have hown : p = .s ∨ k.origin = p → s.ownBooking p (of16 h l) = .ok (b, k) := fun ho => by
      rw [hfound, if_neg (by tauto)]
    have hband := s.booking.bands.bandOf_opened (s.offset k)
    refine ⟨fun hps ho => ?_, fun hpn ho hout => ?_, ?_⟩
    · exact cancelBooking_answered hs hp (r := .refuse .notOwner) (by simp [ownCancelBooking, hfound, hps, ho]) rfl rfl
    · exact cancelBooking_answered hs hp (r := .refuse .band) (by
        simp only [ownCancelBooking, hown (.inr (ho.trans hpn.symm)),
          if_pos (And.intro hpn (mt hband.mp hout))]) rfl rfl
    · intro hmay u
      have hinBand : ¬(p = .n ∧ s.booking.bands.bandOf (s.offset k) ≠ some .opened) := by
        rintro ⟨rfl, hout⟩
        rcases hmay with e | ⟨-, e | hin⟩
        · cases e
        · cases e
        · exact hout (hband.mpr hin)
      refine cancelBooking_answered hs hp (r := .ok []) ?_ rfl ?_
      · simp only [ownCancelBooking, hown (hmay.imp_right And.left), if_neg hinBand]
        rfl
      · split
        · rw [State.matchRun_bus]
        · rfl

/-! ### The checks of BOOK (R75) -/

theorem Bands.bandOf_eq_none {p : Bands} {o : Int} (h : o < 0 ∨ 95 < o) : p.bandOf o = none := if_pos h

theorem Bands.bandOf_frozen (p : Bands) (o : Int) : p.bandOf o = some .frozen ↔ o < p.frozen ∧ 0 ≤ o ∧ o ≤ 95 := by
  unfold Bands.bandOf
  repeat' split
  all_goals simp; omega

theorem mayBook_k {band : Band} : mayBook .k band = true ↔ band ≠ .frozen := by cases band <;> decide

theorem mayBook_n {band : Band} : mayBook .n band = true ↔ band = .opened := by cases band <;> decide

/-- An offset within the horizon has a band, and each role its bands (R73, R75). -/
theorem Bands.mayBook_within (p : Bands) (q : Port) {o : Int} (h1 : 1 ≤ o) (h95 : o ≤ 95) :
    ∃ band, p.bandOf o = some band ∧ (mayBook q band = true ↔
      q = .s ∨ q = .k ∧ (p.frozen : Int) ≤ o ∨ q = .n ∧ (p.frozen : Int) ≤ o ∧ o < p.frozen + p.opened) := by
  obtain ⟨band, hband⟩ : ∃ band, p.bandOf o = some band := by
    unfold Bands.bandOf
    rw [if_neg (by omega)]
    repeat' split
    all_goals exact ⟨_, rfl⟩
  have hfrozen := p.bandOf_frozen o
  have hopened := p.bandOf_opened o
  rw [hband, Option.some.injEq] at hfrozen hopened
  refine ⟨band, hband, ?_⟩
  cases q with
  | s => simp [mayBook]
  | k =>
    rw [mayBook_k, ne_eq, hfrozen]
    simp only [reduceCtorEq, true_and, false_and, false_or, or_false]
    omega
  | n =>
    rw [mayBook_n, hopened]
    simp only [reduceCtorEq, true_and, false_and, false_or]
    omega

section BookRefusal

variable {s : State} {p : Port} {b : BayNo} {start : SlotNo} {len : Nat}

theorem State.bookRefusal_past (h : offsetFrom s.booking.slotNow start ≤ 0) :
    s.bookRefusal p b start len = some (.refuse .past) := if_pos h

theorem State.bookRefusal_beyond (h : 95 < offsetFrom s.booking.slotNow start) :
    s.bookRefusal p b start len = some (.refuse .band) := by
  have h0 : ¬offsetFrom s.booking.slotNow start ≤ 0 := by omega
  simp only [State.bookRefusal, if_neg h0, Bands.bandOf_eq_none (.inr h)]

variable {band : Band} (h : 1 ≤ offsetFrom s.booking.slotNow start)
  (hband : s.booking.bands.bandOf (offsetFrom s.booking.slotNow start) = some band)
include h hband

theorem State.bookRefusal_band (hmay : ¬mayBook p band = true) :
    s.bookRefusal p b start len = some (.refuse .band) := by
  have h0 : ¬offsetFrom s.booking.slotNow start ≤ 0 := by omega
  simp only [State.bookRefusal, if_neg h0, hband, if_neg hmay]

variable (hmay : mayBook p band = true)
include hmay

theorem State.bookRefusal_conflict {m : Booking}
    (hm : s.firstOverlap b (offsetFrom s.booking.slotNow start) len = some m) :
    s.bookRefusal p b start len = some (.refuseWith .conflict (u16 m.number)) := by
  have h0 : ¬offsetFrom s.booking.slotNow start ≤ 0 := by omega
  simp only [State.bookRefusal, if_neg h0, hband, if_pos hmay, hm]

/-- The last check of BOOK is the room in the bay's list and in the book (R75, step 7). -/
theorem State.bookRefusal_room (hfree : s.slotsFree b (offsetFrom s.booking.slotNow start) len) :
    s.bookRefusal p b start len =
      if 6 ≤ (s.bookings b).length ∨ 160 ≤ s.bookSize then some (.refuse .full) else none := by
  have h0 : ¬offsetFrom s.booking.slotNow start ≤ 0 := by omega
  simp only [State.bookRefusal, if_neg h0, hband, if_pos hmay, State.firstOverlap_eq_none.mpr hfree]

end BookRefusal

section Book

variable {s : State} {p : Port} {x s3 s2 s1 s0 len z : Byte} {c : Priority}

theorem ownBook_noSuch (hz : priorityOf z = some c) (hright : ¬(c = .access ∧ p = .n)) (hx : s.enrolledBay x = none) :
    ownBook p [x, s3, s2, s1, s0, len, z] s = (s, .refuse .noSuch) := by
  simp only [ownBook, hz, if_neg hright, hx]

variable {b : BayNo} (hz : priorityOf z = some c) (hright : ¬(c = .access ∧ p = .n)) (hx : s.enrolledBay x = some b)
include hz hright hx

theorem ownBook_badLength (hlen : len.toNat < 1 ∨ 16 < len.toNat) :
    ownBook p [x, s3, s2, s1, s0, len, z] s = (s, .refuse .badArg) := by
  simp only [ownBook, hz, if_neg hright, hx, if_pos hlen]

variable (hlen : 1 ≤ len.toNat ∧ len.toNat ≤ 16)
include hlen

theorem ownBook_refused {r : Reply}
    (hr : s.bookRefusal p b (BitVec.ofNat 32 (of32 s3 s2 s1 s0)) len.toNat = some r) :
    ownBook p [x, s3, s2, s1, s0, len, z] s = (s, r) := by
  have hlen' : ¬(len.toNat < 1 ∨ 16 < len.toNat) := by omega
  simp only [ownBook, hz, if_neg hright, hx, if_neg hlen', hr]

/-- BOOK that passes its checks places the record and answers with its fields (R76). -/
theorem ownBook_placed {k : Booking} (hk : s.newBooking p (BitVec.ofNat 32 (of32 s3 s2 s1 s0)) len.toNat c = k)
    {band : Band} (hband : s.booking.bands.bandOf (s.offset k) = some band)
    (hr : s.bookRefusal p b (BitVec.ofNat 32 (of32 s3 s2 s1 s0)) len.toNat = none) :
    ownBook p [x, s3, s2, s1, s0, len, z] s = (s.placeBooking b k,
      .ok (u16 k.number ++ u8 b :: u32 k.start.toNat ++ [u8 (s.offset k).toNat, u8 band.code])) := by
  have hlen' : ¬(len.toNat < 1 ∨ 16 < len.toNat) := by omega
  subst hk
  simp only [ownBook, hz, if_neg hright, hx, if_neg hlen', hr, hband]
  rfl

end Book

/-- Settles O25: each refusal from the first check that fails. -/
theorem bookChecks : Obligations.BookChecks := by
  unfold Obligations.BookChecks
  intro s p x s3 s2 s1 s0 len z hs refused o f g
  refine ⟨fun hp hc => (book_isRequest p x s3 s2 s1 s0 len z).notReady hs (infoBook_mayUse p) hp hc rfl,
    fun hp => ⟨fun h0 h2 => ?_, fun h2 hn => ?_, fun hclass => ?_⟩⟩
  · exact book_refused hs hp (st := .badArg) (fields := []) (by
      simp [ownBook, priorityOf_none h0 h2, Reply.refuse, Reply.refuseWith])
  · exact book_refused hs hp (st := .noRight) (fields := []) (by
      simp [ownBook, priorityOf_access h2, hn, Reply.refuse, Reply.refuseWith])
  obtain ⟨c, hz, hstd⟩ := priorityOf_some (hclass.imp_right And.left)
  have hright : ¬(c = .access ∧ p = .n) := by
    rintro ⟨rfl, hn⟩
    rcases hclass with h | ⟨-, h⟩
    · exact absurd (hstd.mpr h) (by simp)
    · exact h hn
  refine ⟨fun hx => book_refused hs hp (ownBook_noSuch hz hright hx), fun b hx => ⟨fun hlen => ?_, fun hlen => ?_⟩⟩
  · exact book_refused hs hp (ownBook_badLength hz hright hx (by omega))
  have hrefused : ∀ {st fields}, s.bookRefusal p b (BitVec.ofNat 32 (of32 s3 s2 s1 s0)) len.toNat =
      some (.refuseWith st fields) → refused st fields := fun hr =>
    book_refused hs hp (ownBook_refused hz hright hx hlen hr)
  refine ⟨fun h => hrefused (State.bookRefusal_past h), fun h => hrefused (State.bookRefusal_beyond h),
    fun h1 h95 => ?_⟩
  obtain ⟨band, hband, hmay⟩ := s.booking.bands.mayBook_within p h1 h95
  refine ⟨fun hk hf => hrefused (State.bookRefusal_band h1 hband ?_),
    fun hn hf => hrefused (State.bookRefusal_band h1 hband ?_),
    fun hallowed => ⟨fun front m back hb hfront hlo hhi => ?_, fun hfree hroom => ?_⟩⟩
  · rw [hmay, hk]
    simpa using hf
  · rw [hmay, hn]
    simp only [reduceCtorEq, false_and, false_or, true_and]
    omega
  · have hfirst : s.firstOverlap b o len.toNat = some m := by
      unfold State.firstOverlap
      rw [hb]
      exact find?_middle (fun a ha => runsOverlap_eq_false.mpr (hfront a ha)) (by simp [runsOverlap, hlo, hhi])
    exact hrefused (State.bookRefusal_conflict h1 hband (hmay.mpr hallowed) hfirst)
  · exact hrefused ((State.bookRefusal_room h1 hband (hmay.mpr hallowed) hfree).trans (if_pos hroom))

/-! ### BOOK (R76) -/

/-- Settles O24: no check refuses the request, and the record stands between the bookings that end before it and those
that start after it. -/
theorem bookPlacesABooking : Obligations.BookPlacesABooking := by
  unfold Obligations.BookPlacesABooking
  intro s p x s3 s2 s1 s0 len z b c band hord hs hp hz hright hx hlen start o h1 hband hmay hfree hbay hbook n
  have hnone : s.bookRefusal p b start len.toNat = none :=
    (State.bookRefusal_room h1 hband hmay hfree).trans (if_neg (by omega))
  obtain ⟨front, back, hsplit, hins, hfront, hback⟩ :=
    hord.insert_split b (k := s.newBooking p start len.toNat c) hlen.1 hfree
  obtain ⟨hrange, -⟩ := hord b
  rw [hsplit] at hrange
  obtain ⟨t, he, ha⟩ := book_answered hs hp (ownBook_placed hz hright hx hlen rfl hband hnone) rfl rfl
  refine ⟨t, front, back, hsplit, fun m hm => ?_, fun m hm => ?_, he, ?_⟩
  · obtain ⟨-, -, hm1, -⟩ := hrange m (List.mem_append_left _ hm)
    have hend : s.offset m + (m.length : Int) ≤ o := hfront m hm
    omega
  · have hstart : o + (len.toNat : Int) ≤ s.offset m := hback m hm
    omega
  · unfold State.placeBooking at ha
    rw [hins] at ha
    exact ha

end Sys2Proof.Machine
end

