-- ==== Sys2Proof/Proofs/ConfigExpiries.lean ====
section
/-! SUPPORT. The time base (R178), and the slot expiry in CONFIG, which drops the due bookings (R71, R85, R89): O29 and
O30. -/

namespace Sys2Proof.Machine

/-! ### The time base (R71, R178) -/

theorem exec_deviceSeconds (s : State) : exec .deviceSeconds s = .next s.tick := rfl

/-- Settles O29: the seconds into slot advance below 899, and at 899 the expiry is marked. -/
theorem secondsPass : Obligations.SecondsPass := by
  unfold Obligations.SecondsPass
  intro s
  constructor
  · intro h
    rw [exec_deviceSeconds, State.tick, if_pos h]
  · intro h
    rw [exec_deviceSeconds, State.tick, if_neg (by omega)]

/-! ### The due bookings are dropped (R85, R89) -/

theorem State.dropDue_of_some {s : State} {b : BayNo} {k : Booking} (hd : s.due b = some k) :
    s.dropDue b = s.dropTold b .notRunning k := by
  rw [State.dropDue, hd]
  rfl

theorem State.dropDue_of_none {s : State} {b : BayNo} (hd : s.due b = none) : s.dropDue b = s := by
  rw [State.dropDue, hd]

/-- The notices of the booking that is due at a bay, as a port gets them in CONFIG (R85, R89). -/
def State.dueNotices (s : State) (p : Port) (b : BayNo) : List Notice :=
  dropNotices .notRunning p (s.due b).toList

theorem State.dropDue_queue (s : State) (b : BayNo) (p : Port) :
    (s.dropDue b).queue p = (s.queue p).takeAll p (s.dueNotices p b) := by
  unfold State.dueNotices
  cases hd : s.due b with
  | none =>
    rw [State.dropDue_of_none hd]
    rfl
  | some k =>
    rw [State.dropDue_of_some hd]
    exact s.dropTold_queue b .notRunning k p

theorem State.onlyDrops_dropDue (s : State) (b : BayNo) : s.onlyDrops (s.dropDue b) := by
  cases hd : s.due b with
  | none =>
    rw [State.dropDue_of_none hd]
    rfl
  | some k =>
    rw [State.dropDue_of_some hd]
    unfold State.dropTold State.noticeDropped State.raiseBoth
    split <;> rfl

/-- The due bookings of a run of bays are dropped bay by bay, each with its notices (R85). -/
theorem State.foldl_dropDue_queue (l : List BayNo) (hl : l.Nodup) (s : State) (p : Port) :
    (l.foldl State.dropDue s).queue p = (s.queue p).takeAll p (l.flatMap (s.dueNotices p)) := by
  induction l generalizing s with
  | nil => rfl
  | cons b l ih =>
    obtain ⟨hb, hl⟩ := List.nodup_cons.mp hl
    rw [List.foldl_cons, ih hl, State.dropDue_queue, ← NoticeQueue.takeAll_append, List.flatMap_cons]
    congr 2
    refine List.flatMap_congr fun c hc => ?_
    have hbookings : (s.dropDue b).bookings c = s.bookings c :=
      (clearsDue_dropDue.bookings s b c).trans (if_neg fun e : c = b => hb (e ▸ hc))
    unfold State.dueNotices
    rw [State.due_congr hbookings (by rw [clearsDue_dropDue.frame])]

theorem State.onlyDrops_foldl_dropDue (l : List BayNo) (s : State) : s.onlyDrops (l.foldl State.dropDue s) := by
  refine List.foldlRecOn (motive := s.onlyDrops) l _ rfl fun u hu b _ => ?_
  have := u.onlyDrops_dropDue b
  unfold State.onlyDrops at hu this ⊢
  rw [this, hu]

/-! ### The expiry in CONFIG (R85) -/

theorem State.expireSlot_of_config {s : State} (hc : s.opState = .config) :
    s.expireSlot = allBays.foldl State.dropDue s.stepSlot := by
  rw [State.expireSlot, if_neg (by simp [hc])]

/-- In CONFIG the controller does not listen, and no sweep follows (R136, R138). -/
theorem State.settleBus_of_config {s : State} (hc : s.opState = .config) : s.settleBus = s :=
  State.settleBus_of_quiet fun hl => by simp [State.listening, hc] at hl

/-- The bookings that are not due are those whose offset after the step of the slot clock is not 0 (R81). -/
theorem BookOrdered.undue_eq {s : State} (hord : BookOrdered s) (hfits : BookFits s) (b : BayNo) :
    s.stepSlot.undue b = (s.bookings b).filter (fun k => decide (s.stepSlot.offset k ≠ 0)) := by
  unfold State.undue
  rcases hord.due_cases b with ⟨hd, hnone⟩ | ⟨k, back, hb, hd, h0, hback⟩ <;> rw [hd]
  · exact (List.filter_eq_self.mpr fun k hk => by simpa using hnone k hk).symm
  · have hdrop := congrArg (fun t => t.bookings b) (State.dropBooking_first (s := s.stepSlot) hfits hb)
    simp only [State.dropBooking, State.setBookings_bookings_self] at hdrop
    rw [hb, List.filter_cons_of_neg (by simpa using h0)]
    exact hdrop.trans (List.filter_eq_self.mpr fun m hm => by simpa using hback m hm).symm

/-- The notices of the due booking of a bay, from the offsets after the step of the slot clock (R85, R89). -/
theorem BookOrdered.dueNotices_eq {s : State} (hord : BookOrdered s) (p : Port) (b : BayNo) :
    s.stepSlot.dueNotices p b = (s.bookings b).filterMap (fun k =>
      if s.stepSlot.offset k = 0 ∧ (p = .s ∨ p = k.origin) then some (.bookingDropped k.number .notRunning)
      else none) := by
  have hskip : ∀ l : List Booking, (∀ m ∈ l, s.stepSlot.offset m ≠ 0) → l.filterMap (fun k =>
      if s.stepSlot.offset k = 0 ∧ (p = .s ∨ p = k.origin) then some (Notice.bookingDropped k.number .notRunning)
      else none) = [] := fun l hl =>
    List.filterMap_eq_nil_iff.mpr fun m hm => if_neg fun e => hl m hm e.1
  unfold State.dueNotices dropNotices
  rcases hord.due_cases b with ⟨hd, hnone⟩ | ⟨k, back, hb, hd, h0, hback⟩ <;> rw [hd]
  · exact (hskip _ hnone).symm
  · rw [hb, ← List.singleton_append, List.filterMap_append, hskip back hback, List.append_nil]
    simp only [Option.toList_some, List.filterMap_cons, List.filterMap_nil, h0, true_and]

/-- Settles O30: the clock steps, each bay's due booking leaves the book, and its notices follow bay by bay. -/
theorem slotExpiryInConfigDrops : Obligations.SlotExpiryInConfigDrops := by
  unfold Obligations.SlotExpiryInConfigDrops
  intro s hfits hord hc hdue
  obtain ⟨hbookings, hbook⟩ := s.expireSlot_book
  have hoffset : ∀ k, s.expireSlot.offset k = s.stepSlot.offset k := fun k => by rw [s.expireSlot_thins.offset]
  refine ⟨s.expireSlot, ?_, fun b => ?_, fun p => ?_, ?_⟩
  · have hexec : exec .slotExpiry s = .next (if s.booking.slotDue then s.expireSlot.settleBus else s) := rfl
    rw [hexec, if_pos hdue, State.settleBus_of_config (by rw [State.expireSlot_opState, hc])]
  · simp only [hoffset]
    exact (hbookings b).trans (hord.undue_eq hfits b)
  · simp only [hoffset]
    rw [State.expireSlot_of_config hc, State.foldl_dropDue_queue allBays (List.nodup_finRange 48), State.queueAfter_eq,
      funext (hord.dueNotices_eq p)]
    rfl
  · have hframe := s.stepSlot.onlyDrops_foldl_dropDue allBays
    rw [← State.expireSlot_of_config hc] at hframe
    exact hframe

end Sys2Proof.Machine
end

