-- ==== Sys2Proof/Proofs/LostSessions.lean ====
section
/-! SUPPORT. The suspension of a session whose head is lost (R97, R122), and its close at the reconnect expiry (R98,
R102): O48. -/

namespace Sys2Proof.Machine

/-! ### A recompute at a bay that is not ACTIVE (R115) -/

/-- The THROTTLE notices of a recompute do not depend on the flags of bays that are not ACTIVE (R115). -/
theorem State.throttles_congr_was {t : State} {was was' : BayNo → Bool}
    (h : ∀ b, (t.bay b).state = .active → was' b = was b) (p : Port) : t.throttles was' p = t.throttles was p := by
  rw [State.throttles_eq, State.throttles_eq]
  refine List.filterMap_congr fun b _ => ?_
  by_cases ha : (t.bay b).state = .active
  · exact State.throttleAt_congr rfl rfl rfl (h b ha) p
  · simp [State.throttleAt, ha]

/-- An event has written the bay record x and the setpoint record v of one bay, flags of no other bay, and has told
these notices; its recompute is still to come. -/
structure State.Written (s u : State) (b : BayNo) (x : Bay) (v : Setpoint) (told : Port → List Notice) : Prop where
  bay : u.bay b = x
  others : ∀ c, c ≠ b → u.bay c = s.bay c
  setpoint : u.setpoint b = v
  flags : ∀ c, c ≠ b → (u.setpoint c).throttled = (s.setpoint c).throttled
  queue : ∀ p, u.queue p = (s.queue p).takeAll p (told p)

/-- The recompute of an event that leaves its bay not ACTIVE: it keeps what the event has written, and its THROTTLE
notices follow those of the event (R115, assumption 7). -/
theorem State.Written.recomputed {s u t : State} {b : BayNo} {x : Bay} {v : Setpoint} {told : Port → List Notice}
    (h : s.Written u b x v told) (hx : x.state ≠ .active) (ht : t = { u.recompute with bus := t.bus }) :
    t.bay b = x ∧ (∀ c, c ≠ b → t.bay c = s.bay c) ∧ t.setpoint b = v ∧
      ∀ p, t.queue p = s.queueAfter p (told p ++ t.throttles (fun c => (s.setpoint c).throttled) p) := by
  have hbay : ∀ c, t.bay c = u.bay c := State.bay_of_bays (by rw [ht]; simp)
  have hu : (u.bay b).state ≠ .active := by rwa [h.bay]
  refine ⟨(hbay b).trans h.bay, fun c hc => (hbay c).trans (h.others c hc), ?_, fun p => ?_⟩
  · rw [State.setpoint_of_setpoints (s := u.recompute) (by rw [ht]), State.recompute_setpoint_of_inactive hu,
      h.setpoint]
  · have hthrottles : t.throttles (fun c => (s.setpoint c).throttled) p =
        u.recompute.throttles (fun c => (u.setpoint c).throttled) p := by
      rw [ht]
      refine State.throttles_congr_was (t := u.recompute) (fun c hc => (h.flags c ?_).symm) p
      rintro rfl
      exact hu (by rwa [State.bay_of_bays (s := u) (by simp)] at hc)
    rw [State.queueAfter_eq, hthrottles, NoticeQueue.takeAll_append, ← h.queue, ← State.recompute_queue]
    exact State.queue_of_queues (by rw [ht]) p

/-! ### Suspension (R97) -/

/-- The bay record of a suspended session (R97). -/
def Bay.suspendedUntil (x : Bay) (returnBy : Seconds) : Bay :=
  { x.modSession (fun k => { k with reconnect := some returnBy }) with state := .suspended }

/-- A suspension ahead of its recompute (R97, R122). -/
def State.suspending (s : State) (b : BayNo) : State :=
  (s.changeBay b (·.suspendedUntil (s.deadline s.timers.reconnect))).setSetpoint b
    ((s.setpoint b).fallBack s.power.fallback)

theorem State.suspend_eq (s : State) (b : BayNo) : s.suspend b = (s.suspending b).recompute := by
  have hset : (s.changeBay b (·.suspendedUntil (s.deadline s.timers.reconnect))).setpoint b = s.setpoint b :=
    State.setpoint_of_setpoints (by simp) b
  rw [State.suspending, ← hset, ← State.changeBay_power s b (·.suspendedUntil (s.deadline s.timers.reconnect))]
  rfl

/-- A suspension writes its bay record and its setpoint record, and tells S the BAY_STATE (R97, R122). -/
theorem State.suspending_written {s : State} {b : BayNo} (hst : (s.bay b).state = .active) :
    s.Written (s.suspending b) b ((s.bay b).suspendedUntil (s.deadline s.timers.reconnect))
      ((s.setpoint b).fallBack s.power.fallback)
      fun p => if p = .s then [.bayState b .suspended (s.link b).link none] else [] := by
  have hbay : ∀ c, (s.suspending b).bay c = _ := fun c => State.changeBay_bay s b c _
  refine ⟨(hbay b).trans (if_pos rfl), fun c hc => (hbay c).trans (if_neg hc), State.setSetpoint_setpoint_self _ _ _,
    fun c hc => ?_, fun p => ?_⟩
  · rw [State.suspending, State.setSetpoint_setpoint_of_ne _ hc, State.setpoint_of_setpoints (s := s) (by simp)]
  · have htold := State.changeBay_to (s := s) (b := b) (f := (·.suspendedUntil (s.deadline s.timers.reconnect)))
      (by simp [Bay.suspendedUntil, hst]) (by simp [Bay.suspendedUntil])
    rw [State.suspending, htold]
    exact State.raise_queue_takeAll _ _ _ _

/-! ### The loss of the head of an ACTIVE bay (R20, R131) -/

/-- The BAY_STATE of a link change gives way to a later one of the same bay (R133, R159). -/
theorem State.changeLink_queue_bayState (s : State) (b : BayNo) (x : LinkRecord) (p : Port) (st : BayState) (l : Link)
    (f : Option FaultCode) :
    ((s.changeLink b x).queue p).takeAll p (if p = .s then [.bayState b st l f] else []) =
      (s.queue p).takeAll p (if p = .s then [.bayState b st l f] else []) := by
  by_cases hp : p = .s
  · subst p
    by_cases h : x.link ≠ (s.link b).link ∧ (s.bay b).enrolled = true ∧ s.opState = .run
    · obtain ⟨hx, he, hr⟩ := h
      rw [State.changeLink_told hx he hr, State.raise_queue_takeAll]
      exact NoticeQueue.take_bayState_twice _ _ _ _ _ _ _ _
    · rw [State.changeLink_quiet h]
      rfl
  · rw [if_neg hp]
    exact State.changeLink_queue_of_ne s b x hp

section LostHead

variable {s : State} {b : BayNo}

theorem State.takeSilence_of_active (h : (s.link b).silence = 2) (hst : (s.bay b).state = .active) :
    s.takeSilence b = ((s.changeLink b (s.link b).silenced).suspending b).recompute := by
  rw [State.takeSilence_of_lost h, State.loseHead, State.changeLink_bay, hst]
  exact State.suspend_eq _ b

/-- The third silent exchange in a row at an ACTIVE bay suspends its session (R97, R131): S is told one BAY_STATE. -/
theorem State.lostHead_written (h : (s.link b).silence = 2) (hst : (s.bay b).state = .active) :
    s.Written ((s.changeLink b (s.link b).silenced).suspending b) b
      ((s.bay b).suspendedUntil (s.deadline s.timers.reconnect)) ((s.setpoint b).fallBack s.power.fallback)
      fun p => if p = .s then [.bayState b .suspended .lost none] else [] := by
  have hlink : ((s.changeLink b (s.link b).silenced).link b).link = .lost := by
    rw [State.changeLink_link, if_pos rfl, LinkRecord.silenced_of_two (by omega)]
  have hbay := fun c => State.changeLink_bay s b c (s.link b).silenced
  have hset := fun c => State.changeLink_setpoint s b c (s.link b).silenced
  have hqueue := State.changeLink_queue_bayState s b (s.link b).silenced
  have hframe := State.changeLink_eq s b (s.link b).silenced
  generalize s.changeLink b (s.link b).silenced = u at hlink hbay hset hqueue hframe ⊢
  have hw := State.suspending_written (s := u) (b := b) (by rw [hbay, hst])
  have hdeadline : u.deadline u.timers.reconnect = s.deadline s.timers.reconnect := by rw [hframe]; rfl
  have hfallback : u.power.fallback = s.power.fallback := by rw [hframe]
  rw [hlink, hbay, hset, hdeadline, hfallback] at hw
  exact ⟨hw.bay, fun c hc => (hw.others c hc).trans (hbay c), hw.setpoint,
    fun c hc => (hw.flags c hc).trans (by rw [hset]), fun p => (hw.queue p).trans (hqueue p _ _ _)⟩

/-- The loss of the head of an ACTIVE bay writes bays, setpoint records, notices and the head bus, and nothing else. -/
theorem State.takeSilence_eq_of_active (h : (s.link b).silence = 2) (hst : (s.bay b).state = .active) :
    s.takeSilence b = { s with
      bays := (s.takeSilence b).bays, queues := (s.takeSilence b).queues, bus := (s.takeSilence b).bus,
      power := { s.power with setpoints := (s.takeSilence b).power.setpoints } } := by
  rw [State.takeSilence_of_active h hst, State.recompute_eq, State.suspending, State.changeBay_eq, State.changeLink_eq]
  rfl

end LostHead

/-! ### The close at the reconnect expiry (R98, R102) -/

/-- A close writes no setpoint record but that of its bay (R122). -/
theorem State.endSession_setpoint_of_ne (s : State) {b c : BayNo} (hc : c ≠ b) (k : Session) (why : CloseReason) :
    (s.endSession b k why).setpoint c = s.setpoint c := by
  unfold State.endSession
  dsimp only
  rw [State.setSetpoint_setpoint_of_ne _ hc]
  exact State.setpoint_of_setpoints (by simp) c

/-- A close frees the ticket of its session (R102). -/
theorem State.endSession_tickets (s : State) (b : BayNo) (k : Session) (why : CloseReason) :
    (s.endSession b k why).tickets = s.tickets.filter (fun x => x.number != k.ticket) := by
  unfold State.endSession
  dsimp only
  rw [State.setSetpoint_tickets, State.setBay_tickets, State.freeTicket_tickets, State.setBay_tickets,
    State.noticeClosed_tickets]

/-- A close for LINK_LOST ahead of its recompute (R98). -/
def State.closingLost (s : State) (b : BayNo) (k : Session) : State :=
  (s.endSession b k .linkLost).changeBay b (fun x => { x with state := .offline })

theorem State.closeLost_eq {s : State} {b : BayNo} {k : Session} (hk : (s.bay b).session = some k) :
    s.closeLost b = (s.closingLost b k).recompute := by
  simp [State.closeLost, hk, State.closingLost]

section LostSession

variable {s : State} {b : BayNo} {k : Session} {y : Ticket}
  (hend : s.SessionEnded (s.endSession b k .linkLost) b k .linkLost y)
include hend

/-- A close for LINK_LOST writes its bay record and its setpoint record, and tells the SESSION_CLOSED to the ticket's
origin and S, then S the BAY_STATE (R98, R102, R104). -/
theorem State.closingLost_written (hst : (s.bay b).state = .suspended) : s.Written (s.closingLost b k) b
    { s.bay b with state := .offline, session := none, ticket := none } (s.setpoint b).ended
    fun p => (if p = .s ∨ p = y.origin then [s.closedNotice b k .linkLost] else []) ++
      (if p = .s then [.bayState b .offline (s.link b).link none] else []) := by
  have hbay : ∀ c, (s.closingLost b k).bay c = _ :=
    fun c => State.changeBay_bay (s.endSession b k .linkLost) b c _
  have hset : ∀ c, (s.closingLost b k).setpoint c = (s.endSession b k .linkLost).setpoint c :=
    State.setpoint_of_setpoints (by simp [State.closingLost])
  refine ⟨?_, fun c hc => ?_, ?_, fun c hc => ?_, fun p => ?_⟩
  · rw [hbay, if_pos rfl, hend.bay]
  · rw [hbay, if_neg hc, hend.other c hc]
  · rw [hset, hend.setpoint]
  · rw [hset, State.endSession_setpoint_of_ne s hc]
  · have hlink : (s.endSession b k .linkLost).link b = s.link b := State.link_of_links (by rw [hend.frame]) b
    rw [State.closingLost, State.changeBay_to (by simp [hend.bay, hst]) (by simp), State.raise_queue_takeAll,
      NoticeQueue.takeAll_append, ← hend.queue, hlink]
    rfl

/-- What a close for LINK_LOST writes: the table, the admission list, bays, setpoint records and notices (R102). -/
theorem State.closingLost_recompute_eq : (s.closingLost b k).recompute = { s with
    tickets := s.tickets.filter (fun x => x.number != k.ticket),
    admission := s.admission.filter (fun c => c != b),
    bays := (s.closingLost b k).recompute.bays, queues := (s.closingLost b k).recompute.queues,
    power := { s.power with setpoints := (s.closingLost b k).recompute.power.setpoints } } := by
  rw [State.recompute_eq, State.closingLost, State.changeBay_eq, ← State.endSession_tickets s b k .linkLost, hend.frame]

end LostSession

/-- The reconnect expiry of a SUSPENDED bay whose deadline has come (R98). -/
theorem exec_reconnectExpiry {s : State} {b : BayNo} {k : Session} {d : Seconds} (hk : (s.bay b).session = some k)
    (hst : (s.bay b).state = .suspended) (hd : k.reconnect = some d) (hr : s.reached d = true) :
    exec (.reconnectExpiry b) s = .next (s.closingLost b k).recompute.settleBus := by
  have hdue : s.reconnectDue b = true := by simp [State.reconnectDue, hst, hk, State.isDue, hd, hr]
  rw [← State.closeLost_eq hk]
  show Host.Outcome.next (if s.reconnectDue b then (s.closeLost b).settleBus else s) = _
  rw [if_pos hdue]

/-- Settles O48: what the suspension and the close write ahead of their recomputes, and the recompute at a bay that
is not ACTIVE. -/
theorem suspensionAndItsExpiry : Obligations.SuspensionAndItsExpiry := by
  unfold Obligations.SuspensionAndItsExpiry
  intro s b k hc hk
  constructor
  · intro c hw hsil hst hcmd
    refine ⟨_, exec_silent hw hcmd, ?_⟩
    have hnext := (s.takeSilence b).afterSlot_eq b
    have hframe := State.takeSilence_eq_of_active hsil hst
    have hlost := State.takeSilence_of_active hsil hst
    generalize (s.takeSilence b).afterSlot b = t at hnext ⊢
    obtain ⟨hbay, hothers, hset, hqueue⟩ := (State.lostHead_written hsil hst).recomputed (t := t)
      (by simp [Bay.suspendedUntil]) (by rw [← hlost]; exact hnext)
    refine ⟨?_, hothers, ?_, ?_, ?_, ?_, hqueue, ?_⟩
    · rw [hbay, Bay.suspendedUntil, Bay.modSession, hk]
      rfl
    · rw [hset, Setpoint.fallBack]
    · simp [hset, Setpoint.fallBack, Setpoint.issue_spec]
    · rw [hset, Setpoint.fallBack]
    · simp [hset, Setpoint.fallBack, Setpoint.issue_spec]
    · rw [hnext, hframe]
  · intro d hst hd hr
    obtain ⟨-, -, y, hy, hyb, hyc⟩ := ((agreeBut_none_iff s).mpr hc).served hk
    have hend := State.endSession_ended hy hyb hyc .linkLost
    have hframe := State.closingLost_recompute_eq hend
    refine ⟨_, exec_reconnectExpiry hk hst hd hr, ?_⟩
    have hsettle : (s.closingLost b k).recompute.settleBus = { (s.closingLost b k).recompute with
      bus := (s.closingLost b k).recompute.settleBus.bus } := State.eq_of_fields
    generalize (s.closingLost b k).recompute.settleBus = t at hsettle ⊢
    obtain ⟨hbay, hothers, hset, hqueue⟩ := (State.closingLost_written hend hst).recomputed (by simp) hsettle
    refine ⟨hbay, hothers, ?_, ?_, ?_, ?_, fun y' hy' p => ?_, ?_⟩
    · rw [hset, Setpoint.ended]
    · simp [hset, Setpoint.ended, Setpoint.issue_spec]
    · simp [hset, Setpoint.ended, Setpoint.issue_spec]
    · rw [hset, Setpoint.ended]
    · obtain rfl := Option.some.inj (hy.symm.trans hy')
      exact hqueue p
    · rw [hsettle, hframe]

end Sys2Proof.Machine
end

