-- ==== Sys2Proof/Proofs/Shares.lean ====
section
/-! SUPPORT. The targets that are handed out of a budget, bay by bay and in sum (R113, R114): O34. -/

namespace Sys2Proof.Machine

/-! ### The leftover (R114) -/

/-- A share that takes 1 A of the leftover where it is still below its cap (R114). -/
def bumped (x : Nat × Nat) : Nat := if x.1 < x.2 then x.1 + 1 else x.1

/-- Without a leftover every share stands. -/
theorem handOut_zero (xs : List (Nat × Nat)) : handOut 0 xs = xs.map Prod.fst := by
  induction xs with
  | nil => rfl
  | cons x xs ih => simp [handOut, ih]

/-- The leftover goes to the first bays in order that can take it: a first part of the shares is raised by 1 A each,
but for those at their cap, and the rest stand (R114). -/
theorem handOut_split (l : Nat) (xs : List (Nat × Nat)) : ∃ front back, xs = front ++ back ∧
    handOut l xs = front.map bumped ++ back.map Prod.fst ∧
    front.countP (fun x => x.1 < x.2) = min l (xs.countP (fun x => x.1 < x.2)) := by
  induction xs generalizing l with
  | nil => exact ⟨[], [], rfl, by cases l <;> rfl, by simp⟩
  | cons x xs ih =>
    cases l with
    | zero => exact ⟨[], x :: xs, rfl, handOut_zero _, by simp⟩
    | succ l =>
      by_cases hc : x.1 < x.2
      · obtain ⟨front, back, rfl, hh, hn⟩ := ih l
        refine ⟨x :: front, back, rfl, by simp [handOut, bumped, hc, hh], ?_⟩
        simp only [List.countP_cons, hc, hn, decide_true, if_true]
        omega
      · obtain ⟨front, back, rfl, hh, hn⟩ := ih (l + 1)
        refine ⟨x :: front, back, rfl, by simp [handOut, bumped, hc, hh], ?_⟩
        rwa [List.countP_cons_of_neg (by simpa using hc), List.countP_cons_of_neg (by simpa using hc)]

/-- A first part of the shares takes 1 A for each that is below its cap. -/
theorem sum_map_bumped (xs : List (Nat × Nat)) :
    (xs.map bumped).sum = (xs.map Prod.fst).sum + xs.countP (fun x => x.1 < x.2) := by
  induction xs with
  | nil => rfl
  | cons x xs ih =>
    by_cases hc : x.1 < x.2
    · simp [bumped, hc, ih]
      omega
    · simp [bumped, hc, ih]
      omega

/-- The leftover is handed out as far as the shares can take it (R114). -/
theorem handOut_sum (l : Nat) (xs : List (Nat × Nat)) :
    (handOut l xs).sum = (xs.map Prod.fst).sum + min l (xs.countP (fun x => x.1 < x.2)) := by
  obtain ⟨front, back, rfl, hh, hn⟩ := handOut_split l xs
  rw [hh, List.sum_append, sum_map_bumped, hn]
  simp only [List.map_append, List.sum_append]
  omega

/-- A share stands or takes 1 A, and where it takes 1 A every share before it has taken 1 A or is at its cap (R114). -/
theorem handOut_getElem {l : Nat} {xs : List (Nat × Nat)} (h : ∀ x ∈ xs, x.1 ≤ x.2) {i : Nat} {x : Nat × Nat}
    (hi : xs[i]? = some x) : ∃ y, (handOut l xs)[i]? = some y ∧ (y = x.1 ∨ y = x.1 + 1) ∧
      (y = x.1 + 1 → ∀ j < i, ∀ z, xs[j]? = some z → (handOut l xs)[j]? = some (z.1 + 1) ∨ z.1 = z.2) := by
  obtain ⟨front, back, rfl, hh, -⟩ := handOut_split l xs
  rw [hh]
  by_cases hf : i < front.length
  · rw [List.getElem?_append_left hf] at hi
    refine ⟨bumped x, by rw [List.getElem?_append_left (by simpa using hf)]; simp [hi], ?_, fun _ j hj z hz => ?_⟩
    · unfold bumped
      split <;> simp
    · have hjf : j < front.length := by omega
      rw [List.getElem?_append_left hjf] at hz
      have hle := h z (List.mem_append_left _ (List.mem_of_getElem? hz))
      rw [List.getElem?_append_left (by simpa using hjf), List.getElem?_map, hz, Option.map_some, bumped]
      split
      · exact .inl rfl
      · exact .inr (by omega)
  · rw [List.getElem?_append_right (by omega)] at hi
    refine ⟨x.1, ?_, .inl rfl, fun e => by omega⟩
    rw [List.getElem?_append_right (by simpa using hf)]
    simp [hi]

/-! ### The shares of the spare (R114) -/

/-- Parts rounded down come to no more than the whole, and to less by at most 1 A for each that is not 0. -/
theorem sum_floors_bounds (spare sum : Nat) (hpos : 0 < sum) (heads : List Nat) :
    (heads.map (fun h => spare * h / sum)).sum * sum ≤ spare * heads.sum ∧
    spare * heads.sum ≤ ((heads.map (fun h => spare * h / sum)).sum + heads.countP (fun h => 0 < h)) * sum := by
  induction heads with
  | nil => simp
  | cons h heads ih =>
    obtain ⟨ih1, ih2⟩ := ih
    have hdiv := Nat.div_add_mod (spare * h) sum
    have hmod := Nat.mod_lt (spare * h) hpos
    simp only [List.map_cons, List.sum_cons, List.countP_cons, Nat.mul_add, Nat.add_mul]
    rw [Nat.mul_comm sum] at hdiv
    constructor
    · omega
    · rw [Nat.add_mul] at ih2
      by_cases h0 : 0 < h
      · simp only [h0, decide_true, if_true, Nat.one_mul]
        omega
      · obtain rfl : h = 0 := by omega
        simpa using ih2

/-- The capped demands come to 6 A each and their headrooms. -/
theorem sum_eq_floor_add_heads {caps : List Nat} (h : ∀ c ∈ caps, 6 ≤ c) :
    caps.sum = 6 * caps.length + (caps.map (fun c => c - 6)).sum := by
  induction caps with
  | nil => rfl
  | cons c caps ih =>
    obtain ⟨hc, hcs⟩ := List.forall_mem_cons.mp h
    simp only [List.sum_cons, List.length_cons, List.map_cons, ih hcs]
    omega

/-- Where the spare does not cover the headrooms, the admitted targets are the shares with the leftover (R114). -/
theorem admittedShares_of_lt {spare : Nat} {caps : List Nat} (hs : spare < (caps.map (fun c => c - 6)).sum) :
    admittedShares spare caps = handOut
      (spare - ((caps.map (fun c => c - 6)).map (fun h => spare * h / (caps.map (fun c => c - 6)).sum)).sum)
      (caps.map (shareOf caps spare)) := by
  unfold admittedShares
  dsimp only
  rw [if_neg (by omega)]
  congr 1
  rw [List.map_map, ← List.map_prod_right_eq_zip, List.map_map]
  rfl

/-- A share is no more than its cap (R114). -/
theorem shareOf_le {spare : Nat} {caps : List Nat} (h : ∀ c ∈ caps, 6 ≤ c)
    (hs : spare ≤ (caps.map (fun c => c - 6)).sum) : ∀ x ∈ caps.map (shareOf caps spare), x.1 ≤ x.2 := by
  intro x hx
  obtain ⟨c, hc, rfl⟩ := List.mem_map.mp hx
  have := h c hc
  have := proportion_le (c - 6) hs
  simp only [shareOf]
  omega

/-- Where the spare does not cover the headrooms, a share is below its cap unless it is at the floor (R114). -/
theorem shareOf_lt_iff {spare : Nat} {caps : List Nat} (hs : spare < (caps.map (fun c => c - 6)).sum) (c : Nat)
    (hc : 6 ≤ c) : (shareOf caps spare c).1 < (shareOf caps spare c).2 ↔ 0 < c - 6 := by
  simp only [shareOf]
  constructor
  · intro hlt
    by_contra h0
    obtain rfl : c = 6 := by omega
    simp at hlt
  · intro h0
    have : spare * (c - 6) / (caps.map (fun c => c - 6)).sum < c - 6 :=
      Nat.div_lt_of_lt_mul (Nat.mul_lt_mul_of_pos_right hs h0)
    omega

/-- Where the spare does not cover the headrooms, the admitted targets come to the floors and the whole spare (R114). -/
theorem admittedShares_sum {spare : Nat} {caps : List Nat} (h : ∀ c ∈ caps, 6 ≤ c)
    (hs : spare < (caps.map (fun c => c - 6)).sum) :
    (admittedShares spare caps).sum = 6 * caps.length + spare := by
  have hbelow : (caps.map (shareOf caps spare)).countP (fun x => x.1 < x.2) =
      (caps.map (fun c => c - 6)).countP (fun h => 0 < h) := by
    rw [List.countP_map, List.countP_map]
    refine List.countP_congr fun c hc => ?_
    simpa using shareOf_lt_iff hs c (h c hc)
  have hfloor : ((caps.map (shareOf caps spare)).map Prod.fst).sum = 6 * caps.length +
      ((caps.map (fun c => c - 6)).map (fun h => spare * h / (caps.map (fun c => c - 6)).sum)).sum := by
    simp only [List.map_map, Function.comp_def, shareOf, List.sum_map_add, List.map_const', List.sum_replicate,
      smul_eq_mul]
    omega
  rw [admittedShares_of_lt hs, handOut_sum, hbelow, hfloor]
  generalize hsum : (caps.map (fun c => c - 6)).sum = sum at hs
  have hpos : 0 < sum := by omega
  obtain ⟨hle, hge⟩ := sum_floors_bounds spare sum hpos (caps.map (fun c => c - 6))
  rw [hsum] at hle hge
  have := Nat.le_of_mul_le_mul_right hle hpos
  have := Nat.le_of_mul_le_mul_right hge hpos
  omega

/-! ### The targets (R113, R114) -/

/-- The number of bays that get the floor (R113). -/
def admittedCount (budget : Nat) (caps : List Nat) : Nat := min caps.length (budget / 6)

/-- Where the capped demands do not fit the budget, the first bays share it and the rest get nothing (R113). -/
theorem shares_of_lt {budget : Nat} {caps : List Nat} (h : budget < caps.sum) : shares budget caps =
    admittedShares (budget - 6 * admittedCount budget caps) (caps.take (admittedCount budget caps)) ++
      List.replicate (caps.length - admittedCount budget caps) 0 := by
  unfold shares
  rw [if_neg (by omega)]
  rfl

theorem shares_length (budget : Nat) {caps : List Nat} (h : ∀ c ∈ caps, 6 ≤ c) :
    (shares budget caps).length = caps.length :=
  (shares_apportioned budget caps h).length_eq

/-- Two lists that are related element by element, and their defaults too, are related at every place. -/
theorem forall₂_getD {R : Nat → Nat → Prop} {xs ys : List Nat} (h : List.Forall₂ R xs ys) (h0 : R 0 0) (i : Nat) :
    R (xs.getD i 0) (ys.getD i 0) := by
  induction h generalizing i with
  | nil => simpa using h0
  | cons hxy _ ih =>
    cases i with
    | zero => simpa using hxy
    | succ i => simpa using ih i

/-- No target is above its capped demand (R113, R114). -/
theorem shares_getD_le (budget : Nat) {caps : List Nat} (h : ∀ c ∈ caps, 6 ≤ c) (i : Nat) :
    (shares budget caps).getD i 0 ≤ caps.getD i 0 := by
  rcases forall₂_getD (shares_apportioned budget caps h) (.inl rfl) i with h | h
  · omega
  · exact h.2

/-- The targets come to no more than the budget (R114). -/
theorem shares_sum_le (budget : Nat) {caps : List Nat} (h : ∀ c ∈ caps, 6 ≤ c) : (shares budget caps).sum ≤ budget := by
  by_cases hb : caps.sum ≤ budget
  · simp [shares, hb]
  · have htake : ∀ c ∈ caps.take (admittedCount budget caps), 6 ≤ c := fun c hc => h c (List.mem_of_mem_take hc)
    have hlen : (caps.take (admittedCount budget caps)).length = admittedCount budget caps := by simp [admittedCount]
    have hk : 6 * admittedCount budget caps ≤ budget := by simp only [admittedCount]; omega
    rw [shares_of_lt (by omega), List.sum_append, List.sum_replicate, smul_zero, add_zero]
    by_cases hs : budget - 6 * admittedCount budget caps <
        ((caps.take (admittedCount budget caps)).map (fun c => c - 6)).sum
    · rw [admittedShares_sum htake hs, hlen]
      omega
    · have e : admittedShares (budget - 6 * admittedCount budget caps) (caps.take (admittedCount budget caps)) =
          caps.take (admittedCount budget caps) := by
        unfold admittedShares
        exact if_pos (by omega)
      rw [e, sum_eq_floor_add_heads htake, hlen]
      omega

/-- Settles O34: the minimum pass and the shares from the bounds of Ranges, the order of the leftover from its split. -/
theorem targetsAreShared : Obligations.TargetsAreShared := by
  unfold Obligations.TargetsAreShared
  intro budget caps h t k spare head share
  have hk : 6 * k ≤ budget := by simp only [k]; omega
  have hlen : (caps.take k).length = k := by simp [k]
  have htake : ∀ c ∈ caps.take k, 6 ≤ c := fun c hc => h c (List.mem_of_mem_take hc)
  have hbound := admittedShares_bounded spare (caps.take k) htake
  have hadm : (admittedShares spare (caps.take k)).length = k := by rw [hbound.length_eq, hlen]
  refine ⟨shares_length budget h, shares_getD_le budget h, shares_sum_le budget h, fun hb => if_pos hb, fun hb => ?_⟩
  have ht : t = admittedShares spare (caps.take k) ++ List.replicate (caps.length - k) 0 := shares_of_lt hb
  have hfirst : ∀ i < k, t.getD i 0 = (admittedShares spare (caps.take k)).getD i 0 := fun i hi => by
    rw [ht, List.getD_append _ _ _ _ (by omega)]
  refine ⟨fun i hi => ?_, fun i hi => ?_, fun hs => ?_, fun hs => ⟨?_, fun i hi => ?_⟩⟩
  · rw [ht, List.getD_append_right _ _ _ _ (by omega)]
    simp [List.getD_eq_getElem?_getD, List.getElem?_replicate]
    split <;> rfl
  · rw [hfirst i hi, List.getD_eq_getElem _ _ (by omega)]
    exact (hbound.get (by omega) (by omega)).1
  · rw [ht, List.take_left' hadm]
    exact if_pos hs
  · rw [ht, List.sum_append, admittedShares_sum htake hs, hlen]
    simp only [List.sum_replicate, smul_zero, spare]
    omega
  · have hle := shareOf_le htake (Nat.le_of_lt hs)
    have hshare : ∀ j < k, ((caps.take k).map (shareOf (caps.take k) spare))[j]? = some (share j, caps.getD j 0) := by
      intro j hj
      have hjl : j < caps.length := by simp only [k] at hj; omega
      simp [hj, hjl, shareOf, share, head]
    obtain ⟨y, hy, hstep, hbefore⟩ := handOut_getElem hle (hshare i hi)
    rw [← admittedShares_of_lt hs] at hy hbefore
    have htd : ∀ j < k, ∀ z, (admittedShares spare (caps.take k))[j]? = some z → t.getD j 0 = z := fun j hj z hz => by
      rw [hfirst j hj, List.getD_eq_getElem?_getD, hz, Option.getD_some]
    rw [htd i hi y hy]
    refine ⟨hstep, fun j hj e => ?_⟩
    exact (hbefore e j hj _ (hshare j (by omega))).imp_left (htd j (by omega) _)

end Sys2Proof.Machine
end

