-- ==== Sys2Proof/Proofs/SetpointRecords.lean ====
section
/-! SUPPORT. What a recompute sets at each bay (R112 to R121), and the committed load of its raises (R116, R120): O35
and O36. -/

namespace Sys2Proof.Machine

/-! ### The participating bays (R112) -/

/-- Each bay takes part once (R112). -/
theorem State.participants_nodup {s : State} (h : s.admission.Nodup) : s.participants.Nodup := by
  unfold State.participants
  refine List.nodup_append'.mpr ⟨(h.filter _).filter _, (h.filter _).filter _, fun b hb hb' => ?_⟩
  simp only [List.mem_filter, Bool.not_eq_true'] at hb hb'
  simp [hb.2] at hb'

theorem State.participants_of {s t : State} (hb : t.bays = s.bays) (ha : t.admission = s.admission) :
    t.participants = s.participants := by
  simp only [State.participants, State.bay_of_bays hb, ha]

/-- A key of a zipped list that stands once finds the value of its place. -/
theorem lookup_zip_of_getElem? {α β : Type} [BEq α] [LawfulBEq α] {keys : List α} (hn : keys.Nodup)
    (values : List β) {i : Nat} {a : α} (h : keys[i]? = some a) : (keys.zip values).lookup a = values[i]? := by
  induction keys generalizing values i with
  | nil => simp at h
  | cons k keys ih =>
    obtain ⟨hk, hn⟩ := List.nodup_cons.mp hn
    cases values with
    | nil => simp
    | cons v values =>
      cases i with
      | zero => simp_all
      | succ i =>
        have hne : a ≠ k := fun e => hk (e ▸ List.mem_of_getElem? (by simpa using h))
        rw [List.zip_cons_cons, List.lookup_cons, beq_false_of_ne hne]
        simpa using ih hn values (by simpa using h)

/-- The capped demands of the participating bays, in allocation order (R112). -/
def State.demands (s : State) : List Nat := s.participants.map (fun b => (s.bay b).cappedDemand)

/-- A participating bay's target is its share of the budget left for active sessions (R113, R114). -/
theorem State.targetOf_participant {s : State} (h : s.admission.Nodup) {i : Nat} {b : BayNo}
    (hi : s.participants[i]? = some b) :
    targetOf s.targets b = (shares s.activeBudget s.demands).getD i 0 := by
  rw [targetOf, State.targets, lookup_zip_of_getElem? (State.participants_nodup h) _ hi, ← List.getD_eq_getElem?_getD]
  rfl

/-- A bay that takes no part has target 0 (R112). -/
theorem State.targetOf_of_not_mem {s : State} {b : BayNo} (h : b ∉ s.participants) : targetOf s.targets b = 0 := by
  have hl : s.targets.lookup b = none := by
    refine List.lookup_eq_none_iff.mpr fun x hx => ?_
    have hm : x.1 ∈ s.participants := (List.of_mem_zip hx).1
    exact bne_iff_ne.mpr fun e => h (e ▸ hm)
  rw [targetOf, hl, Option.getD_none]

/-! ### The steps of a recompute at a bay (R115 to R121) -/

theorem Setpoint.reissued.target {x y : Setpoint} (h : x.reissued y) : y.target = x.target := by
  unfold Setpoint.reissued at h
  rw [h]

theorem Setpoint.reissued.throttled {x y : Setpoint} (h : x.reissued y) : y.throttled = x.throttled := by
  unfold Setpoint.reissued at h
  rw [h]

@[simp] theorem Setpoint.issue_issued (x : Setpoint) (v : Nat) : (x.issue v).issued = v := by
  rw [Setpoint.issue_spec]

@[simp] theorem Setpoint.issue_acked (x : Setpoint) (v : Nat) : (x.issue v).acked = x.acked := by
  rw [Setpoint.issue_spec]

@[simp] theorem Setpoint.issue_target (x : Setpoint) (v : Nat) : (x.issue v).target = x.target := by
  rw [Setpoint.issue_spec]

/-- The setpoint records of a recompute after the targets and the decrease step (R115, R119). -/
def State.lowered (s : State) : Vector Setpoint 48 := s.retarget.decreaseStep.power.setpoints

theorem State.lowered_getElem (s : State) (b : BayNo) : s.lowered[b] =
    if (s.bay b).state = .active ∧ (s.retarget.setpoint b).target ≤ (s.retarget.setpoint b).acked then
      (s.retarget.setpoint b).issue (s.retarget.setpoint b).target else s.retarget.setpoint b := by
  have hb : s.retarget.bay b = s.bay b := State.bay_of_bays (by simp) b
  have hl : s.lowered[b] = s.retarget.decreaseStep.setpoint b := rfl
  rw [hl, State.decreaseStep_setpoint, hb]

/-- A recompute's records are the lowered ones, raised over the participating bays in allocation order (R120, R121). -/
theorem State.recompute_setpoints (s : State) : s.recompute.power.setpoints =
    s.participants.foldl (raiseOne s.power.budget) s.lowered := by
  have hraise : ∀ u : State, u.raiseStep.power.setpoints =
      u.participants.foldl (raiseOne u.power.budget) u.power.setpoints := fun _ => rfl
  have hbudget : s.retarget.decreaseStep.power.budget = s.power.budget := by
    simp only [PowerUnit.budget, State.decreaseStep, State.retarget, State.retargetTo]
  rw [State.recompute_power, hraise, hbudget, State.participants_of (s := s) (by simp) (by simp)]
  rfl

theorem State.recompute_getElem (s : State) (b : BayNo) : s.recompute.setpoint b =
    (s.participants.foldl (raiseOne s.power.budget) s.lowered)[b] := by
  rw [← State.recompute_setpoints]
  rfl

theorem State.lowered_reissued (s : State) (b : BayNo) : (s.retarget.setpoint b).reissued s.lowered[b] := by
  rw [State.lowered_getElem]
  split
  · exact Setpoint.issue_reissued _ _
  · exact .refl _

/-- A recompute issues a retargeted record anew, at most. -/
theorem State.recompute_reissued (s : State) (b : BayNo) :
    (s.retarget.setpoint b).reissued (s.recompute.setpoint b) := by
  rw [State.recompute_getElem]
  exact (s.lowered_reissued b).trans (foldl_raiseOne_getElem _ _ _ b).1

theorem State.retarget_acked (s : State) (b : BayNo) : (s.retarget.setpoint b).acked = (s.setpoint b).acked := by
  rw [State.retarget_setpoint]
  split <;> rfl

theorem State.retarget_issued (s : State) (b : BayNo) : (s.retarget.setpoint b).issued = (s.setpoint b).issued := by
  rw [State.retarget_setpoint]
  split <;> rfl

theorem State.retarget_seq (s : State) (b : BayNo) : (s.retarget.setpoint b).seq = (s.setpoint b).seq := by
  rw [State.retarget_setpoint]
  split <;> rfl

theorem State.retarget_target (s : State) (b : BayNo) :
    (s.retarget.setpoint b).target = (s.recompute.setpoint b).target := (s.recompute_reissued b).target.symm

/-- An ACTIVE bay's target is what it is handed out (R112 to R115). -/
theorem State.recompute_target {s : State} {b : BayNo} (h : (s.bay b).state = .active) :
    (s.recompute.setpoint b).target = targetOf s.targets b := by
  rw [← State.retarget_target, State.retarget_setpoint, if_pos h]

/-- An ACTIVE bay is throttled exactly while its target is below its capped demand (R115). -/
theorem State.recompute_throttled {s : State} {b : BayNo} (h : (s.bay b).state = .active) :
    (s.recompute.setpoint b).throttled = decide ((s.recompute.setpoint b).target < (s.bay b).cappedDemand) := by
  rw [(s.recompute_reissued b).throttled, State.recompute_target h, State.retarget_setpoint, if_pos h]

/-- The decrease step issues an ACTIVE bay its target, where that is no more than its acked value (R119). -/
theorem State.lowered_of_le {s : State} {b : BayNo} (h : (s.bay b).state = .active) :
    (s.recompute.setpoint b).target ≤ (s.setpoint b).acked →
      s.lowered[b] = (s.retarget.setpoint b).issue (s.retarget.setpoint b).target := by
  rw [← State.retarget_target, ← State.retarget_acked, State.lowered_getElem]
  exact fun hle => if_pos ⟨h, hle⟩

/-- An ACTIVE bay whose target is no more than its acked value is issued its target (R119). -/
theorem State.recompute_of_le {s : State} {b : BayNo} (h : (s.bay b).state = .active)
    (hle : (s.recompute.setpoint b).target ≤ (s.setpoint b).acked) :
    s.recompute.setpoint b = (s.retarget.setpoint b).issue (s.retarget.setpoint b).target := by
  have hl := State.lowered_of_le h hle
  rw [State.recompute_getElem, (foldl_raiseOne_getElem s.power.budget s.participants s.lowered b).2, hl]
  rw [hl, Setpoint.issue_target, Setpoint.issue_acked, State.retarget_target, State.retarget_acked]
  exact .inr hle

/-- The decrease step leaves a bay whose target is above its acked value (R119). -/
theorem State.lowered_of_lt {s : State} {b : BayNo} (hlt : (s.setpoint b).acked < (s.recompute.setpoint b).target) :
    s.lowered[b] = s.retarget.setpoint b := by
  rw [← State.retarget_target, ← State.retarget_acked] at hlt
  rw [State.lowered_getElem, if_neg (by omega)]

/-! ### The raise step (R120) -/

/-- A bay of the list is raised once, over the records that the bays before it have left. -/
theorem foldl_raiseOne_split (budget : Nat) (v : Vector Setpoint 48) {front back : List BayNo} {b : BayNo}
    (h : (front ++ b :: back).Nodup) :
    ((front ++ b :: back).foldl (raiseOne budget) v)[b] = (raiseOne budget (front.foldl (raiseOne budget) v) b)[b] ∧
      (front.foldl (raiseOne budget) v)[b] = v[b] := by
  obtain ⟨hb, hn⟩ := List.nodup_cons.mp (List.nodup_middle.mp h)
  simp only [List.mem_append, not_or] at hb
  rw [List.foldl_append, List.foldl_cons]
  exact ⟨(foldl_raiseOne_getElem budget back _ b).2 (.inl hb.2),
    (foldl_raiseOne_getElem budget front v b).2 (.inl hb.1)⟩

/-- The raise step at a bay is one issue (R120). -/
theorem raiseOne_issues (budget : Nat) (v : Vector Setpoint 48) (b : BayNo) :
    ∃ x, (raiseOne budget v b)[b] = v[b].issue x := by
  have hkept : v[b].issue v[b].issued = v[b] := by simp [Setpoint.issue]
  have hself : ∀ x, (v.set b x)[b] = x := fun x => by simp
  unfold raiseOne
  dsimp only
  repeat' split
  · exact ⟨_, hkept.symm⟩
  · exact ⟨_, hself _⟩
  · exact ⟨_, hkept.symm⟩
  · exact ⟨_, hself _⟩

/-- A recompute issues a bay once, at most (R117). -/
theorem State.recompute_issues {s : State} (hn : s.admission.Nodup) (b : BayNo) :
    ∃ x, s.recompute.setpoint b = (s.retarget.setpoint b).issue x := by
  by_cases hlt : (s.setpoint b).acked < (s.recompute.setpoint b).target
  · rw [State.recompute_getElem, ← State.lowered_of_lt hlt]
    by_cases hm : b ∈ s.participants
    · obtain ⟨front, back, e⟩ := List.append_of_mem hm
      obtain ⟨h1, h2⟩ := foldl_raiseOne_split s.power.budget s.lowered (e ▸ State.participants_nodup hn)
      rw [e, h1, ← h2]
      exact raiseOne_issues _ _ _
    · rw [(foldl_raiseOne_getElem _ _ _ b).2 (.inl hm)]
      exact ⟨_, (by simp [Setpoint.issue] : s.lowered[b] = s.lowered[b].issue s.lowered[b].issued)⟩
  · by_cases ha : (s.bay b).state = .active
    · exact ⟨_, State.recompute_of_le ha (by omega)⟩
    · rw [State.recompute_setpoint_of_inactive ha, State.retarget_setpoint, if_neg ha]
      exact ⟨_, (by simp [Setpoint.issue] : s.setpoint b = (s.setpoint b).issue (s.setpoint b).issued)⟩

/-- The sequence steps exactly where a recompute changes the issued value (R117). -/
theorem State.recompute_seq {s : State} (hn : s.admission.Nodup) (b : BayNo) : (s.recompute.setpoint b).seq =
    if (s.recompute.setpoint b).issued = (s.setpoint b).issued then (s.setpoint b).seq
    else ((s.setpoint b).seq + 1) % 16 := by
  obtain ⟨x, e⟩ := State.recompute_issues hn b
  rw [e, Setpoint.issue_spec, State.retarget_issued, State.retarget_seq]

/-- Settles O35: the target, the flag and the issue of a bay from the steps of the recompute, the notices from its
queues. -/
theorem recomputeSetsTargets : Obligations.RecomputeSetsTargets := by
  unfold Obligations.RecomputeSetsTargets
  intro s hn t caps taking access
  have haccess : access = fun b => (s.bay b).accessSession := by
    funext b
    simp only [access, Bay.accessSession]
    cases (s.bay b).session <;> rfl
  refine ⟨fun b hb => ⟨fun k hk => ?_, fun i hi => ?_, fun hm => ?_, State.recompute_throttled hb, fun hle => ?_,
    State.recompute_acked s b, State.recompute_seq hn b⟩, fun b hb => State.recompute_setpoint_of_inactive hb, ?_, rfl,
    fun p => ?_, State.recompute_eq s⟩
  · simp [Bay.cappedDemand, hb, hk]
  · rw [State.recompute_target hb, State.targetOf_participant hn hi]
    rfl
  · rw [State.recompute_target hb, State.targetOf_of_not_mem hm]
  · simp only [t]
    rw [← State.retarget_target, State.recompute_of_le hb hle, Setpoint.issue_issued]
  · rw [haccess]
    rfl
  · rw [State.queueAfter_eq]
    exact State.recompute_queue s p

/-! ### The committed load (R116) -/

/-- The committed current of a bay: the larger of issued and acked (R116). -/
def Setpoint.committed (x : Setpoint) : Nat := max x.issued x.acked

theorem committedLoad_eq_sum (v : Vector Setpoint 48) : committedLoad v = ∑ b : BayNo, v[b].committed :=
  (Fin.sum_univ_def _).symm

/-- A write of one record changes the load by what it changes the bay's committed current. -/
theorem committedLoad_set (v : Vector Setpoint 48) (b : BayNo) (x : Setpoint) :
    committedLoad (v.set b x) + v[b].committed = committedLoad v + x.committed := by
  have hother : ∀ c ∈ Finset.univ.erase b, (v.set b x)[c].committed = v[c].committed := by
    intro c hc
    congr 1
    simp only [Fin.getElem_fin]
    exact Vector.getElem_set_ne _ _ fun h => (Finset.mem_erase.mp hc).1 (Fin.ext h.symm)
  have hself : (v.set b x)[b] = x := by simp
  rw [committedLoad_eq_sum, committedLoad_eq_sum, ← Finset.add_sum_erase _ _ (Finset.mem_univ b),
    ← Finset.add_sum_erase _ (fun c : BayNo => v[c].committed) (Finset.mem_univ b), Finset.sum_congr rfl hother, hself]
  omega

/-- The raise step at a bay keeps the load within the budget, or as it was, and within the budget where the bay's
committed current rises (R120). -/
theorem raiseOne_load (budget : Nat) (v : Vector Setpoint 48) (b : BayNo) :
    committedLoad (raiseOne budget v b) ≤ max budget (committedLoad v) ∧
      ∀ c : BayNo, v[c].committed < (raiseOne budget v b)[c].committed →
        committedLoad (raiseOne budget v b) ≤ budget := by
  suffices h : committedLoad (raiseOne budget v b) ≤ max budget (committedLoad v) ∧
      (v[b].committed < (raiseOne budget v b)[b].committed → committedLoad (raiseOne budget v b) ≤ budget) by
    refine ⟨h.1, fun c hc => ?_⟩
    by_cases e : c = b
    · exact h.2 (e ▸ hc)
    · rw [(raiseOne_getElem budget v b c).2 (.inl e)] at hc
      exact absurd hc (lt_irrefl _)
  have hset := committedLoad_set v b
  have hself : ∀ x, (v.set b x)[b] = x := fun x => by simp
  unfold raiseOne
  dsimp only
  split
  · exact ⟨le_max_right _ _, by simp⟩
  split
  · have := hset (v[b].issue v[b].target)
    rw [hself]
    simp only [Setpoint.committed, Setpoint.issue_issued, Setpoint.issue_acked] at this ⊢
    omega
  split
  · exact ⟨le_max_right _ _, by simp⟩
  · have := hset (v[b].issue
      (max v[b].issued v[b].acked + min (v[b].target - max v[b].issued v[b].acked) (budget - committedLoad v)))
    rw [hself]
    simp only [Setpoint.committed, Setpoint.issue_issued, Setpoint.issue_acked] at this ⊢
    omega

theorem le_max_trans {budget x y z : Nat} (h : x ≤ max budget y) (h' : y ≤ max budget z) : x ≤ max budget z := by
  omega

/-- The raises keep the load within the budget, or as it was, and within the budget where a committed current rises
(R120). -/
theorem foldl_raiseOne_load (budget : Nat) (l : List BayNo) (v : Vector Setpoint 48) :
    committedLoad (l.foldl (raiseOne budget) v) ≤ max budget (committedLoad v) ∧
      ∀ c : BayNo, v[c].committed < (l.foldl (raiseOne budget) v)[c].committed →
        committedLoad (l.foldl (raiseOne budget) v) ≤ budget := by
  induction l generalizing v with
  | nil => exact ⟨le_max_right _ _, fun c h => absurd h (lt_irrefl _)⟩
  | cons b l ih =>
    obtain ⟨hload, hrise⟩ := raiseOne_load budget v b
    obtain ⟨ihload, ihrise⟩ := ih (raiseOne budget v b)
    rw [List.foldl_cons]
    refine ⟨le_max_trans ihload hload, fun c hc => (Nat.lt_or_ge _ _).elim (fun e => ?_) fun e =>
      ihrise c (lt_of_le_of_lt e hc)⟩
    have hmax := le_max_trans ihload (z := budget) (le_max_of_le_left (hrise c e))
    rwa [max_self] at hmax

/-- Neither the new targets nor the decrease step raises a committed current (R119). -/
theorem State.lowered_committed_le (s : State) (b : BayNo) : s.lowered[b].committed ≤ (s.setpoint b).committed := by
  have hi := s.retarget_issued b
  have ha := s.retarget_acked b
  rw [State.lowered_getElem]
  split
  · rw [Setpoint.committed, Setpoint.issue_issued, (Setpoint.issue_reissued _ _).acked, Setpoint.committed]
    omega
  · rw [Setpoint.committed, Setpoint.committed, hi, ha]

theorem State.lowered_load_le (s : State) : committedLoad s.lowered ≤ committedLoad s.power.setpoints := by
  rw [committedLoad_eq_sum, committedLoad_eq_sum]
  exact Finset.sum_le_sum fun b _ => s.lowered_committed_le b

/-! ### The raise of one bay (R120) -/

/-- What a bay is issued by the raise step, from its target and the load (R120). -/
def Setpoint.raised (x : Setpoint) (target budget load : Nat) : Nat :=
  if target ≤ x.issued then target
  else if x.committed + min (target - x.committed) (budget - load) < 6 then x.issued
  else x.committed + min (target - x.committed) (budget - load)

/-- An issued value that rises is at least 6 A and at most the target (R120). -/
theorem Setpoint.raised_bounds {x : Setpoint} {target budget load : Nat} (h : x.acked < target)
    (hup : x.issued < x.raised target budget load) :
    6 ≤ x.raised target budget load ∧ x.raised target budget load ≤ target := by
  unfold Setpoint.raised Setpoint.committed at hup ⊢
  split_ifs at hup ⊢ <;> omega

/-- A bay whose target is above its acked value is raised by what the spare allows (R120). -/
theorem raiseOne_issued {budget : Nat} {v : Vector Setpoint 48} {b : BayNo} (h : v[b].acked < v[b].target) :
    (raiseOne budget v b)[b].issued = v[b].raised v[b].target budget (committedLoad v) := by
  unfold raiseOne Setpoint.raised
  dsimp only
  rw [if_neg (by omega)]
  split
  · simp
  · rw [Setpoint.committed]
    split
    · rfl
    · simp

/-- The records that a bay finds when its turn to be raised has come (R120). -/
def State.raisedOver (s : State) (front : List BayNo) : Vector Setpoint 48 :=
  front.foldl (raiseOne s.power.budget) s.lowered

theorem State.recompute_issued {s : State} (hn : s.admission.Nodup) {front back : List BayNo} {b : BayNo}
    (e : s.participants = front ++ b :: back) (hlt : (s.setpoint b).acked < (s.recompute.setpoint b).target) :
    (s.recompute.setpoint b).issued = (s.setpoint b).raised (s.recompute.setpoint b).target s.power.budget
      (committedLoad (s.raisedOver front)) := by
  obtain ⟨h1, h2⟩ := foldl_raiseOne_split s.power.budget s.lowered (e ▸ State.participants_nodup hn)
  rw [State.lowered_of_lt hlt] at h2
  have ht := s.retarget_target b
  have ha := s.retarget_acked b
  have hi := s.retarget_issued b
  have hr : (s.recompute.setpoint b).issued = (raiseOne s.power.budget (s.raisedOver front) b)[b].issued := by
    rw [State.recompute_getElem, e, h1]
    rfl
  rw [hr, raiseOne_issued (by rw [State.raisedOver, h2]; omega), State.raisedOver, h2]
  simp only [Setpoint.raised, Setpoint.committed, ht, ha, hi]
  rfl

/-- The value that counts for a bay in the load: what it has been issued where its turn has come or it has been
lowered, and else what it was issued before (R120). -/
theorem State.raisedOver_issued {s : State} (hn : s.admission.Nodup) {front back : List BayNo}
    (e : s.participants = front ++ back) (c : BayNo) : (s.raisedOver front)[c].issued =
      if c ∈ front ∨ (s.bay c).state = .active ∧ (s.recompute.setpoint c).target ≤ (s.setpoint c).acked then
        (s.recompute.setpoint c).issued else (s.setpoint c).issued := by
  have hnod := State.participants_nodup hn
  rw [e, List.nodup_append'] at hnod
  obtain ⟨-, -, hdis⟩ := hnod
  by_cases hf : c ∈ front
  · rw [if_pos (.inl hf), State.recompute_getElem, e, List.foldl_append,
      (foldl_raiseOne_getElem _ _ _ c).2 (.inl fun hb => hdis hf hb)]
    rfl
  · rw [State.raisedOver, (foldl_raiseOne_getElem _ _ _ c).2 (.inl hf), State.lowered_getElem,
      State.retarget_target, State.retarget_acked]
    simp only [hf, false_or]
    split
    · rename_i hc
      rw [Setpoint.issue_issued, State.recompute_of_le hc.1 hc.2, Setpoint.issue_issued, Setpoint.issue_target,
        State.retarget_target]
    · exact s.retarget_issued c

theorem State.raisedOver_acked (s : State) (front : List BayNo) (c : BayNo) :
    (s.raisedOver front)[c].acked = (s.setpoint c).acked := by
  rw [← State.retarget_acked, State.raisedOver]
  exact ((s.lowered_reissued c).trans (foldl_raiseOne_getElem _ _ _ c).1).acked

/-- A bay that takes no part is not raised (R120). -/
theorem State.recompute_of_not_mem {s : State} {b : BayNo} (hm : b ∉ s.participants)
    (hlt : (s.setpoint b).acked < (s.recompute.setpoint b).target) :
    (s.recompute.setpoint b).issued = (s.setpoint b).issued := by
  rw [State.recompute_getElem, (foldl_raiseOne_getElem _ _ _ b).2 (.inl hm), State.lowered_of_lt hlt]
  exact s.retarget_issued b

/-- Settles O36: the load from the single raises, and the raise of a bay from the records that its turn finds. -/
theorem raisesStayWithinBudget : Obligations.RaisesStayWithinBudget := by
  unfold Obligations.RaisesStayWithinBudget
  intro s hn t
  obtain ⟨hload, hrise⟩ := foldl_raiseOne_load s.power.budget s.participants s.lowered
  have hlow := s.lowered_load_le
  have hset : committedLoad t.power.setpoints =
      committedLoad (s.participants.foldl (raiseOne s.power.budget) s.lowered) := by
    rw [← State.recompute_setpoints]
  refine ⟨by omega, fun b => ⟨fun hup => ?_, fun hlt hup => ?_, fun front back e hlt => ?_⟩⟩
  · rw [hset]
    refine hrise b (lt_of_le_of_lt (s.lowered_committed_le b) ?_)
    rw [← State.recompute_getElem]
    exact hup
  · by_cases hm : b ∈ s.participants
    · obtain ⟨front, back, e⟩ := List.append_of_mem hm
      have hi := State.recompute_issued hn e hlt
      simp only [t] at hup hlt ⊢
      rw [hi] at hup ⊢
      exact Setpoint.raised_bounds hlt hup
    · have := State.recompute_of_not_mem hm hlt
      simp only [t] at hup
      omega
  · intro standing load base value
    have hcount : committedLoad (s.raisedOver front) = load := by
      simp only [committedLoad, load, State.raisedOver_issued hn e, State.raisedOver_acked]
      rfl
    rw [State.recompute_issued hn e hlt, hcount]
    rfl

end Sys2Proof.Machine
end

