-- ==== Sys2Proof/Proofs/LevelSettings.lean ====
section
/-! SUPPORT. The level settings and the feed code (R107 to R111, R167): what they write, the FEED of a changed budget
and the recompute that follows: O32 and O33. -/

namespace Sys2Proof.Machine

/-! ### FEED and the recompute of RUN (R109, R111) -/

/-- Where the tier stands, FEED goes to S exactly where the budget has changed (R111). -/
theorem State.raiseFeed_of_tier {s u : State} (h : u.power.tier = s.power.tier) : s.raiseFeed u =
    if u.power.budget ≠ s.power.budget then u.raise .s (.feed s.power.tier u.power.budget) else u := by
  simp [State.raiseFeed, h]

/-- A change of the tier raises FEED to S (R111). -/
theorem State.raiseFeed_of_tier_ne {s u : State} (h : u.power.tier ≠ s.power.tier) :
    s.raiseFeed u = u.raise .s (.feed u.power.tier u.power.budget) := by
  simp [State.raiseFeed, h]

@[simp] theorem State.raiseFeed_opState (s u : State) : (s.raiseFeed u).opState = u.opState := by
  unfold State.raiseFeed
  split <;> simp

@[simp] theorem State.raiseFeed_power (s u : State) : (s.raiseFeed u).power = u.power := by
  unfold State.raiseFeed
  split <;> simp

@[simp] theorem State.raiseFeed_bus (s u : State) : (s.raiseFeed u).bus = u.bus := by
  unfold State.raiseFeed
  split <;> simp

/-- A recompute leaves the budget (R111). -/
@[simp] theorem State.recompute_budget (s : State) : s.recompute.power.budget = s.power.budget := by
  rw [State.recompute_eq]
  rfl

@[simp] theorem State.recomputeInRun_budget (s : State) : s.recomputeInRun.power.budget = s.power.budget := by
  unfold State.recomputeInRun
  split
  · exact s.recompute_budget
  · rfl

/-- What follows the write of a level setting: FEED where the budget has changed, and in RUN a recompute (R109,
R111). -/
def State.announced (s u : State) : State := (s.raiseFeed u).recomputeInRun

theorem State.announced_eq {s u : State} (ht : u.power.tier = s.power.tier) (ho : u.opState = s.opState) :
    s.announced u =
      let v := if u.power.budget ≠ s.power.budget then u.raise .s (.feed s.power.tier u.power.budget) else u
      if s.opState = .run then v.recompute else v := by
  rw [State.announced, State.recomputeInRun, State.raiseFeed_opState, ho, State.raiseFeed_of_tier ht]

@[simp] theorem State.announced_budget (s u : State) : (s.announced u).power.budget = u.power.budget := by
  simp [State.announced]

@[simp] theorem State.announced_bus (s u : State) : (s.announced u).bus = u.bus := by
  simp [State.announced]

/-! ### SET CAP and SET LEVEL (R109, R110, R167) -/

theorem setCap_isRequest (h l : Byte) : IsRequest (.setCap .s [h, l]) .s infoSetCap ownSetCap [h, l] :=
  ⟨fun _ => rfl, by simp, fun t P => ownSetCap_withPorts t P .s [h, l]⟩

theorem setLevel_isRequest (c1 c0 b1 b0 f1 f0 : Byte) : IsRequest (.setLevel .s [c1, c0, b1, b0, f1, f0]) .s
    infoSetLevel ownSetLevel [c1, c0, b1, b0, f1, f0] :=
  ⟨fun _ => rfl, by simp, fun t P => ownSetLevel_withPorts t P .s [c1, c0, b1, b0, f1, f0]⟩

/-- The SUSPENDED bays take the new F (R109). -/
theorem State.refall_setpoint (s : State) (b : BayNo) : s.refall.setpoint b =
    if (s.bay b).state = .suspended then { s.setpoint b with
      issued := s.power.fallback, acked := s.power.fallback,
      seq := if s.power.fallback = (s.setpoint b).issued then (s.setpoint b).seq else ((s.setpoint b).seq + 1) % 16 }
    else s.setpoint b := by
  simp only [State.refall, State.setpoint, Fin.getElem_fin, Vector.getElem_ofFn, Fin.eta, Setpoint.issue_spec]
  rfl

/-- The level as SET LEVEL writes it, before FEED and the recompute: in RUN a change of F has reached the SUSPENDED bays
(R109). -/
def State.levelAt (s : State) (c b f : Nat) : State :=
  let u : State := { s with power := { s.power with rating := c, base := b, fallback := f } }
  if s.opState = .run ∧ f ≠ s.power.fallback then u.refall else u

theorem State.levelAt_eq (s : State) (c b f : Nat) : s.levelAt c b f = { s with power := { s.power with
    rating := c, base := b, fallback := f, setpoints := (s.levelAt c b f).power.setpoints } } := by
  unfold State.levelAt
  dsimp only
  split <;> rfl

theorem State.levelAt_setpoint (s : State) (c b f : Nat) (a : BayNo) : (s.levelAt c b f).setpoint a =
    if s.opState = .run ∧ f ≠ s.power.fallback ∧ (s.bay a).state = .suspended then
      { s.setpoint a with
        issued := f, acked := f,
        seq := if f = (s.setpoint a).issued then (s.setpoint a).seq else ((s.setpoint a).seq + 1) % 16 }
    else s.setpoint a := by
  unfold State.levelAt
  dsimp only
  split
  · rename_i h
    simp only [State.refall_setpoint, h, true_and, ne_eq, not_false_eq_true]
    rfl
  · rename_i h
    exact (if_neg fun h' => h ⟨h'.1, h'.2.1⟩).symm

/-- The level as SET CAP writes it, before FEED and the recompute (R110). -/
def State.capAt (s : State) (k : Nat) : State := { s with power := { s.power with cap := k } }

/-- SET CAP writes the cap, and FEED and the recompute follow (R110, R111). -/
theorem setCap_taken {s : State} (hs : s.ready .s) (h l : Byte) :
    let k := min (of16 h l) 2000
    ∃ t, exec (.setCap .s [h, l]) s = .next t ∧ s.answeredWith (s.announced (s.capAt k)) t .s .ok
      (u16 k ++ u16 (s.capAt k).power.budget) (decide (2000 < of16 h l)) := by
  intro k
  have hown : ownSetCap .s [h, l] s = (s.announced (s.capAt k),
      .okClamped (u16 k ++ u16 (s.capAt k).power.budget) (decide (2000 < of16 h l))) := by
    rw [← s.announced_budget]
    rfl
  have hr : s.portRefusal .s infoSetCap [h, l] = none := State.portRefusal_none rfl (.inl rfl) (by simp [infoSetCap])
  obtain ⟨t, he, ha⟩ := (setCap_isRequest h l).answered hs hr rfl hown rfl (by simp [State.capAt])
  exact ⟨t, he, by simpa [Reply.okClamped, Status.carriedOut] using ha⟩

/-- SET LEVEL writes the level settings, and FEED and the recompute follow (R109, R111, R167). -/
theorem setLevel_taken {s : State} (hs : s.ready .s) (c1 c0 b1 b0 f1 f0 : Byte) :
    let c := min (of16 c1 c0) 2000
    let b := min (of16 b1 b0) 2000
    let f := min (of16 f1 f0) 16
    ∃ t, exec (.setLevel .s [c1, c0, b1, b0, f1, f0]) s = .next t ∧
      s.answeredWith (s.announced (s.levelAt c b f)) t .s .ok
        (u16 c ++ u16 b ++ u16 f ++ u16 (s.levelAt c b f).power.budget)
        (decide (2000 < of16 c1 c0 ∨ 2000 < of16 b1 b0 ∨ 16 < of16 f1 f0)) := by
  intro c b f
  have hown : ownSetLevel .s [c1, c0, b1, b0, f1, f0] s = (s.announced (s.levelAt c b f),
      .okClamped (u16 c ++ u16 b ++ u16 f ++ u16 (s.levelAt c b f).power.budget)
        (decide (2000 < of16 c1 c0) || decide (2000 < of16 b1 b0) || decide (16 < of16 f1 f0))) := by
    rw [← s.announced_budget]
    rfl
  have hr : s.portRefusal .s infoSetLevel [c1, c0, b1, b0, f1, f0] = none :=
    State.portRefusal_none rfl (.inl rfl) (by simp [infoSetLevel])
  have hbus : (s.levelAt c b f).bus = s.bus := by rw [State.levelAt_eq]
  obtain ⟨t, he, ha⟩ := (setLevel_isRequest c1 c0 b1 b0 f1 f0).answered hs hr rfl hown rfl (by simp [hbus])
  exact ⟨t, he, by simpa [Reply.okClamped, Status.carriedOut, Bool.decide_or, Bool.or_assoc] using ha⟩

/-- Settles O32: the write of the settings, then FEED by the changed budget and the recompute of RUN. -/
theorem levelSettingsTaken : Obligations.LevelSettingsTaken := by
  unfold Obligations.LevelSettingsTaken
  intro s c1 c0 b1 b0 f1 f0 h l hs pct budget old finish
  have hpct : s.power.tier.pct = pct := by
    simp only [pct]
    cases s.power.tier <;> rfl
  have hfinish : ∀ u : State, u.power.tier = s.power.tier → u.opState = s.opState →
      s.announced u = finish u u.power.budget := fun u ht ho => by
    have hold : s.power.budget = old := by simp only [PowerUnit.budget, hpct, old, budget]
    rw [State.announced_eq ht ho, hold]
  refine ⟨?_, ?_⟩
  · intro k new
    have hnew : (s.capAt k).power.budget = new := by simp only [PowerUnit.budget, State.capAt, hpct, new, budget]
    obtain ⟨t, he, ha⟩ := setCap_taken hs h l
    refine ⟨t, he, ?_⟩
    rwa [hfinish (s.capAt k) rfl rfl, hnew] at ha
  · intro c b f new
    have hnew : (s.levelAt c b f).power.budget = new := by
      rw [State.levelAt_eq]
      simp only [PowerUnit.budget, hpct, new, budget]
    obtain ⟨t, he, ha⟩ := setLevel_taken hs c1 c0 b1 b0 f1 f0
    rw [hfinish (s.levelAt c b f) (by rw [State.levelAt_eq]) (by rw [State.levelAt_eq]), hnew] at ha
    exact ⟨t, s.levelAt c b f, he, s.levelAt_setpoint c b f, s.levelAt_eq c b f, ha⟩

/-! ### The feed code (R107, R108) -/

/-- The four feed codes and their tiers (R107). -/
theorem tierOf_eq (code : BitVec 2) : tierOf code =
    if code = 0#2 then .normal else if code = 1#2 then .reduced else if code = 2#2 then .critical else .shed := by
  decide +revert

theorem exec_debounceExpiry_of_due {s : State} {d : Seconds} (hd : s.power.debounce = some d)
    (hr : s.reached d = true) :
    exec .debounceExpiry s = .next s.takeCandidate.settleBus := by
  simp [exec, execDebounceExpiry, hd, hr]

/-- A candidate that names the tier in force stops the timer alone (R108). -/
theorem State.takeCandidate_of_eq {s : State} (h : tierOf s.power.candidate = s.power.tier) :
    s.takeCandidate = { s with power := { s.power with debounce := none } } := by
  simp [State.takeCandidate, h]

/-- A candidate that names another tier brings it into force, with FEED and the recompute of RUN (R108, R111). -/
theorem State.takeCandidate_of_ne {s : State} (h : tierOf s.power.candidate ≠ s.power.tier) :
    let u : State := { s with power := { s.power with tier := tierOf s.power.candidate, debounce := none } }
    s.takeCandidate = (u.raise .s (.feed (tierOf s.power.candidate) u.power.budget)).recomputeInRun := by
  simp only [State.takeCandidate, if_neg h]
  rw [State.raiseFeed_of_tier_ne h]

/-- Settles O33: the change of the code, the timer that is not due, and the candidate that is taken. -/
theorem feedCodeIsDebounced : Obligations.FeedCodeIsDebounced := by
  unfold Obligations.FeedCodeIsDebounced
  intro s code
  refine ⟨fun h => ?_, fun h => ?_, fun h => ?_, fun d hd hr => ?_⟩
  · simp [exec, execFeedCodeChange, State.feedCodeIs, h, State.deadline]
  · simp [exec, execFeedCodeChange, State.feedCodeIs, h]
  · have hdue : s.isDue s.power.debounce = false := by
      cases hd : s.power.debounce with
      | none => rfl
      | some d => exact h d hd
    simp [exec, execDebounceExpiry, hdue]
  · rw [exec_debounceExpiry_of_due hd hr, ← tierOf_eq]
    intro tier u
    refine ⟨fun ht hq => ?_, fun ht => ?_⟩
    · have hu : u = { s with power := { s.power with debounce := none } } := by
        simp only [u, ht]
      rw [State.takeCandidate_of_eq ht, ← hu, State.settleBus_of_quiet (s := u) hq]
    · rw [State.takeCandidate_of_ne ht]
      rfl

end Sys2Proof.Machine
end

