-- ==== Sys2Proof/Proofs/BayLoads.lean ====
section
/-! SUPPORT. The load of a bay, which is what the power unit reads of it (R111, R112), and which only the rise, the
suspension and the end of a session and its demand change. -/

namespace Sys2Proof.Machine

/-! ### The load of a bay (R91, R97, R112) -/

/-- What the power unit reads of a bay: no session, a suspended session, or an active one with its capped demand. -/
inductive Load where
  | idle
  | standing
  | drawing (demand : Nat)
deriving DecidableEq

/-- The load of a bay by its session, whose reconnect deadline tells a suspended one (R91, R97). -/
def Bay.load (x : Bay) : Load :=
  match x.session with
  | none => .idle
  | some k => if k.reconnect.isSome then .standing
    else .drawing (if min k.demand x.rating < 6 then 0 else min k.demand x.rating)

/-- The load of a bay by its state (R111, R112). -/
def Bay.loadShown (x : Bay) : Load :=
  if x.state = .active then .drawing x.cappedDemand else if x.state = .suspended then .standing else .idle

theorem Bay.loadShown_drawing {x : Bay} (h : x.state = .active) : x.loadShown = .drawing x.cappedDemand := if_pos h

/-- In a right record session and state tell one load. -/
theorem Bay.Right.load_eq {x : Bay} (h : x.Right) : x.load = x.loadShown := by
  unfold Bay.load Bay.loadShown Bay.cappedDemand
  cases hk : x.session with
  | none =>
    have hs : ¬(x.state = .active ∨ x.state = .suspended) := by simp [← h.session, hk]
    simp only [not_or] at hs
    simp [hs.1, hs.2]
  | some k =>
    obtain ⟨-, hr⟩ := h.holder k hk
    rcases h.session.mp (by simp [hk]) with hs | hs <;> simp [hs, hr]

/-- The load of a bay. -/
def State.loadOf (s : State) (b : BayNo) : Load := (s.bay b).load

/-- Every bay's state shows its load, and a bay stands in the admission list once. -/
structure State.LoadsShown (s : State) : Prop where
  nodup : s.admission.Nodup
  load : ∀ b, s.loadOf b = (s.bay b).loadShown

theorem AgreeBut.loadsShown {ot : Option Nat} {s : State} (h : AgreeBut none ot s) : s.LoadsShown :=
  ⟨h.nodup, fun b => (h.bay b (by simp)).load_eq⟩

theorem State.LoadsShown.of_bays {s t : State} (h : t.LoadsShown) (hb : t.bays = s.bays)
    (ha : t.admission = s.admission) : s.LoadsShown :=
  ⟨ha ▸ h.nodup, fun b => by simpa only [State.loadOf, State.bay_of_bays hb] using h.load b⟩

/-! ### Work that leaves every load (R55 to R64) -/

theorem State.loadOf_of_bays {s t : State} (h : t.bays = s.bays) (b : BayNo) : t.loadOf b = s.loadOf b := by
  simp only [State.loadOf, State.bay_of_bays h]

theorem State.setBay_loadOf (s : State) (b c : BayNo) (x : Bay) :
    (s.setBay b x).loadOf c = if c = b then x.load else s.loadOf c := by
  simp only [State.loadOf, State.setBay_bay]
  split <;> rfl

theorem State.changeBay_loadOf (s : State) (b c : BayNo) (f : Bay → Bay) :
    (s.changeBay b f).loadOf c = if c = b then (f (s.bay b)).load else s.loadOf c := by
  simp only [State.loadOf, State.changeBay_bay]
  split <;> rfl

/-- A change of a bay that leaves its load leaves every load. -/
theorem State.changeBay_loadOf_kept {s : State} {b : BayNo} {f : Bay → Bay} (h : (f (s.bay b)).load = (s.bay b).load)
    (c : BayNo) : (s.changeBay b f).loadOf c = s.loadOf c := by
  rw [State.changeBay_loadOf]
  split
  · exact ‹c = b› ▸ h
  · rfl

theorem State.setBay_loadOf_kept {s : State} {b : BayNo} {x : Bay} (h : x.load = (s.bay b).load) (c : BayNo) :
    (s.setBay b x).loadOf c = s.loadOf c := by
  rw [State.setBay_loadOf]
  split
  · exact ‹c = b› ▸ h
  · rfl

theorem State.Matched.loadOf {s t : State} (h : s.Matched t) (c : BayNo) : t.loadOf c = s.loadOf c := by
  unfold State.loadOf
  rcases h.bay c with e | ⟨-, n, e⟩ <;> rw [e]
  rfl

/-- Matching keeps whether the states show the loads: a bay that it offers was FREE (R55). -/
theorem State.Matched.loadsShown {s t : State} (h : s.Matched t) (ht : t.LoadsShown) : s.LoadsShown := by
  have ha : t.admission = s.admission := by rw [h.frame]
  refine ⟨ha ▸ ht.nodup, fun c => ?_⟩
  rw [← h.loadOf c, ht.load c]
  rcases h.bay c with e | ⟨hf, n, e⟩ <;> rw [e]
  simp [Bay.loadShown, hf]

@[simp] theorem State.raise_loadOf (s : State) (p : Port) (n : Notice) (c : BayNo) :
    (s.raise p n).loadOf c = s.loadOf c :=
  State.loadOf_of_bays (by simp) c

@[simp] theorem State.raiseBoth_loadOf (s : State) (p : Port) (n : Notice) (c : BayNo) :
    (s.raiseBoth p n).loadOf c = s.loadOf c :=
  State.loadOf_of_bays (by simp) c

@[simp] theorem State.raiseTo_loadOf (s : State) (k : Nat) (n : Notice) (c : BayNo) :
    (s.raiseTo k n).loadOf c = s.loadOf c :=
  State.loadOf_of_bays (by simp) c

@[simp] theorem State.modTicket_loadOf (s : State) (n : Nat) (f : Ticket → Ticket) (c : BayNo) :
    (s.modTicket n f).loadOf c = s.loadOf c := rfl

@[simp] theorem State.issue_loadOf (s : State) (t : Ticket) (c : BayNo) : (s.issue t).loadOf c = s.loadOf c := rfl

@[simp] theorem State.leaveQueue_loadOf (s : State) (q : PoolNo) (n : Nat) (c : BayNo) :
    (s.leaveQueue q n).loadOf c = s.loadOf c := rfl

@[simp] theorem State.joinQueue_loadOf (s : State) (q : PoolNo) (n : Nat) (c : BayNo) :
    (s.joinQueue q n).loadOf c = s.loadOf c := rfl

@[simp] theorem State.toBack_loadOf (s : State) (q : PoolNo) (n : Nat) (c : BayNo) :
    (s.toBack q n).loadOf c = s.loadOf c := rfl

@[simp] theorem State.pointTo_loadOf (s : State) (q : PoolNo) (b c : BayNo) :
    (s.pointTo q b).loadOf c = s.loadOf c := rfl

@[simp] theorem State.dropBooking_loadOf (s : State) (b : BayNo) (n : Nat) (c : BayNo) :
    (s.dropBooking b n).loadOf c = s.loadOf c := rfl

@[simp] theorem State.noticeDropped_loadOf (s : State) (k : Booking) (w : DropReason) (c : BayNo) :
    (s.noticeDropped k w).loadOf c = s.loadOf c :=
  State.loadOf_of_bays (by simp) c

@[simp] theorem State.setSetpoint_loadOf (s : State) (b c : BayNo) (x : Setpoint) :
    (s.setSetpoint b x).loadOf c = s.loadOf c := rfl

@[simp] theorem State.recompute_loadOf (s : State) (c : BayNo) : s.recompute.loadOf c = s.loadOf c :=
  State.loadOf_of_bays (by simp) c

@[simp] theorem State.unname_loadOf (s : State) (b : BayNo) (n : Nat) (c : BayNo) :
    (s.unname b n).loadOf c = s.loadOf c := by
  unfold State.unname
  split
  · exact State.setBay_loadOf_kept (by exact rfl) c
  · rfl

@[simp] theorem State.freeTicket_loadOf (s : State) (n : Nat) (c : BayNo) : (s.freeTicket n).loadOf c = s.loadOf c := by
  unfold State.freeTicket
  cases s.ticket? n with
  | none => rfl
  | some t =>
    have hout : ∀ d, (if t.state = .waiting ∨ t.state = .offered then s.leaveQueue t.pool n else s).loadOf d =
        s.loadOf d := fun d => by split <;> rfl
    cases hb : t.bay with
    | none =>
      simp only [hb]
      exact hout c
    | some b =>
      simp only [hb]
      exact (State.unname_loadOf _ b n c).trans (hout c)

@[simp] theorem State.freeWith_loadOf (s : State) (n : Nat) (m : Notice) (c : BayNo) :
    (s.freeWith n m).loadOf c = s.loadOf c := by
  simp [State.freeWith]

@[simp] theorem State.holdAt_loadOf (s : State) (n : Nat) (b c : BayNo) : (s.holdAt n b).loadOf c = s.loadOf c :=
  State.changeBay_loadOf_kept (s := s.modTicket n _) rfl c

@[simp] theorem State.holdQueued_loadOf (s : State) (t : Ticket) (b c : BayNo) :
    (s.holdQueued t b).loadOf c = s.loadOf c := by
  simp [State.holdQueued]

@[simp] theorem State.arrive_loadOf (s : State) (n : Nat) (b c : BayNo) : (s.arrive n b).loadOf c = s.loadOf c :=
  (State.changeBay_loadOf_kept rfl c).trans (State.raiseTo_loadOf _ _ _ c)

@[simp] theorem State.withdraw_loadOf (s : State) (b : BayNo) (w : WithdrawReason) (c : BayNo) :
    (s.withdraw b w).loadOf c = s.loadOf c := by
  unfold State.withdraw
  split
  · rfl
  · exact (State.raiseTo_loadOf _ _ _ c).trans (State.setBay_loadOf_kept (by exact rfl) c)

@[simp] theorem State.requeue_loadOf (s : State) (n : Nat) (b c : BayNo) : (s.requeue n b).loadOf c = s.loadOf c := by
  unfold State.requeue
  split
  · rfl
  · simp

@[simp] theorem State.settleFree_loadOf (s : State) (b c : BayNo) : (s.settleFree b).loadOf c = s.loadOf c := by
  unfold State.settleFree
  repeat' split
  all_goals exact State.changeBay_loadOf_kept rfl c

@[simp] theorem State.placeAt_loadOf (s : State) (b c : BayNo) : (s.placeAt b).loadOf c = s.loadOf c := by
  unfold State.placeAt
  cases (s.bay b).presence with
  | present => exact State.changeBay_loadOf_kept rfl c
  | empty => exact s.settleFree_loadOf b c
  | unknown =>
    dsimp only
    split
    · exact State.changeBay_loadOf_kept rfl c
    · exact State.changeBay_loadOf_kept rfl c

@[simp] theorem State.matchRun_loadOf (s : State) (q : PoolNo) (c : BayNo) : (s.matchRun q).loadOf c = s.loadOf c :=
  (s.matched_matchRun q).loadOf c

@[simp] theorem State.matchIn_loadOf (s : State) (q : Option PoolNo) (c : BayNo) :
    (s.matchIn q).loadOf c = s.loadOf c :=
  (s.matched_matchIn q).loadOf c

@[simp] theorem State.matchIfFree_loadOf (s : State) (b c : BayNo) : (s.matchIfFree b).loadOf c = s.loadOf c :=
  (s.matched_matchIfFree b).loadOf c

@[simp] theorem State.enterFree_loadOf (s : State) (b c : BayNo) : (s.enterFree b).loadOf c = s.loadOf c := by
  simp [State.enterFree]

@[simp] theorem State.placeClosed_loadOf (s : State) (b c : BayNo) : (s.placeClosed b).loadOf c = s.loadOf c := by
  simp [State.placeClosed]

@[simp] theorem State.depart_loadOf (s : State) (b c : BayNo) : (s.depart b).loadOf c = s.loadOf c := by
  unfold State.depart
  split <;> simp

@[simp] theorem State.enterFaulted_loadOf (s : State) (b : BayNo) (x : FaultCode) (c : BayNo) :
    (s.enterFaulted b x).loadOf c = s.loadOf c :=
  State.changeBay_loadOf_kept rfl c

@[simp] theorem State.enterBlocked_loadOf (s : State) (b c : BayNo) : (s.enterBlocked b).loadOf c = s.loadOf c :=
  State.changeBay_loadOf_kept rfl c

@[simp] theorem State.pendBlock_loadOf (s : State) (b c : BayNo) : (s.pendBlock b).loadOf c = s.loadOf c :=
  State.setBay_loadOf_kept (by exact rfl) c

@[simp] theorem State.blockBay_loadOf (s : State) (b c : BayNo) : (s.blockBay b).1.loadOf c = s.loadOf c := by
  unfold State.blockBay
  repeat' split
  all_goals simp

@[simp] theorem State.grant_loadOf (s : State) (t : Ticket) (x : Bool) (c : BayNo) :
    (s.grant t x).1.loadOf c = s.loadOf c := by
  unfold State.grant
  repeat' split
  all_goals simp

@[simp] theorem State.blockBay_power (s : State) (b : BayNo) : (s.blockBay b).1.power = s.power := by
  unfold State.blockBay
  repeat' split
  all_goals simp

@[simp] theorem State.grant_power (s : State) (t : Ticket) (x : Bool) : (s.grant t x).1.power = s.power := by
  unfold State.grant
  repeat' split
  all_goals simp

@[simp] theorem State.setMask_loadOf (s : State) (q : PoolNo) (x : Bool) (c : BayNo) :
    (s.setMask q x).loadOf c = s.loadOf c := rfl

@[simp] theorem State.displace_loadOf (s : State) (b : BayNo) (k : Booking) (c : BayNo) :
    (s.displace b k).loadOf c = s.loadOf c := by
  unfold State.displace
  dsimp only
  split <;> simp

@[simp] theorem State.holdBooked_loadOf (s : State) (b : BayNo) (k : Booking) (c : BayNo) :
    (s.holdBooked b k).loadOf c = s.loadOf c := by
  simp [State.holdBooked]

@[simp] theorem State.activate_loadOf (s : State) (b : BayNo) (k : Booking) (c : BayNo) :
    (s.activate b k).loadOf c = s.loadOf c := by
  unfold State.activate
  dsimp only
  repeat' split
  all_goals simp

@[simp] theorem State.expireSlot_loadOf (s : State) (c : BayNo) : s.expireSlot.loadOf c = s.loadOf c := by
  have hactivate : ∀ (u : State) b, (u.activateDue b).loadOf c = u.loadOf c := fun u b => by
    unfold State.activateDue
    split <;> simp
  have hmatch : ∀ (u : State) q, (u.matchConfigured q).loadOf c = u.loadOf c := fun u q => by
    unfold State.matchConfigured
    split <;> simp
  have hdrop : ∀ (u : State) b, (u.dropDue b).loadOf c = u.loadOf c := fun u b => by
    unfold State.dropDue
    split <;> simp
  unfold State.expireSlot
  dsimp only
  split
  · rw [foldl_frame (·.loadOf c) _ hmatch, foldl_frame (·.loadOf c) _ hactivate]
    rfl
  · rw [foldl_frame (·.loadOf c) _ hdrop]
    rfl

@[simp] theorem State.energyStep_loadOf (s : State) (b : BayNo) (i e : Nat) (c : BayNo) :
    (s.energyStep b i e).loadOf c = s.loadOf c := by
  unfold State.energyStep
  split
  · refine State.setBay_loadOf_kept ?_ c
    unfold Bay.load Bay.modSession
    cases (s.bay b).session <;> rfl
  · rfl

end Sys2Proof.Machine
end

