-- ==== Sys2Proof/Proofs/SetpointsTrack.lean ====
section
/-! SUPPORT. The setpoint records in step with the loads of the bays, and the recompute that restores it (R112 to
R122). -/

namespace Sys2Proof.Machine

/-! ### The records in step with the loads (R112 to R116, R122) -/

/-- The record of a bay without a session (R122). -/
def Setpoint.Rests (x : Setpoint) : Prop := x.target = 0 ∧ x.issued = 0 ∧ x.throttled = false

/-- The record of a suspended session, at the fallback current (R122). -/
def Setpoint.StandsAt (x : Setpoint) (f : Nat) : Prop := x.target = 0 ∧ x.issued = f ∧ x.acked = f

/-- The record's target is within a capped demand, and its flag says whether it is below (R115). -/
def Setpoint.Meets (x : Setpoint) (c : Nat) : Prop := x.target ≤ c ∧ x.throttled = decide (x.target < c)

/-- What a record must hold by the load of its bay, with the fallback current; `flags` asks for the flags too. -/
def Setpoint.Suits (flags : Prop) (f : Nat) (x : Setpoint) : Load → Prop
  | .idle => x.Rests
  | .standing => x.StandsAt f
  | .drawing c => flags → x.Meets c

/-- The part of a target that is drawn: that of an active session. -/
def Load.share (target : Nat) : Load → Nat
  | .drawing _ => target
  | _ => 0

/-- The sum of the targets of the active sessions. -/
def State.drawn (s : State) : Nat := (allBays.map (fun b => (s.loadOf b).share (s.setpoint b).target)).sum

/-- The number of suspended sessions. -/
def State.standingCount (s : State) : Nat := allBays.countP (fun b => decide (s.loadOf b = .standing))

/-- The setpoint records are in step with the loads; `flags` and `fit` ask for the flags and for the targets within the
budget too. -/
structure SetpointsTrack (flags fit : Prop) (s : State) : Prop where
  suits : ∀ b, (s.setpoint b).Suits flags s.power.fallback (s.loadOf b)
  fits : fit → s.drawn ≤ s.power.budget - s.power.fallback * s.standingCount

theorem Bay.loadShown_eq_standing {x : Bay} : x.loadShown = .standing ↔ x.state = .suspended := by
  unfold Bay.loadShown
  repeat' split
  all_goals simp_all

theorem State.LoadsShown.drawn {s : State} (h : s.LoadsShown) : s.drawn = s.targetSum := by
  unfold State.drawn State.targetSum
  congr 2
  funext b
  rw [h.load b, Bay.loadShown]
  repeat' split
  all_goals rfl

theorem State.LoadsShown.standingCount {s : State} (h : s.LoadsShown) : s.standingCount = s.suspendedCount := by
  unfold State.standingCount State.suspendedCount
  congr 2
  funext b
  simp only [h.load b, Bay.loadShown_eq_standing]

/-- Where the states show the loads, the flags asked for are those of the record, and nothing else is. -/
theorem Setpoint.suits_loadShown (flags : Prop) (f : Nat) (x : Setpoint) (y : Bay) :
    x.Suits flags f y.loadShown ↔ ((y.state = .suspended → x.StandsAt f) ∧
      (y.state ≠ .active ∧ y.state ≠ .suspended → x.Rests)) ∧ (flags → y.state = .active → x.Meets y.cappedDemand) := by
  unfold Bay.loadShown
  by_cases ha : y.state = .active
  · simp [ha, Setpoint.Suits]
  · by_cases hs : y.state = .suspended
    · simp [hs, Setpoint.Suits]
    · simp [ha, hs, Setpoint.Suits]

/-- Where the states show the loads, the records are in step with the loads exactly where they follow the bays. -/
theorem State.LoadsShown.track_iff {s : State} (h : s.LoadsShown) (flags fit : Prop) :
    SetpointsTrack flags fit s ↔ SetpointsFollow s ∧ (flags → FlagsFollow s) ∧ (fit → TargetsFit s) := by
  have hsuits : (∀ b, (s.setpoint b).Suits flags s.power.fallback (s.loadOf b)) ↔
      SetpointsFollow s ∧ (flags → FlagsFollow s) := by
    simp only [h.load, Setpoint.suits_loadShown]
    exact ⟨fun hs => ⟨fun b => (hs b).1, fun hg b ha => (hs b).2 hg ha⟩,
      fun ⟨hp, hf⟩ b => ⟨hp b, fun hg ha => hf hg b ha⟩⟩
  rw [← and_assoc, ← hsuits, TargetsFit, State.activeBudget, ← h.drawn, ← h.standingCount]
  exact ⟨fun ht => ⟨ht.suits, ht.fits⟩, fun ht => ⟨ht.1, ht.2⟩⟩

/-! ### A recompute (R112 to R121) -/

/-- A participating bay demands at least 6 A (R112). -/
theorem State.six_le_of_mem_demands (s : State) : ∀ c ∈ s.demands, 6 ≤ c := by
  intro c hc
  obtain ⟨b, hb, rfl⟩ := List.mem_map.mp hc
  exact State.cappedDemand_of_participant hb

/-- The targets of the participating bays, in their order, are their shares (R113, R114). -/
theorem State.map_targetOf {s : State} (h : s.admission.Nodup) :
    s.participants.map (targetOf s.targets) = shares s.activeBudget s.demands := by
  have hlen : (shares s.activeBudget s.demands).length = s.participants.length := by
    rw [shares_length _ s.six_le_of_mem_demands, State.demands, List.length_map]
  refine List.ext_getElem (by rw [List.length_map, hlen]) fun i hi _ => ?_
  have hi : i < s.participants.length := by simpa using hi
  rw [List.getElem_map, State.targetOf_participant h (List.getElem?_eq_getElem hi),
    List.getD_eq_getElem _ _ (by omega)]

/-- The shares come to no more than the budget for active sessions (R114). -/
theorem State.sum_targetOf_le {s : State} (h : s.admission.Nodup) :
    (s.participants.map (targetOf s.targets)).sum ≤ s.activeBudget := by
  rw [State.map_targetOf h]
  exact shares_sum_le _ s.six_le_of_mem_demands

/-- A sum over the bays of what is 0 off a list that holds each bay once is the sum over the list. -/
theorem sum_allBays_eq {l : List BayNo} (hl : l.Nodup) {f : BayNo → Nat} (hf : ∀ b, b ∉ l → f b = 0) :
    (allBays.map f).sum = (l.map f).sum := by
  have hall : ∀ b : BayNo, b ∈ allBays := List.mem_finRange
  rw [← List.sum_toFinset f (show allBays.Nodup from List.nodup_finRange 48), ← List.sum_toFinset f hl]
  refine (Finset.sum_subset (fun b _ => List.mem_toFinset.mpr (hall b)) fun b _ hb => hf b ?_).symm
  simpa using hb

/-- A recompute brings the targets of the ACTIVE bays within the budget left for them (R113, R114). -/
theorem State.recompute_targetSum_le {s : State} (h : s.admission.Nodup) :
    s.recompute.targetSum ≤ s.recompute.activeBudget := by
  have hbay : ∀ b, s.recompute.bay b = s.bay b := State.bay_of_bays (by simp)
  have htarget : ∀ b, (if (s.recompute.bay b).state = .active then (s.recompute.setpoint b).target else 0) =
      targetOf s.targets b := fun b => by
    rw [hbay]
    split
    · exact State.recompute_target (by assumption)
    · rename_i hb
      refine (State.targetOf_of_not_mem fun hm => hb ?_).symm
      exact Bay.active_of_demand (State.cappedDemand_of_participant hm)
  have hbudget : s.recompute.activeBudget = s.activeBudget := by
    have hfall : s.recompute.power.fallback = s.power.fallback := by rw [State.recompute_eq]
    simp only [State.activeBudget, State.recompute_budget, hfall, State.suspendedCount, hbay]
  rw [hbudget, State.targetSum]
  simp only [htarget]
  rw [sum_allBays_eq (State.participants_nodup h) fun b => State.targetOf_of_not_mem]
  exact State.sum_targetOf_le h

@[simp] theorem State.recompute_fallback (s : State) : s.recompute.power.fallback = s.power.fallback := by
  rw [State.recompute_eq]

/-- A recompute leaves a record that rests at rest, a standing one at the fallback current, and the flag of an active
session right (R112 to R121). -/
theorem State.recompute_suits {s : State} (h : s.LoadsShown) {b : BayNo}
    (hs : (s.setpoint b).Suits False s.power.fallback (s.loadOf b)) (flags : Prop) :
    (s.recompute.setpoint b).Suits flags s.power.fallback (s.loadOf b) := by
  rw [h.load, Setpoint.suits_loadShown] at hs ⊢
  refine ⟨?_, fun _ ha => ⟨?_, State.recompute_throttled ha⟩⟩
  · by_cases ha : (s.bay b).state = .active
    · simp [ha]
    · rw [State.recompute_setpoint_of_inactive ha]
      exact hs.1
  · rw [State.recompute_target ha]
    rcases s.targetOf_apportioned b with h0 | h1
    · omega
    · exact h1.2

theorem State.LoadsShown.recompute {s : State} (h : s.LoadsShown) : s.recompute.LoadsShown :=
  ⟨by simpa using h.nodup, fun b => by rw [State.recompute_loadOf, h.load, State.bay_of_bays s.recompute_bays]⟩

/-- A recompute restores what the write of the settings or of a bay has put aside. -/
theorem SetpointsTrack.of_recompute {s : State} (h : s.LoadsShown) (flags fit : Prop)
    (hs : ∀ b, (s.setpoint b).Suits False s.power.fallback (s.loadOf b)) : SetpointsTrack flags fit s.recompute := by
  refine ⟨fun b => ?_, fun _ => ?_⟩
  · rw [State.recompute_fallback, State.recompute_loadOf]
    exact State.recompute_suits h (hs b) flags
  · rw [h.recompute.drawn, h.recompute.standingCount]
    exact State.recompute_targetSum_le h.nodup

end Sys2Proof.Machine
end

