-- ==== Sys2Proof/Proofs/TrackedOperations.lean ====
section
/-! SUPPORT. The operations on sessions, bays and tickets keep the setpoint records in step with the loads, as each one
that changes a load writes the bay's record (R122) and recomputes (R121). -/

namespace Sys2Proof.Machine

theorem State.LoadsShown.of_recompute {s : State} (h : s.recompute.LoadsShown) : s.LoadsShown :=
  h.of_bays s.recompute_bays s.recompute_admission

/-- Without the flags less is asked of a record. -/
theorem Setpoint.Suits.weaken {flags : Prop} {f : Nat} {x : Setpoint} {l : Load} (h : x.Suits flags f l) :
    x.Suits False f l := by
  cases l with
  | idle => exact h
  | standing => exact h
  | drawing c => exact False.elim

/-- The end of a session leaves a record that rests (R122). -/
theorem Setpoint.ended_rests (x : Setpoint) : x.ended.Rests := by
  simp [Setpoint.ended, Setpoint.Rests]

/-- A suspended session's record stands at the fallback current (R122). -/
theorem Setpoint.fallBack_standsAt (x : Setpoint) (f : Nat) : (x.fallBack f).StandsAt f := by
  simp [Setpoint.fallBack, Setpoint.StandsAt]

/-- A record at the fallback current suits a SUSPENDED bay (R122). -/
theorem Setpoint.suits_of_suspended {x : Setpoint} {f : Nat} {y : Bay} (hy : y.state = .suspended) (hx : x.StandsAt f)
    (flags : Prop) : x.Suits flags f y.loadShown := by
  rw [Bay.loadShown_eq_standing.mpr hy]
  exact hx

/-- Any record suits an ACTIVE bay, where the flags are not asked for. -/
theorem Setpoint.suits_of_active (x : Setpoint) (f : Nat) {y : Bay} (hy : y.state = .active) :
    x.Suits False f y.loadShown := by
  rw [Bay.loadShown_drawing hy]
  exact False.elim

namespace SetpointsTrack

variable {flags fit : Prop} {s : State}

/-! ### What leaves the records in step -/

theorem congr (h : SetpointsTrack flags fit s) {t : State} (hl : ∀ b, t.loadOf b = s.loadOf b)
    (hx : t.power.setpoints = s.power.setpoints) (hf : t.power.fallback = s.power.fallback)
    (hb : t.power.budget = s.power.budget) : SetpointsTrack flags fit t := by
  have hset := State.setpoint_of_setpoints hx
  refine ⟨fun b => ?_, fun hfit => ?_⟩
  · rw [hset, hf, hl]
    exact h.suits b
  · have hdrawn : t.drawn = s.drawn := by simp only [State.drawn, hl, hset]
    have hcount : t.standingCount = s.standingCount := by simp only [State.standingCount, hl]
    rw [hdrawn, hcount, hf, hb]
    exact h.fits hfit

/-- What leaves the power unit and the loads keeps the records in step. -/
theorem keep (h : SetpointsTrack flags fit s) {t : State} (hl : ∀ b, t.loadOf b = s.loadOf b := by simp)
    (hp : t.power = s.power := by simp) : SetpointsTrack flags fit t :=
  h.congr hl (by rw [hp]) (by rw [hp]) (by rw [hp])

theorem keepBays (h : SetpointsTrack flags fit s) {t : State} (hb : t.bays = s.bays := by simp)
    (hp : t.power = s.power := by simp) : SetpointsTrack flags fit t :=
  h.keep (State.loadOf_of_bays hb) hp

/-- Without a session at any bay the records are in step where they rest. -/
theorem of_idle (hl : ∀ b, s.loadOf b = .idle) (hr : ∀ b, (s.setpoint b).Rests) : SetpointsTrack flags fit s := by
  refine ⟨fun b => ?_, fun _ => ?_⟩
  · rw [hl]
    exact hr b
  · have hdrawn : s.drawn = 0 := by simp [State.drawn, hl, Load.share]
    rw [hdrawn]
    exact Nat.zero_le _

/-- Where the load and the record of one bay are written so that they suit one another, a recompute restores the
rest. -/
theorem recomputeAt (h : SetpointsTrack flags fit s) {u t : State} (ht : t = u.recompute) (b : BayNo)
    (hl : ∀ c, c ≠ b → t.loadOf c = s.loadOf c) (hx : ∀ c, c ≠ b → u.setpoint c = s.setpoint c)
    (hf : u.power.fallback = s.power.fallback) (hb : (u.setpoint b).Suits False s.power.fallback (t.loadOf b))
    (hs : t.LoadsShown) : SetpointsTrack flags fit t := by
  subst ht
  refine .of_recompute hs.of_recompute flags fit fun c => ?_
  rw [hf, ← State.recompute_loadOf u]
  by_cases hc : c = b
  · exact hc ▸ hb
  · rw [hx c hc, hl c hc]
    exact (h.suits c).weaken

/-! ### Sessions (R93, R97, R100, R102, R122) -/

theorem openSession (h : SetpointsTrack flags fit s) {b : BayNo} {n : Nat} (hs : (s.openSession b n).LoadsShown) :
    SetpointsTrack flags fit (s.openSession b n) := by
  refine h.recomputeAt rfl b (fun c hc => ?_) (fun c hc => ?_) (by simp) ?_ hs
  · simp only [State.loadOf, State.openSession_bay, if_neg hc]
  · rw [State.setSetpoint_setpoint_of_ne _ hc]
    exact State.setpoint_of_setpoints (by simp) c
  · rw [hs.load]
    exact Setpoint.suits_of_active _ _ (by simp [State.openSession_bay, State.openedBay])

theorem suspend (h : SetpointsTrack flags fit s) {b : BayNo} (hs : (s.suspend b).LoadsShown) :
    SetpointsTrack flags fit (s.suspend b) := by
  have hbay : ∀ c, (s.suspend b).bay c =
      if c = b then (s.bay b).suspendedUntil (s.deadline s.timers.reconnect) else s.bay c := fun c => by
    rw [State.suspend_eq, State.bay_of_bays (State.recompute_bays _)]
    exact State.changeBay_bay s b c _
  refine h.recomputeAt (s.suspend_eq b) b (fun c hc => ?_) (fun c hc => ?_) (by simp [State.suspending]) ?_ hs
  · simp only [State.loadOf, hbay, if_neg hc]
  · rw [State.suspending, State.setSetpoint_setpoint_of_ne _ hc]
    exact State.setpoint_of_setpoints (by simp) c
  · rw [hs.load, State.suspending, State.setSetpoint_setpoint_self]
    exact Setpoint.suits_of_suspended (by simp [hbay, Bay.suspendedUntil]) (Setpoint.fallBack_standsAt _ _) _

theorem resume (h : SetpointsTrack flags fit s) {b : BayNo} (hs : (s.resume b).LoadsShown) :
    SetpointsTrack flags fit (s.resume b) := by
  refine h.recomputeAt rfl b (fun c hc => ?_) (fun c hc => ?_) (by simp) ?_ hs
  · simp only [State.loadOf, State.resume_bay, if_neg hc]
  · rw [State.setSetpoint_setpoint_of_ne _ hc]
    exact State.setpoint_of_setpoints (by simp) c
  · rw [hs.load]
    exact Setpoint.suits_of_active _ _ (by simp [State.resume_bay, Bay.resumed])

end SetpointsTrack

/-- The steps of a close leave the bay without a load, and the other loads (R102). -/
theorem State.endSession_loadOf (s : State) (b : BayNo) (k : Session) (w : CloseReason) (c : BayNo) :
    (s.endSession b k w).loadOf c = if c = b then .idle else s.loadOf c := by
  unfold State.endSession
  dsimp only
  rw [State.setSetpoint_loadOf, State.setBay_loadOf_kept (by exact rfl), State.freeTicket_loadOf, State.setBay_loadOf]
  split
  · rfl
  · exact State.loadOf_of_bays (by simp) c

/-- The steps of a close end the record of the bay (R122). -/
theorem State.endSession_setpoint_rests (s : State) (b : BayNo) (k : Session) (w : CloseReason) :
    ((s.endSession b k w).setpoint b).Rests := by
  unfold State.endSession
  dsimp only
  rw [State.setSetpoint_setpoint_self]
  exact Setpoint.ended_rests _

@[simp] theorem State.endSession_fallback (s : State) (b : BayNo) (k : Session) (w : CloseReason) :
    (s.endSession b k w).power.fallback = s.power.fallback := by
  simp [State.endSession]

namespace SetpointsTrack

variable {flags fit : Prop} {s : State}

/-- A close is followed by the settlement of the bay, which leaves the loads, and by a recompute (R102, R122). -/
theorem endSession (h : SetpointsTrack flags fit s) {b : BayNo} {k : Session} {w : CloseReason} {u t : State}
    (ht : t = u.recompute) (hl : ∀ c, u.loadOf c = (s.endSession b k w).loadOf c)
    (hp : u.power = (s.endSession b k w).power) (hs : t.LoadsShown) : SetpointsTrack flags fit t := by
  have hx : ∀ c, u.setpoint c = (s.endSession b k w).setpoint c := State.setpoint_of_setpoints (by rw [hp])
  have hload : ∀ c, t.loadOf c = if c = b then .idle else s.loadOf c := fun c => by
    rw [ht, State.recompute_loadOf, hl, State.endSession_loadOf]
  refine h.recomputeAt ht b (fun c hc => ?_) (fun c hc => ?_) ?_ ?_ hs
  · rw [hload, if_neg hc]
  · rw [hx, State.endSession_setpoint_of_ne s hc]
  · rw [hp, State.endSession_fallback]
  · rw [hx, hload, if_pos rfl]
    exact s.endSession_setpoint_rests b k w

theorem closePlaced (h : SetpointsTrack flags fit s) {b : BayNo} {w : CloseReason}
    (hs : (s.closePlaced b w).LoadsShown) :
    SetpointsTrack flags fit (s.closePlaced b w) := by
  revert hs
  unfold State.closePlaced
  split
  · exact fun _ => h
  · rename_i k _
    exact h.endSession (k := k) (w := w) (b := b) rfl (by simp) (by simp)

theorem closeLost (h : SetpointsTrack flags fit s) {b : BayNo} (hs : (s.closeLost b).LoadsShown) :
    SetpointsTrack flags fit (s.closeLost b) := by
  revert hs
  unfold State.closeLost
  split
  · exact fun _ => h
  · rename_i k _
    exact h.endSession (k := k) (w := .linkLost) (b := b) rfl (State.changeBay_loadOf_kept rfl) (by simp)

/-! ### Head faults and the loss of a head (R20, R23) -/

theorem headFault (h : SetpointsTrack flags fit s) {b : BayNo} {code : FaultCode}
    (hs : (s.headFault b code).LoadsShown) : SetpointsTrack flags fit (s.headFault b code) := by
  have hclose : ∀ k, ((s.endSession b k .fault).enterFaulted b code).recompute.LoadsShown →
      SetpointsTrack flags fit ((s.endSession b k .fault).enterFaulted b code).recompute := fun k =>
    h.endSession (k := k) (w := .fault) (b := b) rfl (by simp) (by simp)
  revert hs
  unfold State.headFault
  cases (s.bay b).state with
  | active =>
    cases (s.bay b).session with
    | some k => exact hclose k
    | none => exact fun _ => h.keep
  | suspended =>
    cases (s.bay b).session with
    | some k => exact hclose k
    | none => exact fun _ => h.keep
  | occupied =>
    cases (s.bay b).ticket with
    | some n => exact fun _ => h.keep
    | none => exact fun _ => h.keep
  | held =>
    cases (s.bay b).ticket with
    | some n =>
      dsimp only
      split
      · exact fun _ => h.keep
      · exact fun _ => h.keep
    | none => exact fun _ => h.keep
  | offered => exact fun _ => h.keep
  | blocked =>
    exact fun _ => h.keep (fun c => (State.enterFaulted_loadOf _ b code c).trans
      (State.setBay_loadOf_kept (by exact rfl) c))
  | faulted => exact fun _ => h.keep
  | offline => exact fun _ => h.keep
  | free => exact fun _ => h.keep

theorem loseHead (h : SetpointsTrack flags fit s) {b : BayNo} (hs : (s.loseHead b).LoadsShown) :
    SetpointsTrack flags fit (s.loseHead b) := by
  have hoff : ∀ (u : State) c, (u.changeBay b (fun x => { x with state := .offline })).loadOf c = u.loadOf c :=
    fun u => State.changeBay_loadOf_kept rfl
  revert hs
  unfold State.loseHead
  cases (s.bay b).state with
  | active => exact h.suspend
  | free => exact fun _ => h.keep (hoff s)
  | offered => exact fun _ => h.keep (by simp [hoff])
  | held => exact fun _ => h
  | occupied => exact fun _ => h
  | suspended => exact fun _ => h
  | offline => exact fun _ => h
  | blocked => exact fun _ => h
  | faulted => exact fun _ => h

/-! ### Plug-in and placement (R6, R14) -/

theorem plugIn (h : SetpointsTrack flags fit s) {b : BayNo} (hs : (s.plugIn b).LoadsShown) :
    SetpointsTrack flags fit (s.plugIn b) := by
  revert hs
  unfold State.plugIn
  split
  · exact fun _ => h.keep (State.setBay_loadOf_kept (by exact rfl))
  · split
    · exact h.openSession
    · split
      · have hbound : SetpointsTrack flags fit ((s.issue (s.autoTicket b)).setBay b
            { s.bay b with ticket := some (s.autoTicket b).number }) :=
          h.keep (fun c => (State.setBay_loadOf_kept (by exact rfl) c).trans (State.issue_loadOf _ _ c))
        exact hbound.openSession
      · exact fun _ => h.keep

theorem plugInIfPlugged (h : SetpointsTrack flags fit s) {b : BayNo} (hs : (s.plugInIfPlugged b).LoadsShown) :
    SetpointsTrack flags fit (s.plugInIfPlugged b) := by
  revert hs
  unfold State.plugInIfPlugged
  split
  · exact h.plugIn
  · exact fun _ => h

theorem placeUnmatched (h : SetpointsTrack flags fit s) {b : BayNo} (hs : (s.placeUnmatched b).LoadsShown) :
    SetpointsTrack flags fit (s.placeUnmatched b) :=
  plugInIfPlugged h.keep hs

theorem place (h : SetpointsTrack flags fit s) {b : BayNo} (hs : (s.place b).LoadsShown) :
    SetpointsTrack flags fit (s.place b) :=
  (h.placeUnmatched ((State.matched_matchIfFree _ b).loadsShown hs)).keep (State.matchIfFree_loadOf _ b)
    (State.matchIfFree_power _ b)

/-! ### The ends of holds and offers, and bookings (R34, R38, R41, R57, R86) -/

theorem expireHold (h : SetpointsTrack flags fit s) {n : Nat} {b : BayNo} (hs : (s.expireHold n b).LoadsShown) :
    SetpointsTrack flags fit (s.expireHold n b) :=
  place h.keep hs

theorem giveUpOffer (h : SetpointsTrack flags fit s) {t : Ticket} {b : BayNo} {lapsed : Bool}
    (hs : (s.giveUpOffer t b lapsed).LoadsShown) : SetpointsTrack flags fit (s.giveUpOffer t b lapsed) := by
  have hend : ∀ {u : State}, SetpointsTrack flags fit u → ((u.placeUnmatched b).matchRun t.pool).LoadsShown →
      SetpointsTrack flags fit ((u.placeUnmatched b).matchRun t.pool) := fun hu hm =>
    (hu.placeUnmatched ((State.matched_matchRun _ t.pool).loadsShown hm)).keep
  revert hs
  unfold State.giveUpOffer
  dsimp only
  split
  · exact hend h.keep
  · exact hend h.keep

theorem cancel (h : SetpointsTrack flags fit s) {t : Ticket} (hs : (s.cancel t).LoadsShown) :
    SetpointsTrack flags fit (s.cancel t) := by
  have hfree : SetpointsTrack flags fit (s.freeTicket t.number) := h.keep
  revert hs
  unfold State.cancel
  split
  · exact hfree.place
  · exact hfree.place
  · exact fun _ => hfree

theorem adopt (h : SetpointsTrack flags fit s) {p : Port} {b : BayNo} {stay : Nat} {c : Priority}
    (hs : (s.adopt p b stay c).1.LoadsShown) : SetpointsTrack flags fit (s.adopt p b stay c).1 :=
  plugInIfPlugged (h.keep fun d => (State.setBay_loadOf_kept (by exact rfl) d).trans (State.issue_loadOf _ _ d)) hs

theorem activateEarly (h : SetpointsTrack flags fit s) {b : BayNo} {k : Booking}
    (hs : (s.activateEarly b k).LoadsShown) :
    SetpointsTrack flags fit (s.activateEarly b k) := by
  revert hs
  unfold State.activateEarly
  split
  · refine plugInIfPlugged (h.keep fun c => ?_)
    rw [State.raise_loadOf, State.changeBay_loadOf_kept rfl, State.issue_loadOf, State.dropBooking_loadOf]
  · exact fun _ => h.keep

end SetpointsTrack

end Sys2Proof.Machine
end

