-- ==== Sys2Proof/Proofs/TargetsKept.lean ====
section
/-! SUPPORT. Every REPORT, request and timer keeps the setpoint records in step with the loads: O59. -/

namespace Sys2Proof.Machine

/-- Where the demand of a REPORT leaves the capped demand, it leaves the load (R17, R112). -/
theorem State.demandStep_loadOf {s : State} (h : s.LoadsShown) {b : BayNo} {d : Nat}
    (hs : (s.demandStep b d).LoadsShown)
    (hd : ((s.demandStep b d).bay b).cappedDemand = (s.bay b).cappedDemand) (c : BayNo) :
    (s.demandStep b d).loadOf c = s.loadOf c := by
  have hbay := s.demandStep_bay b d
  rw [hs.load, h.load]
  by_cases hc : c = b ∧ (s.bay b).state = .active
  · obtain ⟨rfl, hact⟩ := hc
    have hact' : ((s.demandStep c d).bay c).state = .active := by simp [hbay, hact, Bay.modSession]
    rw [Bay.loadShown_drawing hact, Bay.loadShown_drawing hact', hd]
  · rw [hbay, if_neg hc]

namespace SetpointsTrack

variable {flags fit : Prop} {s : State}

/-! ### The steps of a REPORT (R19) -/

theorem plugStep (h : SetpointsTrack flags fit s) {b : BayNo} {g : Plug} {e : Nat}
    (hs : (s.plugStep b g e).LoadsShown) :
    SetpointsTrack flags fit (s.plugStep b g e) := by
  revert hs
  unfold State.plugStep
  dsimp only
  generalize hu : s.setBay b _ = u
  have h1 : SetpointsTrack flags fit u := hu ▸ h.keep (State.setBay_loadOf_kept (by exact rfl))
  cases (s.bay b).state with
  | active =>
    dsimp only
    split
    · exact h1.closePlaced
    · exact fun _ => h1
  | suspended =>
    dsimp only
    split
    · exact h1.resume
    · exact h1.closePlaced
  | occupied =>
    dsimp only
    split
    · exact h1.plugIn
    · exact fun _ => h1
  | offline => exact fun _ => h1
  | free => exact fun _ => h1
  | offered => exact fun _ => h1
  | held => exact fun _ => h1
  | blocked => exact fun _ => h1
  | faulted => exact fun _ => h1

theorem presenceStep (h : SetpointsTrack flags fit s) {b : BayNo} {x : Presence}
    (hs : (s.presenceStep b x).LoadsShown) : SetpointsTrack flags fit (s.presenceStep b x) := by
  revert hs
  unfold State.presenceStep
  dsimp only
  generalize hu : s.setBay b _ = u
  have h1 : SetpointsTrack flags fit u := hu ▸ h.keep (State.setBay_loadOf_kept (by exact rfl))
  cases (s.bay b).state with
  | offline => exact h1.place
  | free =>
    dsimp only
    split
    · exact plugInIfPlugged (h1.keep (State.changeBay_loadOf_kept rfl))
    · exact fun _ => h1
  | held =>
    dsimp only
    split
    · split
      · exact plugInIfPlugged h1.keep
      · exact fun _ => h1
    · exact fun _ => h1
  | occupied =>
    dsimp only
    split
    · exact fun _ => h1.keep
    · exact fun _ => h1
  | offered => exact fun _ => h1
  | active => exact fun _ => h1
  | suspended => exact fun _ => h1
  | blocked => exact fun _ => h1
  | faulted => exact fun _ => h1

theorem codeStep (h : SetpointsTrack flags fit s) {b : BayNo} {c : Nat} (hs : (s.codeStep b c).LoadsShown) :
    SetpointsTrack flags fit (s.codeStep b c) := by
  revert hs
  unfold State.codeStep State.presentCode
  split
  · exact fun _ => h
  · split
    · exact plugInIfPlugged h.keep
    · split
      · exact fun _ => h
      · split
        · exact h.activateEarly
        · split
          · exact fun _ => h.keep
          · exact fun _ => h.keep

theorem demandStep (h : SetpointsTrack flags fit s) {b : BayNo} {d : Nat} (hs : s.LoadsShown)
    (ht : (s.demandStep b d).LoadsShown) : SetpointsTrack flags fit (s.demandStep b d) := by
  by_cases hact : (s.bay b).state = .active
  · have hbay := s.demandStep_bay b d
    by_cases hd : ((s.demandStep b d).bay b).cappedDemand = (s.bay b).cappedDemand
    · refine h.congr (State.demandStep_loadOf hs ht hd) ?_ (by rw [State.demandStep_eq])
        (by rw [State.demandStep_eq]; rfl)
      exact State.demandStep_setpoint (by simpa [hbay, hact] using hd)
    · have hre : s.demandStep b d =
          (s.setBay b ((s.bay b).modSession (fun k => { k with demand := min d 63 }))).recompute := by
        simp only [hbay, hact, and_self, if_true] at hd
        simp [State.demandStep, hact, hd]
      refine h.recomputeAt hre b (fun c hc => ?_) (fun c _ => by simp) rfl ?_ ht
      · simp only [State.loadOf, hbay, hc, false_and, if_false]
      · rw [ht.load]
        exact Setpoint.suits_of_active _ _ (by simp [hbay, hact, Bay.modSession])
  · simpa [State.demandStep, hact] using h

/-- An echo acknowledges the issued value of an active session, or of a bay at rest (R118). -/
theorem takeEcho (h : SetpointsTrack flags fit s) {b : BayNo} {e : Nat} (hs : (s.takeEcho b e).LoadsShown) :
    SetpointsTrack flags fit (s.takeEcho b e) := by
  revert hs
  unfold State.takeEcho
  dsimp only
  split
  · split
    · exact fun _ => h
    · rename_i hne
      refine h.recomputeAt rfl b (fun c _ => by simp) (fun c hc => State.setSetpoint_setpoint_of_ne _ hc _) rfl ?_
      rw [State.setSetpoint_setpoint_self, State.recompute_loadOf, State.setSetpoint_loadOf]
      have hsuits := h.suits b
      revert hsuits
      cases s.loadOf b with
      | idle => exact id
      | standing => exact fun hst => absurd (hst.2.1.trans hst.2.2.symm) hne
      | drawing c => exact fun _ => False.elim
  · exact fun _ => h

theorem takeReport (h : SetpointsTrack flags fit s) (ha : AgreeBut none none s) {b : BayNo}
    (hw : s.bus.sweep = .slot b) (r : Report) : SetpointsTrack flags fit (s.takeReport b r) := by
  have hs := (ha.takeReport hw r).loadsShown
  revert hs
  unfold State.takeReport
  split
  · exact h.headFault
  · intro hs
    have hplug := ha.plugStep b (plugOf r.plug) r.tagEcho.toNat
    have hpresence := hplug.presenceStep (b := b) (by simpa using hw) (takenPresence r)
    have hcode := hpresence.codeStep b r.code.toNat
    have hdemand := hcode.demandStep b r.demand.toNat
    have t3 := ((h.plugStep hplug.loadsShown).presenceStep hpresence.loadsShown).codeStep hcode.loadsShown
    exact takeEcho (keep (t3.demandStep hcode.loadsShown hdemand.loadsShown)) hs

end SetpointsTrack

/-! ### The settings of the level (R108 to R111) -/

/-- In CONFIG no bay has a session (R29). -/
theorem AgreeBut.idle_of_config {s : State} (h : AgreeBut none none s) (hc : s.opState = .config) (b : BayNo) :
    s.loadOf b = .idle := by
  obtain ⟨-, -, hoff⟩ := h.config hc
  rw [h.loadsShown.load, Bay.loadShown, hoff b]
  rfl

/-- The settings that SET LEVEL takes leave a record that suits its load: the SUSPENDED bays get the new F (R109). -/
theorem State.levelAt_suits {s : State} (h : AgreeBut none none s) {b : BayNo} {flags : Prop}
    (hs : (s.setpoint b).Suits flags s.power.fallback (s.loadOf b)) (c a f : Nat) :
    ((s.levelAt c a f).setpoint b).Suits False f (s.loadOf b) := by
  have hload := h.loadsShown.load b
  rw [State.levelAt_setpoint]
  by_cases hb : (s.bay b).state = .suspended
  · have hrun : s.opState = .run := OpState.ne_config.mp fun hc => by
      simpa [h.idle_of_config hc] using hload.trans (Bay.loadShown_eq_standing.mpr hb)
    rw [hload, Bay.loadShown_eq_standing.mpr hb] at hs ⊢
    obtain ⟨ht, hi, ha⟩ := hs
    split
    · exact ⟨ht, rfl, rfl⟩
    · rename_i hne
      have hf : f = s.power.fallback := by simpa [hrun, hb] using hne
      exact ⟨ht, hf ▸ hi, hf ▸ ha⟩
  · rw [if_neg fun hc => hb hc.2.2]
    have hne : s.loadOf b ≠ .standing := fun e => hb (Bay.loadShown_eq_standing.mp (hload.symm.trans e))
    revert hs hne
    cases s.loadOf b with
    | idle => exact fun hs _ => hs
    | standing => exact fun _ hne => absurd rfl hne
    | drawing d => exact fun _ _ => False.elim

namespace SetpointsTrack

variable {flags fit : Prop} {s : State}

/-- In RUN a recompute follows; in CONFIG there is nothing to recompute (R108, R109). -/
theorem recomputeInRun (ha : AgreeBut none none s)
    (hs : ∀ b, (s.setpoint b).Suits False s.power.fallback (s.loadOf b)) :
    SetpointsTrack flags fit s.recomputeInRun := by
  unfold State.recomputeInRun
  split
  · exact .of_recompute ha.loadsShown flags fit hs
  · rename_i hrun
    have hidle := ha.idle_of_config (OpState.ne_run.mp hrun)
    refine of_idle hidle fun b => ?_
    have hb := hs b
    rwa [hidle] at hb

/-- FEED and the recompute of RUN follow a write of the settings (R109, R111). -/
theorem announced (s : State) {u : State} (ha : AgreeBut none none u)
    (hs : ∀ b, (u.setpoint b).Suits False u.power.fallback (u.loadOf b)) :
    SetpointsTrack flags fit (s.announced u) := by
  refine recomputeInRun (ha.raiseFeed s) fun b => ?_
  have hbays : (s.raiseFeed u).bays = u.bays := by
    unfold State.raiseFeed
    split <;> simp
  rw [State.raiseFeed_power, State.setpoint_of_setpoints (s := u) (by rw [State.raiseFeed_power]),
    State.loadOf_of_bays hbays]
  exact hs b

theorem setCapTo (h : SetpointsTrack flags fit s) (ha : AgreeBut none none s) (k : Nat) :
    SetpointsTrack flags fit (s.setCapTo k) :=
  announced s (u := s.capAt k) (ha.withPower _) fun b => (h.suits b).weaken

theorem setLevelTo (h : SetpointsTrack flags fit s) (ha : AgreeBut none none s) (c b f : Nat) :
    SetpointsTrack flags fit (s.setLevelTo c b f) := by
  have hlevel := s.levelAt_eq c b f
  refine announced s (u := s.levelAt c b f) ?_ fun a => ?_
  · rw [hlevel]
    exact ha.withPower _
  · rw [State.loadOf_of_bays (t := s.levelAt c b f) (s := s) (by rw [hlevel]),
      show (s.levelAt c b f).power.fallback = f by rw [hlevel]]
    exact State.levelAt_suits ha (h.suits a) c b f

theorem takeCandidate (h : SetpointsTrack flags fit s) (ha : AgreeBut none none s) :
    SetpointsTrack flags fit s.takeCandidate := by
  by_cases ht : tierOf s.power.candidate = s.power.tier
  · rw [State.takeCandidate_of_eq ht]
    exact h.congr (fun _ => rfl) rfl rfl rfl
  · rw [State.takeCandidate_of_ne ht]
    refine recomputeInRun (AgreeBut.raise (ha.withPower _) _ _) fun b => ?_
    rw [State.raise_power, State.raise_loadOf, State.setpoint_of_setpoints (by rw [State.raise_power])]
    exact (h.suits b).weaken

/-! ### The operating states (R4, R124) -/

/-- A level that has been cleared is in step (R4, R124). -/
theorem of_cleared {u v : State} (hb : s.bays = u.clearBays.bays)
    (hx : s.power.setpoints = v.clearSetpoints.power.setpoints) : SetpointsTrack flags fit s := by
  refine of_idle (fun b => ?_) fun b => ?_
  · simp [State.loadOf, State.bay_of_bays hb, Bay.cleared, Bay.load]
  · simp [State.setpoint_of_setpoints hx, Setpoint.cleared, Setpoint.Rests]

theorem startUp : SetpointsTrack flags fit s.startUp := by
  unfold State.startUp
  generalize allBays.foldl State.dropUnenrolled s = u
  exact of_cleared (u := u) (v := u.clearBays.clearPools) (by simp) (by simp)

theorem reconfigured : SetpointsTrack flags fit s.reconfigured :=
  of_cleared (u := s) (v := s.clearBays.clearPools) (by simp [State.reconfigured]) (by simp [State.reconfigured])

theorem restarted : SetpointsTrack flags fit s.restarted := by
  unfold State.restarted
  dsimp only
  split
  · exact of_cleared (u := s) (v := s) (by simp [State.clearPorts]) (by simp [State.clearPorts, State.clearSetpoints])
  · exact of_cleared (u := s) (v := s) (by simp [State.clearPorts]) (by simp [State.clearPorts, State.clearSetpoints])

theorem powerOn (feed : BitVec 2) : SetpointsTrack flags fit (State.powerOn feed) :=
  of_idle (fun b => by simp [State.loadOf, Bay.load, Bay.powerOn]) fun b => by simp [Setpoint.Rests, Setpoint.cleared]

/-! ### The owners (R151) -/

/-- The configuration of a bay is written in CONFIG, where it has no session (R168). -/
theorem setUp (h : SetpointsTrack flags fit s) (ha : AgreeBut none none s) (hc : s.opState = .config) (b : BayNo)
    (e : Bool) (q : PoolNo) (r : Nat) :
    SetpointsTrack flags fit (s.setBay b { s.bay b with enrolled := e, pool := q, rating := r }) := by
  have hidle := ha.idle_of_config hc b
  have hsession : (s.bay b).session = none := Option.not_isSome_iff_eq_none.mp (by
    obtain ⟨-, -, hoff⟩ := ha.config hc
    simp [(ha.bay b (by simp)).session, hoff b])
  refine h.keep (State.setBay_loadOf_kept ?_) rfl
  simp [Bay.load, hsession]

/-- Every owner keeps the records in step. -/
theorem owner {own : Owner} (ho : IsOwner own) (p : Port) (pl : List Byte) (ha : AgreeBut none none s)
    (h : SetpointsTrack flags fit s) : SetpointsTrack flags fit (own p pl s).1 := by
  have hs := (ha.owner ho p pl).loadsShown
  revert hs
  cases ho
  case queryBay | queryTicket | queryPool | queryBookings | queryBooking | queryPower | queryConfig =>
    simp only [ownQueryBay, ownQueryTicket, ownQueryPool, ownQueryBookings, ownQueryBooking, ownQueryPower,
      ownQueryConfig]
    repeat' split
    all_goals exact fun _ => h
  case book | setSlotClock | setBands | setTimers | readNotices | openWindow | readWindow | maskPool | setPool =>
    simp only [ownBook, ownSetSlotClock, ownSetBands, ownSetTimers, ownReadNotices, ownOpenWindow, ownReadWindow,
      ownMaskPool, ownSetPool]
    repeat' split
    all_goals exact fun _ => h.keepBays rfl rfl
  case setCap =>
    unfold ownSetCap
    split
    · exact fun _ => h.setCapTo ha _
    · exact fun _ => h
  case setLevel =>
    unfold ownSetLevel
    split
    · exact fun _ => h.setLevelTo ha _ _ _
    · exact fun _ => h
  case blockBay =>
    unfold ownBlockBay
    repeat' split
    all_goals intro hs
    any_goals exact h
    exact h.keep
  case unblockBay =>
    unfold ownUnblockBay
    repeat' split
    all_goals intro hs
    any_goals exact h
    · exact h.place hs
    · exact h.keep (State.setBay_loadOf_kept (by exact rfl))
  case clearFault =>
    unfold ownClearFault
    repeat' split
    all_goals intro hs
    any_goals exact h
    exact place (h.keep (State.setBay_loadOf_kept (by exact rfl))) hs
  case forceClose =>
    unfold ownForceClose
    repeat' split
    all_goals intro hs
    any_goals exact h
    · exact h.closePlaced hs
    · exact h.closePlaced hs
  case requestBay =>
    unfold ownRequestBay
    repeat' split
    all_goals intro hs
    any_goals exact h
    exact h.keep
  case adoptBay =>
    unfold ownAdoptBay
    repeat' split
    all_goals intro hs
    any_goals exact h
    exact h.adopt hs
  case assignBay =>
    unfold ownAssignBay
    repeat' split
    all_goals intro hs
    any_goals exact h
    exact h.keep
  case cancelTicket =>
    unfold ownCancelTicket
    repeat' split
    all_goals intro hs
    any_goals exact h
    exact h.cancel hs
  case acceptOffer =>
    unfold ownAcceptOffer
    repeat' split
    all_goals intro hs
    any_goals exact h
    exact h.keep
  case declineOffer =>
    unfold ownDeclineOffer
    repeat' split
    all_goals intro hs
    any_goals exact h
    exact h.giveUpOffer hs
  case unmaskPool =>
    unfold ownUnmaskPool
    repeat' split
    all_goals intro hs
    any_goals exact h
    exact h.keep
  case cancelBooking =>
    unfold ownCancelBooking
    dsimp only
    repeat' split
    all_goals intro hs
    any_goals exact h
    · exact h.keep
    · exact h.keep
  case setBay =>
    unfold ownSetBay
    repeat' split
    all_goals intro hs
    any_goals exact h
    exact h.setUp ha (OpState.ne_run.mp (by assumption)) _ _ _ _
  case start =>
    unfold ownStart
    repeat' split
    all_goals intro hs
    any_goals exact h
    exact startUp
  case reconfigure =>
    unfold ownReconfigure
    repeat' split
    all_goals intro hs
    any_goals exact h
    exact reconfigured
  case restart =>
    unfold ownRestart
    split
    · exact fun _ => restarted
    · exact fun _ => h

end SetpointsTrack

/-! ### The events -/

/-- Where the claims agree, every event keeps the setpoint records in step with the loads. -/
theorem setpointsTrack_keptByEvents (flags fit : Prop) :
    KeptByEvents fun s => AgreeBut none none s ∧ SetpointsTrack flags fit s where
  outside s p q l h := ⟨agreeBut_keptByEvents.outside s p q l h.1, h.2.keepBays rfl rfl⟩
  owner own ho p pl s h := ⟨h.1.owner ho p pl, h.2.owner ho p pl h.1⟩
  bus s bus hl hw h := ⟨agreeBut_keptByEvents.bus s bus hl hw h.1, h.2.keepBays rfl rfl⟩
  enterNext s rest hne h := ⟨agreeBut_keptByEvents.enterNext s rest hne h.1, h.2.keepBays⟩
  powerOn feed := ⟨.powerOn feed, .powerOn feed⟩
  tick s h := ⟨agreeBut_keptByEvents.tick s h.1, h.2.keepBays⟩
  feedCodeIs s code h := by
    refine ⟨agreeBut_keptByEvents.feedCodeIs s code h.1, ?_⟩
    unfold State.feedCodeIs
    split
    · exact h.2
    · exact h.2.congr (fun _ => rfl) rfl rfl rfl
  takeCandidate s h := ⟨agreeBut_keptByEvents.takeCandidate s h.1, h.2.takeCandidate h.1⟩
  expireHold s t b hf hst hb h := by
    have ha := agreeBut_keptByEvents.expireHold s t b hf hst hb h.1
    exact ⟨ha, h.2.expireHold ha.loadsShown⟩
  giveUpOffer s t b hf hst hb h := by
    have ha := agreeBut_keptByEvents.giveUpOffer s t b hf hst hb h.1
    exact ⟨ha, h.2.giveUpOffer ha.loadsShown⟩
  closeLost s b _ h := ⟨h.1.closeLost b, h.2.closeLost (h.1.closeLost b).loadsShown⟩
  expireSlot s h := ⟨h.1.expireSlot, h.2.keep⟩
  takeReply s b r hw h := by
    refine ⟨agreeBut_keptByEvents.takeReply s b r hw h.1, ?_⟩
    have ha : AgreeBut none none (s.linkOnline b) := h.1.frame (hw := by simp [State.linkOnline])
    exact SetpointsTrack.takeReport h.2.keepBays ha (by simpa [State.linkOnline] using hw) r
  takeBusy s b hw h := by
    have ha := agreeBut_keptByEvents.takeBusy s b hw h.1
    have hs := ha.loadsShown
    refine ⟨ha, ?_⟩
    revert hs
    unfold State.takeBusy
    dsimp only
    split
    · exact SetpointsTrack.headFault h.2.keepBays
    · exact fun _ => h.2.keepBays
  takeSilence s b hw h := by
    have ha := agreeBut_keptByEvents.takeSilence s b hw h.1
    have hs := ha.loadsShown
    refine ⟨ha, ?_⟩
    revert hs
    unfold State.takeSilence
    dsimp only
    split
    · exact SetpointsTrack.loseHead h.2.keepBays
    · exact fun _ => h.2.keepBays

/-- A step keeps what is asked of the setpoint records. -/
theorem ClaimsAgree.targets_step {s t : State} (h : ClaimsAgree s) (he : step s = .next t) (flags fit : Prop)
    (hs : SetpointsFollow s ∧ (flags → FlagsFollow s) ∧ (fit → TargetsFit s)) :
    SetpointsFollow t ∧ (flags → FlagsFollow t) ∧ (fit → TargetsFit t) := by
  have ha := (agreeBut_none_iff s).mpr h
  obtain ⟨hb, ht⟩ := (setpointsTrack_keptByEvents flags fit).step ⟨ha, (ha.loadsShown.track_iff flags fit).mpr hs⟩ he
  exact (hb.loadsShown.track_iff flags fit).mp ht

/-- Settles O59: loads change only where the bay's record is written and the targets are recomputed, and a recompute
makes every record suit its load and the targets fit the budget. -/
theorem targetsKeptWithinBudget : Obligations.TargetsKeptWithinBudget := by
  unfold Obligations.TargetsKeptWithinBudget
  intro s t hs hf he
  obtain ⟨hfollow, hflags, -⟩ := hs.targets_step he (FlagsFollow s) False ⟨hf, id, False.elim⟩
  refine ⟨hfollow, hflags, fun hfl hfit => ?_⟩
  obtain ⟨-, -, hfits⟩ := hs.targets_step he True True ⟨hf, fun _ => hfl, fun _ => hfit⟩
  exact hfits trivial

end Sys2Proof.Machine
end

