-- ==== Sys2Proof/Proofs/CommandRows.lean ====
section
/-! SUPPORT. Every row of the command table, split into what it does at a port unit and what it does elsewhere. A
predicate that reads the port units, the notice queues or the bus is kept by every step where each of these parts keeps
it. -/

namespace Sys2Proof.Machine

/-! ### The catalogue (R149) -/

/-- The entries of the command catalogue with the blocks that own them (R149, R151). -/
inductive InCatalogue : CommandInfo → Owner → Prop where
  | queryBay : InCatalogue infoQueryBay ownQueryBay
  | blockBay : InCatalogue infoBlockBay ownBlockBay
  | unblockBay : InCatalogue infoUnblockBay ownUnblockBay
  | clearFault : InCatalogue infoClearFault ownClearFault
  | requestBay : InCatalogue infoRequestBay ownRequestBay
  | adoptBay : InCatalogue infoAdoptBay ownAdoptBay
  | assignBay : InCatalogue infoAssignBay ownAssignBay
  | cancelTicket : InCatalogue infoCancelTicket ownCancelTicket
  | queryTicket : InCatalogue infoQueryTicket ownQueryTicket
  | acceptOffer : InCatalogue infoAcceptOffer ownAcceptOffer
  | declineOffer : InCatalogue infoDeclineOffer ownDeclineOffer
  | maskPool : InCatalogue infoMaskPool ownMaskPool
  | unmaskPool : InCatalogue infoUnmaskPool ownUnmaskPool
  | queryPool : InCatalogue infoQueryPool ownQueryPool
  | book : InCatalogue infoBook ownBook
  | cancelBooking : InCatalogue infoCancelBooking ownCancelBooking
  | queryBookings : InCatalogue infoQueryBookings ownQueryBookings
  | queryBooking : InCatalogue infoQueryBooking ownQueryBooking
  | setSlotClock : InCatalogue infoSetSlotClock ownSetSlotClock
  | setBands : InCatalogue infoSetBands ownSetBands
  | forceClose : InCatalogue infoForceClose ownForceClose
  | setCap : InCatalogue infoSetCap ownSetCap
  | queryPower : InCatalogue infoQueryPower ownQueryPower
  | readNotices : InCatalogue infoReadNotices ownReadNotices
  | openWindow : InCatalogue infoOpenWindow ownOpenWindow
  | readWindow : InCatalogue infoReadWindow ownReadWindow
  | setLevel : InCatalogue infoSetLevel ownSetLevel
  | setBay : InCatalogue infoSetBay ownSetBay
  | setPool : InCatalogue infoSetPool ownSetPool
  | setTimers : InCatalogue infoSetTimers ownSetTimers
  | queryConfig : InCatalogue infoQueryConfig ownQueryConfig
  | start : InCatalogue infoStart ownStart
  | reconfigure : InCatalogue infoReconfigure ownReconfigure
  | restart : InCatalogue infoRestart ownRestart

/-- A COMMAND value names an entry of the catalogue, or is answered as unknown (R148). -/
theorem State.takeCommand_catalogue (s : State) (p : Port) (c : Byte) (pl : List Byte) :
    (∃ i own, InCatalogue i own ∧ s.takeCommand p c pl = s.takeRequest p i own pl) ∨
      s.takeCommand p c pl = s.takeUnknown p c := by
  unfold State.takeCommand
  split
  case h_35 => exact .inr rfl
  all_goals exact .inl ⟨_, _, by constructor, rfl⟩

theorem InCatalogue.isOwner {i : CommandInfo} {own : Owner} (h : InCatalogue i own) : IsOwner own := by
  cases h <;> constructor

/-- The owner of a quiet command writes the port units and the notice queues at most (R136, R162 to R165). -/
theorem InCatalogue.quiet_frame {i : CommandInfo} {own : Owner} (h : InCatalogue i own) (hq : i.quiet = true) (p : Port)
    (pl : List Byte) (s : State) :
    (own p pl s).1 = { s with ports := (own p pl s).1.ports, queues := (own p pl s).1.queues } := by
  cases h
  case queryBay => unfold ownQueryBay; (repeat' split) <;> rfl
  case queryTicket => unfold ownQueryTicket; (repeat' split) <;> rfl
  case queryPool => unfold ownQueryPool; (repeat' split) <;> rfl
  case queryBookings => unfold ownQueryBookings; (repeat' split) <;> rfl
  case queryBooking => unfold ownQueryBooking; (repeat' split) <;> rfl
  case queryPower => unfold ownQueryPower; (repeat' split) <;> rfl
  case queryConfig => unfold ownQueryConfig; (repeat' split) <;> rfl
  case readNotices => unfold ownReadNotices; split <;> rfl
  case openWindow => unfold ownOpenWindow; (repeat' split) <;> rfl
  case readWindow => unfold ownReadWindow; (repeat' split) <;> rfl
  all_goals cases hq

/-! ### The state of a port unit between two commands (R143) -/

/-- A port unit between two commands: not TAKING, with its timer, its response and its frame as its receive state has
them (R143, R144, R147, assumption 15). -/
def PortUnit.Settled (u : PortUnit) : Prop :=
  u.recv ≠ .taking ∧ (u.timer = true ↔ u.recv = .receiving ∨ u.recv = .flushing) ∧
    (u.response.isSome = true ↔ u.recv = .responding) ∧ (u.recv = .receiving → frameBegun u.frame = true) ∧
    (u.recv ≠ .receiving → u.frame = [])

theorem PortUnit.Settled.response_none {u : PortUnit} (h : u.Settled) (hr : u.recv ≠ .responding) :
    u.response = none := by
  obtain ⟨-, -, hresp, -, -⟩ := h
  simpa [hr] using hresp

/-- A frame begun, or a flush, that is given up leaves an IDLE port (R144, R145, R147). -/
theorem PortUnit.Settled.dropFrame {u : PortUnit} (h : u.Settled) (hr : u.recv = .receiving ∨ u.recv = .flushing) :
    ({ u with recv := .idle, frame := [], timer := false } : PortUnit).Settled := by
  have hnone := h.response_none (by rcases hr with hr | hr <;> simp [hr])
  exact ⟨by simp, by simp, by simp [hnone], by simp, by simp⟩

/-- The first bytes of a frame are assembled in RECEIVING (R144). -/
theorem PortUnit.Settled.storeFrame {u : PortUnit} (h : u.Settled) (hr : u.recv = .idle ∨ u.recv = .receiving)
    {frame : List Byte} (hf : frameBegun frame = true) :
    ({ u with recv := .receiving, frame := frame, timer := true } : PortUnit).Settled := by
  have hnone := h.response_none (by rcases hr with hr | hr <;> simp [hr])
  exact ⟨by simp, by simp, by simp [hnone], by simpa using hf, by simp⟩

/-- A discarded byte leaves the receive state, the frame, the timer and the response (R147). -/
theorem PortUnit.Settled.discardBusy {u : PortUnit} (h : u.Settled) :
    ({ u with dropped := true, discarded := true } : PortUnit).Settled := h

/-- A byte in FLUSHING starts the timer again (R147). -/
theorem PortUnit.Settled.discardFlush {u : PortUnit} (h : u.Settled) (hr : u.recv = .flushing) :
    ({ u with timer := true } : PortUnit).Settled := by
  obtain ⟨htake, -, hrest⟩ := h
  exact ⟨htake, by simp [hr], hrest⟩

/-- The response leaves into FLUSHING, where a byte has been discarded (R147). -/
theorem PortUnit.Settled.flush {u : PortUnit} (h : u.Settled) (hr : u.recv = .responding) :
    ({ u with recv := .flushing, timer := true, response := none } : PortUnit).Settled := by
  obtain ⟨-, -, -, -, hframe⟩ := h
  exact ⟨by simp, by simp, by simp, by simp, fun _ => hframe (by simp [hr])⟩

/-- The response leaves into IDLE (R147). -/
theorem PortUnit.Settled.rest {u : PortUnit} (h : u.Settled) (hr : u.recv = .responding) :
    ({ u with recv := .idle, response := none } : PortUnit).Settled := by
  obtain ⟨-, htimer, -, -, hframe⟩ := h
  exact ⟨by simp, by simpa [hr] using htimer, by simp, by simp, fun _ => hframe (by simp [hr])⟩

/-- A byte that completes no frame, and is no bad LENGTH, begins or continues one (R144). -/
theorem frameBegun_append {frame : List Byte} {b : Byte} (h : frameBegun frame = true)
    (hlen : ¬((frame ++ [b]).length = 2 ∧ (b.toNat < 1 ∨ 49 < b.toNat)))
    (hmore : ¬frameComplete (frame ++ [b]) = true) : frameBegun (frame ++ [b]) = true := by
  match frame, h with
  | [sync], h =>
    simp only [List.cons_append, List.nil_append, List.length_cons, List.length_nil, true_and, not_or] at hlen
    simp only [frameBegun, beq_iff_eq] at h
    simp only [frameBegun, List.cons_append, List.nil_append, h, beq_self_eq_true, List.length_nil, Bool.true_and,
      decide_eq_true_eq]
    omega
  | sync :: len :: rest, h =>
    simp only [frameComplete, List.cons_append, List.length_append, List.length_cons, List.length_nil,
      decide_eq_true_eq] at hmore
    simp only [frameBegun, Bool.and_eq_true, decide_eq_true_eq] at h
    simp only [frameBegun, List.cons_append, List.length_append, List.length_cons, List.length_nil, h.1, Bool.true_and,
      decide_eq_true_eq]
    omega

/-! ### The parts of the rows -/

/-- The outcome of a slot exchange is followed by the next frame, and no other reply changes anything (R126). -/
theorem State.inSlot_of {P : State → Prop} (s : State) (outcome : State → BayNo → State)
    (ho : ∀ b, P ((outcome s b).afterSlot b)) (hs : P s) : P (s.inSlot outcome) := by
  unfold State.inSlot
  split
  · exact ho _
  all_goals exact hs

/-- What a predicate needs in order to be kept by every step: no part of a row breaks it. -/
structure KeptByRows (P : State → Prop) : Prop where
  pending : ∀ s queue, P s → P { s with pending := queue }
  setPort : ∀ s p u, ((s.port p).Settled → u.Settled) → P s → P (s.setPort p u)
  refuse : ∀ s p r, P s → P ((s.startTaking p).answer p r)
  handOver : ∀ i own, InCatalogue i own → ∀ s p pl, P s → P ((s.startTaking p).handOver p i own pl)
  powerOn : ∀ feed, P (State.powerOn feed)
  tick : ∀ s, P s → P s.tick
  feedCodeIs : ∀ s code, P s → P (s.feedCodeIs code)
  takeCandidate : ∀ s, P s → P s.takeCandidate.settleBus
  expireHold : ∀ s n b, P s → P (s.expireHold n b).settleBus
  giveUpOffer : ∀ s t b, P s → P (s.giveUpOffer t b true).settleBus
  closeLost : ∀ s b, P s → P (s.closeLost b).settleBus
  expireSlot : ∀ s, P s → P s.expireSlot.settleBus
  sweepPeriodOut : ∀ s, P s → P s.sweepPeriodOut
  keepAliveOut : ∀ s, P s → P s.keepAliveOut
  completePull : ∀ s, P s → P s.completePull
  firstSlot : ∀ s, P s → P s.firstSlot
  afterReport : ∀ s b r, P s → P ((s.takeReply b r).afterSlot b)
  afterBusy : ∀ s b, P s → P ((s.takeBusy b).afterSlot b)
  afterSilence : ∀ s b, P s → P ((s.takeSilence b).afterSlot b)
  closeSent : ∀ s kind, P s → P (s.closeSent kind)

namespace KeptByRows

variable {P : State → Prop} (h : KeptByRows P)
include h

/-! ### At a port -/

theorem takeRequest {i : CommandInfo} {own : Owner} (hc : InCatalogue i own) (s : State) (p : Port) (pl : List Byte)
    (hs : P s) : P (s.takeRequest p i own pl) := by
  unfold State.takeRequest
  dsimp only
  split
  · exact h.refuse s p _ hs
  · exact h.handOver i own hc s p pl hs

theorem takeCommand (s : State) (p : Port) (c : Byte) (pl : List Byte) (hs : P s) : P (s.takeCommand p c pl) := by
  rcases s.takeCommand_catalogue p c pl with ⟨i, own, hc, e⟩ | e <;> rw [e]
  · exact h.takeRequest hc s p pl hs
  · exact h.refuse s p _ hs

theorem takeFrame (s : State) (p : Port) (frame : List Byte) (hs : P s) : P (s.takeFrame p frame) := by
  unfold State.takeFrame
  split
  · exact h.takeCommand s p _ _ hs
  · exact h.refuse s p _ hs

theorem dropFrame {s : State} {p : Port} (hr : (s.port p).recv = .receiving ∨ (s.port p).recv = .flushing) (hs : P s) :
    P (s.dropFrame p) :=
  h.setPort s p _ (fun hu => hu.dropFrame hr) hs

theorem receiveInFrame {s : State} {p : Port} (b : Byte) (hr : (s.port p).recv = .receiving) (hs : P s) :
    P (s.receiveInFrame p b) := by
  unfold State.receiveInFrame
  dsimp only
  split
  · exact h.dropFrame (.inl hr) hs
  split
  · exact h.takeFrame s p _ hs
  · refine h.setPort s p _ (fun hu => hu.storeFrame (.inr hr) ?_) hs
    obtain ⟨-, -, -, hbegun, -⟩ := hu
    exact frameBegun_append (hbegun hr) (by assumption) (by assumption)

theorem receive (s : State) (p : Port) (b : Byte) (hs : P s) : P (s.receive p b) := by
  unfold State.receive
  split
  next hr =>
    split
    · rename_i hb
      exact h.setPort s p _ (fun hu => hu.storeFrame (.inl hr) (by simp [frameBegun, hb])) hs
    · exact hs
  next hr => exact h.receiveInFrame b hr hs
  next => exact h.setPort s p _ (fun hu => hu.discardBusy) hs
  next => exact h.setPort s p _ (fun hu => hu.discardBusy) hs
  next hr => exact h.setPort s p _ (fun hu => hu.discardFlush hr) hs

theorem receiveBroken (s : State) (p : Port) (hs : P s) : P (s.receiveBroken p) := by
  unfold State.receiveBroken
  split
  next => exact hs
  next hr => exact h.dropFrame (.inl hr) hs
  next => exact h.setPort s p _ (fun hu => hu.discardBusy) hs
  next => exact h.setPort s p _ (fun hu => hu.discardBusy) hs
  next hr => exact h.setPort s p _ (fun hu => hu.discardFlush hr) hs

theorem timerOut (s : State) (p : Port) (hs : P s) : P (s.timerOut p) := by
  unfold State.timerOut
  split
  · split
    next hr => exact h.dropFrame (.inl hr) hs
    next hr => exact h.dropFrame (.inr hr) hs
    all_goals exact hs
  · exact hs

theorem responseLeft (s : State) (p : Port) (hs : P s) : P (s.responseLeft p) := by
  unfold State.responseLeft
  split
  next hr =>
    split
    · exact h.setPort s p _ (fun hu => hu.flush hr) hs
    · exact h.setPort s p _ (fun hu => hu.rest hr) hs
  all_goals exact hs

theorem deliver (s : State) (p : Port) (frame : List Byte) {taken : State → State} (ht : P (taken s)) (hs : P s) :
    P (s.deliver p frame taken) := by
  unfold State.deliver
  split
  · exact ht
  · exact List.foldlRecOn frame _ hs fun r hr b _ => h.receive r p b hr

theorem request {i : CommandInfo} {own : Owner} (hc : InCatalogue i own) (s : State) (p : Port) (pl : List Byte)
    (hs : P s) : P (s.request p i own pl) :=
  h.deliver s p _ (h.takeRequest hc s p pl hs) hs

/-! ### Elsewhere -/

theorem afterReportReply (s : State) (b : BayNo) (r : Report) (hs : P s) : P ((s.takeReportReply b r).afterSlot b) := by
  unfold State.takeReportReply
  split
  · exact h.afterReport s b r hs
  · exact h.afterSilence s b hs

theorem afterReplyBytes (s : State) (b : BayNo) (reply : List Byte) (hs : P s) :
    P ((s.takeReplyBytes b reply).afterSlot b) := by
  unfold State.takeReplyBytes
  split
  · exact h.afterReport s b _ hs
  · exact h.afterBusy s b hs
  · exact h.afterSilence s b hs

/-- The meaning of every row keeps the predicate. -/
theorem exec {c : Instr} {s t : State} (hs : P s) (he : exec c s = .next t) : P t := by
  cases c <;> cases he
  case powerReset feed => exact h.pending _ _ (h.powerOn feed)
  case deviceSeconds => exact h.tick s hs
  case receiveByte p b fe =>
    cases fe
    · exact h.receive s p b hs
    · exact h.receiveBroken s p hs
  case interByteTimer p => exact h.timerOut s p hs
  case frameError p c pl hi lo => exact h.deliver s p _ (h.takeFrame s p _ hs) hs
  case unknownCommand p c pl => exact h.deliver s p _ (h.takeCommand s p c pl hs) hs
  case responseDeparture p => exact h.responseLeft s p hs
  case queryBay p pl => exact h.request .queryBay s p pl hs
  case blockBay p pl => exact h.request .blockBay s p pl hs
  case unblockBay p pl => exact h.request .unblockBay s p pl hs
  case clearFault p pl => exact h.request .clearFault s p pl hs
  case requestBay p pl => exact h.request .requestBay s p pl hs
  case adoptBay p pl => exact h.request .adoptBay s p pl hs
  case assignBay p pl => exact h.request .assignBay s p pl hs
  case cancelTicket p pl => exact h.request .cancelTicket s p pl hs
  case queryTicket p pl => exact h.request .queryTicket s p pl hs
  case acceptOffer p pl => exact h.request .acceptOffer s p pl hs
  case declineOffer p pl => exact h.request .declineOffer s p pl hs
  case maskPool p pl => exact h.request .maskPool s p pl hs
  case unmaskPool p pl => exact h.request .unmaskPool s p pl hs
  case queryPool p pl => exact h.request .queryPool s p pl hs
  case book p pl => exact h.request .book s p pl hs
  case cancelBooking p pl => exact h.request .cancelBooking s p pl hs
  case queryBookings p pl => exact h.request .queryBookings s p pl hs
  case queryBooking p pl => exact h.request .queryBooking s p pl hs
  case setSlotClock p pl => exact h.request .setSlotClock s p pl hs
  case setBands p pl => exact h.request .setBands s p pl hs
  case forceClose p pl => exact h.request .forceClose s p pl hs
  case setCap p pl => exact h.request .setCap s p pl hs
  case queryPower p pl => exact h.request .queryPower s p pl hs
  case readNotices p pl => exact h.request .readNotices s p pl hs
  case openWindow p pl => exact h.request .openWindow s p pl hs
  case readWindow p pl => exact h.request .readWindow s p pl hs
  case setLevel p pl => exact h.request .setLevel s p pl hs
  case setBay p pl => exact h.request .setBay s p pl hs
  case setPool p pl => exact h.request .setPool s p pl hs
  case setTimers p pl => exact h.request .setTimers s p pl hs
  case queryConfig p pl => exact h.request .queryConfig s p pl hs
  case start p pl => exact h.request .start s p pl hs
  case reconfigure p pl => exact h.request .reconfigure s p pl hs
  case restart p pl => exact h.request .restart s p pl hs
  case feedCodeChange code => exact h.feedCodeIs s code hs
  case debounceExpiry => split; exacts [h.takeCandidate s hs, hs]
  case holdExpiry n => split; exacts [h.expireHold s n _ hs, hs]
  case lapse n => split; exacts [h.giveUpOffer s _ _ hs, hs]
  case reconnectExpiry b => split; exacts [h.closeLost s b hs, hs]
  case slotExpiry => split; exacts [h.expireSlot s hs, hs]
  case sweepPeriodExpiry => exact h.sweepPeriodOut s hs
  case keepAliveExpiry => exact h.keepAliveOut s hs
  case pull => split; exacts [h.completePull s hs, hs]
  case openSent => split; exacts [h.firstSlot s hs, hs]
  case report r => exact s.inSlot_of _ (fun b => h.afterReportReply s b r hs) hs
  case busy => exact s.inSlot_of _ (fun b => h.afterBusy s b hs) hs
  case silence => exact s.inSlot_of _ (fun b => h.afterSilence s b hs) hs
  case corrupt reply => exact s.inSlot_of _ (fun b => h.afterReplyBytes s b reply hs) hs
  case closeSent =>
    split
    · exact h.closeSent s _ hs
    all_goals exact hs

/-- Every step keeps the predicate. -/
theorem step {s t : State} (hs : P s) (he : step s = .next t) : P t := by
  unfold Machine.step at he
  split at he
  · cases he
    exact hs
  · exact h.exec (h.pending s _ hs) he

end KeptByRows

end Sys2Proof.Machine
end

