-- ==== Sys2Proof/Proofs/BlockWork.lean ====
section
/-! SUPPORT. The work of the bay table, the ticket table, the pool unit, the booking unit and the power unit as the
other blocks see it: it tells the masters notices, and writes neither the head bus nor a port unit (R151). -/

namespace Sys2Proof.Machine

/-- The work of the blocks has led from one state to another: every port has been told notices, and the head bus and the
port units are as they were. -/
structure State.Worked (s t : State) : Prop where
  told : s.tellsOnly t fun _ _ => True
  bus : t.bus = s.bus
  ports : t.ports = s.ports

namespace State.Worked

theorem refl (s : State) : s.Worked s := ⟨.of_queues rfl _, rfl, rfl⟩

variable {s t : State} (h : s.Worked t)
include h

theorem trans {u : State} (h' : t.Worked u) : s.Worked u :=
  ⟨h.told.trans h'.told, h'.bus.trans h.bus, h'.ports.trans h.ports⟩

/-- A change that writes no queue, no port unit and nothing of the bus. -/
theorem frame {u : State} (hq : u.queues = t.queues := by simp) (hb : u.bus = t.bus := by simp)
    (hp : u.ports = t.ports := by simp) : s.Worked u := h.trans ⟨.of_queues hq _, hb, hp⟩

theorem foldl {α : Type} (f : State → α → State) (hf : ∀ {u} a, s.Worked u → s.Worked (f u a)) (l : List α) :
    s.Worked (l.foldl f t) :=
  List.foldlRecOn l f h fun _ hu a _ => hf a hu

/-! ### Notices and bay records (R7, R156, R158) -/

theorem raise (p : Port) (n : Notice) : s.Worked (t.raise p n) :=
  h.trans ⟨.raise trivial t, by simp, by simp⟩

theorem raiseBoth (p : Port) (n : Notice) : s.Worked (t.raiseBoth p n) := by
  unfold State.raiseBoth
  split
  · exact h.raise _ _
  · exact (h.raise _ _).raise _ _

theorem raiseTo (k : Nat) (n : Notice) : s.Worked (t.raiseTo k n) :=
  h.trans ⟨(t.raiseTo_tells k n).mono fun _ _ _ => trivial, by simp, by simp⟩

theorem changeBay (b : BayNo) (f : Bay → Bay) : s.Worked (t.changeBay b f) :=
  h.trans ⟨(t.changeBay_tells b f).mono fun _ _ _ => trivial, by simp, by simp⟩

theorem setBay (b : BayNo) (x : Bay) : s.Worked (t.setBay b x) := h.frame

theorem setSetpoint (b : BayNo) (x : Setpoint) : s.Worked (t.setSetpoint b x) := h.frame

/-! ### Recomputes (R109 to R121) -/

theorem recompute : s.Worked t.recompute :=
  h.trans ⟨t.recompute_tells.mono fun _ _ _ => trivial, by simp, by simp⟩

theorem recomputeInRun : s.Worked t.recomputeInRun := by
  unfold State.recomputeInRun
  split
  · exact h.recompute
  · exact h

theorem raiseFeed (r : State) : s.Worked (r.raiseFeed t) := by
  unfold State.raiseFeed
  split
  · exact h.raise _ _
  · exact h

theorem takeEcho (b : BayNo) (echo : Nat) : s.Worked (t.takeEcho b echo) :=
  h.trans ⟨(t.takeEcho_tells b echo).mono fun _ _ _ => trivial, by simp, by simp⟩

theorem refall : s.Worked t.refall :=
  h.frame (by simp [State.refall]) (by simp [State.refall]) (by simp [State.refall])

theorem setLevelTo (c b f : Nat) : s.Worked (t.setLevelTo c b f) := by
  have h1 : s.Worked { t with power := { t.power with rating := c, base := b, fallback := f } } := h.frame rfl rfl rfl
  unfold State.setLevelTo
  dsimp only
  split
  · exact (h1.refall.raiseFeed t).recomputeInRun
  · exact (h1.raiseFeed t).recomputeInRun

theorem setCapTo (k : Nat) : s.Worked (t.setCapTo k) := by
  have h1 : s.Worked { t with power := { t.power with cap := k } } := h.frame rfl rfl rfl
  exact (h1.raiseFeed t).recomputeInRun

theorem takeCandidate : s.Worked t.takeCandidate := by
  unfold State.takeCandidate
  dsimp only
  split
  · exact h.frame rfl rfl rfl
  · have h1 : s.Worked { t with power := { t.power with debounce := none, tier := tierOf t.power.candidate } } :=
      h.frame rfl rfl rfl
    exact (h1.raiseFeed t).recomputeInRun

/-! ### Tickets and queues -/

theorem modTicket (n : Nat) (f : Ticket → Ticket) : s.Worked (t.modTicket n f) := h.frame

theorem issue (k : Ticket) : s.Worked (t.issue k) := h.frame

theorem leaveQueue (q : PoolNo) (n : Nat) : s.Worked (t.leaveQueue q n) := h.frame

theorem joinQueue (q : PoolNo) (n : Nat) : s.Worked (t.joinQueue q n) := h.frame

theorem toBack (q : PoolNo) (n : Nat) : s.Worked (t.toBack q n) := h.frame

theorem pointTo (q : PoolNo) (b : BayNo) : s.Worked (t.pointTo q b) := h.frame

theorem setMask (q : PoolNo) (on : Bool) : s.Worked (t.setMask q on) := h.frame

theorem unname (b : BayNo) (n : Nat) : s.Worked (t.unname b n) := h.frame

theorem freeTicket (n : Nat) : s.Worked (t.freeTicket n) := h.frame

theorem freeWith (n : Nat) (m : Notice) : s.Worked (t.freeWith n m) := (h.raiseTo n m).freeTicket n

theorem holdAt (n : Nat) (b : BayNo) : s.Worked (t.holdAt n b) := (h.modTicket _ _).changeBay b _

theorem holdQueued (k : Ticket) (b : BayNo) : s.Worked (t.holdQueued k b) := (h.leaveQueue _ _).holdAt _ _

theorem arrive (n : Nat) (b : BayNo) : s.Worked (t.arrive n b) := ((h.modTicket _ _).raiseTo _ _).changeBay b _

theorem matchRun (q : PoolNo) : s.Worked (t.matchRun q) :=
  h.trans ⟨(t.matched_matchRun q).tells.mono fun _ _ _ => trivial, by simp, by simp⟩

theorem matchIn (q : Option PoolNo) : s.Worked (t.matchIn q) := by
  cases q with
  | none => exact h
  | some q => exact h.matchRun q

theorem withdraw (b : BayNo) (w : WithdrawReason) : s.Worked (t.withdraw b w) := by
  unfold State.withdraw
  split
  · exact h
  · exact ((h.modTicket _ _).setBay _ _).raiseTo _ _

theorem requeue (n : Nat) (b : BayNo) : s.Worked (t.requeue n b) := by
  unfold State.requeue
  split
  · exact h
  · exact (((h.modTicket _ _).unname _ _).joinQueue _ _).raise _ _

/-! ### Bays and sessions -/

theorem settleFree (b : BayNo) : s.Worked (t.settleFree b) := by
  unfold State.settleFree
  repeat' split
  all_goals exact h.changeBay b _

theorem matchIfFree (b : BayNo) : s.Worked (t.matchIfFree b) := by
  unfold State.matchIfFree
  split
  · exact h.matchRun _
  · exact h

theorem enterFree (b : BayNo) : s.Worked (t.enterFree b) := (h.settleFree b).matchIfFree b

theorem openSession (b : BayNo) (n : Nat) : s.Worked (t.openSession b n) := by
  have h1 : s.Worked { t.setBay b (t.openedBay b n) with admission := t.admission ++ [b] } := h.frame rfl rfl rfl
  exact ((((h1.modTicket _ _).raiseTo _ _).raise _ _).setSetpoint b _).recompute

theorem plugIn (b : BayNo) : s.Worked (t.plugIn b) := by
  unfold State.plugIn
  split
  · exact h.setBay b _
  · split
    · exact h.openSession b _
    · split
      · exact ((h.issue _).setBay _ _).openSession _ _
      · exact h.raise _ _

theorem plugInIfPlugged (b : BayNo) : s.Worked (t.plugInIfPlugged b) := by
  unfold State.plugInIfPlugged
  split
  · exact h.plugIn b
  · exact h

theorem placeAt (b : BayNo) : s.Worked (t.placeAt b) := by
  unfold State.placeAt
  split
  · exact h.changeBay b _
  · exact h.settleFree b
  · split
    all_goals exact h.changeBay b _

theorem place (b : BayNo) : s.Worked (t.place b) := ((h.placeAt b).plugInIfPlugged b).matchIfFree b

theorem placeClosed (b : BayNo) : s.Worked (t.placeClosed b) := (h.placeAt b).matchIfFree b

theorem placeUnmatched (b : BayNo) : s.Worked (t.placeUnmatched b) := (h.placeAt b).plugInIfPlugged b

theorem suspend (b : BayNo) : s.Worked (t.suspend b) := ((h.changeBay b _).setSetpoint b _).recompute

theorem resume (b : BayNo) : s.Worked (t.resume b) := ((h.changeBay b _).setSetpoint b _).recompute

theorem noticeClosed (b : BayNo) (k : Session) (w : CloseReason) : s.Worked (t.noticeClosed b k w) := by
  unfold State.noticeClosed
  dsimp only
  split
  · exact h.raiseBoth _ _
  · exact h.raise _ _

theorem endSession (b : BayNo) (k : Session) (w : CloseReason) : s.Worked (t.endSession b k w) := by
  have h1 : s.Worked { t.noticeClosed b k w with
      admission := (t.noticeClosed b k w).admission.filter (fun c => c != b) } :=
    (h.noticeClosed b k w).frame rfl rfl rfl
  exact (((h1.setBay _ _).freeTicket _).setBay _ _).setSetpoint b _

theorem closePlaced (b : BayNo) (w : CloseReason) : s.Worked (t.closePlaced b w) := by
  unfold State.closePlaced
  split
  · exact h
  · exact ((h.endSession b _ w).placeClosed b).recompute

theorem closeLost (b : BayNo) : s.Worked (t.closeLost b) := by
  unfold State.closeLost
  split
  · exact h
  · exact ((h.endSession b _ _).changeBay b _).recompute

theorem enterFaulted (b : BayNo) (c : FaultCode) : s.Worked (t.enterFaulted b c) := h.changeBay b _

theorem headFault (b : BayNo) (c : FaultCode) : s.Worked (t.headFault b c) := by
  unfold State.headFault
  split
  case h_1 | h_2 =>
    split
    · exact ((h.endSession b _ _).enterFaulted b c).recompute
    · exact h.enterFaulted b c
  case h_3 =>
    split
    · exact (h.freeWith _ _).enterFaulted b c
    · exact h.enterFaulted b c
  case h_4 =>
    split
    · split
      · exact ((h.requeue _ b).enterFaulted b c).matchIn _
      · exact (h.freeWith _ _).enterFaulted b c
    · exact h.enterFaulted b c
  case h_5 => exact ((h.withdraw b _).enterFaulted b c).matchIn _
  case h_6 => exact (h.setBay b _).enterFaulted b c
  all_goals exact h.enterFaulted b c

theorem loseHead (b : BayNo) : s.Worked (t.loseHead b) := by
  unfold State.loseHead
  split
  case h_1 => exact h.changeBay b _
  case h_2 => exact ((h.withdraw b _).changeBay b _).matchIn _
  case h_3 => exact h.suspend b
  all_goals exact h

/-! ### Bookings -/

theorem dropBooking (b : BayNo) (n : Nat) : s.Worked (t.dropBooking b n) := h.frame rfl rfl rfl

theorem noticeDropped (k : Booking) (w : DropReason) : s.Worked (t.noticeDropped k w) := h.raiseBoth _ _

theorem displace (b : BayNo) (k : Booking) : s.Worked (t.displace b k) := by
  unfold State.displace
  dsimp only
  split
  · exact ((h.issue _).joinQueue _ _).raiseBoth _ _
  · exact ((h.issue _).freeTicket _).noticeDropped _ _

theorem holdBooked (b : BayNo) (k : Booking) : s.Worked (t.holdBooked b k) :=
  ((h.issue _).holdAt _ b).raise _ _

theorem activate (b : BayNo) (k : Booking) : s.Worked (t.activate b k) := by
  have h1 := h.dropBooking b k.number
  unfold State.activate
  dsimp only
  split
  · split
    case h_1 => exact h1.holdBooked b k
    case h_2 => exact (h1.withdraw b _).holdBooked b k
    all_goals exact h1.displace b k
  · exact h1.noticeDropped _ _

theorem activateEarly (b : BayNo) (k : Booking) : s.Worked (t.activateEarly b k) := by
  unfold State.activateEarly
  split
  · exact ((((h.dropBooking _ _).issue _).changeBay b _).raise _ _).plugInIfPlugged b
  · exact h.raise _ _

theorem activateDue (b : BayNo) : s.Worked (t.activateDue b) := by
  unfold State.activateDue
  split
  · exact h.activate b _
  · exact h

theorem dropDue (b : BayNo) : s.Worked (t.dropDue b) := by
  unfold State.dropDue
  split
  · exact (h.dropBooking b _).noticeDropped _ _
  · exact h

theorem matchConfigured (q : PoolNo) : s.Worked (t.matchConfigured q) := by
  unfold State.matchConfigured
  split
  · exact h.matchRun q
  · exact h

theorem expireSlot : s.Worked t.expireSlot := by
  have h1 : s.Worked t.stepSlot := h.frame rfl rfl rfl
  unfold State.expireSlot
  dsimp only
  split
  · exact (h1.foldl _ (fun b hu => hu.activateDue b) _).foldl _ (fun q hu => hu.matchConfigured q) _
  · exact h1.foldl _ (fun b hu => hu.dropDue b) _

/-! ### REPORTs (R19) -/

theorem plugStep (b : BayNo) (plug : Plug) (echo : Nat) : s.Worked (t.plugStep b plug echo) := by
  have h1 : s.Worked (t.setBay b { t.bay b with plug := plug }) := h.setBay b _
  unfold State.plugStep
  dsimp only
  split
  case h_1 => split; exacts [h1.closePlaced b _, h1]
  case h_2 => split; exacts [h1.resume b, h1.closePlaced b _]
  case h_3 => split; exacts [h1.plugIn b, h1]
  all_goals exact h1

theorem depart (b : BayNo) : s.Worked (t.depart b) := by
  unfold State.depart
  split
  · exact (h.freeWith _ _).enterFree b
  · exact h.enterFree b

theorem presenceStep (b : BayNo) (presence : Presence) : s.Worked (t.presenceStep b presence) := by
  have h1 : s.Worked (t.setBay b { t.bay b with presence := presence }) := h.setBay b _
  unfold State.presenceStep
  dsimp only
  split
  case h_1 => exact h1.place b
  case h_2 => split; exacts [(h1.changeBay b _).plugInIfPlugged b, h1]
  case h_3 =>
    split
    · split; exacts [(h1.arrive _ b).plugInIfPlugged b, h1]
    · exact h1
  case h_4 => split; exacts [h1.depart b, h1]
  all_goals exact h1

theorem presentCode (b : BayNo) (code : Nat) : s.Worked (t.presentCode b code) := by
  unfold State.presentCode
  split
  · exact (h.arrive code b).plugInIfPlugged b
  split
  · exact h
  split
  · exact h.activateEarly b _
  split
  all_goals exact h.raise _ _

theorem codeStep (b : BayNo) (code : Nat) : s.Worked (t.codeStep b code) := by
  unfold State.codeStep
  split
  · exact h
  · exact h.presentCode b code

theorem demandStep (b : BayNo) (demand : Nat) : s.Worked (t.demandStep b demand) :=
  h.trans ⟨(t.demandStep_tells b demand).mono fun _ _ _ => trivial, by simp, by simp⟩

theorem energyStep (b : BayNo) (increment echo : Nat) : s.Worked (t.energyStep b increment echo) := h.frame

theorem takeReport (b : BayNo) (r : Report) : s.Worked (t.takeReport b r) := by
  unfold State.takeReport
  split
  · exact h.headFault b _
  · exact (((((h.plugStep b _ _).presenceStep b _).codeStep b _).demandStep b _).energyStep b _ _).takeEcho b _

/-! ### Requests and expiries -/

theorem giveUpOffer (k : Ticket) (b : BayNo) (lapsed : Bool) : s.Worked (t.giveUpOffer k b lapsed) := by
  have h1 := ((h.modTicket k.number (fun u => { u with
    state := .waiting, bay := none, offerDeadline := none, lastDeclined := some b })).toBack k.pool k.number).unname b
      k.number
  unfold State.giveUpOffer
  dsimp only
  split
  · exact ((h1.raise _ _).placeUnmatched b).matchRun _
  · exact (h1.placeUnmatched b).matchRun _

theorem expireHold (n : Nat) (b : BayNo) : s.Worked (t.expireHold n b) := (h.freeWith n _).place b

theorem cancel (k : Ticket) : s.Worked (t.cancel k) := by
  unfold State.cancel
  split
  · exact (h.freeTicket _).place _
  · exact (h.freeTicket _).place _
  · exact h.freeTicket _

theorem grant (k : Ticket) (clamped : Bool) : s.Worked (t.grant k clamped).1 := by
  unfold State.grant
  split
  · exact (h.pointTo _ _).holdAt _ _
  · split
    · exact h.joinQueue _ _
    · exact h.freeTicket _

theorem adopt (p : Port) (b : BayNo) (stay : Nat) (c : Priority) : s.Worked (t.adopt p b stay c).1 :=
  ((h.issue _).setBay _ _).plugInIfPlugged b

theorem enterBlocked (b : BayNo) : s.Worked (t.enterBlocked b) := h.changeBay b _

theorem blockBay (b : BayNo) : s.Worked (t.blockBay b).1 := by
  unfold State.blockBay
  split
  case h_1 | h_2 => exact h.enterBlocked b
  case h_3 => exact ((h.withdraw b _).enterBlocked b).matchIn _
  case h_4 =>
    split
    · split
      · exact ((h.requeue _ b).enterBlocked b).matchIn _
      · exact h
    · exact h.enterBlocked b
  case h_9 => exact h
  all_goals exact h.setBay b _

theorem clearFaultAt (b : BayNo) : s.Worked (t.clearFaultAt b) := (h.setBay b _).place b

theorem dropUnenrolled (b : BayNo) : s.Worked (t.dropUnenrolled b) := by
  unfold State.dropUnenrolled
  split
  · exact h
  · exact h.foldl _ (fun k hv => (hv.dropBooking b _).noticeDropped k _) _

end State.Worked

/-! ### The owners (R151) -/

/-- What the owner of a request on a port can make of the state: the work of the blocks is done; the oldest notices of
the port's queue leave it (R162); the port's window is written (R163, R165); or the part is started, reconfigured or
restarted (R170 to R172). -/
inductive State.OwnerWork (s : State) (p : Port) : State → Prop where
  | worked {t : State} (h : s.Worked t) : s.OwnerWork p t
  | noticesRead (m : Nat) : s.OwnerWork p (s.setQueue p { s.queue p with notices := (s.queue p).notices.drop m })
  | windowSet (w : Window) : s.OwnerWork p (s.setWindow p w)
  | started : s.OwnerWork p s.startUp
  | reconfigured : s.OwnerWork p s.reconfigured
  | restarted : s.OwnerWork p s.restarted

/-- Every owner does one of these (R151). -/
theorem IsOwner.ownerWork {own : Owner} (ho : IsOwner own) (p : Port) (pl : List Byte) (s : State) :
    s.OwnerWork p (own p pl s).1 := by
  have h := State.Worked.refl s
  cases ho
  case readNotices =>
    unfold ownReadNotices
    split
    · exact .noticesRead _
    · exact .worked h
  case openWindow =>
    unfold ownOpenWindow
    repeat' split
    all_goals first | exact .worked h | exact .windowSet _
  case readWindow =>
    unfold ownReadWindow
    repeat' split
    all_goals first | exact .worked h | exact .windowSet _
  case start =>
    unfold ownStart
    repeat' split
    all_goals first | exact .worked h | exact .started
  case reconfigure =>
    unfold ownReconfigure
    repeat' split
    all_goals first | exact .worked h | exact .reconfigured
  case restart =>
    unfold ownRestart
    split
    · exact .restarted
    · exact .worked h
  all_goals refine .worked ?_
  case queryBay => unfold ownQueryBay; (repeat' split) <;> exact h
  case queryTicket => unfold ownQueryTicket; (repeat' split) <;> exact h
  case queryPool => unfold ownQueryPool; (repeat' split) <;> exact h
  case queryBookings => unfold ownQueryBookings; (repeat' split) <;> exact h
  case queryBooking => unfold ownQueryBooking; (repeat' split) <;> exact h
  case queryPower => unfold ownQueryPower; (repeat' split) <;> exact h
  case queryConfig => unfold ownQueryConfig; (repeat' split) <;> exact h
  case setBay => unfold ownSetBay; (repeat' split) <;> exact h.frame
  case setPool => unfold ownSetPool; (repeat' split) <;> exact h.frame
  case setTimers => unfold ownSetTimers; (repeat' split) <;> exact h.frame
  case setSlotClock => unfold ownSetSlotClock; dsimp only; (repeat' split) <;> exact h.frame
  case setBands => unfold ownSetBands; dsimp only; (repeat' split) <;> exact h.frame rfl rfl rfl
  case book => unfold ownBook; dsimp only; (repeat' split) <;> exact h.frame
  case maskPool => unfold ownMaskPool; (repeat' split) <;> exact h.frame
  case setCap =>
    unfold ownSetCap
    split
    · exact h.setCapTo _
    · exact h
  case setLevel =>
    unfold ownSetLevel
    split
    · exact h.setLevelTo _ _ _
    · exact h
  case blockBay =>
    unfold ownBlockBay
    repeat' split
    all_goals first | exact h | exact h.blockBay _
  case unblockBay =>
    unfold ownUnblockBay
    repeat' split
    all_goals first | exact h | exact h.place _ | exact h.setBay _ _
  case clearFault =>
    unfold ownClearFault
    repeat' split
    all_goals first | exact h | exact h.clearFaultAt _
  case requestBay =>
    unfold ownRequestBay
    repeat' split
    all_goals first | exact h | exact (h.issue _).grant _ _
  case adoptBay =>
    unfold ownAdoptBay
    repeat' split
    all_goals first | exact h | exact h.adopt _ _ _ _
  case assignBay =>
    unfold ownAssignBay
    repeat' split
    all_goals first | exact h | exact h.holdQueued _ _
  case cancelTicket =>
    unfold ownCancelTicket
    repeat' split
    all_goals first | exact h | exact h.cancel _
  case acceptOffer =>
    unfold ownAcceptOffer
    repeat' split
    all_goals first | exact h | exact h.holdQueued _ _
  case declineOffer =>
    unfold ownDeclineOffer
    repeat' split
    all_goals first | exact h | exact h.giveUpOffer _ _ _
  case unmaskPool =>
    unfold ownUnmaskPool
    repeat' split
    all_goals first | exact h | exact (h.setMask _ _).matchRun _
  case cancelBooking =>
    unfold ownCancelBooking
    repeat' split
    all_goals first | exact h | exact (h.dropBooking _ _).matchRun _ | exact h.dropBooking _ _
  case forceClose =>
    unfold ownForceClose
    repeat' split
    all_goals first | exact h | exact h.closePlaced _ _

end Sys2Proof.Machine
end

