-- ==== Sys2Proof/Proofs/BusNoticesPorts.lean ====
section
/-! SUPPORT. Four invariants that every step keeps: no sweep is owed while the bus listens, the links follow their
counts, the notice queues fit, and the port units are settled: O55. -/

namespace Sys2Proof.Machine

/-! ### The links follow their counts (R129 to R132) -/

/-- A link record follows its counts, which are in range (R129). -/
def LinkRecord.Follows (x : LinkRecord) : Prop :=
  x.silence ≤ 3 ∧ x.busy ≤ 10 ∧ (x.link = .online ↔ x.silence = 0) ∧ (x.link = .lost ↔ x.silence = 3)

namespace LinkRecord.Follows

theorem cleared : LinkRecord.cleared.Follows := by simp [LinkRecord.Follows, LinkRecord.cleared]

theorem answered (x : LinkRecord) : x.answered.Follows := by simp [LinkRecord.Follows, LinkRecord.answered]

/-- The link after a silent exchange is that of the new count, whatever the count was (R131). -/
theorem silenced (x : LinkRecord) : x.silenced.Follows := by
  rcases (by omega : x.silence = 0 ∨ x.silence = 1 ∨ 2 ≤ x.silence) with h | h | h
  · simp [LinkRecord.silenced_of_zero h, LinkRecord.Follows]
  · simp [LinkRecord.silenced_of_one h, LinkRecord.Follows]
  · simp [LinkRecord.silenced_of_two h, LinkRecord.Follows]

theorem stalled {x : LinkRecord} (h : x.Follows) (n : Nat) : ({ x with busy := min n 10 } : LinkRecord).Follows := by
  obtain ⟨hs, -, hlink⟩ := h
  exact ⟨hs, Nat.min_le_right _ _, hlink⟩

end LinkRecord.Follows

theorem linksAgree_iff (s : State) : LinksAgree s ↔ ∀ b, (s.link b).Follows := Iff.rfl

theorem LinksAgree.of_links {s t : State} (h : LinksAgree s) (e : t.bus.links = s.bus.links := by simp) :
    LinksAgree t := fun b => by rw [State.link_of_links e]; exact h b

/-- The record of one bay is written, and it follows its counts. -/
theorem LinksAgree.of_written {s t : State} {b : BayNo} {x : LinkRecord} (h : LinksAgree s)
    (e : ∀ c, t.link c = if c = b then x else s.link c) (hx : x.Follows) : LinksAgree t := by
  rw [linksAgree_iff]
  intro c
  rw [e]
  split
  · exact hx
  · exact h c

theorem LinksAgree.of_clearBus {s t : State} (e : t.bus.links = s.clearBus.bus.links) : LinksAgree t := by
  rw [linksAgree_iff]
  intro b
  rw [State.link_of_links e, State.clearBus_link]
  exact .cleared

theorem State.takeBusy_link_of_ne (s : State) {b d : BayNo} (h : d ≠ b) : (s.takeBusy b).link d = s.link d := by
  rw [State.takeBusy_eq]
  split
  · rw [State.link_of_links (s := s.setLink b { s.link b with busy := 10 }) (by simp), State.setLink_link_of_ne s h]
  · exact State.setLink_link_of_ne s h _

theorem linksAgree_keptByEvents : KeptByEvents LinksAgree where
  outside _ _ _ _ h := h
  owner own ho p pl s h := by
    generalize ht : (own p pl s).1 = t
    cases ht ▸ ho.ownerWork p pl s with
    | worked hw => exact h.of_links (by rw [hw.bus])
    | noticesRead m => exact h
    | windowSet w => exact h
    | started => exact .of_clearBus (s := s) (by rw [State.startUp_eq])
    | reconfigured => exact .of_clearBus (s := s) (by rw [State.reconfigured_eq])
    | restarted => exact .of_clearBus (s := s) (by rw [State.restarted_eq]; dsimp only; split <;> rfl)
  bus _ _ hl _ h := h.of_links hl
  enterNext s rest _ h := by
    unfold State.enterNext
    split
    · exact h.of_written (State.enterSlot_link s _) (h _)
    · exact h
  powerOn := linksAgree_powerOn
  tick _ h := h.of_links
  feedCodeIs _ _ h := h.of_links
  takeCandidate s h := h.of_links (by rw [(State.Worked.refl s).takeCandidate.bus])
  expireHold _ _ _ _ _ _ h := h.of_links
  giveUpOffer _ _ _ _ _ _ h := h.of_links
  closeLost _ _ _ h := h.of_links
  expireSlot _ h := h.of_links
  takeReply s b r _ h := by
    refine h.of_written (b := b) (fun c => ?_) (.answered (s.link b))
    rw [← State.changeLink_link, ← State.linkOnline_eq]
    exact State.link_of_links (by simp [State.takeReply]) c
  takeBusy s b _ h := by
    refine h.of_written (b := b) (fun c => ?_) (.stalled (h b) ((s.link b).busy + 1))
    split
    · subst c
      exact s.takeBusy_link b
    · exact s.takeBusy_link_of_ne (by assumption)
  takeSilence s b _ h := h.of_written (s.takeSilence_link b) (.silenced _)

/-! ### The notice queues fit (R157 to R159) -/

/-- The place that a BAY_STATE or a FEED has in the S queue: one for each bay, and one for the FEED (R159). -/
def Notice.place : Notice → Option (Option BayNo)
  | .bayState b _ _ _ => some (some b)
  | .feed _ _ => some none
  | _ => none

/-- A notice updates another in place exactly where both have one place (R159). -/
theorem Notice.coalesces_iff (n m : Notice) : n.coalesces m = true ↔ n.place ≠ none ∧ m.place = n.place := by
  cases n with
  | bayState b st l f =>
    rw [Notice.bayState_coalesces]
    cases m <;> simp [Notice.place, Notice.shownBay]
  | feed t a => cases m <;> simp [Notice.place, Notice.coalesces]
  | _ => simp [Notice.place, Notice.coalesces]

/-- What stands in the place of a notice that has been updated has its place. -/
theorem Notice.place_updated (n m : Notice) : (if n.coalesces m then n else m).place = m.place := by
  split
  · rename_i h
    exact ((n.coalesces_iff m).mp h).2.symm
  · rfl

/-- A port's queue fits: it holds at most 24 notices, and at S one for each place at most (R157, R159). -/
def NoticeQueue.Fits (p : Port) (q : NoticeQueue) : Prop :=
  q.notices.length ≤ 24 ∧ (p = .s → q.notices.Pairwise (fun a b => a.coalesces b = false))

namespace NoticeQueue.Fits

variable {p : Port} {q : NoticeQueue}

theorem empty (p : Port) : NoticeQueue.empty.Fits p := ⟨Nat.zero_le _, fun _ => .nil⟩

theorem of_sublist (h : q.Fits p) {r : NoticeQueue} (e : r.notices.Sublist q.notices) : r.Fits p :=
  ⟨e.length_le.trans h.1, fun hp => (h.2 hp).sublist e⟩

theorem take (h : q.Fits p) (n : Notice) : (q.take p n).Fits p := by
  obtain ⟨hlen, hpair⟩ := h
  by_cases hold : p = .s ∧ ∃ m ∈ q.notices, n.coalesces m = true
  · obtain ⟨rfl, m, hm, hc⟩ := hold
    rw [NoticeQueue.Fits, NoticeQueue.take_notices_of_old hm hc, List.length_map, List.pairwise_map]
    refine ⟨hlen, fun _ => (hpair rfl).imp fun {a b} hab => ?_⟩
    rw [← Bool.not_eq_true, Notice.coalesces_iff] at hab ⊢
    rwa [Notice.place_updated, Notice.place_updated]
  · have hnew : p = .s → ∀ m ∈ q.notices, n.coalesces m = false := fun hp m hm => by
      simpa using fun hc => hold ⟨hp, m, hm, hc⟩
    rw [NoticeQueue.Fits, NoticeQueue.take_notices_of_new hnew]
    split
    · refine ⟨by simpa using (by assumption), fun hp => ?_⟩
      refine List.pairwise_append.mpr ⟨hpair hp, List.pairwise_singleton _ _, fun m hm a ha => ?_⟩
      obtain rfl := List.mem_singleton.mp ha
      have hc := hnew hp m hm
      rw [← Bool.not_eq_true, Notice.coalesces_iff] at hc ⊢
      exact fun ⟨hplace, e⟩ => hc ⟨e ▸ hplace, e.symm⟩
    · exact ⟨hlen, hpair⟩

theorem takeAll (h : q.Fits p) (l : List Notice) : (q.takeAll p l).Fits p :=
  List.foldlRecOn (motive := NoticeQueue.Fits p) l _ h fun _ hq n _ => hq.take n

end NoticeQueue.Fits

theorem noticesFit_iff (s : State) : NoticesFit s ↔ ∀ p, (s.queue p).Fits p := by
  constructor
  · rintro ⟨hs, hk, hn, hpair⟩ p
    cases p
    · exact ⟨hs, fun _ => hpair⟩
    · exact ⟨hk, nofun⟩
    · exact ⟨hn, nofun⟩
  · exact fun h => ⟨(h .s).1, (h .k).1, (h .n).1, (h .s).2 rfl⟩

namespace NoticesFit

variable {s t : State} (h : NoticesFit s)
include h

/-- A queue that has lost notices at most fits. -/
theorem of_sublist (e : ∀ p, (t.queue p).notices.Sublist (s.queue p).notices) : NoticesFit t := by
  rw [noticesFit_iff] at h ⊢
  exact fun p => (h p).of_sublist (e p)

theorem of_queues (e : t.queues = s.queues := by simp) : NoticesFit t :=
  of_sublist h fun p => by rw [State.queue_of_queues e]

theorem worked (hw : s.Worked t) : NoticesFit t := by
  rw [noticesFit_iff] at h ⊢
  intro p
  obtain ⟨l, e, -⟩ := hw.told p
  rw [e]
  exact (h p).takeAll l

/-- A response may clear OVERRUN, and takes no notice from a queue (R160). -/
theorem answer (p : Port) (r : Reply) : NoticesFit (s.answer p r) := by
  refine of_sublist h fun q => ?_
  unfold State.answer State.afterResponse
  split
  · rw [State.setQueue_queue]
    split
    · subst q
      exact .refl _
    · exact .refl _
  · exact .refl _

theorem settleBus : NoticesFit s.settleBus := h.of_queues

theorem ownerWork {p : Port} (hw : s.OwnerWork p t) : NoticesFit t := by
  cases hw with
  | worked hw => exact worked h hw
  | noticesRead m =>
    refine of_sublist h fun q => ?_
    rw [State.setQueue_queue]
    split
    · subst q
      exact List.drop_sublist _ _
    · exact .refl _
  | windowSet w => exact of_queues h
  | started =>
    have hdrop : s.Worked (allBays.foldl State.dropUnenrolled s) :=
      (State.Worked.refl s).foldl _ (fun b hu => hu.dropUnenrolled b) _
    exact of_queues (h.worked hdrop) (by rw [State.startUp_eq])
  | reconfigured => exact of_queues h (by rw [State.reconfigured_eq])
  | restarted =>
    rw [noticesFit_iff]
    intro q
    have e : s.restarted.queue q = NoticeQueue.empty := by simp [State.queue, State.restarted_eq]
    exact e ▸ .empty q

end NoticesFit

theorem State.Worked.takeReply (s : State) (b : BayNo) (r : Report) : (s.linkOnline b).Worked (s.takeReply b r) :=
  (State.Worked.refl _).takeReport b r

theorem NoticesFit.changeLink {s : State} (h : NoticesFit s) (b : BayNo) (x : LinkRecord) :
    NoticesFit (s.changeLink b x) := by
  have hset : NoticesFit (s.setLink b x) := h
  unfold State.changeLink
  dsimp only
  split
  · exact hset.worked ((State.Worked.refl _).raise _ _)
  · exact hset

theorem NoticesFit.takeSilence {s : State} (h : NoticesFit s) (b : BayNo) : NoticesFit (s.takeSilence b) := by
  rw [State.takeSilence_eq]
  split
  · exact (h.changeLink b _).worked ((State.Worked.refl _).loseHead b)
  · exact h.changeLink b _

theorem NoticesFit.takeBusy {s : State} (h : NoticesFit s) (b : BayNo) : NoticesFit (s.takeBusy b) := by
  rw [State.takeBusy_eq]
  split
  · have hset : NoticesFit (s.setLink b { s.link b with busy := 10 }) := h
    exact hset.worked ((State.Worked.refl _).headFault b _)
  · exact h

theorem noticesFit_keptByRows : KeptByRows NoticesFit where
  pending _ _ h := h
  setPort _ _ _ _ h := h
  refuse s p r h := (h.of_queues (t := s.startTaking p)).answer p r
  handOver i own hc s p pl h := by
    have ha := ((h.of_queues (t := s.startTaking p)).ownerWork (hc.isOwner.ownerWork p pl _)).answer p
      (own p pl (s.startTaking p)).2
    unfold State.handOver
    dsimp only
    split
    · exact ha
    · exact ha.settleBus
  powerOn := noticesFit_powerOn
  tick _ h := h.of_queues
  feedCodeIs _ _ h := h.of_queues
  takeCandidate s h := (h.worked (State.Worked.refl s).takeCandidate).settleBus
  expireHold s n b h := (h.worked ((State.Worked.refl s).expireHold n b)).settleBus
  giveUpOffer s k b h := (h.worked ((State.Worked.refl s).giveUpOffer k b true)).settleBus
  closeLost s b h := (h.worked ((State.Worked.refl s).closeLost b)).settleBus
  expireSlot s h := (h.worked (State.Worked.refl s).expireSlot).settleBus
  sweepPeriodOut _ h := h.of_queues
  keepAliveOut _ h := h.of_queues
  completePull _ h := h.of_queues
  firstSlot _ h := h.of_queues
  afterReport s b r h := ((h.changeLink b _).worked (.takeReply s b r)).of_queues
  afterBusy _ b h := (h.takeBusy b).of_queues
  afterSilence _ b h := (h.takeSilence b).of_queues
  closeSent _ _ h := h.of_queues

/-! ### The port units are settled (R143, R144, R147) -/

theorem portsSettled_iff (s : State) : PortsSettled s ↔ ∀ p, (s.port p).Settled := Iff.rfl

/-- DROPPED, the discarded byte and the window are free of the receive state (R143). -/
theorem PortUnit.Settled.of_line {u : PortUnit} (h : u.Settled) (dropped : Bool) (window : Option Window) :
    ({ u with dropped := dropped, window := window } : PortUnit).Settled := h

/-- No owner writes more of a port unit than DROPPED and the window (R151, R155, R163). -/
theorem State.OwnerWork.line {s t : State} {p : Port} (h : s.OwnerWork p t) (q : Port) :
    ∃ dropped window, t.port q = { s.port q with dropped := dropped, window := window } := by
  have same : ∀ {u : State}, u.ports = s.ports →
      ∃ dropped window, u.port q = { s.port q with dropped := dropped, window := window } :=
    fun e => ⟨_, _, by rw [State.port, e]; rfl⟩
  cases h with
  | worked hw => exact same hw.ports
  | noticesRead m => exact same rfl
  | windowSet w =>
    rw [State.setWindow, State.setPort_port]
    split
    · subst q
      exact ⟨_, _, rfl⟩
    · exact same rfl
  | started => exact same (by rw [State.startUp_eq])
  | reconfigured => exact same (by rw [State.reconfigured_eq])
  | restarted => exact ⟨false, none, by simp [State.port, State.restarted_eq]⟩

namespace PortsSettled

variable {s : State} (h : PortsSettled s)
include h

theorem of_ports {t : State} (e : t.ports = s.ports := by simp) : PortsSettled t := fun p => by
  rw [State.port, e]
  exact h p

theorem setPort (p : Port) {u : PortUnit} (hu : u.Settled) : PortsSettled (s.setPort p u) := by
  rw [portsSettled_iff]
  intro q
  rw [State.setPort_port]
  split
  · exact hu
  · exact h q

/-- A request that has been taken from its port and worked on is answered there, and every port is settled again (R147,
R152). -/
theorem answer_taken {u : State} {p : Port} (hu : ∀ q, ∃ dropped window,
    u.port q = { (s.startTaking p).port q with dropped := dropped, window := window }) (r : Reply) :
    PortsSettled (u.answer p r) := by
  rw [portsSettled_iff]
  intro q
  have e : (u.answer p r).port q = (u.respond p r).port q := by simp [State.answer, State.port]
  obtain ⟨dropped, window, hq⟩ := hu q
  rw [e, State.respond, State.setPort_port]
  split
  · subst q
    rw [hq, State.startTaking_port]
    simp [PortUnit.Settled]
  · rename_i hne
    have hkept : (s.startTaking p).port q = s.port q := by rw [State.startTaking, State.setPort_port, if_neg hne]
    rw [hq, hkept]
    exact PortUnit.Settled.of_line (h q) dropped window

end PortsSettled

theorem portsSettled_keptByRows : KeptByRows PortsSettled where
  pending _ _ h := h
  setPort s p u hu h := h.setPort p (hu (h p))
  refuse s p r h := h.answer_taken (fun _ => ⟨_, _, rfl⟩) r
  handOver i own hc s p pl h := by
    have ha := h.answer_taken (hc.isOwner.ownerWork p pl (s.startTaking p)).line (own p pl (s.startTaking p)).2
    unfold State.handOver
    dsimp only
    split
    · exact ha
    · exact ha.of_ports
  powerOn := portsSettled_powerOn
  tick _ h := h.of_ports
  feedCodeIs _ _ h := h.of_ports
  takeCandidate s h := h.of_ports (by rw [State.settleBus_ports, (State.Worked.refl s).takeCandidate.ports])
  expireHold _ _ _ h := h.of_ports
  giveUpOffer _ _ _ h := h.of_ports
  closeLost _ _ h := h.of_ports
  expireSlot _ h := h.of_ports
  sweepPeriodOut _ h := h.of_ports
  keepAliveOut _ h := h.of_ports
  completePull _ h := h.of_ports
  firstSlot _ h := h.of_ports
  afterReport _ _ _ h := h.of_ports
  afterBusy _ _ h := h.of_ports
  afterSilence _ _ h := h.of_ports
  closeSent _ _ h := h.of_ports

/-! ### No sweep is owed while the bus listens (R136) -/

/-- A controller that is sweeping does not listen. -/
theorem listenQuiet_of_sweep {s : State} (h : s.bus.sweep ≠ .idle) : ListenQuiet s := fun hl => by
  simp [State.listening, h] at hl

theorem listenQuiet_of_config {s : State} (h : s.opState = .config) : ListenQuiet s := fun hl => by
  simp [State.listening, h] at hl

/-- The test of the bus leaves nothing owed (R136). -/
theorem listenQuiet_settleBus (s : State) : ListenQuiet s.settleBus := by
  by_cases hq : ListenQuiet s
  · rwa [State.settleBus_of_quiet hq]
  · rw [Classical.not_imp, Bool.not_eq_false] at hq
    rw [State.settleBus_of_due hq.1 hq.2]
    exact listenQuiet_of_sweep nofun

/-- What the test of the bus reads: the operating state, the bays, the setpoints and links, the sweep and the mode. -/
theorem ListenQuiet.congr {s t : State} (h : ListenQuiet s) (ho : t.opState = s.opState := by simp)
    (hb : t.bays = s.bays := by simp) (hp : t.power.setpoints = s.power.setpoints := by simp)
    (hl : t.bus.links = s.bus.links := by simp) (hs : t.bus.sweep = s.bus.sweep := by simp)
    (hm : t.bus.mode = s.bus.mode := by simp) : ListenQuiet t := by
  have hlisten : t.listening = s.listening := by simp only [State.listening, ho, hs, hm]
  have hdue : t.listenDue = s.listenDue := by
    unfold State.listenDue State.lamp
    congr 1
    funext b
    rw [State.bay_of_bays hb, State.setpoint_of_setpoints hp, State.link_of_links hl]
  rwa [ListenQuiet, hlisten, hdue]

theorem listenQuiet_enterNext (s : State) (rest : List BayNo) : ListenQuiet (s.enterNext rest) := by
  unfold State.enterNext
  split
  · exact listenQuiet_of_sweep nofun
  · exact listenQuiet_of_sweep nofun

theorem ListenQuiet.answer {s : State} (h : ListenQuiet s) (p : Port) (r : Reply) : ListenQuiet (s.answer p r) := by
  unfold State.answer State.afterResponse
  split
  · exact h
  · exact h

theorem listenQuiet_keptByRows : KeptByRows ListenQuiet where
  pending _ _ h := h
  setPort _ _ _ _ h := h
  refuse s p r h := (h.congr (t := s.startTaking p)).answer p r
  handOver i own hc s p pl h := by
    unfold State.handOver
    dsimp only
    split
    · rename_i hq
      have hown : ListenQuiet (own p pl (s.startTaking p)).1 := by
        rw [hc.quiet_frame hq]
        exact h
      exact hown.answer _ _
    · exact listenQuiet_settleBus _
  powerOn _ := listenQuiet_of_config rfl
  tick s h := by
    unfold State.tick
    dsimp only
    split
    · exact h
    · exact h
  feedCodeIs s code h := by
    unfold State.feedCodeIs
    split
    · exact h
    · exact h
  takeCandidate _ _ := listenQuiet_settleBus _
  expireHold _ _ _ _ := listenQuiet_settleBus _
  giveUpOffer _ _ _ _ := listenQuiet_settleBus _
  closeLost _ _ _ := listenQuiet_settleBus _
  expireSlot _ _ := listenQuiet_settleBus _
  sweepPeriodOut s h := by
    unfold State.sweepPeriodOut
    split
    · dsimp only
      split
      · exact listenQuiet_of_sweep nofun
      · exact h
    · exact h
  keepAliveOut s h := by
    unfold State.keepAliveOut
    split
    · dsimp only
      split
      · exact listenQuiet_of_sweep nofun
      · exact h
    · exact h
  completePull _ _ := listenQuiet_of_sweep nofun
  firstSlot s _ := listenQuiet_enterNext s _
  afterReport _ _ _ _ := listenQuiet_enterNext _ _
  afterBusy _ _ _ := listenQuiet_enterNext _ _
  afterSilence _ _ _ := listenQuiet_enterNext _ _
  closeSent s kind _ := by
    cases kind with
    | long =>
      unfold State.closeSent
      dsimp only
      split
      · exact fun hl => by simp [State.listening] at hl
      · exact listenQuiet_of_sweep nofun
    | short => exact listenQuiet_settleBus _

/-- Settles O55: each invariant by its own induction over what a row can do. -/
theorem busNoticesAndPortsKept : Obligations.BusNoticesAndPortsKept := by
  unfold Obligations.BusNoticesAndPortsKept
  intro s t he
  exact ⟨fun h => listenQuiet_keptByRows.step h he, fun h => linksAgree_keptByEvents.step h he,
    fun h => noticesFit_keptByRows.step h he, fun h => portsSettled_keptByRows.step h he⟩

end Sys2Proof.Machine
end

