-- ==== Sys2Proof/Proofs/Sweeps.lean ====
section
/-! SUPPORT. Sweeps of the head bus: which events open and end one (R134 to R137), and the frame that follows each
exchange (R125, R127): O45, O46. -/

namespace Sys2Proof.Machine

/-! ### What the bus tests read -/

theorem State.isDue_iff (s : State) (timer : Option Seconds) :
    s.isDue timer = true ↔ ∃ d, timer = some d ∧ s.reached d = true := by
  cases timer <;> simp

theorem State.listening_iff (s : State) :
    s.listening = true ↔ s.opState = .run ∧ s.bus.sweep = .idle ∧ s.bus.mode = .listen := by
  simp [State.listening, and_assoc]

/-- A lamp or a setpoint is owed (R136). -/
theorem State.listenDue_iff (s : State) : s.listenDue = true ↔ ∃ b, ((s.bay b).enrolled = true ∧
    lampOf (s.bay b).state (s.setpoint b).throttled ≠ (s.link b).lastLamp) ∨
      (s.setpoint b).issued ≠ (s.setpoint b).acked := by
  simp only [State.listenDue, allBays, List.any_eq_true, List.mem_finRange, true_and, Bool.or_eq_true,
    Bool.and_eq_true, decide_eq_true_eq]
  rfl

/-- What makes a CLOSE long (R134). -/
theorem State.closeLong_iff (s : State) : s.closeLong = true ↔ ∃ b, (s.bay b).state = .active ∨
    (s.bay b).state = .suspended ∨ (s.setpoint b).issued ≠ (s.setpoint b).acked ∨
    ((s.bay b).enrolled = true ∧ (s.link b).link = .silent) := by
  simp [State.closeLong, allBays, or_assoc]

/-! ### Timers, pulls and the ends of a sweep (R134 to R137) -/

section Rows

variable {s : State}

theorem exec_sweepPeriodExpiry_opens (hd : s.isDue s.bus.sweepTimer = true)
    (hi : s.opState = .run ∧ s.bus.sweep = .idle ∧ s.bus.mode = .timed) :
    exec .sweepPeriodExpiry s = .next { s with bus := s.bus.opened s.deviceSeconds .opening } := by
  show Host.Outcome.next s.sweepPeriodOut = _
  simp [State.sweepPeriodOut, hd, hi, State.openSweep, State.openWith, State.deadline, HeadBus.opened]

theorem exec_sweepPeriodExpiry_stops (hd : s.isDue s.bus.sweepTimer = true)
    (hi : ¬(s.opState = .run ∧ s.bus.sweep = .idle ∧ s.bus.mode = .timed)) :
    exec .sweepPeriodExpiry s = .next { s with bus := { s.bus with sweepTimer := none } } := by
  show Host.Outcome.next s.sweepPeriodOut = _
  rw [State.sweepPeriodOut, if_pos hd]
  exact congrArg _ (if_neg hi)

theorem exec_sweepPeriodExpiry_early (hd : ¬s.isDue s.bus.sweepTimer = true) :
    exec .sweepPeriodExpiry s = .next s := by
  show Host.Outcome.next s.sweepPeriodOut = _
  rw [State.sweepPeriodOut, if_neg hd]

theorem exec_keepAliveExpiry_opens (hd : s.isDue s.bus.keepAlive = true) (hl : s.listening = true) :
    exec .keepAliveExpiry s = .next { s with bus := s.bus.opened s.deviceSeconds .opening } := by
  show Host.Outcome.next s.keepAliveOut = _
  rw [State.keepAliveOut, if_pos hd]
  exact congrArg _ (if_pos hl)

theorem exec_keepAliveExpiry_stops (hd : s.isDue s.bus.keepAlive = true) (hl : ¬s.listening = true) :
    exec .keepAliveExpiry s = .next { s with bus := { s.bus with keepAlive := none } } := by
  show Host.Outcome.next s.keepAliveOut = _
  rw [State.keepAliveOut, if_pos hd]
  exact congrArg _ (if_neg hl)

theorem exec_keepAliveExpiry_early (hd : ¬s.isDue s.bus.keepAlive = true) : exec .keepAliveExpiry s = .next s := by
  show Host.Outcome.next s.keepAliveOut = _
  rw [State.keepAliveOut, if_neg hd]

theorem exec_pull_listening (hl : s.listening = true) :
    exec .pull s = .next { s with bus := s.bus.opened s.deviceSeconds .restOfOpening } :=
  congrArg Host.Outcome.next (if_pos hl)

theorem exec_pull_discarded (hl : ¬s.listening = true) : exec .pull s = .next s :=
  congrArg Host.Outcome.next (if_neg hl)

theorem exec_closeSent {kind : CloseKind} (hk : s.bus.sweep = .closing kind) :
    exec .closeSent s = .next (s.closeSent kind) := by
  show Host.Outcome.next _ = _
  rw [hk]

end Rows

/-- A long CLOSE is followed at once by a sweep where the period timer has run out (R135). -/
theorem State.closeSent_long (s : State) : s.closeSent .long =
    if s.bus.sweepTimer = none then
      { s with bus := { s.bus.opened s.deviceSeconds .opening with mode := .timed } }
    else { s with bus := { s.bus with sweep := .idle, mode := .timed } } := by
  unfold State.closeSent
  cases s.bus.sweepTimer <;> rfl

/-- The bus after a short CLOSE, before it tests what is owed (R136). -/
def State.heldOpen (s : State) : State :=
  { s with bus := { s.bus with sweep := .idle, mode := .listen, keepAlive := some (s.deviceSeconds + 10#32) } }

theorem State.closeSent_short (s : State) : s.closeSent .short = s.heldOpen.settleBus := rfl

theorem State.heldOpen_listening (s : State) : s.heldOpen.listening = true ↔ s.opState = .run := by
  simp [State.listening_iff, State.heldOpen]

theorem State.heldOpen_listenDue (s : State) : s.heldOpen.listenDue = s.listenDue := rfl

/-- Settles O45: each row by the tests that it makes of the bus. -/
theorem sweepsOpenAndClose : Obligations.SweepsOpenAndClose := by
  unfold Obligations.SweepsOpenAndClose
  intro s opened idleIn due ranOut
  have hran : ∀ timer, ranOut timer ↔ s.isDue timer = true := fun timer => (s.isDue_iff timer).symm
  have hlisten : idleIn .listen ↔ s.listening = true := s.listening_iff.symm
  have hdue : due ↔ s.listenDue = true := s.listenDue_iff.symm
  rw [hran, hran, hlisten, hdue]
  refine ⟨exec_sweepPeriodExpiry_opens, exec_sweepPeriodExpiry_stops, exec_sweepPeriodExpiry_early,
    exec_keepAliveExpiry_opens, exec_keepAliveExpiry_stops, exec_keepAliveExpiry_early, exec_pull_listening,
    exec_pull_discarded, rfl, rfl, fun hk ht => ?_, fun hk ht => ?_, fun hk hq => ?_, fun hk hr hd => ?_⟩
  · rw [exec_closeSent hk, State.closeSent_long, if_neg ht]
  · rw [exec_closeSent hk, State.closeSent_long, if_pos ht]
    rfl
  · have hquiet : s.heldOpen.listening = true → s.heldOpen.listenDue = false := fun hl => by
      rcases hq with hc | hd
      · simp [s.heldOpen_listening.mp hl] at hc
      · rwa [s.heldOpen_listenDue, ← Bool.not_eq_true]
    rw [exec_closeSent hk, State.closeSent_short, State.settleBus_of_quiet hquiet]
    rfl
  · rw [exec_closeSent hk, State.closeSent_short, State.settleBus_of_due (s.heldOpen_listening.mpr hr) hd]
    rfl

/-! ### The next frame (R125, R127) -/

/-- The first enrolled bay of a run in ascending order is the lowest-numbered one. -/
theorem find?_eq_lowest {p : BayNo → Bool} {l : List BayNo} (hl : l.Pairwise (· < ·)) {d : BayNo} (hd : d ∈ l)
    (hp : p d = true) (hlow : ∀ e ∈ l, p e = true → d ≤ e) : l.find? p = some d := by
  rw [List.find?_eq_some_iff_append]
  obtain ⟨front, back, rfl⟩ := List.append_of_mem hd
  obtain ⟨-, -, hbefore⟩ := List.pairwise_append.mp hl
  refine ⟨hp, front, back, rfl, fun e he => ?_⟩
  have hlt : e < d := hbefore e he d List.mem_cons_self
  rw [Bool.not_eq_true', ← Bool.not_eq_true]
  exact fun hpe => absurd (hlow e (List.mem_append_left _ he) hpe) (not_le.mpr hlt)

/-- The controller's next frame among these bays is the slot command of the lowest-numbered enrolled one, built from the
values as they stand, which becomes the bay's last lamp sent (R125, R127). -/
theorem State.enterNext_slot {s : State} {l : List BayNo} (hl : l.Pairwise (· < ·)) {d : BayNo} (hd : d ∈ l)
    (he : (s.bay d).enrolled = true) (hlow : ∀ e ∈ l, (s.bay e).enrolled = true → d ≤ e) :
    s.enterNext l = s.enterSlot d := by
  rw [State.enterNext, find?_eq_lowest (p := fun b => (s.bay b).enrolled) hl hd he hlow]

/-- Where none of these bays is enrolled, the next frame is the CLOSE (R125, R134). -/
theorem State.enterNext_close {s : State} {l : List BayNo} (h : ∀ d ∈ l, (s.bay d).enrolled = false) :
    s.enterNext l = s.enterClosing := by
  rw [State.enterNext, List.find?_eq_none.mpr fun d hd => by simp [h d hd]]

theorem State.Leads.takeReportReply {s t : State} (h : s.Leads t) (b : BayNo) (r : Report) :
    s.Leads (t.takeReportReply b r) := by
  unfold State.takeReportReply
  split
  · exact h.takeReply b r
  · exact h.takeSilence b

theorem State.Leads.takeReplyBytes {s t : State} (h : s.Leads t) (b : BayNo) (reply : List Byte) :
    s.Leads (t.takeReplyBytes b reply) := by
  unfold State.takeReplyBytes
  split
  · exact h.takeReply b _
  · exact h.takeBusy b
  · exact h.takeSilence b

/-- The row ends an OPEN or a slot exchange, and the next frame is sent among the bays above; the work of the outcome
leaves every bay's enrolment (R2, R126). -/
theorem exec_nextFrame {c : Instr} {s : State} {above : BayNo → Prop}
    (h : (c = .openSent ∧ s.bus.sweep = .opening ∧ above = fun _ => True) ∨
      ∃ b, s.bus.sweep = .slot b ∧ (above = fun d => b < d) ∧
        (c = .busy ∨ c = .silence ∨ (∃ r, c = .report r) ∨ ∃ x, c = .corrupt x)) :
    ∃ (u : State) (l : List BayNo), exec c s = .next (u.enterNext l) ∧ l.Pairwise (· < ·) ∧ (∀ d, d ∈ l ↔ above d) ∧
      ∀ d, (u.bay d).enrolled = (s.bay d).enrolled := by
  have hsorted : allBays.Pairwise (· < ·) := List.pairwise_lt_finRange 48
  rcases h with ⟨rfl, ho, rfl⟩ | ⟨b, hb, rfl, hc⟩
  · exact ⟨s, allBays, congrArg _ (if_pos ho), hsorted, by simp [allBays], fun _ => rfl⟩
  · have hslot : ∀ o : State → BayNo → State, s.inSlot o = (o s b).afterSlot b := fun o => by
      simp [State.inSlot, hb]
    obtain ⟨o, ho, hl⟩ : ∃ o : State → BayNo → State, exec c s = .next (s.inSlot o) ∧ s.Leads (o s b) := by
      have hs := State.Leads.refl s
      rcases hc with rfl | rfl | ⟨r, rfl⟩ | ⟨x, rfl⟩
      · exact ⟨_, rfl, hs.takeBusy b⟩
      · exact ⟨_, rfl, hs.takeSilence b⟩
      · exact ⟨_, rfl, hs.takeReportReply b r⟩
      · exact ⟨_, rfl, hs.takeReplyBytes b x⟩
    exact ⟨o s b, _, ho.trans (congrArg _ (hslot o)), hsorted.filter _, by simp [allBays],
      fun d => (hl.setup d).enrolled⟩

/-- Settles O46: the bays that may be next are searched in ascending order, after the outcome has been taken. -/
theorem nextFrameOfASweep : Obligations.NextFrameOfASweep := by
  unfold Obligations.NextFrameOfASweep
  intro c s above h
  obtain ⟨u, l, he, hsorted, hmem, hen⟩ := exec_nextFrame h
  refine ⟨_, he, fun d => ?_, fun d hd hde hlow => ?_, fun hnone => ?_⟩
  · rw [State.bay_of_bays (s := u) (by simp), hen]
  · rw [State.enterNext_slot hsorted ((hmem d).mpr hd) (by rw [hen, hde]) fun e hel hee =>
      hlow e ((hmem e).mp hel) (by rw [← hen, hee])]
    refine ⟨rfl, ?_, ?_⟩
    · rfl
    · rw [State.enterSlot_link, if_pos rfl]
      rfl
  · rw [State.enterNext_close fun d hd => by rw [hen]; exact hnone d ((hmem d).mp hd)]
    intro long
    have hlong : long ↔ u.closeLong = true := u.closeLong_iff.symm
    rw [hlong]
    refine ⟨fun hl => ?_, fun hl => ?_⟩
    · simp [State.enterClosing, State.closeKind, hl]
    · simp [State.enterClosing, State.closeKind, hl]

end Sys2Proof.Machine
end

