-- ==== Sys2Proof/Proofs/HeadReplies.lean ====
section
/-! SUPPORT. The replies of the heads as the bus controller reads them (R126, R174, R176): O53. -/

namespace Sys2Proof.Machine

/-- The two bytes of a 2-byte field make up the field (R173). -/
theorem extractLsb'_bytes (x : BitVec 16) : x.extractLsb' 8 8 ++ x.extractLsb' 0 8 = x := by
  exact (BitVec.extractLsb'_append_extractLsb'_eq_extractLsb' rfl).trans BitVec.extractLsb'_eq_self

/-- A reply of the length of a REPORT is read by its SYNC, its kind, its check and its fields (R126). -/
theorem parseReply_reportFrame (r : Report) :
    parseReply (reportFrame r) = if reportDefined r then .report r else .corrupt := by
  simp only [reportFrame, checkedFrame, reportBody, crcBytes, List.cons_append, List.nil_append, parseReply,
    extractLsb'_bytes, true_and]

theorem parseReply_busyFrame : parseReply busyFrame = .busy := by
  simp [busyFrame, checkedFrame, crcBytes, parseReply]

/-- A reply is read as other than corrupt only where its last two bytes are the check of the bytes behind its SYNC. -/
theorem parseReply_bad_check {body : List Byte} {h l : Byte} (hc : [h, l] ≠ crcBytes (crc body)) :
    parseReply (busSync :: (body ++ [h, l])) = .corrupt := by
  generalize e : busSync :: (body ++ [h, l]) = reply
  unfold parseReply
  split
  next sync kind presence plug demand e1 e0 status fault echo tag c1 c0 h' l' =>
    have hcut : body ++ [h, l] =
        [kind, presence, plug, demand, e1, e0, status, fault, echo, tag, c1, c0] ++ [h', l'] := (List.cons.inj e).2
    obtain ⟨rfl, hcheck⟩ := List.append_inj' hcut rfl
    rw [hcheck] at hc
    refine if_neg ?_
    rintro ⟨-, rfl, hgood, -⟩
    simp only [reportBody, BitVec.extractLsb'_append_eq_left, BitVec.extractLsb'_append_eq_right] at hgood
    exact hc hgood
  next sync kind h' l' =>
    have hcut : body ++ [h, l] = [kind] ++ [h', l'] := (List.cons.inj e).2
    obtain ⟨rfl, hcheck⟩ := List.append_inj' hcut rfl
    rw [hcheck] at hc
    refine if_neg ?_
    rintro ⟨-, rfl, hgood⟩
    exact hc hgood
  next => rfl

/-- Settles O53: a REPORT by its fields, BUSY as it is sent, and every reply by its check. -/
theorem repliesAreReadAsSent : Obligations.RepliesAreReadAsSent := by
  unfold Obligations.RepliesAreReadAsSent
  refine ⟨fun r hr => ?_, fun r hr => ?_, parseReply_busyFrame, fun body h l hc => parseReply_bad_check hc⟩
  · rw [parseReply_reportFrame, if_pos hr]
  · rw [parseReply_reportFrame, if_neg (by simp [hr])]

end Sys2Proof.Machine
end
